-- ==== Sys2Proof/Word.lean ====
section
/-! DEFINITION. The word types of the Ademeurn DA-72 and their plainest arithmetic (R29, R51). -/

namespace Sys2Proof

/-- A byte of memory or of the scratchpad. -/
abbrev Byte := BitVec 8

/-- A scalar register, a system register, an address or an instruction word (R29, R47). -/
abbrev Word := BitVec 64

/-- One 32-bit lane of a vector register or queue entry (R29). -/
abbrev Lane := BitVec 32

/-- The 512-byte image of a vector register or queue entry: lane k is bits 32k+31 to 32k (R29). -/
abbrev VecImg := BitVec 4096

/-- A predicate register: bit k governs lane k (R29). -/
abbrev PredImg := BitVec 128

/-- A 64-byte line or scratchpad word. -/
abbrev Line := BitVec 512

/-- A scalar register number (R51). -/
abbrev Reg := BitVec 6

/-- A predicate register number (R51). -/
abbrev PReg := BitVec 4

/-- A format code as the instruction word carries it; codes 22 to 31 are reserved (R87). -/
abbrev FmtCode := BitVec 5

/-- A queue number, q0 to q7 (R30). -/
abbrev QNum := BitVec 3

end Sys2Proof
end

