-- ==== Sys2Proof/Syntax.lean ====
section
/-! DEFINITION. The instructions and steps of the Ademeurn DA-72: one constructor per row of the opcode table.
Rows 0 to 188 are 64-bit words (R57); rows 189 to 272 are whole steps of the package (spec/95), whose arguments are
the input the step carries. -/

namespace Sys2Proof

/-! ### Operand kinds (R51) -/

/-- A vector source field (R30): a register v0 to v47, a pop or a peek of a queue. -/
inductive VSrc where
  | reg (n : BitVec 6)
  | pop (q : QNum)
  | peek (q : QNum)
deriving DecidableEq, Repr

/-- A vector destination field (R30): a register v0 to v47 or a push onto a queue. -/
inductive VDst where
  | reg (n : BitVec 6)
  | push (q : QNum)
deriving DecidableEq, Repr

/-- The rounding modes of R96. -/
inductive Rnd where
  | rne | rtz | rdn | rup
deriving DecidableEq, Repr

/-- The scopes of R286. -/
inductive Scope where
  | core | package | fabric | system
deriving DecidableEq, Repr

/-- The values of ORD (R51). -/
inductive MemOrder where
  | relaxed | acquire | release | acqRel
deriving DecidableEq, Repr

/-- The conditions of BRC, in the order of CC (R53). -/
inductive Cond where
  | eq | ne | lt | ge | ltu | geu | bits | bitc
deriving DecidableEq, Repr

/-- Field B of BRC: a register when L = 0, a small immediate when L = 1 (R53). -/
inductive BranchOperand where
  | reg (b : Reg)
  | imm (n : BitVec 6)
deriving DecidableEq, Repr

/-- The members of LD, FN 0 to 6 (R57). -/
inductive LoadKind where
  | b | bu | h | hu | w | wu | d
deriving DecidableEq, Repr

/-- The members of ST, FN 0 to 3 (R57). -/
inductive StoreSize where
  | b | h | w | d
deriving DecidableEq, Repr

/-- The sizes that AMO and CAS accept (R304). -/
inductive AmoSize where
  | word | dword
deriving DecidableEq, Repr

/-- The kinds of FENCE (R306). -/
inductive FenceKind where
  | acq | rel | ar | sc
deriving DecidableEq, Repr

/-- The four engine queues of a core (R258), in the numbering of R259. -/
inductive EngineQ where
  | l | c0 | c1 | k
deriving DecidableEq, Repr

/-- The two copy engines (R55). -/
inductive CopyEng where
  | ce0 | ce1
deriving DecidableEq, Repr

/-- A group identifier: Q[5:0], or a register (spec/13, Word of the GRP family). -/
inductive GroupOperand where
  | imm (n : BitVec 6)
  | reg (a : Reg)
deriving DecidableEq, Repr

/-- The kinds of TLBINV (R407). -/
inductive TlbKind where
  | page | ctx | all
deriving DecidableEq, Repr

/-- The windows that STFL and STINV name (spec/15, Word of the STASH family). -/
inductive WindowSel where
  | one (n : BitVec 3)
  | all
deriving DecidableEq, Repr

/-- The kinds of PFH (R313). -/
inductive PrefetchKind where
  | llc | l2 | lz4
deriving DecidableEq, Repr

/-- The count of VSHL, VSHR, VSAR and VFSH: a vector field when Q[5] = 0, Q[4:0] when Q[5] = 1 (R141). -/
inductive ShiftCount where
  | lanes (c : VSrc)
  | imm (n : BitVec 5)
deriving DecidableEq, Repr

/-- The count of VROTL (R145). -/
inductive RotateCount where
  | reg (b : Reg)
  | imm (n : BitVec 7)
deriving DecidableEq, Repr

/-- The conditions of VFCMP, Q[2:0] from 0 to 7 (R144). -/
inductive FCond where
  | eq | ne | lt | le | gt | ge | un | or
deriving DecidableEq, Repr

/-- The conditions of VICMP, Q[2:0] from 0 to 7 (R144). -/
inductive ICond where
  | eq | ne | lt | le | gt | ge | ltu | geu
deriving DecidableEq, Repr

/-- The fields that VSTLD reads, Q[1:0] from 0 to 3 (R154). -/
inductive StatField where
  | mean | rdev | lse | count
deriving DecidableEq, Repr

/-- The stride form of VLDS and VSTS: DISP and a stride register, or the stride in DISP when Q[0] = 1 (R155). -/
inductive StrideForm where
  | reg (disp : BitVec 24) (r : Reg)
  | imm (s : BitVec 24)
deriving DecidableEq, Repr

/-- The release option of ELAPP (R348). -/
inductive ElRelease where
  | plain
  | rel (sc : Scope)
deriving DecidableEq, Repr

/-- The system registers of R44. -/
inductive SysReg where
  | status | rrb | livedepth | tags | tagdrop | outst | tick | coreid | strand | frame | elbase | elcap
  | lstat | normin | normout
  | qfmt (q : QNum)
  | pace (q : EngineQ)
  | trapcause | trappc
  | trapinfo (n : BitVec 2)
  | trapvec | savearea | ctxid | ptbase | keyid | touched | part | pkgpos | dieen
  | coreen (d : BitVec 3)
  | dbgctl
deriving DecidableEq, Repr

/-! ### Inputs of the package's steps -/

/-- Where a launch write comes from: the host, with its context window, offset and bytes (R424), or a LAUNCH whose
packet stands at index k of the core's outstanding operations (R267). -/
inductive LaunchWrite where
  | host (ctx offset : Nat) (data : List Byte)
  | core (core k : Nat)
deriving DecidableEq, Repr

/-- The host actions of R297. -/
inductive HostAction where
  | plainStore | plainLoad | storeRelease | loadAcquire | storeBarrier | loadBarrier | fullFence
deriving DecidableEq, Repr

/-- One host access through BAR4 (R297, R423): function, action, physical address, size in bytes (a power of two up to a
line), store data, whether the host keeps the stored line modified in its own cache (R298), and whether the data that it stores
is poisoned (R395, R422). -/
structure HostAccess where
  fn : Nat
  action : HostAction
  pa : Nat
  size : Nat
  data : Line
  keepModified : Bool
  poisoned : Bool
deriving DecidableEq, Repr

/-- Where an uncorrectable error strikes (R395): a granule of a core's state or a line of memory. -/
inductive ErrorSite where
  | scalar (core : Nat) (r : Reg)
  | vector (core slot granule : Nat)
  | predicate (core slot granule : Nat)
  | queue (core q entry granule : Nat)
  | buffer (core granule : Nat)
  | scratch (core granule : Nat)
  | mapEntry (core entry granule : Nat)
  | statEntry (core entry granule : Nat)
  | line (addr : Nat) (unit : BitVec 8)
  | counter (addr : Nat)
deriving DecidableEq, Repr

/-- How the verification of a firmware image ends (R437, R443). -/
inductive FirmwareResult where
  | accepted | signatureRefused | malformed
deriving DecidableEq, Repr

/-! ### The instructions and steps -/

inductive Instr where
  -- control flow (spec/06, spec/13, spec/17)
  | nop
  | pblk (pred : PReg) (n : BitVec 3) (pat : BitVec 8)
  | br (off : BitVec 32)
  | brc (cc : Cond) (a : Reg) (b : BranchOperand) (off : BitVec 32)
  | call (a : Reg) (off : BitVec 32)
  | ret
  | jr (a : Reg) (off : BitVec 32)
  | loop (a : Reg) (off : BitVec 32)
  | callc (a : Reg) (off : BitVec 32)
  | phase (a : Reg) (imm : BitVec 32)
  -- scheduling (spec/13)
  | spawn (a : Reg)
  | done
  | launch (a : Reg)
  | gjoin (g : GroupOperand)
  | gleave (g : GroupOperand)
  | gbar (g : GroupOperand)
  | gsize (d : Reg) (g : GroupOperand)
  | grank (d : Reg) (g : GroupOperand)
  | rvz
  | qdrop (q : EngineQ) (a : Reg)
  | tickRead (d : Reg)
  -- system (spec/23)
  | sysc (imm : BitVec 16)
  | tret (skip : Bool)
  | ctxsv (a : Reg)
  | ctxld (a : Reg)
  | tlbinv (kind : TlbKind) (d a : Reg) (ctx : BitVec 6)
  | bkpt (imm : BitVec 16)
  | wfe (d a : Reg) (imm : BitVec 32)
  | keyset (a : Reg) (key : BitVec 6)
  -- scalar ALU (spec/06)
  | add (d a b : Reg) | sub (d a b : Reg) | and (d a b : Reg) | or (d a b : Reg) | xor (d a b : Reg)
  | andn (d a b : Reg) | shl (d a b : Reg) | shr (d a b : Reg) | sar (d a b : Reg) | rotl (d a b : Reg)
  | slt (d a b : Reg) | sltu (d a b : Reg) | min (d a b : Reg) | max (d a b : Reg) | minu (d a b : Reg)
  | maxu (d a b : Reg)
  | sel (d a b c : Reg)
  | clz (d a : Reg) | ctz (d a : Reg) | popc (d a : Reg) | bswap (d a : Reg)
  | addi (d a : Reg) (imm : BitVec 32) | andi (d a : Reg) (imm : BitVec 32) | ori (d a : Reg) (imm : BitVec 32)
  | xori (d a : Reg) (imm : BitVec 32)
  | shli (d a : Reg) (n : BitVec 6) | shri (d a : Reg) (n : BitVec 6) | sari (d a : Reg) (n : BitVec 6)
  | slti (d a : Reg) (imm : BitVec 32) | sltiu (d a : Reg) (imm : BitVec 32)
  | mul (d a b : Reg) | mulh (d a b : Reg) | mulhu (d a b : Reg) | div (d a b : Reg) | divu (d a b : Reg)
  | rem (d a b : Reg) | remu (d a b : Reg)
  | limm (d : Reg) (imm : BitVec 32)
  | limmh (d a : Reg) (imm : BitVec 32)
  | bank (d a : Reg) | rowof (d a : Reg) | lword (d a : Reg)
  | movsr (d : Reg) (r : SysReg)
  | movrs (r : SysReg) (a : Reg)
  -- memory (spec/06, spec/15)
  | ld (k : LoadKind) (d a : Reg) (disp : BitVec 24)
  | st (k : StoreSize) (b a : Reg) (disp : BitVec 24)
  | ldacq (k : LoadKind) (sc : Scope) (d a : Reg) (disp : BitVec 24)
  | strel (k : StoreSize) (sc : Scope) (b a : Reg) (disp : BitVec 24)
  | amoAdd (w : AmoSize) (o : MemOrder) (sc : Scope) (d a b : Reg) (disp : BitVec 24)
  | amoAnd (w : AmoSize) (o : MemOrder) (sc : Scope) (d a b : Reg) (disp : BitVec 24)
  | amoOr (w : AmoSize) (o : MemOrder) (sc : Scope) (d a b : Reg) (disp : BitVec 24)
  | amoXor (w : AmoSize) (o : MemOrder) (sc : Scope) (d a b : Reg) (disp : BitVec 24)
  | amoMin (w : AmoSize) (o : MemOrder) (sc : Scope) (d a b : Reg) (disp : BitVec 24)
  | amoMax (w : AmoSize) (o : MemOrder) (sc : Scope) (d a b : Reg) (disp : BitVec 24)
  | amoMinu (w : AmoSize) (o : MemOrder) (sc : Scope) (d a b : Reg) (disp : BitVec 24)
  | amoMaxu (w : AmoSize) (o : MemOrder) (sc : Scope) (d a b : Reg) (disp : BitVec 24)
  | amoSwap (w : AmoSize) (o : MemOrder) (sc : Scope) (d a b : Reg) (disp : BitVec 24)
  | cas (w : AmoSize) (o : MemOrder) (sc : Scope) (d a b : Reg) (disp : BitVec 24)
  | fence (kind : FenceKind) (sc : Scope)
  | waitc (g s c a k : BitVec 4)
  | stwin (n : BitVec 3) (a b c : Reg)
  | stfl (w : WindowSel)
  | stinv (w : WindowSel)
  | pfh (kind : PrefetchKind) (a b : Reg) (disp : BitVec 24)
  | cpset (e : CopyEng) (level : BitVec 3) (a b c : Reg)
  | cpgo (e : CopyEng) (demand : Bool) (bound : BitVec 20) (d a b c : Reg)
  | tagwany (d a : Reg)
  | tagwall (a : Reg)
  | tagffr (d a : Reg)
  | tagclr (a : Reg)
  | barinit (b a : Reg) (disp : BitVec 24)
  | barexp (b a : Reg) (disp : BitVec 24)
  | bararv (sc : Scope) (b a : Reg) (disp : BitVec 24)
  | barwt (sc : Scope) (d a b : Reg) (disp : BitVec 24)
  | bargen (d a : Reg) (disp : BitVec 24)
  -- vector (spec/07)
  | vadd (r : Rnd) (sat : Bool) (d : VDst) (a b : VSrc)
  | vsub (r : Rnd) (sat : Bool) (d : VDst) (a b : VSrc)
  | vmul (r : Rnd) (sat : Bool) (d : VDst) (a b : VSrc)
  | vfma (r : Rnd) (sat : Bool) (d : VDst) (a b c : VSrc)
  | vfms (r : Rnd) (sat : Bool) (d : VDst) (a b c : VSrc)
  | vmin (d : VDst) (a b : VSrc)
  | vmax (d : VDst) (a b : VSrc)
  | vabs (d : VDst) (a : VSrc)
  | vneg (d : VDst) (a : VSrc)
  | vcps (d : VDst) (a b : VSrc)
  | vmov (d : VDst) (a : VSrc)
  | vsel (d : VDst) (a b : VSrc) (c : PReg)
  | vrcp (r : Rnd) (sat : Bool) (d : VDst) (a : VSrc)
  | vrsq (r : Rnd) (sat : Bool) (d : VDst) (a : VSrc)
  | vsqrt (r : Rnd) (sat : Bool) (d : VDst) (a : VSrc)
  | vdiv (r : Rnd) (sat : Bool) (d : VDst) (a b : VSrc)
  | vexp2 (r : Rnd) (sat : Bool) (d : VDst) (a : VSrc)
  | vlog2 (r : Rnd) (sat : Bool) (d : VDst) (a : VSrc)
  | viadd (sat : Bool) (d : VDst) (a b : VSrc)
  | visub (sat : Bool) (d : VDst) (a b : VSrc)
  | vimul (sat : Bool) (d : VDst) (a b : VSrc)
  | vimin (d : VDst) (a b : VSrc)
  | vimax (d : VDst) (a b : VSrc)
  | vshl (d : VDst) (a : VSrc) (n : ShiftCount)
  | vshr (d : VDst) (a : VSrc) (n : ShiftCount)
  | vsar (d : VDst) (a : VSrc) (n : ShiftCount)
  | vfsh (d : VDst) (a b : VSrc) (n : ShiftCount)
  | vlut3 (d : VDst) (a b c : VSrc) (t : BitVec 8)
  | vpopc (d : VDst) (a : VSrc)
  | vclz (d : VDst) (a : VSrc)
  | vfcmp (cc : FCond) (d : PReg) (a b : VSrc)
  | vicmp (cc : ICond) (d : PReg) (a b : VSrc)
  | plut3 (d a b c : PReg) (t : BitVec 8)
  | pcnt (d : Reg) (a : PReg)
  | pfirst (d : Reg) (a : PReg)
  | vbcast (d : VDst) (a b : Reg)
  | vextr (d : Reg) (a : VSrc) (b : Reg)
  | vins (d : VDst) (a : VSrc) (b c : Reg)
  | vperm (d : VDst) (a b c : VSrc)
  | vrotl (d : VDst) (a : VSrc) (n : RotateCount)
  | vzip (d : VDst) (a b : VSrc) (h : Bool)
  | vrsum (r : Rnd) (d : VDst) (a : VSrc)
  | vrmax (d : VDst) (a : VSrc)
  | vrmin (d : VDst) (a : VSrc)
  | vrisum (sat : Bool) (d : VDst) (a : VSrc)
  | vcvt (r : Rnd) (sat : Bool) (dst src : FmtCode) (d : VDst) (a : VSrc)
  | vqnt (r : Rnd) (dst : FmtCode) (d : VDst) (a b : VSrc)
  | vscacc (r : Rnd) (sat : Bool) (src : FmtCode) (d : VDst) (a b c : VSrc)
  | vldexp (r : Rnd) (sat : Bool) (d : VDst) (a b : VSrc)
  | vstatClr (a : Reg)
  | vstatAcc (a : Reg) (b : VSrc)
  | vstatFin (a c : Reg)
  | vstld (f : StatField) (d : VDst) (a : Reg)
  | vld (d : VDst) (a : Reg) (disp : BitVec 24)
  | vst (b : VSrc) (a : Reg) (disp : BitVec 24)
  | vlds (d : VDst) (a : Reg) (s : StrideForm)
  | vsts (b : VSrc) (a : Reg) (s : StrideForm)
  | vpush (a : VSrc) (b : PReg)
  | vpop (d : VDst)
  | vstrc (a : Reg)
  -- lattice commands (spec/10)
  | amap (demand : Bool) (bound : BitVec 20) (a b : Reg)
  | aang (demand : Bool) (bound : BitVec 20) (a b : Reg)
  | acfg (bound : BitVec 20) (a b : Reg)
  | arun (bound : BitVec 20) (a : Reg)
  | arunv (demand : Bool) (bound : BitVec 20) (fmt : FmtCode) (a b c : Reg)
  | agrad (bound : BitVec 20) (a : Reg)
  | avec (demand : Bool) (bound : BitVec 20) (a b c : Reg)
  | aprod (demand : Bool) (bound : BitVec 20) (toQ1 : Bool) (d a b c : Reg)
  | anorm (demand : Bool) (bound : BitVec 20) (a : Reg)
  | asave (demand : Bool) (bound : BitVec 20) (a : Reg)
  | ares (demand : Bool) (bound : BitVec 20) (a : Reg)
  | astat (demand : Bool) (bound : BitVec 20) (clr : Bool) (a : Reg)
  -- sketch commands (spec/11)
  | skinit (bound : BitVec 20) (d : Reg)
  | skupd (demand : Bool) (bound : BitVec 20) (d a b : Reg)
  | skqry (demand : Bool) (bound : BitVec 20) (d a b c : Reg)
  | skadd (bound : BitVec 20) (d a b c : Reg)
  | sksq (demand : Bool) (bound : BitVec 20) (d a b c : Reg)
  | skopt (demand : Bool) (bound : BitVec 20) (a b c : Reg)
  -- effect lists (spec/17)
  | elcat (d a b : Reg)
  | elflt (a b c : Reg)
  | elrbs (a b c : Reg)
  | elapp (r : ElRelease) (a : Reg)
  | eldrop (a : Reg)
  | ellen (d a : Reg)
  | elget (d a b : Reg)
  -- steps of a core
  | registerWriteLanding (core : Nat)
  | waitEnd (core : Nat)
  | trapEntry (core : Nat)
  | globalLoadComplete (core k : Nat)
  | globalStoreAccept (core k : Nat)
  | stashLineFill (core win line : Nat)
  | stashRemoteAccess (core k : Nat)
  | stashLineRelease (core win line : Nat)
  -- scheduling steps
  | spawnPush (core k : Nat)
  | launchWindowWrite (w : LaunchWrite)
  | gangPacketArrival (ctx : Nat) (packet : Line)
  | gangMemberStart (core : Nat)
  | coreFreeSchedule (core : Nat)
  | strandRetire (core : Nat)
  | groupOperationAtHome (core k : Nat)
  | barrierOperationAtHome (core k : Nat)
  -- engine steps
  | latticeCommandBegin (core : Nat)
  | latticeQueueTransfer (core : Nat)
  | latticeStop (core : Nat)
  | copyCommandBegin (core : Nat) (e : CopyEng)
  | streamCopyStart (core : Nat) (e : CopyEng)
  | copyComplete (core : Nat) (e : CopyEng)
  | copyStop (core : Nat) (e : CopyEng)
  | sketchCommandBegin (core : Nat)
  | sketchStop (core : Nat)
  | mortarUpdate (core : Nat)
  | splitkPartialArrival (k : Nat)
  | splitkMergeTimeout (k : Nat)
  | engineCommandRetire (core : Nat) (q : EngineQ)
  | boundOverrun (core : Nat) (q : EngineQ)
  | elUnitWork (core : Nat)
  | elStop (core : Nat)
  | listHandleWrite (core : Nat)
  | tlbinvComplete (core k : Nat)
  | keysetSwitchComplete (core k : Nat)
  | demandFill (core : Nat) (q : EngineQ)
  -- host coherence
  | hostBar4Access (a : HostAccess)
  | backInvalidateResponse (line : Nat)
  | hostWriteback (line : Nat)
  -- recovery
  | preemption (ctx : Nat)
  | dieLoss (die : Nat)
  | uncorrectableError (site : ErrorSite)
  -- management window
  | mgclaim (master : Nat) (nonce : BitVec 32)
  | mghand (master : Nat) (target : BitVec 8) (nonce : BitVec 32)
  | ownershipLapse
  | contextDescriptorWrite (master offset : Nat) (data : List Byte)
  | partitionRecordWrite (master offset : Nat) (data : List Byte)
  | poolDecoderWrite (master offset : Nat) (data : List Byte)
  | domainWrite (master : Nat) (value : Word)
  | bar4sizeWrite (master : Nat) (value : Word)
  | hostordWrite (master : Nat) (value : Word)
  | managementWrite (master offset : Nat) (data : List Byte)
  | preemptAndHold (master ctx : Nat)
  | endHold (master ctx : Nat)
  | checkpoint (master ctx : Nat)
  | restoreCheckpoint (master ctx : Nat)
  | debugReadMemory (master ctx : Nat)
  | debugWriteMemory (master ctx : Nat)
  | debugReadRegister (master ctx : Nat)
  | haltDie (master die : Nat)
  | resumeDie (master die : Nat)
  | attestationRequest (master : Nat) (request : Word)
  | attestationReportReady
  -- power and firmware
  | powerCapWrite (master : Nat) (watts : BitVec 32)
  | capResolve
  | clockThrottleWindow
  | activityWindow
  | thermalLimit (die : Nat)
  | thermalShutdown
  | fwaddrWrite (master : Nat) (addr : Word)
  | firmwareVerifyComplete (r : FirmwareResult)
  | packageReset (flashGood : Bool)
  -- links
  | hostPortTraining (pcie6 : Bool) (lanes : Nat) (flits256 : Bool)
  | poolPortTraining (port : Nat) (cxl3 : Bool) (lanes : Nat)
  | poolPortDown (port : Nat)
  | poolPortNarrowed (port lanes : Nat)
  | slathenFlitReceive (port : Nat) (seq : BitVec 12) (good : Bool)
  | slathenNakReceive (port : Nat) (e : BitVec 12)
  | slathenAckReceive (port : Nat) (ack : BitVec 12)
  | slathenLaneFailure (port : Nat)
  | slathenLinkDown (port : Nat)
  | slathenPortTraining (port : Nat) (fast : Bool)
  | hostPortConventionalReset
  | temperatureFallsBelowLimit (die : Nat)
deriving DecidableEq, Repr

end Sys2Proof
end

