-- ==== Sys2Proof/WellFormed.lean ====
section
/-! DEFINITION. Which instructions a word can carry, and which steps name parts that exist (R6, R8, R30, R51). -/

namespace Sys2Proof

/-- A vector source names a register below v48 (R30). -/
def VSrc.wf : VSrc → Bool
  | .reg n => n < 48#6
  | .pop _ => true
  | .peek _ => true

/-- A vector destination names a register below v48 (R30). -/
def VDst.wf : VDst → Bool
  | .reg n => n < 48#6
  | .push _ => true

def ShiftCount.wf : ShiftCount → Bool
  | .lanes c => c.wf
  | .imm _ => true

/-- A core number of the package (R9). -/
def coreOk (n : Nat) : Bool := n < 128

/-- A management master: host functions 0 to 7 and the board controller, 8 (R379). -/
def masterOk (n : Nat) : Bool := n < 9

/-- A context number (R370). -/
def ctxOk (n : Nat) : Bool := n < 64

/-- A power of two up to a line. -/
def sizeOk (n : Nat) : Bool := n == 1 || n == 2 || n == 4 || n == 8 || n == 16 || n == 32 || n == 64

def ErrorSite.wf : ErrorSite → Bool
  | .scalar c _ => coreOk c
  | .vector c s g => coreOk c && s < 48 && g < 64
  | .predicate c s g => coreOk c && s < 16 && g < 2
  | .queue c q e g => coreOk c && q < 8 && e < 32 && g < 64
  | .buffer c g => coreOk c && g < 64
  | .scratch c g => coreOk c && g < 507904
  | .mapEntry c e g => coreOk c && e < 64 && g < 16
  | .statEntry c e g => coreOk c && e < 1024 && g < 4
  | .line _ _ => true
  | .counter _ => true

/-- An instruction is well formed when its operands are ones a word can carry and, for a step, when the parts it names
exist. -/
def Instr.wf : Instr → Bool
  | .pblk _ n pat => pat >>> (n.toNat + 1) == 0#8
  | .tlbinv .page _ _ _ => true
  | .tlbinv .ctx _ a _ => a == 0#6
  | .tlbinv .all _ a c => a == 0#6 && c == 0#6
  | .cpset _ level _ _ _ => level < 6#3
  | .aprod _ _ q1 _ _ _ c => !q1 || c == 0#6
  | .vadd _ _ d a b | .vsub _ _ d a b | .vmul _ _ d a b | .vdiv _ _ d a b => d.wf && a.wf && b.wf
  | .vfma _ _ d a b c | .vfms _ _ d a b c => d.wf && a.wf && b.wf && c.wf
  | .vmin d a b | .vmax d a b | .vcps d a b | .vimin d a b | .vimax d a b => d.wf && a.wf && b.wf
  | .vabs d a | .vneg d a | .vmov d a | .vpopc d a | .vclz d a | .vrmax d a | .vrmin d a => d.wf && a.wf
  | .vsel d a b _ => d.wf && a.wf && b.wf
  | .vrcp _ _ d a | .vrsq _ _ d a | .vsqrt _ _ d a | .vexp2 _ _ d a | .vlog2 _ _ d a => d.wf && a.wf
  | .viadd _ d a b | .visub _ d a b | .vimul _ d a b => d.wf && a.wf && b.wf
  | .vshl d a n | .vshr d a n | .vsar d a n => d.wf && a.wf && n.wf
  | .vfsh d a b n => d.wf && a.wf && b.wf && n.wf
  | .vlut3 d a b c _ => d.wf && a.wf && b.wf && c.wf
  | .vfcmp _ _ a b | .vicmp _ _ a b => a.wf && b.wf
  | .vbcast d _ _ => d.wf
  | .vextr _ a _ => a.wf
  | .vins d a _ _ | .vrotl d a _ => d.wf && a.wf
  | .vperm d a b c => d.wf && a.wf && b.wf && c.wf
  | .vzip d a b _ => d.wf && a.wf && b.wf
  | .vrsum _ d a | .vrisum _ d a => d.wf && a.wf
  | .vcvt _ _ _ _ d a => d.wf && a.wf
  | .vqnt _ _ d a b | .vldexp _ _ d a b => d.wf && a.wf && b.wf
  | .vscacc _ _ _ d a b c => d.wf && a.wf && b.wf && c.wf
  | .vstatAcc _ b => b.wf
  | .vstld _ d _ => d.wf
  | .vld d _ _ | .vlds d _ _ | .vpop d => d.wf
  | .vst b _ _ | .vsts b _ _ => b.wf
  | .vpush a _ => a.wf
  | .registerWriteLanding c | .waitEnd c | .trapEntry c | .gangMemberStart c | .coreFreeSchedule c | .strandRetire c
  | .latticeCommandBegin c | .latticeQueueTransfer c | .latticeStop c | .sketchCommandBegin c | .sketchStop c
  | .mortarUpdate c | .elUnitWork c | .elStop c | .listHandleWrite c => coreOk c
  | .globalLoadComplete c _ | .globalStoreAccept c _ | .stashRemoteAccess c _ | .spawnPush c _
  | .groupOperationAtHome c _ | .barrierOperationAtHome c _ | .tlbinvComplete c _ | .keysetSwitchComplete c _ => coreOk c
  | .stashLineFill c w _ | .stashLineRelease c w _ => coreOk c && w < 8
  | .copyCommandBegin c _ | .streamCopyStart c _ | .copyComplete c _ | .copyStop c _ => coreOk c
  | .engineCommandRetire c _ | .boundOverrun c _ | .demandFill c _ => coreOk c
  | .launchWindowWrite (.host ctx off data) => ctxOk ctx && off + data.length ≤ 4096
  | .launchWindowWrite (.core c _) => coreOk c
  | .gangPacketArrival ctx _ | .preemption ctx => ctxOk ctx
  | .hostBar4Access a => a.fn < 8 && sizeOk a.size && a.pa % a.size == 0
  | .dieLoss d | .thermalLimit d | .temperatureFallsBelowLimit d => d < 10
  | .uncorrectableError site => site.wf
  | .mgclaim m _ | .mghand m _ _ | .domainWrite m _ | .bar4sizeWrite m _ | .hostordWrite m _ | .attestationRequest m _
  | .powerCapWrite m _ | .fwaddrWrite m _ => masterOk m
  | .contextDescriptorWrite m o data => masterOk m && o + data.length ≤ 4096
  | .partitionRecordWrite m o data => masterOk m && o + data.length ≤ 256
  | .poolDecoderWrite m o data => masterOk m && o + data.length ≤ 512
  | .managementWrite m o data => masterOk m && o + data.length ≤ 1048576
  | .preemptAndHold m c | .endHold m c | .checkpoint m c | .restoreCheckpoint m c | .debugReadMemory m c
  | .debugWriteMemory m c | .debugReadRegister m c => masterOk m && ctxOk c
  | .haltDie m d | .resumeDie m d => masterOk m && d < 10
  | .hostPortTraining _ lanes _ => lanes == 4 || lanes == 8 || lanes == 16
  | .poolPortTraining p _ lanes | .poolPortNarrowed p lanes => p < 24 && (lanes == 4 || lanes == 8 || lanes == 16)
  | .poolPortDown p => p < 24
  | .slathenFlitReceive p _ _ | .slathenNakReceive p _ | .slathenAckReceive p _ | .slathenLaneFailure p
  | .slathenLinkDown p | .slathenPortTraining p _ => p < 18
  | .nop .. | .br .. | .brc .. | .call .. | .ret .. | .jr .. | .loop .. | .callc .. | .phase .. | .spawn .. | .done ..
  | .launch .. | .gjoin .. | .gleave .. | .gbar .. | .gsize .. | .grank .. | .rvz .. | .qdrop .. | .tickRead ..
  | .sysc .. | .tret .. | .ctxsv .. | .ctxld .. | .bkpt .. | .wfe .. | .keyset .. | .add .. | .sub .. | .and ..
  | .or .. | .xor .. | .andn .. | .shl .. | .shr .. | .sar .. | .rotl .. | .slt .. | .sltu .. | .min .. | .max ..
  | .minu .. | .maxu .. | .sel .. | .clz .. | .ctz .. | .popc .. | .bswap .. | .addi .. | .andi .. | .ori ..
  | .xori .. | .shli .. | .shri .. | .sari .. | .slti .. | .sltiu .. | .mul .. | .mulh .. | .mulhu .. | .div ..
  | .divu .. | .rem .. | .remu .. | .limm .. | .limmh .. | .bank .. | .rowof .. | .lword .. | .movrs .. | .ld ..
  | .st .. | .ldacq .. | .strel .. | .amoAdd .. | .amoAnd .. | .amoOr .. | .amoXor .. | .amoMin .. | .amoMax ..
  | .amoMinu .. | .amoMaxu .. | .amoSwap .. | .cas .. | .fence .. | .waitc .. | .stwin .. | .stfl .. | .stinv ..
  | .pfh .. | .cpgo .. | .tagwany .. | .tagwall .. | .tagffr .. | .tagclr .. | .barinit .. | .barexp .. | .bararv ..
  | .barwt .. | .bargen .. | .plut3 .. | .pcnt .. | .pfirst .. | .vstatClr .. | .vstatFin .. | .vstrc .. | .amap ..
  | .aang .. | .acfg .. | .arun .. | .arunv .. | .agrad .. | .avec .. | .anorm .. | .asave .. | .ares ..
  | .astat .. | .skinit .. | .skupd .. | .skqry .. | .skadd .. | .sksq .. | .skopt .. | .elcat .. | .elflt ..
  | .elrbs .. | .elapp .. | .eldrop .. | .ellen .. | .elget .. | .splitkPartialArrival .. | .splitkMergeTimeout ..
  | .backInvalidateResponse .. | .hostWriteback .. | .ownershipLapse .. | .attestationReportReady .. | .capResolve ..
  | .clockThrottleWindow .. | .activityWindow .. | .thermalShutdown .. | .firmwareVerifyComplete .. | .packageReset ..
  | .hostPortConventionalReset .. | .movsr .. => true

end Sys2Proof
end

