-- ==== Sys2Proof/Decode.lean ====
section
/-! DEFINITION. Decoding of instruction words (R47 to R59), rejecting by name, and the encoder written from the same
tables. Decoding makes the checks of R60 steps 2 and 3 that the word alone decides; the checks that depend on the mode,
the open block or the queues are made by the machine. -/

namespace Sys2Proof

/-- Why a word is no instruction: cause 1 (R59, R51) or cause 2 (R50, R54). -/
inductive DecodeError where
  | illegal
  | reserved
deriving DecidableEq, Repr

/-! ### The six formats (R49) -/

def packR (maj : BitVec 7) (d a b c : BitVec 6) (fn : BitVec 8) (q : BitVec 25) : Word :=
  maj ++ d ++ a ++ b ++ c ++ fn ++ q

def packI (maj : BitVec 7) (d a fn : BitVec 6) (imm : BitVec 32) (q : BitVec 7) : Word :=
  maj ++ d ++ a ++ fn ++ imm ++ q

def packM (maj : BitVec 7) (d a b fn : BitVec 6) (sc : BitVec 3) (ord : BitVec 2) (disp : BitVec 24) (q : BitVec 4) : Word :=
  maj ++ d ++ a ++ b ++ fn ++ sc ++ ord ++ disp ++ q

def packJ (maj : BitVec 7) (a b : BitVec 6) (cc : BitVec 4) (l : BitVec 1) (off : BitVec 32) (q : BitVec 8) : Word :=
  maj ++ a ++ b ++ cc ++ l ++ off ++ q

def packE (maj : BitVec 7) (d a b c : BitVec 6) (fn : BitVec 4) (bound : BitVec 20) (q : BitVec 9) : Word :=
  maj ++ d ++ a ++ b ++ c ++ fn ++ bound ++ q

def packP (maj : BitVec 7) (pred : BitVec 4) (n : BitVec 3) (pat : BitVec 8) (z : BitVec 42) : Word :=
  maj ++ pred ++ n ++ pat ++ z

namespace Fld

def major (w : Word) : BitVec 7 := w.extractLsb' 57 7
def d (w : Word) : BitVec 6 := w.extractLsb' 51 6
def a (w : Word) : BitVec 6 := w.extractLsb' 45 6
def b (w : Word) : BitVec 6 := w.extractLsb' 39 6
def c (w : Word) : BitVec 6 := w.extractLsb' 33 6
def fnR (w : Word) : BitVec 8 := w.extractLsb' 25 8
def qR (w : Word) : BitVec 25 := w.extractLsb' 0 25
def fnI (w : Word) : BitVec 6 := w.extractLsb' 39 6
def imm (w : Word) : BitVec 32 := w.extractLsb' 7 32
def qI (w : Word) : BitVec 7 := w.extractLsb' 0 7
def fnM (w : Word) : BitVec 6 := w.extractLsb' 33 6
def sc (w : Word) : BitVec 3 := w.extractLsb' 30 3
def ord (w : Word) : BitVec 2 := w.extractLsb' 28 2
def disp (w : Word) : BitVec 24 := w.extractLsb' 4 24
def qM (w : Word) : BitVec 4 := w.extractLsb' 0 4
def aJ (w : Word) : BitVec 6 := w.extractLsb' 51 6
def bJ (w : Word) : BitVec 6 := w.extractLsb' 45 6
def cc (w : Word) : BitVec 4 := w.extractLsb' 41 4
def l (w : Word) : BitVec 1 := w.extractLsb' 40 1
def off (w : Word) : BitVec 32 := w.extractLsb' 8 32
def qJ (w : Word) : BitVec 8 := w.extractLsb' 0 8
def fnE (w : Word) : BitVec 4 := w.extractLsb' 29 4
def bound (w : Word) : BitVec 20 := w.extractLsb' 9 20
def qE (w : Word) : BitVec 9 := w.extractLsb' 0 9
def predP (w : Word) : BitVec 4 := w.extractLsb' 53 4
def nP (w : Word) : BitVec 3 := w.extractLsb' 50 3
def patP (w : Word) : BitVec 8 := w.extractLsb' 42 8
def zP (w : Word) : BitVec 42 := w.extractLsb' 0 42

end Fld

/-! ### The qualifier field Q of format R (R54) -/

/-- The 25-bit Q of format R: rnd, sat, fmt, fmt2 and the family's own bits. -/
def packQ (rnd : BitVec 2) (sat : BitVec 1) (fmt fmt2 : BitVec 5) (low : BitVec 12) : BitVec 25 :=
  rnd ++ sat ++ fmt ++ fmt2 ++ low

namespace QFld
def rnd (q : BitVec 25) : BitVec 2 := q.extractLsb' 23 2
def sat (q : BitVec 25) : BitVec 1 := q.extractLsb' 22 1
def fmt (q : BitVec 25) : BitVec 5 := q.extractLsb' 17 5
def fmt2 (q : BitVec 25) : BitVec 5 := q.extractLsb' 12 5
def low (q : BitVec 25) : BitVec 12 := q.extractLsb' 0 12
end QFld

/-! ### Operand codes (R51) -/

def bitOf (b : Bool) : BitVec 1 := BitVec.ofBool b

def Rnd.code : Rnd → BitVec 2
  | .rne => 0#2 | .rtz => 1#2 | .rdn => 2#2 | .rup => 3#2

def Rnd.ofCode (b : BitVec 2) : Rnd :=
  match b.toNat with
  | 0 => .rne | 1 => .rtz | 2 => .rdn | _ => .rup

def VSrc.code : VSrc → BitVec 6
  | .reg n => n
  | .pop q => 6#3 ++ q
  | .peek q => 7#3 ++ q

/-- A 6-bit vector source field (R30). -/
def VSrc.ofCode (f : BitVec 6) : VSrc :=
  if f.extractLsb' 3 3 = 6#3 then .pop (f.extractLsb' 0 3)
  else if f.extractLsb' 3 3 = 7#3 then .peek (f.extractLsb' 0 3)
  else .reg f

def VDst.code : VDst → BitVec 6
  | .reg n => n
  | .push q => 6#3 ++ q

/-- A 6-bit vector destination field; codes 56 to 63 are illegal (R30, R51). -/
def VDst.ofCode (f : BitVec 6) : Except DecodeError VDst :=
  if f.extractLsb' 3 3 = 6#3 then .ok (.push (f.extractLsb' 0 3))
  else if f.extractLsb' 3 3 = 7#3 then .error .illegal
  else .ok (.reg f)

def predCode (p : PReg) : BitVec 6 := 0#2 ++ p

/-- A 6-bit predicate field; codes 16 to 63 are illegal (R51). -/
def predOfCode (f : BitVec 6) : Except DecodeError PReg :=
  if f.extractLsb' 4 2 = 0#2 then .ok (f.extractLsb' 0 4) else .error .illegal

def Scope.code : Scope → BitVec 3
  | .core => 0#3 | .package => 1#3 | .fabric => 2#3 | .system => 3#3

/-- A 3-bit scope; codes 4 to 7 are reserved (R51). -/
def Scope.ofCode (b : BitVec 3) : Except DecodeError Scope :=
  match b.toNat with
  | 0 => .ok .core | 1 => .ok .package | 2 => .ok .fabric | 3 => .ok .system | _ => .error .reserved

def MemOrder.code : MemOrder → BitVec 2
  | .relaxed => 0#2 | .acquire => 1#2 | .release => 2#2 | .acqRel => 3#2

def MemOrder.ofCode (b : BitVec 2) : MemOrder :=
  match b.toNat with
  | 0 => .relaxed | 1 => .acquire | 2 => .release | _ => .acqRel

def LoadKind.code : LoadKind → BitVec 3
  | .b => 0#3 | .bu => 1#3 | .h => 2#3 | .hu => 3#3 | .w => 4#3 | .wu => 5#3 | .d => 6#3

def LoadKind.ofCode (n : Nat) : Option LoadKind :=
  match n with
  | 0 => some .b | 1 => some .bu | 2 => some .h | 3 => some .hu | 4 => some .w | 5 => some .wu | 6 => some .d | _ => none

def StoreSize.code : StoreSize → BitVec 2
  | .b => 0#2 | .h => 1#2 | .w => 2#2 | .d => 3#2

def StoreSize.ofCode (n : Nat) : Option StoreSize :=
  match n with
  | 0 => some .b | 1 => some .h | 2 => some .w | 3 => some .d | _ => none

def AmoSize.code : AmoSize → BitVec 2
  | .word => 2#2 | .dword => 3#2

def AmoSize.ofCode (b : BitVec 2) : Except DecodeError AmoSize :=
  match b.toNat with
  | 2 => .ok .word | 3 => .ok .dword | _ => .error .reserved

def Cond.code : Cond → BitVec 4
  | .eq => 0#4 | .ne => 1#4 | .lt => 2#4 | .ge => 3#4 | .ltu => 4#4 | .geu => 5#4 | .bits => 6#4 | .bitc => 7#4

/-- The conditions of BRC; CC 8 to 15 are illegal (R53). -/
def Cond.ofCode (b : BitVec 4) : Except DecodeError Cond :=
  match b.toNat with
  | 0 => .ok .eq | 1 => .ok .ne | 2 => .ok .lt | 3 => .ok .ge | 4 => .ok .ltu | 5 => .ok .geu | 6 => .ok .bits
  | 7 => .ok .bitc | _ => .error .illegal

def FCond.code : FCond → BitVec 3
  | .eq => 0#3 | .ne => 1#3 | .lt => 2#3 | .le => 3#3 | .gt => 4#3 | .ge => 5#3 | .un => 6#3 | .or => 7#3

def FCond.ofCode (b : BitVec 3) : FCond :=
  match b.toNat with
  | 0 => .eq | 1 => .ne | 2 => .lt | 3 => .le | 4 => .gt | 5 => .ge | 6 => .un | _ => .or

def ICond.code : ICond → BitVec 3
  | .eq => 0#3 | .ne => 1#3 | .lt => 2#3 | .le => 3#3 | .gt => 4#3 | .ge => 5#3 | .ltu => 6#3 | .geu => 7#3

def ICond.ofCode (b : BitVec 3) : ICond :=
  match b.toNat with
  | 0 => .eq | 1 => .ne | 2 => .lt | 3 => .le | 4 => .gt | 5 => .ge | 6 => .ltu | _ => .geu

def StatField.code : StatField → BitVec 2
  | .mean => 0#2 | .rdev => 1#2 | .lse => 2#2 | .count => 3#2

def StatField.ofCode (b : BitVec 2) : StatField :=
  match b.toNat with
  | 0 => .mean | 1 => .rdev | 2 => .lse | _ => .count

def EngineQ.code : EngineQ → BitVec 2
  | .l => 0#2 | .c0 => 1#2 | .c1 => 2#2 | .k => 3#2

def EngineQ.ofCode (b : BitVec 2) : EngineQ :=
  match b.toNat with
  | 0 => .l | 1 => .c0 | 2 => .c1 | _ => .k

def CopyEng.code : CopyEng → BitVec 1
  | .ce0 => 0#1 | .ce1 => 1#1

def CopyEng.ofCode (b : BitVec 1) : CopyEng := if b = 1#1 then .ce1 else .ce0

/-- The numbers of the system registers (R44, R101, R260, R389, R372, R11, R12, R384). -/
def SysReg.code : SysReg → BitVec 12
  | .status => 0x000#12 | .rrb => 0x001#12 | .livedepth => 0x002#12 | .tags => 0x003#12 | .tagdrop => 0x004#12
  | .outst => 0x005#12 | .tick => 0x006#12 | .coreid => 0x007#12 | .strand => 0x008#12 | .frame => 0x009#12
  | .elbase => 0x00A#12 | .elcap => 0x00B#12 | .lstat => 0x00C#12 | .normin => 0x00D#12 | .normout => 0x00E#12
  | .qfmt q => 0x010#12 + q.setWidth 12
  | .pace q => 0x018#12 + q.code.setWidth 12
  | .trapcause => 0x100#12 | .trappc => 0x101#12
  | .trapinfo n => 0x102#12 + n.setWidth 12
  | .trapvec => 0x106#12 | .savearea => 0x107#12 | .ctxid => 0x110#12 | .ptbase => 0x111#12 | .keyid => 0x112#12
  | .touched => 0x113#12 | .part => 0x114#12 | .pkgpos => 0x115#12 | .dieen => 0x120#12
  | .coreen d => 0x121#12 + d.setWidth 12
  | .dbgctl => 0x130#12

/-- The register a 12-bit number names, if any (R44). -/
def SysReg.ofNat (n : Nat) : Option SysReg :=
  match n with
  | 0x000 => some .status | 0x001 => some .rrb | 0x002 => some .livedepth | 0x003 => some .tags
  | 0x004 => some .tagdrop | 0x005 => some .outst | 0x006 => some .tick | 0x007 => some .coreid
  | 0x008 => some .strand | 0x009 => some .frame | 0x00A => some .elbase | 0x00B => some .elcap
  | 0x00C => some .lstat | 0x00D => some .normin | 0x00E => some .normout
  | 0x010 => some (.qfmt 0#3) | 0x011 => some (.qfmt 1#3) | 0x012 => some (.qfmt 2#3) | 0x013 => some (.qfmt 3#3)
  | 0x014 => some (.qfmt 4#3) | 0x015 => some (.qfmt 5#3) | 0x016 => some (.qfmt 6#3) | 0x017 => some (.qfmt 7#3)
  | 0x018 => some (.pace .l) | 0x019 => some (.pace .c0) | 0x01A => some (.pace .c1) | 0x01B => some (.pace .k)
  | 0x100 => some .trapcause | 0x101 => some .trappc
  | 0x102 => some (.trapinfo 0#2) | 0x103 => some (.trapinfo 1#2) | 0x104 => some (.trapinfo 2#2)
  | 0x105 => some (.trapinfo 3#2)
  | 0x106 => some .trapvec | 0x107 => some .savearea | 0x110 => some .ctxid | 0x111 => some .ptbase
  | 0x112 => some .keyid | 0x113 => some .touched | 0x114 => some .part | 0x115 => some .pkgpos
  | 0x120 => some .dieen
  | 0x121 => some (.coreen 0#3) | 0x122 => some (.coreen 1#3) | 0x123 => some (.coreen 2#3) | 0x124 => some (.coreen 3#3)
  | 0x125 => some (.coreen 4#3) | 0x126 => some (.coreen 5#3) | 0x127 => some (.coreen 6#3) | 0x128 => some (.coreen 7#3)
  | 0x130 => some .dbgctl
  | _ => none

/-! ### Checks -/

/-- Cause 2 unless the condition holds (R50). -/
def need (ok : Bool) (i : Instr) : Except DecodeError Instr := if ok then .ok i else .error .reserved

def illegal : Except DecodeError Instr := .error .illegal

/-- A predicate field as a value, once it is known to be legal. -/
def legal (x : Except DecodeError α) (k : α → Except DecodeError Instr) : Except DecodeError Instr :=
  match x with
  | .ok v => k v
  | .error e => .error e

/-- An optional code that is reserved when absent. -/
def defined (x : Option α) (k : α → Except DecodeError Instr) : Except DecodeError Instr :=
  match x with
  | some v => k v
  | none => .error .reserved

/-! ### Families -/

/-- NOP (R58). -/
def decodeNop (w : Word) : Except DecodeError Instr :=
  match (Fld.fnR w).toNat with
  | 0 => need (w.extractLsb' 0 57 == 0#57) .nop
  | _ => illegal

/-- PBLK (R61): PAT above bit N and bits [41:0] are zero. -/
def decodePblk (w : Word) : Except DecodeError Instr :=
  need (Fld.zP w == 0#42 && Fld.patP w >>> ((Fld.nP w).toNat + 1) == 0#8) (.pblk (Fld.predP w) (Fld.nP w) (Fld.patP w))

/-- Format J needs CC = 0, L = 0 and Q = 0 outside BRC (R53). -/
def plainJ (w : Word) : Bool := Fld.cc w == 0#4 && Fld.l w == 0#1 && Fld.qJ w == 0#8

def decodeBr (w : Word) : Except DecodeError Instr :=
  need (Fld.aJ w == 0#6 && Fld.bJ w == 0#6 && plainJ w) (.br (Fld.off w))

def decodeBrc (w : Word) : Except DecodeError Instr :=
  legal (Cond.ofCode (Fld.cc w)) fun cc =>
    need (Fld.qJ w == 0#8)
      (.brc cc (Fld.aJ w) (if Fld.l w = 1#1 then .imm (Fld.bJ w) else .reg (Fld.bJ w)) (Fld.off w))

def decodeCall (w : Word) : Except DecodeError Instr :=
  need (Fld.bJ w == 0#6 && plainJ w) (.call (Fld.aJ w) (Fld.off w))

def decodeRet (w : Word) : Except DecodeError Instr :=
  need (Fld.aJ w == 0#6 && Fld.bJ w == 0#6 && Fld.off w == 0#32 && plainJ w) .ret

def decodeJr (w : Word) : Except DecodeError Instr :=
  need (Fld.bJ w == 0#6 && plainJ w) (.jr (Fld.aJ w) (Fld.off w))

def decodeLoop (w : Word) : Except DecodeError Instr :=
  need (Fld.bJ w == 0#6 && plainJ w) (.loop (Fld.aJ w) (Fld.off w))

def decodeCallc (w : Word) : Except DecodeError Instr :=
  need (Fld.bJ w == 0#6 && plainJ w) (.callc (Fld.aJ w) (Fld.off w))

/-- PHASE: its FN bits that are nonzero name no member (R59). -/
def decodePhase (w : Word) : Except DecodeError Instr :=
  match (Fld.fnI w).toNat with
  | 0 => need (Fld.d w == 0#6 && Fld.qI w == 0#7) (.phase (Fld.a w) (Fld.imm w))
  | _ => illegal

/-- The fields D, B, C and Q that a one-register member of format R leaves zero. -/
def onlyA (w : Word) : Bool := Fld.d w == 0#6 && Fld.b w == 0#6 && Fld.c w == 0#6 && Fld.qR w == 0#25

def decodeSpawn (w : Word) : Except DecodeError Instr :=
  match (Fld.fnR w).toNat with
  | 0 => need (onlyA w) (.spawn (Fld.a w))
  | _ => illegal

def decodeDone (w : Word) : Except DecodeError Instr :=
  match (Fld.fnR w).toNat with
  | 0 => need (onlyA w && Fld.a w == 0#6) .done
  | _ => illegal

def decodeLaunch (w : Word) : Except DecodeError Instr :=
  match (Fld.fnR w).toNat with
  | 0 => need (onlyA w) (.launch (Fld.a w))
  | _ => illegal

/-- The group operand (spec/13): Q[6] chooses the register or Q[5:0]. -/
def groupOperand (w : Word) : GroupOperand :=
  if (Fld.qR w).extractLsb' 6 1 = 1#1 then .imm ((Fld.qR w).extractLsb' 0 6) else .reg (Fld.a w)

/-- With Q[6] = 1 field A is zero, with Q[6] = 0 the field Q[5:0] is zero; Q[24:7], B and C are zero. -/
def groupOk (w : Word) : Bool :=
  (Fld.qR w).extractLsb' 7 18 == 0#18 && Fld.b w == 0#6 && Fld.c w == 0#6 &&
    (if (Fld.qR w).extractLsb' 6 1 = 1#1 then Fld.a w == 0#6 else (Fld.qR w).extractLsb' 0 6 == 0#6)

def decodeGrp (w : Word) : Except DecodeError Instr :=
  match (Fld.fnR w).toNat with
  | 0 => need (groupOk w && Fld.d w == 0#6) (.gjoin (groupOperand w))
  | 1 => need (groupOk w && Fld.d w == 0#6) (.gleave (groupOperand w))
  | 2 => need (groupOk w && Fld.d w == 0#6) (.gbar (groupOperand w))
  | 3 => need (groupOk w) (.gsize (Fld.d w) (groupOperand w))
  | 4 => need (groupOk w) (.grank (Fld.d w) (groupOperand w))
  | _ => illegal

def decodeQctl (w : Word) : Except DecodeError Instr :=
  match (Fld.fnR w).toNat with
  | 0 => need (onlyA w && Fld.a w == 0#6) .rvz
  | 1 => need (Fld.d w == 0#6 && Fld.b w == 0#6 && Fld.c w == 0#6 && (Fld.qR w).extractLsb' 2 23 == 0#23)
      (.qdrop (EngineQ.ofCode ((Fld.qR w).extractLsb' 0 2)) (Fld.a w))
  | 2 => need (Fld.a w == 0#6 && Fld.b w == 0#6 && Fld.c w == 0#6 && Fld.qR w == 0#25) (.tickRead (Fld.d w))
  | _ => illegal

/-- SYS (R401). -/
def decodeSys (w : Word) : Except DecodeError Instr :=
  match (Fld.fnI w).toNat with
  | 0 => need (Fld.d w == 0#6 && Fld.a w == 0#6 && (Fld.imm w).extractLsb' 16 16 == 0#16 && Fld.qI w == 0#7)
      (.sysc ((Fld.imm w).extractLsb' 0 16))
  | 1 => need (Fld.d w == 0#6 && Fld.a w == 0#6 && Fld.imm w == 0#32 && (Fld.qI w).extractLsb' 1 6 == 0#6)
      (.tret ((Fld.qI w).extractLsb' 0 1 == 1#1))
  | 2 => need (Fld.d w == 0#6 && Fld.imm w == 0#32 && Fld.qI w == 0#7) (.ctxsv (Fld.a w))
  | 3 => need (Fld.d w == 0#6 && Fld.imm w == 0#32 && Fld.qI w == 0#7) (.ctxld (Fld.a w))
  | 4 =>
    match (Fld.qI w).toNat with
    | 0 => need ((Fld.imm w).extractLsb' 6 26 == 0#26)
        (.tlbinv .page (Fld.d w) (Fld.a w) ((Fld.imm w).extractLsb' 0 6))
    | 1 => need ((Fld.imm w).extractLsb' 6 26 == 0#26 && Fld.a w == 0#6)
        (.tlbinv .ctx (Fld.d w) (Fld.a w) ((Fld.imm w).extractLsb' 0 6))
    | 2 => need (Fld.imm w == 0#32 && Fld.a w == 0#6)
        (.tlbinv .all (Fld.d w) (Fld.a w) ((Fld.imm w).extractLsb' 0 6))
    | _ => .error .reserved
  | 5 => need (Fld.d w == 0#6 && Fld.a w == 0#6 && (Fld.imm w).extractLsb' 16 16 == 0#16 && Fld.qI w == 0#7)
      (.bkpt ((Fld.imm w).extractLsb' 0 16))
  | 6 => need (Fld.qI w == 0#7) (.wfe (Fld.d w) (Fld.a w) (Fld.imm w))
  | 7 => need (Fld.d w == 0#6 && (Fld.imm w).extractLsb' 6 26 == 0#26 && Fld.qI w == 0#7)
      (.keyset (Fld.a w) ((Fld.imm w).extractLsb' 0 6))
  | _ => illegal

/-- Three-register members of format R: C = 0 and Q = 0. -/
def r3 (w : Word) (f : Reg → Reg → Reg → Instr) : Except DecodeError Instr :=
  need (Fld.c w == 0#6 && Fld.qR w == 0#25) (f (Fld.d w) (Fld.a w) (Fld.b w))

/-- Two-register members of format R: B = C = 0 and Q = 0. -/
def r2 (w : Word) (f : Reg → Reg → Instr) : Except DecodeError Instr :=
  need (Fld.b w == 0#6 && Fld.c w == 0#6 && Fld.qR w == 0#25) (f (Fld.d w) (Fld.a w))

/-- SALU (R115). -/
def decodeSalu (w : Word) : Except DecodeError Instr :=
  match (Fld.fnR w).toNat with
  | 0 => r3 w .add | 1 => r3 w .sub | 2 => r3 w .and | 3 => r3 w .or | 4 => r3 w .xor | 5 => r3 w .andn
  | 6 => r3 w .shl | 7 => r3 w .shr | 8 => r3 w .sar | 9 => r3 w .rotl | 10 => r3 w .slt | 11 => r3 w .sltu
  | 12 => r3 w .min | 13 => r3 w .max | 14 => r3 w .minu | 15 => r3 w .maxu
  | 16 => need (Fld.qR w == 0#25) (.sel (Fld.d w) (Fld.a w) (Fld.b w) (Fld.c w))
  | 17 => r2 w .clz | 18 => r2 w .ctz | 19 => r2 w .popc | 20 => r2 w .bswap
  | _ => illegal

/-- An immediate member of SALUI. -/
def i32 (w : Word) (f : Reg → Reg → BitVec 32 → Instr) : Except DecodeError Instr :=
  need (Fld.qI w == 0#7) (f (Fld.d w) (Fld.a w) (Fld.imm w))

/-- A shift member of SALUI: IMM[31:6] is zero. -/
def i6 (w : Word) (f : Reg → Reg → BitVec 6 → Instr) : Except DecodeError Instr :=
  need (Fld.qI w == 0#7 && (Fld.imm w).extractLsb' 6 26 == 0#26) (f (Fld.d w) (Fld.a w) ((Fld.imm w).extractLsb' 0 6))

/-- SALUI (R116). -/
def decodeSalui (w : Word) : Except DecodeError Instr :=
  match (Fld.fnI w).toNat with
  | 0 => i32 w .addi | 1 => i32 w .andi | 2 => i32 w .ori | 3 => i32 w .xori
  | 4 => i6 w .shli | 5 => i6 w .shri | 6 => i6 w .sari
  | 7 => i32 w .slti | 8 => i32 w .sltiu
  | _ => illegal

/-- SMUL (R117). -/
def decodeSmul (w : Word) : Except DecodeError Instr :=
  match (Fld.fnR w).toNat with
  | 0 => r3 w .mul | 1 => r3 w .mulh | 2 => r3 w .mulhu | 3 => r3 w .div | 4 => r3 w .divu | 5 => r3 w .rem
  | 6 => r3 w .remu
  | _ => illegal

/-- SIMM (R119). -/
def decodeSimm (w : Word) : Except DecodeError Instr :=
  match (Fld.fnI w).toNat with
  | 0 => need (Fld.a w == 0#6 && Fld.qI w == 0#7) (.limm (Fld.d w) (Fld.imm w))
  | 1 => need (Fld.qI w == 0#7) (.limmh (Fld.d w) (Fld.a w) (Fld.imm w))
  | _ => illegal

/-- SADDR (R120). -/
def decodeSaddr (w : Word) : Except DecodeError Instr :=
  match (Fld.fnR w).toNat with
  | 0 => r2 w .bank | 1 => r2 w .rowof | 2 => r2 w .lword
  | _ => illegal

/-- The system register that IMM[11:0] names; an unassigned number is illegal (R44). -/
def sysRegOf (w : Word) (k : SysReg → Except DecodeError Instr) : Except DecodeError Instr :=
  match SysReg.ofNat ((Fld.imm w).extractLsb' 0 12).toNat with
  | some r => k r
  | none => illegal

/-- SRM (R121). -/
def decodeSrm (w : Word) : Except DecodeError Instr :=
  match (Fld.fnI w).toNat with
  | 0 => sysRegOf w fun r =>
      need ((Fld.imm w).extractLsb' 12 20 == 0#20 && Fld.a w == 0#6 && Fld.qI w == 0#7) (.movsr (Fld.d w) r)
  | 1 => sysRegOf w fun r =>
      need ((Fld.imm w).extractLsb' 12 20 == 0#20 && Fld.d w == 0#6 && Fld.qI w == 0#7) (.movrs r (Fld.a w))
  | _ => illegal

/-- LD (R123). -/
def decodeLd (w : Word) : Except DecodeError Instr :=
  match LoadKind.ofCode (Fld.fnM w).toNat with
  | some k => need (Fld.b w == 0#6 && Fld.sc w == 0#3 && Fld.ord w == 0#2 && Fld.qM w == 0#4)
      (.ld k (Fld.d w) (Fld.a w) (Fld.disp w))
  | none => illegal

/-- ST (R127). -/
def decodeSt (w : Word) : Except DecodeError Instr :=
  match StoreSize.ofCode (Fld.fnM w).toNat with
  | some k => need (Fld.d w == 0#6 && Fld.sc w == 0#3 && Fld.ord w == 0#2 && Fld.qM w == 0#4)
      (.st k (Fld.b w) (Fld.a w) (Fld.disp w))
  | none => illegal

/-- LDACQ (R302). -/
def decodeLdacq (w : Word) : Except DecodeError Instr :=
  match (Fld.fnM w).toNat with
  | 0 => legal (Scope.ofCode (Fld.sc w)) fun sc => defined (LoadKind.ofCode ((Fld.qM w).extractLsb' 0 3).toNat) fun k =>
      need (Fld.b w == 0#6 && Fld.ord w == 1#2 && (Fld.qM w).extractLsb' 3 1 == 0#1)
        (.ldacq k sc (Fld.d w) (Fld.a w) (Fld.disp w))
  | _ => illegal

/-- STREL (R303). -/
def decodeStrel (w : Word) : Except DecodeError Instr :=
  match (Fld.fnM w).toNat with
  | 0 => legal (Scope.ofCode (Fld.sc w)) fun sc => defined (StoreSize.ofCode ((Fld.qM w).extractLsb' 0 2).toNat) fun k =>
      need (Fld.d w == 0#6 && Fld.ord w == 2#2 && (Fld.qM w).extractLsb' 2 2 == 0#2)
        (.strel k sc (Fld.b w) (Fld.a w) (Fld.disp w))
  | _ => illegal

/-- The common word of AMO and CAS (R304, R305). -/
def amoWord (w : Word) (f : AmoSize → MemOrder → Scope → Reg → Reg → Reg → BitVec 24 → Instr) : Except DecodeError Instr :=
  legal (Scope.ofCode (Fld.sc w)) fun sc => legal (AmoSize.ofCode ((Fld.qM w).extractLsb' 0 2)) fun z =>
    need ((Fld.qM w).extractLsb' 2 2 == 0#2)
      (f z (MemOrder.ofCode (Fld.ord w)) sc (Fld.d w) (Fld.a w) (Fld.b w) (Fld.disp w))

/-- AMO (R304). -/
def decodeAmo (w : Word) : Except DecodeError Instr :=
  match (Fld.fnM w).toNat with
  | 0 => amoWord w .amoAdd | 1 => amoWord w .amoAnd | 2 => amoWord w .amoOr | 3 => amoWord w .amoXor
  | 4 => amoWord w .amoMin | 5 => amoWord w .amoMax | 6 => amoWord w .amoMinu | 7 => amoWord w .amoMaxu
  | 8 => amoWord w .amoSwap
  | _ => illegal

/-- CAS (R305). -/
def decodeCas (w : Word) : Except DecodeError Instr :=
  match (Fld.fnM w).toNat with
  | 0 => amoWord w .cas
  | _ => illegal

/-- FENCE (R306). -/
def decodeFence (w : Word) : Except DecodeError Instr :=
  match (Fld.fnM w).toNat with
  | 0 => legal (Scope.ofCode (Fld.sc w)) fun sc =>
      let zero := Fld.d w == 0#6 && Fld.a w == 0#6 && Fld.b w == 0#6 && Fld.disp w == 0#24 && (Fld.qM w).extractLsb' 1 3 == 0#3
      let q0 := (Fld.qM w).extractLsb' 0 1
      match (Fld.ord w).toNat with
      | 1 => need (zero && q0 == 0#1) (.fence .acq sc)
      | 2 => need (zero && q0 == 0#1) (.fence .rel sc)
      | 3 => need zero (.fence (if q0 = 1#1 then .sc else .ar) sc)
      | _ => .error .reserved
  | _ => illegal

/-- WAITC (spec/15). -/
def decodeWaitc (w : Word) : Except DecodeError Instr :=
  match (Fld.fnI w).toNat with
  | 0 => need (Fld.d w == 0#6 && Fld.a w == 0#6 && (Fld.imm w).extractLsb' 20 12 == 0#12 && Fld.qI w == 0#7)
      (.waitc ((Fld.imm w).extractLsb' 0 4) ((Fld.imm w).extractLsb' 4 4) ((Fld.imm w).extractLsb' 8 4)
        ((Fld.imm w).extractLsb' 12 4) ((Fld.imm w).extractLsb' 16 4))
  | _ => illegal

/-- The windows of STFL and STINV: Q[3] selects .all with Q[2:0] = 0 (spec/15). -/
def windowSel (w : Word) : WindowSel :=
  if (Fld.qR w).extractLsb' 3 1 = 1#1 then .all else .one ((Fld.qR w).extractLsb' 0 3)

def windowOk (w : Word) : Bool :=
  (Fld.qR w).extractLsb' 4 21 == 0#21 &&
    (if (Fld.qR w).extractLsb' 3 1 = 1#1 then (Fld.qR w).extractLsb' 0 3 == 0#3 else true) &&
    Fld.d w == 0#6 && Fld.a w == 0#6 && Fld.b w == 0#6 && Fld.c w == 0#6

def decodeStash (w : Word) : Except DecodeError Instr :=
  match (Fld.fnR w).toNat with
  | 0 => need (Fld.d w == 0#6 && (Fld.qR w).extractLsb' 3 22 == 0#22)
      (.stwin ((Fld.qR w).extractLsb' 0 3) (Fld.a w) (Fld.b w) (Fld.c w))
  | 1 => need (windowOk w) (.stfl (windowSel w))
  | 2 => need (windowOk w) (.stinv (windowSel w))
  | _ => illegal

def decodePfh (w : Word) : Except DecodeError Instr :=
  match (Fld.fnM w).toNat with
  | 0 =>
    let zero := Fld.d w == 0#6 && Fld.sc w == 0#3 && Fld.ord w == 0#2
    match (Fld.qM w).toNat with
    | 0 => need zero (.pfh .llc (Fld.a w) (Fld.b w) (Fld.disp w))
    | 1 => need zero (.pfh .l2 (Fld.a w) (Fld.b w) (Fld.disp w))
    | 2 => need zero (.pfh .lz4 (Fld.a w) (Fld.b w) (Fld.disp w))
    | _ => .error .reserved
  | _ => illegal

/-- CP: CPSET and CPGO (spec/15). -/
def decodeCp (w : Word) : Except DecodeError Instr :=
  let eng := CopyEng.ofCode ((Fld.qE w).extractLsb' 7 1)
  match (Fld.fnE w).toNat with
  | 0 => need (Fld.d w == 0#6 && (Fld.bound w).extractLsb' 3 17 == 0#17 && (Fld.bound w).extractLsb' 0 3 < 6#3 &&
        (Fld.qE w).extractLsb' 8 1 == 0#1 && (Fld.qE w).extractLsb' 0 7 == 0#7)
      (.cpset eng ((Fld.bound w).extractLsb' 0 3) (Fld.a w) (Fld.b w) (Fld.c w))
  | 1 => need ((Fld.qE w).extractLsb' 0 7 == 0#7)
      (.cpgo eng ((Fld.qE w).extractLsb' 8 1 == 1#1) (Fld.bound w) (Fld.d w) (Fld.a w) (Fld.b w) (Fld.c w))
  | _ => illegal

def decodeTag (w : Word) : Except DecodeError Instr :=
  let zero := Fld.b w == 0#6 && Fld.c w == 0#6 && Fld.qR w == 0#25
  match (Fld.fnR w).toNat with
  | 0 => need zero (.tagwany (Fld.d w) (Fld.a w))
  | 1 => need (zero && Fld.d w == 0#6) (.tagwall (Fld.a w))
  | 2 => need zero (.tagffr (Fld.d w) (Fld.a w))
  | 3 => need (zero && Fld.d w == 0#6) (.tagclr (Fld.a w))
  | _ => illegal

def decodeBar (w : Word) : Except DecodeError Instr :=
  let zero := Fld.ord w == 0#2 && Fld.qM w == 0#4
  match (Fld.fnM w).toNat with
  | 0 => need (zero && Fld.d w == 0#6 && Fld.sc w == 0#3) (.barinit (Fld.b w) (Fld.a w) (Fld.disp w))
  | 1 => need (zero && Fld.d w == 0#6 && Fld.sc w == 0#3) (.barexp (Fld.b w) (Fld.a w) (Fld.disp w))
  | 2 => legal (Scope.ofCode (Fld.sc w)) fun sc => need (zero && Fld.d w == 0#6) (.bararv sc (Fld.b w) (Fld.a w) (Fld.disp w))
  | 3 => legal (Scope.ofCode (Fld.sc w)) fun sc => need zero (.barwt sc (Fld.d w) (Fld.a w) (Fld.b w) (Fld.disp w))
  | 4 => need (zero && Fld.b w == 0#6 && Fld.sc w == 0#3) (.bargen (Fld.d w) (Fld.a w) (Fld.disp w))
  | _ => illegal

/-! ### Vector families (R135) -/

def qRnd (w : Word) : Rnd := Rnd.ofCode (QFld.rnd (Fld.qR w))
def qSat (w : Word) : Bool := QFld.sat (Fld.qR w) == 1#1
def noRnd (w : Word) : Bool := QFld.rnd (Fld.qR w) == 0#2
def noSat (w : Word) : Bool := QFld.sat (Fld.qR w) == 0#1
def noFmt (w : Word) : Bool := QFld.fmt (Fld.qR w) == 0#5
def noFmt2 (w : Word) : Bool := QFld.fmt2 (Fld.qR w) == 0#5
def noLow (w : Word) : Bool := QFld.low (Fld.qR w) == 0#12
/-- No qualifier but the low twelve bits. -/
def onlyLow (w : Word) : Bool := noRnd w && noSat w && noFmt w && noFmt2 w
def vA (w : Word) : VSrc := VSrc.ofCode (Fld.a w)
def vB (w : Word) : VSrc := VSrc.ofCode (Fld.b w)
def vC (w : Word) : VSrc := VSrc.ofCode (Fld.c w)

/-- Rounding members with two sources. -/
def vrs2 (w : Word) (f : Rnd → Bool → VDst → VSrc → VSrc → Instr) : Except DecodeError Instr :=
  legal (VDst.ofCode (Fld.d w)) fun d =>
    need (Fld.c w == 0#6 && noFmt w && noFmt2 w && noLow w) (f (qRnd w) (qSat w) d (vA w) (vB w))

/-- Rounding members with one source. -/
def vrs1 (w : Word) (f : Rnd → Bool → VDst → VSrc → Instr) : Except DecodeError Instr :=
  legal (VDst.ofCode (Fld.d w)) fun d =>
    need (Fld.b w == 0#6 && Fld.c w == 0#6 && noFmt w && noFmt2 w && noLow w) (f (qRnd w) (qSat w) d (vA w))

/-- Rounding members with three sources. -/
def vrs3 (w : Word) (f : Rnd → Bool → VDst → VSrc → VSrc → VSrc → Instr) : Except DecodeError Instr :=
  legal (VDst.ofCode (Fld.d w)) fun d =>
    need (noFmt w && noFmt2 w && noLow w) (f (qRnd w) (qSat w) d (vA w) (vB w) (vC w))

/-- Members without qualifiers and two sources. -/
def vv2 (w : Word) (f : VDst → VSrc → VSrc → Instr) : Except DecodeError Instr :=
  legal (VDst.ofCode (Fld.d w)) fun d => need (Fld.c w == 0#6 && Fld.qR w == 0#25) (f d (vA w) (vB w))

/-- Members without qualifiers and one source. -/
def vv1 (w : Word) (f : VDst → VSrc → Instr) : Except DecodeError Instr :=
  legal (VDst.ofCode (Fld.d w)) fun d => need (Fld.b w == 0#6 && Fld.c w == 0#6 && Fld.qR w == 0#25) (f d (vA w))

/-- VF (R137, R138). -/
def decodeVf (w : Word) : Except DecodeError Instr :=
  match (Fld.fnR w).toNat with
  | 0 => vrs2 w .vadd | 1 => vrs2 w .vsub | 2 => vrs2 w .vmul | 3 => vrs3 w .vfma | 4 => vrs3 w .vfms
  | 5 => vv2 w .vmin | 6 => vv2 w .vmax | 7 => vv1 w .vabs | 8 => vv1 w .vneg | 9 => vv2 w .vcps | 10 => vv1 w .vmov
  | 11 => legal (VDst.ofCode (Fld.d w)) fun d => legal (predOfCode (Fld.c w)) fun p =>
      need (Fld.qR w == 0#25) (.vsel d (vA w) (vB w) p)
  | _ => illegal

/-- VFS (R139, R140). -/
def decodeVfs (w : Word) : Except DecodeError Instr :=
  match (Fld.fnR w).toNat with
  | 0 => vrs1 w .vrcp | 1 => vrs1 w .vrsq | 2 => vrs1 w .vsqrt | 3 => vrs2 w .vdiv | 4 => vrs1 w .vexp2
  | 5 => vrs1 w .vlog2
  | _ => illegal

/-- The saturating members of VI (R142). -/
def vsat2 (w : Word) (f : Bool → VDst → VSrc → VSrc → Instr) : Except DecodeError Instr :=
  legal (VDst.ofCode (Fld.d w)) fun d =>
    need (Fld.c w == 0#6 && noRnd w && noFmt w && noFmt2 w && noLow w) (f (qSat w) d (vA w) (vB w))

/-- The shift count with field f as the count source (R141). -/
def shiftCount (w : Word) (f : BitVec 6) : ShiftCount :=
  if (Fld.qR w).extractLsb' 5 1 = 1#1 then .imm ((Fld.qR w).extractLsb' 0 5) else .lanes (VSrc.ofCode f)

def shiftOk (w : Word) (f : BitVec 6) : Bool :=
  (Fld.qR w).extractLsb' 6 19 == 0#19 &&
    (if (Fld.qR w).extractLsb' 5 1 = 1#1 then f == 0#6 else (Fld.qR w).extractLsb' 0 5 == 0#5)

/-- VSHL, VSHR and VSAR. -/
def vshift (w : Word) (f : VDst → VSrc → ShiftCount → Instr) : Except DecodeError Instr :=
  legal (VDst.ofCode (Fld.d w)) fun d =>
    need (Fld.c w == 0#6 && shiftOk w (Fld.b w)) (f d (vA w) (shiftCount w (Fld.b w)))

/-- VI (R141 to R143). -/
def decodeVi (w : Word) : Except DecodeError Instr :=
  match (Fld.fnR w).toNat with
  | 0 => vsat2 w .viadd | 1 => vsat2 w .visub | 2 => vsat2 w .vimul | 3 => vv2 w .vimin | 4 => vv2 w .vimax
  | 5 => vshift w .vshl | 6 => vshift w .vshr | 7 => vshift w .vsar
  | 8 => legal (VDst.ofCode (Fld.d w)) fun d =>
      need (shiftOk w (Fld.c w)) (.vfsh d (vA w) (vB w) (shiftCount w (Fld.c w)))
  | 9 => legal (VDst.ofCode (Fld.d w)) fun d =>
      need ((Fld.qR w).extractLsb' 8 17 == 0#17) (.vlut3 d (vA w) (vB w) (vC w) ((Fld.qR w).extractLsb' 0 8))
  | 10 => vv1 w .vpopc | 11 => vv1 w .vclz
  | _ => illegal

/-- VP (R144). -/
def decodeVp (w : Word) : Except DecodeError Instr :=
  match (Fld.fnR w).toNat with
  | 0 => legal (predOfCode (Fld.d w)) fun d => need (Fld.c w == 0#6 && (Fld.qR w).extractLsb' 3 22 == 0#22)
      (.vfcmp (FCond.ofCode ((Fld.qR w).extractLsb' 0 3)) d (vA w) (vB w))
  | 1 => legal (predOfCode (Fld.d w)) fun d => need (Fld.c w == 0#6 && (Fld.qR w).extractLsb' 3 22 == 0#22)
      (.vicmp (ICond.ofCode ((Fld.qR w).extractLsb' 0 3)) d (vA w) (vB w))
  | 2 => legal (predOfCode (Fld.d w)) fun d => legal (predOfCode (Fld.a w)) fun a => legal (predOfCode (Fld.b w)) fun b =>
      legal (predOfCode (Fld.c w)) fun c => need ((Fld.qR w).extractLsb' 8 17 == 0#17)
        (.plut3 d a b c ((Fld.qR w).extractLsb' 0 8))
  | 3 => legal (predOfCode (Fld.a w)) fun a => need (Fld.b w == 0#6 && Fld.c w == 0#6 && Fld.qR w == 0#25) (.pcnt (Fld.d w) a)
  | 4 => legal (predOfCode (Fld.a w)) fun a => need (Fld.b w == 0#6 && Fld.c w == 0#6 && Fld.qR w == 0#25) (.pfirst (Fld.d w) a)
  | _ => illegal

/-- VX (R145). -/
def decodeVx (w : Word) : Except DecodeError Instr :=
  match (Fld.fnR w).toNat with
  | 0 => legal (VDst.ofCode (Fld.d w)) fun d => need (Fld.c w == 0#6 && Fld.qR w == 0#25) (.vbcast d (Fld.a w) (Fld.b w))
  | 1 => need (Fld.c w == 0#6 && Fld.qR w == 0#25) (.vextr (Fld.d w) (vA w) (Fld.b w))
  | 2 => legal (VDst.ofCode (Fld.d w)) fun d => need (Fld.qR w == 0#25) (.vins d (vA w) (Fld.b w) (Fld.c w))
  | 3 => legal (VDst.ofCode (Fld.d w)) fun d => need (Fld.qR w == 0#25) (.vperm d (vA w) (vB w) (vC w))
  | 4 => legal (VDst.ofCode (Fld.d w)) fun d =>
      if (Fld.qR w).extractLsb' 7 1 = 1#1 then
        need (Fld.b w == 0#6 && Fld.c w == 0#6 && (Fld.qR w).extractLsb' 8 17 == 0#17)
          (.vrotl d (vA w) (.imm ((Fld.qR w).extractLsb' 0 7)))
      else need (Fld.c w == 0#6 && Fld.qR w == 0#25) (.vrotl d (vA w) (.reg (Fld.b w)))
  | 5 => legal (VDst.ofCode (Fld.d w)) fun d =>
      need (Fld.c w == 0#6 && (Fld.qR w).extractLsb' 1 24 == 0#24) (.vzip d (vA w) (vB w) ((Fld.qR w).extractLsb' 0 1 == 1#1))
  | _ => illegal

/-- VR (R146, R147). -/
def decodeVr (w : Word) : Except DecodeError Instr :=
  match (Fld.fnR w).toNat with
  | 0 => legal (VDst.ofCode (Fld.d w)) fun d =>
      need (Fld.b w == 0#6 && Fld.c w == 0#6 && noSat w && noFmt w && noFmt2 w && noLow w) (.vrsum (qRnd w) d (vA w))
  | 1 => vv1 w .vrmax
  | 2 => vv1 w .vrmin
  | 3 => legal (VDst.ofCode (Fld.d w)) fun d =>
      need (Fld.b w == 0#6 && Fld.c w == 0#6 && noRnd w && noFmt w && noFmt2 w && noLow w) (.vrisum (qSat w) d (vA w))
  | _ => illegal

/-- VC (R148 to R151). -/
def decodeVc (w : Word) : Except DecodeError Instr :=
  match (Fld.fnR w).toNat with
  | 0 => legal (VDst.ofCode (Fld.d w)) fun d => need (Fld.b w == 0#6 && Fld.c w == 0#6 && noLow w)
      (.vcvt (qRnd w) (qSat w) (QFld.fmt (Fld.qR w)) (QFld.fmt2 (Fld.qR w)) d (vA w))
  | 1 => legal (VDst.ofCode (Fld.d w)) fun d => need (Fld.c w == 0#6 && noSat w && noFmt2 w && noLow w)
      (.vqnt (qRnd w) (QFld.fmt (Fld.qR w)) d (vA w) (vB w))
  | 2 => legal (VDst.ofCode (Fld.d w)) fun d => need (noFmt w && noLow w)
      (.vscacc (qRnd w) (qSat w) (QFld.fmt2 (Fld.qR w)) d (vA w) (vB w) (vC w))
  | 3 => vrs2 w .vldexp
  | _ => illegal

/-- VS (R152 to R154). -/
def decodeVs (w : Word) : Except DecodeError Instr :=
  match (Fld.fnR w).toNat with
  | 0 =>
    match (Fld.qR w).toNat with
    | 0 => need (Fld.d w == 0#6 && Fld.b w == 0#6 && Fld.c w == 0#6) (.vstatClr (Fld.a w))
    | 1 => need (Fld.d w == 0#6 && Fld.c w == 0#6) (.vstatAcc (Fld.a w) (vB w))
    | 2 => need (Fld.d w == 0#6 && Fld.b w == 0#6) (.vstatFin (Fld.a w) (Fld.c w))
    | _ => .error .reserved
  | 1 => legal (VDst.ofCode (Fld.d w)) fun d =>
      need (Fld.b w == 0#6 && Fld.c w == 0#6 && (Fld.qR w).extractLsb' 2 23 == 0#23)
        (.vstld (StatField.ofCode ((Fld.qR w).extractLsb' 0 2)) d (Fld.a w))
  | _ => illegal

/-- VM (R155). -/
def decodeVm (w : Word) : Except DecodeError Instr :=
  let zero := Fld.sc w == 0#3 && Fld.ord w == 0#2 && (Fld.qM w).extractLsb' 1 3 == 0#3
  let strided := (Fld.qM w).extractLsb' 0 1 == 1#1
  match (Fld.fnM w).toNat with
  | 0 => legal (VDst.ofCode (Fld.d w)) fun d => need (zero && !strided && Fld.b w == 0#6) (.vld d (Fld.a w) (Fld.disp w))
  | 1 => need (zero && !strided && Fld.d w == 0#6) (.vst (vB w) (Fld.a w) (Fld.disp w))
  | 2 => legal (VDst.ofCode (Fld.d w)) fun d =>
      if strided then need (zero && Fld.b w == 0#6) (.vlds d (Fld.a w) (.imm (Fld.disp w)))
      else need zero (.vlds d (Fld.a w) (.reg (Fld.disp w) (Fld.b w)))
  | 3 =>
      if strided then need (zero && Fld.d w == 0#6) (.vsts (vB w) (Fld.a w) (.imm (Fld.disp w)))
      else need zero (.vsts (vB w) (Fld.a w) (.reg (Fld.disp w) (Fld.d w)))
  | _ => illegal

/-- VQ (R157 to R159). -/
def decodeVq (w : Word) : Except DecodeError Instr :=
  match (Fld.fnR w).toNat with
  | 0 => legal (predOfCode (Fld.b w)) fun p => need (Fld.d w == 0#6 && Fld.c w == 0#6 && Fld.qR w == 0#25) (.vpush (vA w) p)
  | 1 => legal (VDst.ofCode (Fld.d w)) fun d =>
      need (Fld.a w == 0#6 && Fld.b w == 0#6 && Fld.c w == 0#6 && Fld.qR w == 0#25) (.vpop d)
  | 2 => need (onlyA w) (.vstrc (Fld.a w))
  | _ => illegal

/-! ### Engine commands (R55, R192, R230) -/

def eDemand (w : Word) : Bool := (Fld.qE w).extractLsb' 8 1 == 1#1
/-- Q[7:0] is zero. -/
def eLow0 (w : Word) : Bool := (Fld.qE w).extractLsb' 0 8 == 0#8
def noD (w : Word) : Bool := Fld.d w == 0#6
def noB (w : Word) : Bool := Fld.b w == 0#6
def noC (w : Word) : Bool := Fld.c w == 0#6

/-- LSET (R208). -/
def decodeLset (w : Word) : Except DecodeError Instr :=
  match (Fld.fnE w).toNat with
  | 0 => need (noD w && noC w && eLow0 w) (.amap (eDemand w) (Fld.bound w) (Fld.a w) (Fld.b w))
  | 1 => need (noD w && noC w && eLow0 w) (.aang (eDemand w) (Fld.bound w) (Fld.a w) (Fld.b w))
  | 2 => need (noD w && noC w && Fld.qE w == 0#9) (.acfg (Fld.bound w) (Fld.a w) (Fld.b w))
  | _ => illegal

/-- LRUN (R209). -/
def decodeLrun (w : Word) : Except DecodeError Instr :=
  match (Fld.fnE w).toNat with
  | 0 => need (noD w && noB w && noC w && Fld.qE w == 0#9) (.arun (Fld.bound w) (Fld.a w))
  | 1 => need (noD w && (Fld.qE w).extractLsb' 5 3 == 0#3)
      (.arunv (eDemand w) (Fld.bound w) ((Fld.qE w).extractLsb' 0 5) (Fld.a w) (Fld.b w) (Fld.c w))
  | 2 => need (noD w && noB w && noC w && Fld.qE w == 0#9) (.agrad (Fld.bound w) (Fld.a w))
  | _ => illegal

/-- LVEC (R210). -/
def decodeLvec (w : Word) : Except DecodeError Instr :=
  match (Fld.fnE w).toNat with
  | 0 => need (noD w && eLow0 w) (.avec (eDemand w) (Fld.bound w) (Fld.a w) (Fld.b w) (Fld.c w))
  | _ => illegal

/-- LPROD (R211): with Q[0] = 1 field C is zero, and Q[8] is accepted (assumption 42). -/
def decodeLprod (w : Word) : Except DecodeError Instr :=
  match (Fld.fnE w).toNat with
  | 0 =>
    let toQ1 := (Fld.qE w).extractLsb' 0 1 == 1#1
    need ((Fld.qE w).extractLsb' 1 7 == 0#7 && (!toQ1 || Fld.c w == 0#6))
      (.aprod (eDemand w) (Fld.bound w) toQ1 (Fld.d w) (Fld.a w) (Fld.b w) (Fld.c w))
  | _ => illegal

/-- LCTL (R212). ASAVE accepts Q[8] (assumption 42). -/
def decodeLctl (w : Word) : Except DecodeError Instr :=
  let zero := noD w && noB w && noC w
  match (Fld.fnE w).toNat with
  | 0 => need (zero && eLow0 w) (.anorm (eDemand w) (Fld.bound w) (Fld.a w))
  | 1 => need (zero && eLow0 w) (.asave (eDemand w) (Fld.bound w) (Fld.a w))
  | 2 => need (zero && eLow0 w) (.ares (eDemand w) (Fld.bound w) (Fld.a w))
  | 3 => need (zero && (Fld.qE w).extractLsb' 1 7 == 0#7)
      (.astat (eDemand w) (Fld.bound w) ((Fld.qE w).extractLsb' 0 1 == 1#1) (Fld.a w))
  | _ => illegal

/-- SK (R230, R234 to R238). SKINIT and SKADD name no array, so their Q[8] is zero. -/
def decodeSk (w : Word) : Except DecodeError Instr :=
  match (Fld.fnE w).toNat with
  | 0 => need (Fld.a w == 0#6 && noB w && noC w && Fld.qE w == 0#9) (.skinit (Fld.bound w) (Fld.d w))
  | 1 => need (noC w && eLow0 w) (.skupd (eDemand w) (Fld.bound w) (Fld.d w) (Fld.a w) (Fld.b w))
  | 2 => need (eLow0 w) (.skqry (eDemand w) (Fld.bound w) (Fld.d w) (Fld.a w) (Fld.b w) (Fld.c w))
  | 3 => need (Fld.qE w == 0#9) (.skadd (Fld.bound w) (Fld.d w) (Fld.a w) (Fld.b w) (Fld.c w))
  | 4 => need (eLow0 w) (.sksq (eDemand w) (Fld.bound w) (Fld.d w) (Fld.a w) (Fld.b w) (Fld.c w))
  | 5 => need (noD w && eLow0 w) (.skopt (eDemand w) (Fld.bound w) (Fld.a w) (Fld.b w) (Fld.c w))
  | _ => illegal

/-- EL (R346, R348). -/
def decodeEl (w : Word) : Except DecodeError Instr :=
  let q := Fld.qR w
  match (Fld.fnR w).toNat with
  | 0 => need (noC w && q == 0#25) (.elcat (Fld.d w) (Fld.a w) (Fld.b w))
  | 1 => need (noD w && q == 0#25) (.elflt (Fld.a w) (Fld.b w) (Fld.c w))
  | 2 => need (noD w && q == 0#25) (.elrbs (Fld.a w) (Fld.b w) (Fld.c w))
  | 3 =>
    if q.extractLsb' 0 1 = 1#1 then
      legal (Scope.ofCode (q.extractLsb' 1 3)) fun sc =>
        need (noD w && noB w && noC w && q.extractLsb' 4 21 == 0#21) (.elapp (.rel sc) (Fld.a w))
    else need (noD w && noB w && noC w && q == 0#25) (.elapp .plain (Fld.a w))
  | 4 => need (noD w && noB w && noC w && q == 0#25) (.eldrop (Fld.a w))
  | 5 => need (noB w && noC w && q == 0#25) (.ellen (Fld.d w) (Fld.a w))
  | 6 => need (noC w && q == 0#25) (.elget (Fld.d w) (Fld.a w) (Fld.b w))
  | _ => illegal

/-- Decoding of a word (R57, R59): the instruction it carries, or the cause that R60 steps 2 and 3 give it. -/
def decode (w : Word) : Except DecodeError Instr :=
  match (Fld.major w).toNat with
  | 0x00 => decodeNop w | 0x01 => decodePblk w | 0x02 => decodeBr w | 0x03 => decodeBrc w | 0x04 => decodeCall w
  | 0x05 => decodeRet w | 0x06 => decodeJr w | 0x07 => decodeLoop w | 0x08 => decodeCallc w | 0x09 => decodePhase w
  | 0x0A => decodeSpawn w | 0x0B => decodeDone w | 0x0C => decodeLaunch w | 0x0D => decodeGrp w | 0x0E => decodeQctl w
  | 0x0F => decodeSys w
  | 0x10 => decodeSalu w | 0x11 => decodeSalui w | 0x12 => decodeSmul w | 0x13 => decodeSimm w | 0x14 => decodeSaddr w
  | 0x15 => decodeSrm w
  | 0x20 => decodeLd w | 0x21 => decodeSt w | 0x22 => decodeLdacq w | 0x23 => decodeStrel w | 0x24 => decodeAmo w
  | 0x25 => decodeCas w | 0x26 => decodeFence w | 0x27 => decodeWaitc w | 0x28 => decodeStash w | 0x29 => decodePfh w
  | 0x2A => decodeCp w | 0x2B => decodeTag w | 0x2C => decodeBar w
  | 0x30 => decodeVf w | 0x31 => decodeVfs w | 0x32 => decodeVi w | 0x33 => decodeVp w | 0x34 => decodeVx w
  | 0x35 => decodeVr w | 0x36 => decodeVc w | 0x37 => decodeVs w | 0x38 => decodeVm w | 0x39 => decodeVq w
  | 0x60 => decodeLset w | 0x61 => decodeLrun w | 0x62 => decodeLvec w | 0x63 => decodeLprod w | 0x64 => decodeLctl w
  | 0x70 => decodeSk w | 0x74 => decodeEl w
  | _ => illegal

/-! ### The encoder -/

/-- A register-only word of format R without qualifiers. -/
def encR (maj : BitVec 7) (fn : BitVec 8) (d a b c : BitVec 6) : Option Word := some (packR maj d a b c fn 0#25)

/-- A word of format R with qualifiers. -/
def encQ (maj : BitVec 7) (fn : BitVec 8) (d a b c : BitVec 6) (q : BitVec 25) : Option Word := some (packR maj d a b c fn q)

/-- A word of format I. -/
def encI (maj : BitVec 7) (fn : BitVec 6) (d a : BitVec 6) (imm : BitVec 32) (q : BitVec 7) : Option Word :=
  some (packI maj d a fn imm q)

/-- A word of format M. -/
def encM (maj : BitVec 7) (fn : BitVec 6) (d a b : BitVec 6) (sc : BitVec 3) (ord : BitVec 2) (disp : BitVec 24)
    (q : BitVec 4) : Option Word :=
  some (packM maj d a b fn sc ord disp q)

/-- A word of format J with CC = 0, L = 0 and Q = 0. -/
def encJ (maj : BitVec 7) (a : BitVec 6) (off : BitVec 32) : Option Word := some (packJ maj a 0#6 0#4 0#1 off 0#8)

/-- A word of format E. -/
def encE (maj : BitVec 7) (fn : BitVec 4) (d a b c : BitVec 6) (bound : BitVec 20) (q : BitVec 9) : Option Word :=
  some (packE maj d a b c fn bound q)

/-- Q of the GRP family. -/
def GroupOperand.qBits : GroupOperand → BitVec 25
  | .imm n => 1#19 ++ n
  | .reg _ => 0#25

def GroupOperand.aBits : GroupOperand → BitVec 6
  | .imm _ => 0#6
  | .reg a => a

def WindowSel.qBits : WindowSel → BitVec 25
  | .one n => 0#22 ++ n
  | .all => 8#25

def ShiftCount.fieldBits : ShiftCount → BitVec 6
  | .lanes c => c.code
  | .imm _ => 0#6

def ShiftCount.qBits : ShiftCount → BitVec 25
  | .lanes _ => 0#25
  | .imm n => 1#20 ++ n

def RotateCount.fieldBits : RotateCount → BitVec 6
  | .reg b => b
  | .imm _ => 0#6

def RotateCount.qBits : RotateCount → BitVec 25
  | .reg _ => 0#25
  | .imm n => 1#18 ++ n

/-- Q of format R with rnd and sat. -/
def qRS (r : Rnd) (sat : Bool) : BitVec 25 := packQ r.code (bitOf sat) 0#5 0#5 0#12

/-- Q[8] of format E with the low bits zero. -/
def qD (demand : Bool) : BitVec 9 := bitOf demand ++ 0#8

/-- The word of an instruction; a step of the package has none. -/
def encode : Instr → Option Word
  | .nop => some 0#64
  | .pblk p n pat => some (packP 0x01#7 p n pat 0#42)
  | .br off => encJ 0x02#7 0#6 off
  | .brc cc a (.reg b) off => some (packJ 0x03#7 a b cc.code 0#1 off 0#8)
  | .brc cc a (.imm n) off => some (packJ 0x03#7 a n cc.code 1#1 off 0#8)
  | .call a off => encJ 0x04#7 a off
  | .ret => encJ 0x05#7 0#6 0#32
  | .jr a off => encJ 0x06#7 a off
  | .loop a off => encJ 0x07#7 a off
  | .callc a off => encJ 0x08#7 a off
  | .phase a imm => encI 0x09#7 0#6 0#6 a imm 0#7
  | .spawn a => encR 0x0A#7 0#8 0#6 a 0#6 0#6
  | .done => encR 0x0B#7 0#8 0#6 0#6 0#6 0#6
  | .launch a => encR 0x0C#7 0#8 0#6 a 0#6 0#6
  | .gjoin g => encQ 0x0D#7 0#8 0#6 g.aBits 0#6 0#6 g.qBits
  | .gleave g => encQ 0x0D#7 1#8 0#6 g.aBits 0#6 0#6 g.qBits
  | .gbar g => encQ 0x0D#7 2#8 0#6 g.aBits 0#6 0#6 g.qBits
  | .gsize d g => encQ 0x0D#7 3#8 d g.aBits 0#6 0#6 g.qBits
  | .grank d g => encQ 0x0D#7 4#8 d g.aBits 0#6 0#6 g.qBits
  | .rvz => encR 0x0E#7 0#8 0#6 0#6 0#6 0#6
  | .qdrop q a => encQ 0x0E#7 1#8 0#6 a 0#6 0#6 (0#23 ++ q.code)
  | .tickRead d => encR 0x0E#7 2#8 d 0#6 0#6 0#6
  | .sysc imm => encI 0x0F#7 0#6 0#6 0#6 (0#16 ++ imm) 0#7
  | .tret skip => encI 0x0F#7 1#6 0#6 0#6 0#32 (0#6 ++ bitOf skip)
  | .ctxsv a => encI 0x0F#7 2#6 0#6 a 0#32 0#7
  | .ctxld a => encI 0x0F#7 3#6 0#6 a 0#32 0#7
  | .tlbinv .page d a c => encI 0x0F#7 4#6 d a (0#26 ++ c) 0#7
  | .tlbinv .ctx d a c => encI 0x0F#7 4#6 d a (0#26 ++ c) 1#7
  | .tlbinv .all d a c => encI 0x0F#7 4#6 d a (0#26 ++ c) 2#7
  | .bkpt imm => encI 0x0F#7 5#6 0#6 0#6 (0#16 ++ imm) 0#7
  | .wfe d a imm => encI 0x0F#7 6#6 d a imm 0#7
  | .keyset a key => encI 0x0F#7 7#6 0#6 a (0#26 ++ key) 0#7
  | .add d a b => encR 0x10#7 0#8 d a b 0#6
  | .sub d a b => encR 0x10#7 1#8 d a b 0#6
  | .and d a b => encR 0x10#7 2#8 d a b 0#6
  | .or d a b => encR 0x10#7 3#8 d a b 0#6
  | .xor d a b => encR 0x10#7 4#8 d a b 0#6
  | .andn d a b => encR 0x10#7 5#8 d a b 0#6
  | .shl d a b => encR 0x10#7 6#8 d a b 0#6
  | .shr d a b => encR 0x10#7 7#8 d a b 0#6
  | .sar d a b => encR 0x10#7 8#8 d a b 0#6
  | .rotl d a b => encR 0x10#7 9#8 d a b 0#6
  | .slt d a b => encR 0x10#7 10#8 d a b 0#6
  | .sltu d a b => encR 0x10#7 11#8 d a b 0#6
  | .min d a b => encR 0x10#7 12#8 d a b 0#6
  | .max d a b => encR 0x10#7 13#8 d a b 0#6
  | .minu d a b => encR 0x10#7 14#8 d a b 0#6
  | .maxu d a b => encR 0x10#7 15#8 d a b 0#6
  | .sel d a b c => encR 0x10#7 16#8 d a b c
  | .clz d a => encR 0x10#7 17#8 d a 0#6 0#6
  | .ctz d a => encR 0x10#7 18#8 d a 0#6 0#6
  | .popc d a => encR 0x10#7 19#8 d a 0#6 0#6
  | .bswap d a => encR 0x10#7 20#8 d a 0#6 0#6
  | .addi d a imm => encI 0x11#7 0#6 d a imm 0#7
  | .andi d a imm => encI 0x11#7 1#6 d a imm 0#7
  | .ori d a imm => encI 0x11#7 2#6 d a imm 0#7
  | .xori d a imm => encI 0x11#7 3#6 d a imm 0#7
  | .shli d a n => encI 0x11#7 4#6 d a (0#26 ++ n) 0#7
  | .shri d a n => encI 0x11#7 5#6 d a (0#26 ++ n) 0#7
  | .sari d a n => encI 0x11#7 6#6 d a (0#26 ++ n) 0#7
  | .slti d a imm => encI 0x11#7 7#6 d a imm 0#7
  | .sltiu d a imm => encI 0x11#7 8#6 d a imm 0#7
  | .mul d a b => encR 0x12#7 0#8 d a b 0#6
  | .mulh d a b => encR 0x12#7 1#8 d a b 0#6
  | .mulhu d a b => encR 0x12#7 2#8 d a b 0#6
  | .div d a b => encR 0x12#7 3#8 d a b 0#6
  | .divu d a b => encR 0x12#7 4#8 d a b 0#6
  | .rem d a b => encR 0x12#7 5#8 d a b 0#6
  | .remu d a b => encR 0x12#7 6#8 d a b 0#6
  | .limm d imm => encI 0x13#7 0#6 d 0#6 imm 0#7
  | .limmh d a imm => encI 0x13#7 1#6 d a imm 0#7
  | .bank d a => encR 0x14#7 0#8 d a 0#6 0#6
  | .rowof d a => encR 0x14#7 1#8 d a 0#6 0#6
  | .lword d a => encR 0x14#7 2#8 d a 0#6 0#6
  | .movsr d r => encI 0x15#7 0#6 d 0#6 (0#20 ++ r.code) 0#7
  | .movrs r a => encI 0x15#7 1#6 0#6 a (0#20 ++ r.code) 0#7
  | .ld k d a disp => encM 0x20#7 (0#3 ++ k.code) d a 0#6 0#3 0#2 disp 0#4
  | .st k b a disp => encM 0x21#7 (0#4 ++ k.code) 0#6 a b 0#3 0#2 disp 0#4
  | .ldacq k sc d a disp => encM 0x22#7 0#6 d a 0#6 sc.code 1#2 disp (0#1 ++ k.code)
  | .strel k sc b a disp => encM 0x23#7 0#6 0#6 a b sc.code 2#2 disp (0#2 ++ k.code)
  | .amoAdd z o sc d a b disp => encM 0x24#7 0#6 d a b sc.code o.code disp (0#2 ++ z.code)
  | .amoAnd z o sc d a b disp => encM 0x24#7 1#6 d a b sc.code o.code disp (0#2 ++ z.code)
  | .amoOr z o sc d a b disp => encM 0x24#7 2#6 d a b sc.code o.code disp (0#2 ++ z.code)
  | .amoXor z o sc d a b disp => encM 0x24#7 3#6 d a b sc.code o.code disp (0#2 ++ z.code)
  | .amoMin z o sc d a b disp => encM 0x24#7 4#6 d a b sc.code o.code disp (0#2 ++ z.code)
  | .amoMax z o sc d a b disp => encM 0x24#7 5#6 d a b sc.code o.code disp (0#2 ++ z.code)
  | .amoMinu z o sc d a b disp => encM 0x24#7 6#6 d a b sc.code o.code disp (0#2 ++ z.code)
  | .amoMaxu z o sc d a b disp => encM 0x24#7 7#6 d a b sc.code o.code disp (0#2 ++ z.code)
  | .amoSwap z o sc d a b disp => encM 0x24#7 8#6 d a b sc.code o.code disp (0#2 ++ z.code)
  | .cas z o sc d a b disp => encM 0x25#7 0#6 d a b sc.code o.code disp (0#2 ++ z.code)
  | .fence .acq sc => encM 0x26#7 0#6 0#6 0#6 0#6 sc.code 1#2 0#24 0#4
  | .fence .rel sc => encM 0x26#7 0#6 0#6 0#6 0#6 sc.code 2#2 0#24 0#4
  | .fence .ar sc => encM 0x26#7 0#6 0#6 0#6 0#6 sc.code 3#2 0#24 0#4
  | .fence .sc sc => encM 0x26#7 0#6 0#6 0#6 0#6 sc.code 3#2 0#24 1#4
  | .waitc g s c a k => encI 0x27#7 0#6 0#6 0#6 (0#12 ++ k ++ a ++ c ++ s ++ g) 0#7
  | .stwin n a b c => encQ 0x28#7 0#8 0#6 a b c (0#22 ++ n)
  | .stfl w => encQ 0x28#7 1#8 0#6 0#6 0#6 0#6 w.qBits
  | .stinv w => encQ 0x28#7 2#8 0#6 0#6 0#6 0#6 w.qBits
  | .pfh .llc a b disp => encM 0x29#7 0#6 0#6 a b 0#3 0#2 disp 0#4
  | .pfh .l2 a b disp => encM 0x29#7 0#6 0#6 a b 0#3 0#2 disp 1#4
  | .pfh .lz4 a b disp => encM 0x29#7 0#6 0#6 a b 0#3 0#2 disp 2#4
  | .cpset e level a b c => encE 0x2A#7 0#4 0#6 a b c (0#17 ++ level) (0#1 ++ e.code ++ 0#7)
  | .cpgo e demand bound d a b c => encE 0x2A#7 1#4 d a b c bound (bitOf demand ++ e.code ++ 0#7)
  | .tagwany d a => encR 0x2B#7 0#8 d a 0#6 0#6
  | .tagwall a => encR 0x2B#7 1#8 0#6 a 0#6 0#6
  | .tagffr d a => encR 0x2B#7 2#8 d a 0#6 0#6
  | .tagclr a => encR 0x2B#7 3#8 0#6 a 0#6 0#6
  | .barinit b a disp => encM 0x2C#7 0#6 0#6 a b 0#3 0#2 disp 0#4
  | .barexp b a disp => encM 0x2C#7 1#6 0#6 a b 0#3 0#2 disp 0#4
  | .bararv sc b a disp => encM 0x2C#7 2#6 0#6 a b sc.code 0#2 disp 0#4
  | .barwt sc d a b disp => encM 0x2C#7 3#6 d a b sc.code 0#2 disp 0#4
  | .bargen d a disp => encM 0x2C#7 4#6 d a 0#6 0#3 0#2 disp 0#4
  | .vadd r z d a b => encQ 0x30#7 0#8 d.code a.code b.code 0#6 (qRS r z)
  | .vsub r z d a b => encQ 0x30#7 1#8 d.code a.code b.code 0#6 (qRS r z)
  | .vmul r z d a b => encQ 0x30#7 2#8 d.code a.code b.code 0#6 (qRS r z)
  | .vfma r z d a b c => encQ 0x30#7 3#8 d.code a.code b.code c.code (qRS r z)
  | .vfms r z d a b c => encQ 0x30#7 4#8 d.code a.code b.code c.code (qRS r z)
  | .vmin d a b => encR 0x30#7 5#8 d.code a.code b.code 0#6
  | .vmax d a b => encR 0x30#7 6#8 d.code a.code b.code 0#6
  | .vabs d a => encR 0x30#7 7#8 d.code a.code 0#6 0#6
  | .vneg d a => encR 0x30#7 8#8 d.code a.code 0#6 0#6
  | .vcps d a b => encR 0x30#7 9#8 d.code a.code b.code 0#6
  | .vmov d a => encR 0x30#7 10#8 d.code a.code 0#6 0#6
  | .vsel d a b p => encR 0x30#7 11#8 d.code a.code b.code (predCode p)
  | .vrcp r z d a => encQ 0x31#7 0#8 d.code a.code 0#6 0#6 (qRS r z)
  | .vrsq r z d a => encQ 0x31#7 1#8 d.code a.code 0#6 0#6 (qRS r z)
  | .vsqrt r z d a => encQ 0x31#7 2#8 d.code a.code 0#6 0#6 (qRS r z)
  | .vdiv r z d a b => encQ 0x31#7 3#8 d.code a.code b.code 0#6 (qRS r z)
  | .vexp2 r z d a => encQ 0x31#7 4#8 d.code a.code 0#6 0#6 (qRS r z)
  | .vlog2 r z d a => encQ 0x31#7 5#8 d.code a.code 0#6 0#6 (qRS r z)
  | .viadd z d a b => encQ 0x32#7 0#8 d.code a.code b.code 0#6 (qRS .rne z)
  | .visub z d a b => encQ 0x32#7 1#8 d.code a.code b.code 0#6 (qRS .rne z)
  | .vimul z d a b => encQ 0x32#7 2#8 d.code a.code b.code 0#6 (qRS .rne z)
  | .vimin d a b => encR 0x32#7 3#8 d.code a.code b.code 0#6
  | .vimax d a b => encR 0x32#7 4#8 d.code a.code b.code 0#6
  | .vshl d a n => encQ 0x32#7 5#8 d.code a.code n.fieldBits 0#6 n.qBits
  | .vshr d a n => encQ 0x32#7 6#8 d.code a.code n.fieldBits 0#6 n.qBits
  | .vsar d a n => encQ 0x32#7 7#8 d.code a.code n.fieldBits 0#6 n.qBits
  | .vfsh d a b n => encQ 0x32#7 8#8 d.code a.code b.code n.fieldBits n.qBits
  | .vlut3 d a b c t => encQ 0x32#7 9#8 d.code a.code b.code c.code (0#17 ++ t)
  | .vpopc d a => encR 0x32#7 10#8 d.code a.code 0#6 0#6
  | .vclz d a => encR 0x32#7 11#8 d.code a.code 0#6 0#6
  | .vfcmp cc d a b => encQ 0x33#7 0#8 (predCode d) a.code b.code 0#6 (0#22 ++ cc.code)
  | .vicmp cc d a b => encQ 0x33#7 1#8 (predCode d) a.code b.code 0#6 (0#22 ++ cc.code)
  | .plut3 d a b c t => encQ 0x33#7 2#8 (predCode d) (predCode a) (predCode b) (predCode c) (0#17 ++ t)
  | .pcnt d a => encR 0x33#7 3#8 d (predCode a) 0#6 0#6
  | .pfirst d a => encR 0x33#7 4#8 d (predCode a) 0#6 0#6
  | .vbcast d a b => encR 0x34#7 0#8 d.code a b 0#6
  | .vextr d a b => encR 0x34#7 1#8 d a.code b 0#6
  | .vins d a b c => encR 0x34#7 2#8 d.code a.code b c
  | .vperm d a b c => encR 0x34#7 3#8 d.code a.code b.code c.code
  | .vrotl d a n => encQ 0x34#7 4#8 d.code a.code n.fieldBits 0#6 n.qBits
  | .vzip d a b h => encQ 0x34#7 5#8 d.code a.code b.code 0#6 (0#24 ++ bitOf h)
  | .vrsum r d a => encQ 0x35#7 0#8 d.code a.code 0#6 0#6 (qRS r false)
  | .vrmax d a => encR 0x35#7 1#8 d.code a.code 0#6 0#6
  | .vrmin d a => encR 0x35#7 2#8 d.code a.code 0#6 0#6
  | .vrisum z d a => encQ 0x35#7 3#8 d.code a.code 0#6 0#6 (qRS .rne z)
  | .vcvt r z dst src d a => encQ 0x36#7 0#8 d.code a.code 0#6 0#6 (packQ r.code (bitOf z) dst src 0#12)
  | .vqnt r dst d a b => encQ 0x36#7 1#8 d.code a.code b.code 0#6 (packQ r.code 0#1 dst 0#5 0#12)
  | .vscacc r z src d a b c => encQ 0x36#7 2#8 d.code a.code b.code c.code (packQ r.code (bitOf z) 0#5 src 0#12)
  | .vldexp r z d a b => encQ 0x36#7 3#8 d.code a.code b.code 0#6 (qRS r z)
  | .vstatClr a => encR 0x37#7 0#8 0#6 a 0#6 0#6
  | .vstatAcc a b => encQ 0x37#7 0#8 0#6 a b.code 0#6 1#25
  | .vstatFin a c => encQ 0x37#7 0#8 0#6 a 0#6 c 2#25
  | .vstld f d a => encQ 0x37#7 1#8 d.code a 0#6 0#6 (0#23 ++ f.code)
  | .vld d a disp => encM 0x38#7 0#6 d.code a 0#6 0#3 0#2 disp 0#4
  | .vst b a disp => encM 0x38#7 1#6 0#6 a b.code 0#3 0#2 disp 0#4
  | .vlds d a (.reg disp r) => encM 0x38#7 2#6 d.code a r 0#3 0#2 disp 0#4
  | .vlds d a (.imm z) => encM 0x38#7 2#6 d.code a 0#6 0#3 0#2 z 1#4
  | .vsts b a (.reg disp r) => encM 0x38#7 3#6 r a b.code 0#3 0#2 disp 0#4
  | .vsts b a (.imm z) => encM 0x38#7 3#6 0#6 a b.code 0#3 0#2 z 1#4
  | .vpush a p => encR 0x39#7 0#8 0#6 a.code (predCode p) 0#6
  | .vpop d => encR 0x39#7 1#8 d.code 0#6 0#6 0#6
  | .vstrc a => encR 0x39#7 2#8 0#6 a 0#6 0#6
  | .amap dm bound a b => encE 0x60#7 0#4 0#6 a b 0#6 bound (qD dm)
  | .aang dm bound a b => encE 0x60#7 1#4 0#6 a b 0#6 bound (qD dm)
  | .acfg bound a b => encE 0x60#7 2#4 0#6 a b 0#6 bound 0#9
  | .arun bound a => encE 0x61#7 0#4 0#6 a 0#6 0#6 bound 0#9
  | .arunv dm bound fmt a b c => encE 0x61#7 1#4 0#6 a b c bound (bitOf dm ++ 0#3 ++ fmt)
  | .agrad bound a => encE 0x61#7 2#4 0#6 a 0#6 0#6 bound 0#9
  | .avec dm bound a b c => encE 0x62#7 0#4 0#6 a b c bound (qD dm)
  | .aprod dm bound q1 d a b c => encE 0x63#7 0#4 d a b (if q1 then 0#6 else c) bound (bitOf dm ++ 0#7 ++ bitOf q1)
  | .anorm dm bound a => encE 0x64#7 0#4 0#6 a 0#6 0#6 bound (qD dm)
  | .asave dm bound a => encE 0x64#7 1#4 0#6 a 0#6 0#6 bound (qD dm)
  | .ares dm bound a => encE 0x64#7 2#4 0#6 a 0#6 0#6 bound (qD dm)
  | .astat dm bound clr a => encE 0x64#7 3#4 0#6 a 0#6 0#6 bound (bitOf dm ++ 0#7 ++ bitOf clr)
  | .skinit bound d => encE 0x70#7 0#4 d 0#6 0#6 0#6 bound 0#9
  | .skupd dm bound d a b => encE 0x70#7 1#4 d a b 0#6 bound (qD dm)
  | .skqry dm bound d a b c => encE 0x70#7 2#4 d a b c bound (qD dm)
  | .skadd bound d a b c => encE 0x70#7 3#4 d a b c bound 0#9
  | .sksq dm bound d a b c => encE 0x70#7 4#4 d a b c bound (qD dm)
  | .skopt dm bound a b c => encE 0x70#7 5#4 0#6 a b c bound (qD dm)
  | .elcat d a b => encR 0x74#7 0#8 d a b 0#6
  | .elflt a b c => encR 0x74#7 1#8 0#6 a b c
  | .elrbs a b c => encR 0x74#7 2#8 0#6 a b c
  | .elapp .plain a => encR 0x74#7 3#8 0#6 a 0#6 0#6
  | .elapp (.rel sc) a => encQ 0x74#7 3#8 0#6 a 0#6 0#6 (0#21 ++ sc.code ++ 1#1)
  | .eldrop a => encR 0x74#7 4#8 0#6 a 0#6 0#6
  | .ellen d a => encR 0x74#7 5#8 d a 0#6 0#6
  | .elget d a b => encR 0x74#7 6#8 d a b 0#6
  | .registerWriteLanding .. | .waitEnd .. | .trapEntry .. | .globalLoadComplete .. | .globalStoreAccept ..
  | .stashLineFill .. | .stashRemoteAccess .. | .stashLineRelease .. | .spawnPush .. | .launchWindowWrite ..
  | .gangPacketArrival .. | .gangMemberStart .. | .coreFreeSchedule .. | .strandRetire .. | .groupOperationAtHome ..
  | .barrierOperationAtHome .. | .latticeCommandBegin .. | .latticeQueueTransfer .. | .latticeStop ..
  | .copyCommandBegin .. | .streamCopyStart .. | .copyComplete .. | .copyStop .. | .sketchCommandBegin ..
  | .sketchStop .. | .mortarUpdate .. | .splitkPartialArrival .. | .splitkMergeTimeout .. | .engineCommandRetire ..
  | .boundOverrun .. | .elUnitWork .. | .elStop .. | .listHandleWrite .. | .tlbinvComplete ..
  | .keysetSwitchComplete .. | .demandFill .. | .hostBar4Access .. | .backInvalidateResponse .. | .hostWriteback ..
  | .preemption .. | .dieLoss .. | .uncorrectableError .. | .mgclaim .. | .mghand .. | .ownershipLapse
  | .contextDescriptorWrite .. | .partitionRecordWrite .. | .poolDecoderWrite .. | .domainWrite .. | .bar4sizeWrite ..
  | .hostordWrite .. | .managementWrite .. | .preemptAndHold .. | .endHold .. | .checkpoint .. | .restoreCheckpoint ..
  | .debugReadMemory .. | .debugWriteMemory .. | .debugReadRegister .. | .haltDie .. | .resumeDie ..
  | .attestationRequest .. | .attestationReportReady | .powerCapWrite .. | .capResolve | .clockThrottleWindow
  | .activityWindow | .thermalLimit .. | .thermalShutdown | .fwaddrWrite .. | .firmwareVerifyComplete ..
  | .packageReset .. | .hostPortTraining .. | .poolPortTraining .. | .poolPortDown .. | .poolPortNarrowed ..
  | .slathenFlitReceive .. | .slathenNakReceive .. | .slathenAckReceive .. | .slathenLaneFailure ..
  | .slathenLinkDown .. | .slathenPortTraining .. | .hostPortConventionalReset | .temperatureFallsBelowLimit .. => none

/-- The word of an instruction, zero for a step of the package: what TRAPINFO0 holds for the causes that R390 gives W. -/
def wordOf (i : Instr) : Word := (encode i).getD 0#64

/-! ### Bytes of memory (R47) -/

/-- The little-endian word that eight bytes spell. -/
def wordOfBytes (bs : List Byte) : Word :=
  bs.foldr (fun (b : Byte) (acc : Word) => (acc <<< 8) ||| b.setWidth 64) 0#64

/-- The n low bytes of a number, least significant first. -/
def bytesOfNat : Nat → Nat → List Byte
  | 0, _ => []
  | n + 1, v => BitVec.ofNat 8 v :: bytesOfNat n (v / 256)

/-- The instruction that a row's bits, numbered as the opcode table numbers them, decode to. Every word of this part is
64 bits; the bits above nbits are zero. -/
def decodeTableWord (nbits w : Nat) : Option Instr :=
  match decode (wordOfBytes (bytesOfNat 8 (w % 2 ^ nbits))) with
  | .ok i => some i
  | .error _ => none

end Sys2Proof
end

