-- ==== Sys2Proof/Config.lean ====
section
/-! DEFINITION. What one part fixes and the specification leaves open: opaque constants without a value, so that no
proof can rest on one, and the numbers of the machine (R8, R9, R35, R338). -/

namespace Sys2Proof.Config

/-! ### Free values (R2; assumption 1) -/

/-- The bytes of an undefined value (R2). The argument is the state's counter `fresh`, advanced at each use. -/
opaque freeByte : Nat → Byte

/-- What a line written under an identifier's old key pair reads as under its new one (R411): a function of the two pairs, the
line number and the line's data. -/
opaque otherKey : BitVec 512 → BitVec 512 → Nat → Line → Line

/-- Whether a translation that the package holds is used rather than walked again (R407), at each consultation. -/
opaque usesHeld : Nat → Bool

/-- Whether a fetch of a word that a store has changed, with no FENCE since, returns the old word (R129). -/
opaque fetchesOld : Nat → Bool

/-- Whether a read finds the older value of a unit that an engine of its core has written and no wait has acquired (R199, R285,
R320). -/
opaque findsOld : Nat → Bool

/-- The size of BAR4 that the host selects at a training or a conventional reset of its port, counted up from 1 GiB (R423). -/
opaque bar4Selected : Nat → Nat

/-- The CRC and FEC check bytes of a flit's first 244 bytes (R427). -/
opaque flitCheck : BitVec 1952 → BitVec 96

/-- The payload that carries a launch packet of a context, or a request for an address, whose layout no rule gives (R427). -/
opaque flitPayload : Bool → Nat → BitVec 512 → BitVec 1888

/-- The credits that a flit returns, by the port and the place of the flit among those that it has sent (R427). -/
opaque flitCredits : Nat → Nat → BitVec 32

/-- Whether a write of a copy in lattice phases meets a lattice write at a bank (R41). -/
opaque collides : Nat → Bool

/-- Whether a sketch command's bound runs out before the next element of its draining by a pre-emption (R391, R445). -/
opaque boundEnds : Nat → Bool

/-- Operations of the members of a gang on other packages, as rank, group and kind, that its groups' homes have applied since
they were last looked at (R254 to R256). -/
opaque remoteGroupOps : Nat → List (Nat × Nat × Nat)

/-! ### Constants of a part (R383, R440) -/

/-- The corrected errors of a unit that a record of the error log counts, by the number of records before it (R395, R396). -/
opaque correctedErrors : Nat → Nat → Nat

/-- The Slathen port, among those in service, that carries a request for another package's memory, by the line that it asks for
(R399). -/
opaque requestPort : Nat → Nat

/-- What the package counts in a window of a core's events that depend on the L2 and on the phases of slot B (R441): by the
counter `fresh`, the core and the event. -/
opaque hiddenCounts : Nat → Nat → Nat → Nat

/-- How many cores of a context's partition serve on the package at a domain position, at a time (R250). -/
opaque remoteServing : Nat → Nat → Nat → Nat

/-- The digest of the image that the part boots with (R437). -/
opaque bootDigest : BitVec 256

/-- Byte i of the identity public key of the part that runs an image of the given digest (R383). -/
opaque identityKey : BitVec 256 → Nat → Byte

/-- The activity weights that the fuses of the part hold (R440). -/
opaque fusedWeight : Nat → BitVec 16

/-- The length of the vendor certificate, taken modulo its space of 2,776 bytes plus one (R434). -/
opaque certificateLength : Nat

/-- Byte i of the vendor certificate (R434). -/
opaque certificate : Nat → Byte

/-- Byte i of the hedged ML-DSA-44 signature over a digest; the first argument is the counter `fresh` (R383). -/
opaque signature : Nat → BitVec 256 → Nat → Byte

/-! ### Numbers of the machine -/

/-- Core positions of the package (R9). -/
def cores : Nat := 128

/-- Highest offset of the scratchpad plus one (R35). -/
def scratchBytes : Nat := 4063232

/-- Bytes of a stripe (R37). -/
def stripe : Nat := 1984

/-- Entries of a queue (R29), and commands of an engine queue (R258). -/
def queueDepth : Nat := 32

/-- The fraction of ten nanoseconds that time is counted in: a common multiple of every clock from 1.0 to 3.3 GHz in
steps of 100 MHz, so that a cycle of each is a whole number of units (R17, R439). -/
def timeUnits : Nat := 144403552893600

/-- The units of one cycle of a clock given in units of 100 MHz (R437). -/
def cycleUnits (clock : Nat) : Nat := timeUnits / clock

/-- The fabric timebase in 1 ns ticks at a time in units (R17, R276). -/
def ticksOf (time : Nat) : Nat := time * 10 / timeUnits

/-- The first time at which the timebase reads n or more. -/
def timeOfTick (n : Nat) : Nat := (n * timeUnits + 9) / 10

/-- The hub clock in units of 100 MHz (R17). -/
def hubClock : Nat := 22

/-- The retire token (R110). -/
def retireToken : Word := 0x7FFFFFFFFFFFFFF8#64

/-- Bytes of one core image in a save area (R393). -/
def imageBytes : Nat := 0x420000

end Sys2Proof.Config
end

