-- ==== Sys2Proof/Machine/State.lean ====
section
/-! DEFINITION. The state of a DA-72 package as plain data, why a step can stop, and the state after reset.
INVENTORY.md lists each field with its rule and its reset value. -/

namespace Sys2Proof.Machine

/-! ### Why a step can stop -/

/-- The faults of the machine. -/
inductive Fault where
  /-- Raised by `step` alone, when the die power has been removed at 115 °C (R442) and no event is scheduled: nothing
  executes until a package reset. Safe: the machine stops where the hardware stands still. -/
  | powerRemoved
deriving DecidableEq, Repr

/-- The refusals of the machine. -/
inductive Refusal where
  /-- Raised by an arm of `exec` whose instruction has no meaning yet. Safe: no claim about its effect can be proved. -/
  | notModelled (mnemonic : String)
deriving DecidableEq, Repr

/-! ### Bytes -/

/-- Bytes by address, in one canonical form: addresses strictly rising, no zero byte listed. An unlisted address reads
as zero (assumption 4). -/
structure Memory where
  cells : List Host.Cell
deriving DecidableEq, Repr

/-- The canonical form of a list of cells. -/
def cellsWf : List Host.Cell → Bool
  | [] => true
  | [c] => c.2 != 0#8
  | c :: d :: r => c.2 != 0#8 && decide (c.1 < d.1) && cellsWf (d :: r)

/-- The canonical form of a memory. -/
def Memory.wf (m : Memory) : Bool := cellsWf m.cells

def Memory.empty : Memory := ⟨[]⟩

/-! ### Translations -/

/-- One translated page (R278, R375): context, first virtual byte, log2 of the size, first physical byte with the home
device above bit 52 (0 pool, 1 host, 2 another package), key, owner, permissions, cacheability. -/
structure Page where
  ctx : Nat
  vbase : Nat
  bits : Nat
  pbase : Nat
  key : BitVec 6
  owner : BitVec 6
  x : Bool
  w : Bool
  r : Bool
  c : Bool
deriving DecidableEq, Repr

/-! ### Parts of a core -/

/-- Where a write in flight goes (R22, R33, R132, R121): a scalar register, the selected lanes of a vector or predicate
slot, a reserved place of a queue, a system register. -/
inductive Landing where
  | x (r : Reg) (v : Word)
  | v (slot : Nat) (mask : PredImg) (img : VecImg)
  | p (slot : Nat) (mask : PredImg) (img : PredImg)
  | fill (q : QNum) (ticket : Nat) (img : VecImg)
  | sys (r : SysReg) (v : Word)
deriving DecidableEq, Repr

/-- A write in flight: the cycle it lands in and the place of its instruction in the core's issue order; the list of them
stands in issue order (R22, R23). -/
structure InFlight where
  land : Nat
  order : Nat
  dest : Landing
deriving DecidableEq, Repr

/-- An entry of a queue: open while its image is missing (R132). Bit g of poison: 8-byte granule g is poisoned (R395). -/
structure QEntry where
  ticket : Nat
  img : Option VecImg
  poison : BitVec 64
deriving DecidableEq, Repr

/-- An open prefix block (R61, R62): the predicate and its value read at the PBLK, words left, pattern. -/
structure Block where
  pred : PReg
  value : PredImg
  left : Nat
  pat : BitVec 8
deriving DecidableEq, Repr

/-- An 8-byte granule of a core's state that is poisoned (R395), or a sketch counter at a scratchpad offset within a stashed line,
poisoned with its clip bit (R226). -/
inductive Granule where
  | x (r : Reg)
  | v (slot g : Nat)
  | p (slot g : Nat)
  | buffer (g : Nat)
  | scratch (g : Nat)
  | map (entry g : Nat)
  | stat (entry g : Nat)
  | pair (offset : Nat)
deriving DecidableEq, Repr

/-- A trap: cause, engine bit and information words (R389, R390). -/
structure Trap where
  cause : BitVec 5
  engine : Bool
  info0 : Word
  info1 : Word
  info2 : Word
  info3 : Word
deriving DecidableEq, Repr

/-- What a pending trap stopped, if anything: the head of an engine queue or the head of the effect-list unit. -/
inductive Stopped where
  | none
  | engine (q : EngineQ)
  | el
deriving DecidableEq, Repr

/-- A pending trap (R388). Rank: 0 die loss, 1 pre-emption, 2 to 5 engines in the order L, C0, C1, K, 6 reopened stash
windows and late completions, 7 debug; order within a rank. -/
structure Pending where
  rank : Nat
  order : Nat
  trap : Trap
  stopped : Stopped
deriving DecidableEq, Repr

/-- The read-modify-write operations of AMO (R304). -/
inductive AmoOp where
  | add | and | or | xor | min | max | minu | maxu | swap
deriving DecidableEq, Repr

/-- An outstanding operation of classes G and S (R26), a fence that still orders others, or a stash write-back. -/
inductive GKind where
  | load (k : LoadKind)
  | store
  | amo (op : AmoOp) (w : AmoSize)
  | cas (w : AmoSize) (expected : Word)
  | barInit | barExp | barArv | barGen
  | spawn (record : BitVec 256)
  | launch (packet : Line)
  | gjoin (g : Nat) | gleave (g : Nat) | gbar (g : Nat) | gsize (g : Nat) | grank (g : Nat)
  | tlbinv (kind : TlbKind) (ctx : Nat)
  | keyset (key : BitVec 6) (pair : BitVec 512)
  | fence (kind : FenceKind)
  | writeback
  | handle
deriving DecidableEq, Repr

/-- An outstanding operation: its word's address, its place in the core's issue order and in the package's order of
issue, virtual and physical address, size in bytes, data, destination, the scopes of its acquire and release parts
(R288), the bytes that collected stores supply (R342), the bytes already read from the core's own stash
with the poison of those that no collected store supplies (R125), whether bytes that collected stores supply are poisoned,
whether the link that carries its request has gone down (R399), and whether a write has followed what it read of its own
core's stash (R410). -/
structure GOp where
  kind : GKind
  pc : Word
  order : Nat
  serial : Nat
  page : Option Page
  va : Word
  pa : Nat
  size : Nat
  data : Word
  dst : Reg
  acquire : Option Scope
  release : Option Scope
  overlay : List (Option Byte)
  got : Option (List Byte × Bool)
  tainted : Bool
  lost : Bool
  overtaken : Bool
deriving DecidableEq, Repr

/-- What a waiting instruction waits for (R28). -/
inductive Wait where
  | entry (q : QNum)
  | engine (q : EngineQ)
  | classes (g s c a k : BitVec 4)
  | tagsAny (m : Word)
  | tagsAll (m : Word)
  | barrier (pa : Nat) (key : BitVec 6) (gen : BitVec 32)
  | group
  | event
  | drain
  | retire
  | stash (win line : Nat)
deriving DecidableEq, Repr

/-- A WFE that has issued: its destination, the tick of its issue, its timeout, its watched line, the events seen (R409). -/
structure WfeRec where
  dst : Reg
  tick : Nat
  timeout : Nat
  line : Option Nat
  seen : BitVec 5
deriving DecidableEq, Repr

/-- A GBAR whose arrival has been sent (R272), in order of arrival: its word's address (none: its strand went on without
it), its group, whether a supervisor issued it, whether its episode has completed. -/
structure GbarRec where
  pc : Option Word
  group : Nat
  super : Bool
  finished : Bool
deriving DecidableEq, Repr

/-- A BARWT that has issued (R327): its word's address, whether a supervisor issued it,
the object's address, the generation that it presented, and the generation that it has observed past it. -/
structure BarwtRec where
  pc : Word
  super : Bool
  pa : Nat
  gen : BitVec 32
  seen : Option (BitVec 32)
deriving DecidableEq, Repr

/-- How far an engine command has come (R258, R203, R321). -/
inductive CmdStatus where
  | queued
  | running
  | stopped
deriving DecidableEq, Repr

/-- One level of a copy nest (R314). -/
structure NestLevel where
  count : BitVec 32
  src : Word
  dst : Word
deriving DecidableEq, Repr

/-- A stage as a pass fetched it (R190, R191): whether it scales, its pairing map, its angles as A32 values or its factors,
the index of its first parameter. -/
structure Stage where
  scale : Bool
  map : BitVec 1024
  par : List Lane
  first : Word
deriving DecidableEq, Repr

/-- The progress of a running or stopped engine command: elements, vectors, eliminations, chunks or copies completed;
panels or passes; vectors of the open pass; the vectors of the open block; the rows of a panel or the accumulators of a
reverse pass; the stages that the open pass fetched; the words waiting for an output entry, or for a sketch command the
lines read when it began; norm sums; angles skipped; the command that a record names, where it is not the queue's own (R212);
whether a TRET has resumed the command, so that its record is to be read; entries already pushed of an output that takes several
(R195, R200, R202, R203); the tickets of the queue entries that a streaming copy has pushed (R283, R319); whether the links that
a part's requests take have let it through (R428). -/
structure Sweep where
  done : Nat
  panel : Nat
  inPass : Nat
  held : List VecImg
  acc : List VecImg
  stages : Option (List Stage)
  out : List Lane
  nin : Word
  nout : Word
  skipped : Nat
  resumed : Option (Word × List Word)
  reload : Bool
  pushed : Nat
  tickets : List Nat
  granted : Bool
deriving DecidableEq, Repr

/-- A byte that a later access of the core has met before an engine command read it: its location, the byte as the command's
reads find it, whether it is poisoned, and whether that access wrote it (R288 row 3, R290). -/
structure OldByte where
  loc : Nat
  byte : Byte
  poisoned : Bool
  written : Bool
deriving DecidableEq, Repr

/-- An engine command (R258): its word and instruction, the operands captured at issue, sequence number, place in the
core's issue order, cycles of bound left (none: no bound), the core's `meter` since which they run (none: the count stands),
the pages pinned at issue, the sketch pages held while it runs, the nest and the QFMT value captured, how many writes of
memory and of the scratchpad were noted before its issue and whether its source is known to have been written since (R283),
the bytes that later accesses of its core have met, as its reads find them; how many commands its queue had been given before it;
whether it has begun, a trap that stops it at its beginning (R448), the reason and the address of the record of its stop (R202). -/
structure Cmd where
  word : Word
  instr : Instr
  d : Word
  a : Word
  b : Word
  c : Word
  seq : BitVec 16
  order : Nat
  left : Option Nat
  since : Option Nat
  pins : List Page
  hold : List Page
  nest : List NestLevel
  qfmt : Word
  noted : Nat × Nat
  spoilt : Bool
  olds : List OldByte
  nth : Nat
  status : CmdStatus
  sweep : Sweep
  begun : Bool
  refused : Option Trap
  stop : Option (Nat × Word)
deriving DecidableEq, Repr

/-- An engine queue (R258): commands, oldest first, the next sequence number, the cycle in which the last command to begin
did so (R260), and its place in the core's issue order; how many commands it has been given. -/
structure EngQueue where
  cmds : List Cmd
  next : BitVec 16
  began : Option Nat
  last : Option Nat
  count : Nat
deriving DecidableEq, Repr

/-- The fields of a bound schedule header (R189) and its address. -/
structure Binding where
  addr : Word
  stages : Nat
  a16 : Bool
  list : Word
  abase : Word
  sbase : Word
  ibase : Word
deriving DecidableEq, Repr

/-- The lattice state of a core (R187, R204, R206, R207). The map store holds entries 9 to 63; entries 0 to 8 are fixed. -/
structure Lattice where
  maps : Vector (BitVec 1024) 64
  binding : Option Binding
  range : Word
  config : Word
  sketch : Word
  save : Word
  lastSeq : BitVec 16
  fault : BitVec 8
  nullPairs : BitVec 16
  recAlt : Bool
  normin : Word
  normout : Word
deriving DecidableEq, Repr

/-- An entry of the statistics buffer (R152): n, s1, s2, m, e, μ, ρ, λ. -/
structure StatEntry where
  n : BitVec 32
  s1 : Lane
  s2 : Lane
  m : Lane
  e : Lane
  mu : Lane
  rho : Lane
  lam : Lane
deriving DecidableEq, Repr

/-- A stashed line of a window: its number within the window and whether it is dirty (R42). -/
structure StashLine where
  line : Nat
  dirty : Bool
deriving DecidableEq, Repr

/-- An open stash window (R310): local offset, global address, length, pages with their in-flight counts raised, lines
stashed. -/
structure StashWin where
  loc : Nat
  glob : Word
  len : Nat
  pages : List Page
  lines : List StashLine
deriving DecidableEq, Repr

/-- The state of a slot of the list table (R338). -/
inductive SlotState where
  | free | opened | live
deriving DecidableEq, Repr

/-- A slot of the list table: generation, state, segments as offset and entry count (R338). -/
structure ListSlot where
  gen : BitVec 12
  state : SlotState
  segs : List (Nat × Nat)
deriving DecidableEq, Repr

/-- The open list of a collecting call (R344, R345): slot, segment start, entries, depth. -/
structure OpenList where
  slot : BitVec 4
  start : Nat
  count : Nat
  depth : Nat
deriving DecidableEq, Repr

/-- Work queued for the effect-list unit (R346): the instruction, the segments of its list, its operands and handle, its
place in issue order, entries done, the counts gathered so far (ELLEN) or the last live global entry (R348), stopped, and
the scratchpad bytes that the core has stored to since (R347). -/
structure ElWork where
  instr : Instr
  segs : List (Nat × Nat)
  b : Word
  c : Word
  handle : BitVec 16
  pc : Word
  order : Nat
  done : Nat
  live : Nat
  malformed : Nat
  stopped : Bool
  later : List Nat
deriving DecidableEq, Repr

/-- A write of n bytes from a location on, noted while a copy command is enqueued (R283), with the core and the place in its
issue order of the instruction that made it; none for any other party. -/
structure NotedWrite where
  loc : Nat
  n : Nat
  own : Option (Nat × Nat)
deriving DecidableEq, Repr

/-- What an engine command of the core has written and no wait of the core has acquired: until then a load of the core may
find what stood there before, one aligned word or byte at a time (R199, R285, R320). The queue of the
command, how many commands the queue had been given before it (R308), its tag, the location, the old bytes, the barrier objects and
generations that counted the write, whether another party has read it, so that it may reach the core through that party
(R289). -/
structure Unseen where
  queue : EngineQ
  nth : Nat
  tag : Nat
  loc : Nat
  old : List Byte
  counted : List (Nat × BitVec 32)
  shown : Bool
deriving DecidableEq, Repr

/-- The strand on a core (R240, R243): the fields of its record, and the gang it belongs to with its rank's index. -/
structure Strand where
  join : Word
  affinity : BitVec 8
  gang : Option Nat
  prio : BitVec 2
  index : BitVec 32
deriving DecidableEq, Repr

/-- A control core with its engines and its scratchpad. `meter` counts the cycles in which no halt freezes its bounds (R21);
`landed` are the writes of registers that landed in the present cycle (R23); `joinDue` the address of the DONE or RET that
stands at its join step (R246); `filled` the lines of windows that have arrived for the access at pc (R281); `wrote` the writes
of the scratchpad made while a copy command is enqueued (R283); `unseen` the writes of its engines that no wait has acquired,
newest first. -/
structure Core where
  num : Nat
  strand : Option Strand
  pc : Word
  cycle : Nat
  meter : Nat
  time : Nat
  issued : Nat
  x : Vector Word 64
  v : Vector VecImg 48
  p : Vector PredImg 16
  vage : Vector (BitVec 6) 32
  page : Vector (BitVec 6) 8
  flight : List InFlight
  landed : List InFlight
  queues : Vector (List QEntry) 8
  ticket : Nat
  buffer : List Lane
  block : Option Block
  super : Bool
  collect : Bool
  pblkPred : BitVec 4
  pblkCount : BitVec 4
  pblkPat : BitVec 8
  vbase : BitVec 5
  pbase : BitVec 3
  vdepth : BitVec 6
  pdepth : BitVec 4
  tags : Word
  tagdrop : Word
  tagDiffers : Word
  tagMalformed : Word
  frame : Word
  strandReg : Word
  elbase : BitVec 22
  elcap : BitVec 22
  qfmt : Vector Word 8
  pace : Vector (BitVec 20) 4
  trapcause : Word
  trappc : Word
  trapinfo : Vector Word 4
  trapvec : Word
  step : Bool
  pending : List Pending
  taken : List Stopped
  ops : List GOp
  lastLoad : Option (Nat × Bool)
  wait : Option Wait
  wfe : Option WfeRec
  gbar : List GbarRec
  barwt : List BarwtRec
  groups : Word
  joinDue : Option Word
  filled : List (Nat × Nat)
  l : EngQueue
  c0 : EngQueue
  c1 : EngQueue
  k : EngQueue
  nest0 : List NestLevel
  nest1 : List NestLevel
  wins : Vector (Option StashWin) 8
  lat : Lattice
  stats : Vector StatEntry 1024
  scratch : Memory
  wrote : List NotedWrite
  unseen : List Unseen
  slots : Vector ListSlot 16
  opened : Option OpenList
  work : List ElWork
  resident : Option Nat
  served : Option Nat
  poison : List Granule
  activity : Vector Nat 48
deriving DecidableEq, Repr

/-! ### Parts of the package -/

/-- A continuation record that passed the checks of R241 (R240). -/
structure ContRec where
  code : Word
  frame : Word
  join : Word
  prio : BitVec 2
  affinity : BitVec 8
  index : BitVec 32
deriving DecidableEq, Repr

/-- A strand that was pre-empted: the core it was saved on, its gang, the lost dies that it has still to be told of. -/
structure Paused where
  core : Nat
  gang : Option Nat
  lost : List (BitVec 4)
deriving DecidableEq, Repr

/-- A context (R370): its 64-byte descriptor, one that is written while the strands of the invalidated one still run, hold,
whether its invalidation has still to be made (R371), the time its last hold ended (the model's own), TOUCHED, the time at which
halts of dies that it has touched began to freeze its bounds (R21), continuation
queues by priority with the counts h of levels 0 to 2, pre-empted strands, cores with a saved resident state, checkpoints
made. -/
structure Context where
  desc : BitVec 512
  rewritten : Option (BitVec 512)
  held : Bool
  closing : Bool
  resumedAt : Nat
  touched : BitVec 10
  frozenAt : Nat
  queues : Vector (List ContRec) 4
  h : Vector Nat 3
  paused : List Paused
  saved : List Nat
  checkpoints : Nat
deriving DecidableEq, Repr

/-- The state of a gang member. -/
inductive MemberState where
  | reserved | running | retired
deriving DecidableEq, Repr

/-- A member of this package's part of a gang (R253). -/
structure Member where
  rank : Nat
  core : Nat
  state : MemberState
deriving DecidableEq, Repr

/-- A group (R255, R256): members by rank, the ranks the open episode awaits, the arrivals, the held arrivals. -/
structure Group where
  id : Nat
  members : List Nat
  awaited : Option (List Nat)
  arrived : List Nat
  next : List Nat
deriving DecidableEq, Repr

/-- An accepted gang (R253, R254): T, whether some member started later, the tick at which the last of them started. -/
structure Gang where
  id : Nat
  ctx : Nat
  packet : Line
  start : Nat
  late : Bool
  last : Nat
  members : List Member
  groups : List Group
deriving DecidableEq, Repr

/-- A split-K partial on its way to its mortar, with its command's place in the core's issue order and the page that it was
translated by (R184, R407). -/
structure Partial where
  ctx : Nat
  core : Nat
  order : Nat
  pa : Nat
  key : BitVec 6
  index : Nat
  n : Nat
  int : Bool
  value : Lane
  page : Page
deriving DecidableEq, Repr

/-- A partial that a mortar holds: its index, whether it is an I32 value, the key identifier of its page (R184). -/
structure HeldPartial where
  index : Nat
  int : Bool
  key : BitVec 6
  value : Lane
deriving DecidableEq, Repr

/-- An open merge (R184 to R186): the key of partial 0's page once it is applied, indices received, partials held, the next
index to apply, the running value, the time that it has been open and since when that time runs (none: the count stands), the
cores that sent, with the places of their commands in the issue orders. -/
structure Merge where
  ctx : Nat
  pa : Nat
  key : BitVec 6
  n : Nat
  received : List Nat
  held : List HeldPartial
  next : Nat
  acc : Lane
  age : Nat
  since : Option Nat
  poisoned : Bool
  senders : List (Nat × Nat)
deriving DecidableEq, Repr

/-- The host port (R422). -/
structure HostPort where
  up : Bool
  pcie6 : Bool
  lanes : Nat
  coherent : Bool
deriving DecidableEq, Repr

/-- A pool port (R425, R426). -/
structure PoolPort where
  up : Bool
  cxl3 : Bool
  lanes : Nat
deriving DecidableEq, Repr

/-- What a data flit carries: a forwarded launch packet with its context (R254), or a request for memory of another package. -/
inductive Transaction where
  | launch (ctx : Nat) (packet : Line)
  | request (pa : Nat)
deriving DecidableEq, Repr

/-- A data flit (R427). -/
structure Flit where
  seq : BitVec 12
  load : Transaction
deriving DecidableEq, Repr

/-- What a Slathen port has sent (R427, R428): a data flit with the sequence number that it acknowledges, a nak, or an idle
flit with an acknowledgement. -/
inductive SlathenSend where
  | data (f : Flit) (acked : BitVec 12)
  | nak (e : BitVec 12)
  | ack (e : BitVec 12)
deriving DecidableEq, Repr

/-- A Slathen port (R427 to R429): trained once, in service, lanes, rate; sender's next number, held flits, and
transactions that wait for a place among them (R428); receiver's expected number, count of accepted flits, and accepted flits
whose packet has not arrived; flits sent, oldest first. -/
structure SlathenPort where
  trained : Bool
  up : Bool
  lanes : Nat
  fast : Bool
  next : BitVec 12
  held : List Flit
  waiting : List Transaction
  expect : BitVec 12
  accepted : Nat
  carried : Nat
  sent : List SlathenSend
deriving DecidableEq, Repr

/-- What the package keeps of a checkpoint beside its region (R400; assumption 38): context, number, region, the ranges of the
context's pages and of its save area in the order in which the region holds them, the strands and gangs that it holds, the
cores with a saved resident state. -/
structure Checkpoint where
  ctx : Nat
  number : Nat
  base : Nat
  ranges : List (Nat × Nat)
  paused : List Paused
  gangs : List Gang
  saved : List Nat
deriving DecidableEq, Repr

/-- The old word at a code address that a core's store has changed with no FENCE since (R129): the core, the context and the
place of the store in the core's issue order. -/
structure StaleWord where
  core : Nat
  ctx : Nat
  order : Nat
  pa : Nat
  old : Word
deriving DecidableEq, Repr

/-- What a command in a save image had noted when it was saved (R283, R288): the command, its place among the noted writes of
memory, whether its source was known to be written, the old bytes that it keeps, the lines that a sketch command keeps (R238), the places
of the queue entries that a streaming copy has pushed. -/
structure SavedCmd where
  queue : EngineQ
  seq : BitVec 16
  noted : Nat
  spoilt : Bool
  olds : List OldByte
  out : List Lane
  entries : List Nat
deriving DecidableEq, Repr

/-- What a save image holds of a core beyond the places that R393 gives: the pending traps, the work of the effect-list unit,
the GBARs that have arrived, the BARWTs that have issued, what its engine commands had noted, how long ago the last
command of a queue began (R260), and the line and the writes that its last load answers for (R410). -/
structure Rest where
  pending : List Pending
  work : List ElWork
  gbar : List GbarRec
  barwt : List BarwtRec
  cmds : List SavedCmd
  paced : List (EngineQ × Nat × Nat)
  lastLoad : Option (Nat × Bool)
deriving DecidableEq, Repr

/-- Everything of the package outside its cores. `partClocks` and `thermalClocks` are the clocks that the cap leaves each
partition and that heat leaves each die (R439, R442), and `bareClocks` those that the cap leaves dies of no partition;
`lineKeys` the key identifier and key pair that each line outside plaintext was written under (R377); `written` the writes of
memory made while some copy command is enqueued or saved (R283); `rests` what save images hold beyond their bytes, each image
naming its own by number (assumption 25); `windowStart` the time at which the running window of a die began and `weightsUsed`
its weights, `draws` what each core position drew in the last window of its die (R440); `bar4size`, `bar4offered` and `bar4` the sizes that BAR4SIZE sets, that the port offers and that the host
has selected, as powers of two (R423). -/
structure Package where
  now : Nat
  serial : Nat
  powered : Bool
  recovery : Bool
  mem : Memory
  poison : List Nat
  counterPoison : List Nat
  lineKeys : List (Nat × BitVec 6 × BitVec 512)
  keys : Vector (BitVec 512) 64
  held : List Page
  stale : List StaleWord
  written : List NotedWrite
  dieen : BitVec 10
  coreen : Vector (BitVec 16) 8
  contexts : Vector Context 64
  gangs : List Gang
  gangId : Nat
  partials : List Partial
  merges : List Merge
  partitions : Vector (BitVec 128) 16
  floors : Vector Nat 16
  decoders : Vector (BitVec 256) 16
  ownerNonce : BitVec 32
  ownerValid : Bool
  owner : BitVec 8
  hostkey : BitVec 6
  bar4size : BitVec 6
  bar4offered : BitVec 6
  bar4 : BitVec 6
  domain : Word
  hostord : BitVec 8
  ring : Memory
  ringHead : Word
  ringTail : Word
  errors : Memory
  errorCount : Nat
  command : BitVec 512
  attRequest : Word
  attState : BitVec 2
  attMaster : BitVec 8
  attNonce : BitVec 256
  attReport : Memory
  cap : BitVec 32
  effcap : BitVec 32
  clamped : Bool
  scaled : Bool
  estimate : BitVec 32
  clocks : Vector (BitVec 8) 8
  fwaddr : Word
  fwlen : BitVec 32
  fwstat : BitVec 32
  fwRunning : Option (BitVec 256)
  fwFlash : Option (BitVec 256)
  weights : Vector (BitVec 16) 48
  weightsUsed : Vector (Vector (BitVec 16) 48) 8
  windowStart : Vector Nat 8
  draws : Vector Nat 128
  partClocks : Vector (BitVec 8) 16
  bareClocks : Vector (BitVec 8) 8
  thermalClocks : Vector (BitVec 8) 8
  capDue : Bool
  hot : BitVec 10
  halted : BitVec 10
  hostPort : HostPort
  poolPorts : Vector PoolPort 24
  slathen : Vector SlathenPort 18
  hostLines : List (Nat × Line)
  snoops : List Nat
  hostLoads : List (Nat × Option Line)
  checkpoints : List Checkpoint
  rests : List Rest
deriving DecidableEq, Repr

/-! ### The state -/

/-- A choice of the schedule (assumption 2): a core issues, or an event of the package happens. -/
inductive Choice where
  | issue (core : Nat)
  | event (i : Instr)
deriving DecidableEq, Repr

/-- The state of the package: the core that instructions act on, the other cores, the package around them, the choices
still to be made, and the counter that free values are taken at (assumptions 1 and 2). -/
structure State where
  core : Core
  parked : List Core
  pkg : Package
  schedule : List Choice
  fresh : Nat
deriving DecidableEq, Repr

/-! ### Reset -/

def QNaN : Lane := 0x7FC00000#32

def MinusInf : Lane := 0xFF800000#32

/-- A cleared entry of the statistics buffer (VSTAT.clr). -/
def StatEntry.clear : StatEntry := ⟨0#32, 0#32, 0#32, MinusInf, 0#32, QNaN, QNaN, QNaN⟩

/-- A zero entry: what the first strand of a context finds (R242). -/
def StatEntry.zero : StatEntry := ⟨0#32, 0#32, 0#32, 0#32, 0#32, 0#32, 0#32, 0#32⟩

/-- The identity map (R187). -/
def identityMap : BitVec 1024 :=
  (List.range 128).foldl (fun m k => m ||| (BitVec.ofNat 1024 k <<< (8 * k))) 0#1024

def Sweep.start : Sweep := ⟨0, 0, 0, [], [], none, [], 0#64, 0#64, 0, none, false, 0, [], false⟩

def EngQueue.empty : EngQueue := ⟨[], 0#16, none, none, 0⟩

/-- A nest at strand start (R314). -/
def nestStart : List NestLevel := List.replicate 6 ⟨1#32, 0#64, 0#64⟩

def Lattice.reset : Lattice where
  maps := Vector.replicate 64 identityMap
  binding := none
  range := 0#64
  config := 0#64
  sketch := 0#64
  save := 0#64
  lastSeq := 0#16
  fault := 0#8
  nullPairs := 0#16
  recAlt := false
  normin := 0#64
  normout := 0#64

/-- A core after reset: no strand, every register at the value that the specification gives or that assumption 3 names. -/
def Core.reset (n : Nat) : Core where
  num := n
  strand := none
  pc := 0#64
  cycle := 0
  meter := 0
  time := 0
  issued := 0
  x := Vector.replicate 64 0#64
  v := Vector.replicate 48 0#4096
  p := Vector.replicate 16 0#128
  vage := Vector.replicate 32 0#6
  page := Vector.replicate 8 0#6
  flight := []
  landed := []
  queues := Vector.replicate 8 []
  ticket := 0
  buffer := []
  block := none
  super := true
  collect := false
  pblkPred := 0#4
  pblkCount := 0#4
  pblkPat := 0#8
  vbase := 0#5
  pbase := 0#3
  vdepth := 0#6
  pdepth := 0#4
  tags := 0#64
  tagdrop := 0#64
  tagDiffers := 0#64
  tagMalformed := 0#64
  frame := 0#64
  strandReg := 0#64
  elbase := 0#22
  elcap := 0#22
  qfmt := Vector.replicate 8 0#64
  pace := Vector.replicate 4 0#20
  trapcause := 0#64
  trappc := 0#64
  trapinfo := Vector.replicate 4 0#64
  trapvec := 0#64
  step := false
  pending := []
  taken := []
  ops := []
  lastLoad := none
  wait := none
  wfe := none
  gbar := []
  barwt := []
  groups := 0#64
  joinDue := none
  filled := []
  l := EngQueue.empty
  c0 := EngQueue.empty
  c1 := EngQueue.empty
  k := EngQueue.empty
  nest0 := nestStart
  nest1 := nestStart
  wins := Vector.replicate 8 none
  lat := Lattice.reset
  stats := Vector.replicate 1024 StatEntry.zero
  scratch := Memory.empty
  wrote := []
  unseen := []
  slots := Vector.replicate 16 ⟨0#12, .free, []⟩
  opened := none
  work := []
  resident := none
  served := none
  poison := []
  activity := Vector.replicate 48 0

def Context.reset : Context where
  desc := 0#512
  rewritten := none
  held := false
  closing := false
  resumedAt := 0
  touched := 0#10
  frozenAt := 0
  queues := Vector.replicate 4 []
  h := Vector.replicate 3 0
  paused := []
  saved := []
  checkpoints := 0

/-- The package after a reset. The part's fuses are the model's choice: every core position works (R12; assumption 5), and the
weights are the fused ones, which no rule gives (assumption 45). Ports are not trained (assumption 6). -/
def Package.reset : Package where
  now := 0
  serial := 0
  powered := true
  recovery := false
  mem := Memory.empty
  poison := []
  counterPoison := []
  lineKeys := []
  keys := Vector.replicate 64 0#512
  held := []
  stale := []
  written := []
  dieen := 0x3FF#10
  coreen := Vector.replicate 8 0xFFFF#16
  contexts := Vector.replicate 64 Context.reset
  gangs := []
  gangId := 0
  partials := []
  merges := []
  partitions := Vector.replicate 16 0#128
  floors := Vector.replicate 16 0
  decoders := Vector.replicate 16 0#256
  ownerNonce := 0#32
  ownerValid := false
  owner := 0xFF#8
  hostkey := 0#6
  bar4size := 45#6
  bar4offered := 45#6
  bar4 := 30#6
  domain := 0#64
  hostord := 0#8
  ring := Memory.empty
  ringHead := 0#64
  ringTail := 0#64
  errors := Memory.empty
  errorCount := 0
  command := 0#512
  attRequest := 0#64
  attState := 0#2
  attMaster := 0#8
  attNonce := 0#256
  attReport := Memory.empty
  cap := 2400#32
  effcap := 2400#32
  clamped := false
  scaled := false
  estimate := 0#32
  clocks := Vector.replicate 8 33#8
  fwaddr := 0#64
  fwlen := 0#32
  fwstat := 0#32
  fwRunning := none
  fwFlash := none
  weights := Vector.ofFn fun i => Config.fusedWeight i.val
  weightsUsed := Vector.replicate 8 (Vector.ofFn fun i => Config.fusedWeight i.val)
  windowStart := Vector.replicate 8 0
  draws := Vector.replicate 128 0
  partClocks := Vector.replicate 16 33#8
  bareClocks := Vector.replicate 8 33#8
  thermalClocks := Vector.replicate 8 33#8
  capDue := false
  hot := 0#10
  halted := 0#10
  hostPort := ⟨false, false, 0, false⟩
  poolPorts := Vector.replicate 24 ⟨false, false, 0⟩
  slathen := Vector.replicate 18 ⟨false, false, 0, false, 0#12, [], [], 0#12, 0, 0, []⟩
  hostLines := []
  snoops := []
  hostLoads := []
  checkpoints := []
  rests := []

/-- The package right after a package reset with nothing placed: no strand runs. -/
def State.reset : State where
  core := Core.reset 0
  parked := []
  pkg := Package.reset
  schedule := []
  fresh := 0

end Sys2Proof.Machine
end

