-- ==== Sys2Proof/Machine/Bytes.lean ====
section
/-! DEFINITION. Bytes, little-endian numbers and the operations over a memory in canonical form (R47, R89). -/

namespace Sys2Proof.Machine

/-! ### Numbers as bytes -/

/-- The number that bytes spell, least significant first. -/
def leNat : List Byte → Nat
  | [] => 0
  | b :: r => b.toNat + 256 * leNat r

/-- The n low bytes of a number, least significant first. -/
def natBytes : Nat → Nat → List Byte
  | 0, _ => []
  | n + 1, v => BitVec.ofNat 8 v :: natBytes n (v / 256)

/-- Byte i of a bit vector. -/
def byteOf {w : Nat} (v : BitVec w) (i : Nat) : Byte := v.extractLsb' (8 * i) 8

/-- Field of len bits at bit lo, as a number. -/
def fieldNat {w : Nat} (v : BitVec w) (lo len : Nat) : Nat := (v.extractLsb' lo len).toNat

/-- A bit vector with n bytes from byte i replaced. -/
def setBytes {w : Nat} (v : BitVec w) (i : Nat) : List Byte → BitVec w
  | [] => v
  | b :: r =>
    setBytes ((v &&& ~~~(BitVec.ofNat w 255 <<< (8 * i))) ||| (b.setWidth w <<< (8 * i))) (i + 1) r

/-! ### Cells -/

def cellsRead : List Host.Cell → Nat → Byte
  | [], _ => 0#8
  | c :: r, a => if c.1 = a then c.2 else cellsRead r a

/-- Put a nonzero byte before the cells of higher addresses; a zero byte removes the entry. -/
def cellsWrite : List Host.Cell → Nat → Byte → List Host.Cell
  | [], a, b => if b = 0#8 then [] else [(a, b)]
  | c :: r, a, b =>
    if c.1 < a then c :: cellsWrite r a b
    else if c.1 = a then (if b = 0#8 then r else (a, b) :: r)
    else (if b = 0#8 then c :: r else (a, b) :: c :: r)

/-- The cells of the addresses from lo up to but not including hi. -/
def cellsIn (l : List Host.Cell) (lo hi : Nat) : List Host.Cell := l.filter fun c => lo ≤ c.1 && c.1 < hi

/-! ### Memories -/

def Memory.read (m : Memory) (a : Nat) : Byte := cellsRead m.cells a

def Memory.write (m : Memory) (a : Nat) (b : Byte) : Memory := ⟨cellsWrite m.cells a b⟩

/-- The n bytes at a, read from cells. -/
def cellsBytes (l : List Host.Cell) (a : Nat) : Nat → List Byte
  | 0 => []
  | n + 1 => cellsRead l a :: cellsBytes l (a + 1) n

def Memory.bytes (m : Memory) (a n : Nat) : List Byte := cellsBytes (cellsIn m.cells a (a + n)) a n

/-- The cells of bytes from an address on. -/
def cellsOf (a : Nat) : List Byte → List Host.Cell
  | [] => []
  | b :: r => if b = 0#8 then cellsOf (a + 1) r else (a, b) :: cellsOf (a + 1) r

/-- The n bytes at a replaced; bytes that stand already change nothing. -/
def Memory.writeBytes (m : Memory) (a : Nat) (bs : List Byte) : Memory :=
  if m.bytes a bs.length = bs then m
  else
    ⟨(m.cells.filter fun c => c.1 < a) ++ (cellsOf a bs ++ m.cells.filter fun c => a + bs.length ≤ c.1)⟩

/-- The little-endian number of n bytes at a. -/
def Memory.nat (m : Memory) (a n : Nat) : Nat := leNat (m.bytes a n)

/-- Store the n low bytes of a number. -/
def Memory.writeNat (m : Memory) (a n v : Nat) : Memory := m.writeBytes a (natBytes n v)

/-- Every byte from lo up to but not including hi set to zero. -/
def Memory.clear (m : Memory) (lo hi : Nat) : Memory := ⟨m.cells.filter fun c => !(lo ≤ c.1 && c.1 < hi)⟩

/-- Write cells, each moved by the distance from one base to another. -/
def Memory.writeCells (m : Memory) (base dst : Nat) : List Host.Cell → Memory
  | [] => m
  | c :: r => (m.write (dst + (c.1 - base)) c.2).writeCells base dst r

/-- The n bytes at base of one memory as the n bytes at dst of another. -/
def Memory.copyIn (m : Memory) (dst : Nat) (src : Memory) (base n : Nat) : Memory :=
  (m.clear dst (dst + n)).writeCells base dst (cellsIn src.cells base (base + n))

/-! ### Sorted lists of numbers, for poisoned lines -/

/-- Insert a number into a rising list without repeating it. -/
def insertNat : List Nat → Nat → List Nat
  | [], n => [n]
  | k :: r, n => if k < n then k :: insertNat r n else if k = n then k :: r else n :: k :: r

end Sys2Proof.Machine
end

