-- ==== Sys2Proof/Machine/Crypto.lean ====
section
/-! DEFINITION. The two functions that the specification names by standard: AES-XTS-256 of a 64-byte line (R377) and SHA3-256
(R383, R443). Both are those of their published standards (assumption 37). -/

namespace Sys2Proof.Machine

/-! ### The field of AES -/

/-- A byte times x, modulo x⁸ + x⁴ + x³ + x + 1. -/
def timesX (a : Byte) : Byte := (a <<< 1) ^^^ (if a.getLsbD 7 then 0x1B#8 else 0#8)

/-- The product of two bytes. -/
def fieldMul (a b : Byte) : Byte :=
  ((List.range 8).foldl (fun (r : Byte × Byte) k => (if b.getLsbD k then r.1 ^^^ r.2 else r.1, timesX r.2)) (0#8, a)).1

/-- The inverse of a byte, and 0 for 0: its power 254. -/
def fieldInv (a : Byte) : Byte :=
  ((List.range 7).foldl (fun (r : Byte × Byte) _ => (fieldMul r.1 (fieldMul r.2 r.2), fieldMul r.2 r.2)) (1#8, a)).1

def subByte (a : Byte) : Byte :=
  let b := fieldInv a
  b ^^^ b.rotateLeft 1 ^^^ b.rotateLeft 2 ^^^ b.rotateLeft 3 ^^^ b.rotateLeft 4 ^^^ 0x63#8

def unsubByte (a : Byte) : Byte := fieldInv (a.rotateLeft 1 ^^^ a.rotateLeft 3 ^^^ a.rotateLeft 6 ^^^ 0x05#8)

/-! ### Blocks: 16 bytes, column after column -/

def xorBytes (a b : List Byte) : List Byte := List.zipWith (· ^^^ ·) a b

/-- Row r of every column moves r columns; `inv` is the inverse step. -/
def shiftRows (inv : Bool) (b : List Byte) : List Byte :=
  (List.range 16).map fun i =>
    let r := i % 4
    b.getD (r + 4 * ((i / 4 + (if inv then 4 - r else r)) % 4)) 0#8

/-- Every column times the circulant matrix of four bytes. -/
def mixColumns (m : List Byte) (b : List Byte) : List Byte :=
  (List.range 16).map fun i =>
    (List.range 4).foldl (fun s k => s ^^^ fieldMul (m.getD ((k + 4 - i % 4) % 4) 0#8) (b.getD (4 * (i / 4) + k) 0#8)) 0#8

def mixRow : List Byte := [2#8, 3#8, 1#8, 1#8]
def unmixRow : List Byte := [14#8, 11#8, 13#8, 9#8]

/-- The next word of the key schedule from the words so far, newest first. -/
def nextKeyWord (ws : List (List Byte)) : List Byte :=
  let i := ws.length
  let t := ws.headD []
  let rcon := (List.range (i / 8 - 1)).foldl (fun r _ => timesX r) 1#8
  let t := if i % 8 = 0 then xorBytes ((t.drop 1 ++ t.take 1).map subByte) [rcon, 0#8, 0#8, 0#8]
    else if i % 8 = 4 then t.map subByte else t
  xorBytes (ws.getD 7 []) t

/-- The 15 round keys of a 32-byte key. -/
def roundKeys (key : List Byte) : List (List Byte) :=
  let first := ((List.range 8).map fun k => (key.drop (4 * k)).take 4).reverse
  let ws := ((List.range 52).foldl (fun ws _ => nextKeyWord ws :: ws) first).reverse
  (List.range 15).map fun r => ((ws.drop (4 * r)).take 4).flatten

def aesEncrypt (rk : List (List Byte)) (b : List Byte) : List Byte :=
  let b := (List.range 13).foldl (fun b r => xorBytes (mixColumns mixRow (shiftRows false (b.map subByte))) (rk.getD (r + 1) []))
    (xorBytes b (rk.getD 0 []))
  xorBytes (shiftRows false (b.map subByte)) (rk.getD 14 [])

def aesDecrypt (rk : List (List Byte)) (b : List Byte) : List Byte :=
  let b := (List.range 13).foldl (fun b r =>
      mixColumns unmixRow (xorBytes ((shiftRows true b).map unsubByte) (rk.getD (13 - r) [])))
    (xorBytes b (rk.getD 14 []))
  xorBytes ((shiftRows true b).map unsubByte) (rk.getD 0 [])

/-! ### XTS over one line (R377) -/

/-- A tweak times the primitive element of its field. -/
def nextTweak (t : BitVec 128) : BitVec 128 := (t <<< 1) ^^^ (if t.getLsbD 127 then 0x87#128 else 0#128)

/-- A line of 64 bytes run through a block function under the tweaks that begin with t. -/
def xtsBlocks (f : List Byte → List Byte) : Nat → BitVec 128 → List Byte → List Byte
  | 0, _, _ => []
  | n + 1, t, b =>
    xorBytes (f (xorBytes (b.take 16) (natBytes 16 t.toNat))) (natBytes 16 t.toNat) ++ xtsBlocks f n (nextTweak t) (b.drop 16)

/-- The first tweak of a line: its number, as a 128-bit little-endian value, under the tweak key of the pair. -/
def firstTweak (pair : BitVec 512) (line : Nat) : BitVec 128 :=
  BitVec.ofNat 128 (leNat (aesEncrypt (roundKeys ((natBytes 64 pair.toNat).drop 32)) (natBytes 16 line)))

def dataKeys (pair : BitVec 512) : List (List Byte) := roundKeys ((natBytes 64 pair.toNat).take 32)

def encryptLine (pair : BitVec 512) (line : Nat) (data : List Byte) : List Byte :=
  xtsBlocks (aesEncrypt (dataKeys pair)) 4 (firstTweak pair line) data

def decryptLine (pair : BitVec 512) (line : Nat) (data : List Byte) : List Byte :=
  xtsBlocks (aesDecrypt (dataKeys pair)) 4 (firstTweak pair line) data

/-! ### SHA3-256 -/

/-- Lane x + 5 y of the state of Keccak-f[1600]. -/
def lane (a : List Word) (x y : Nat) : Word := a.getD (x % 5 + 5 * (y % 5)) 0#64

/-- The rotation of each lane. -/
def laneTurns : List Nat :=
  [0, 1, 62, 28, 27, 36, 44, 6, 55, 20, 3, 10, 43, 25, 39, 41, 45, 15, 21, 8, 18, 2, 61, 56, 14]

def roundConstants : List Word :=
  [0x0000000000000001#64, 0x0000000000008082#64, 0x800000000000808A#64, 0x8000000080008000#64,
    0x000000000000808B#64, 0x0000000080000001#64, 0x8000000080008081#64, 0x8000000000008009#64,
    0x000000000000008A#64, 0x0000000000000088#64, 0x0000000080008009#64, 0x000000008000000A#64,
    0x000000008000808B#64, 0x800000000000008B#64, 0x8000000000008089#64, 0x8000000000008003#64,
    0x8000000000008002#64, 0x8000000000000080#64, 0x000000000000800A#64, 0x800000008000000A#64,
    0x8000000080008081#64, 0x8000000000008080#64, 0x0000000080000001#64, 0x8000000080008008#64]

def keccakRound (a : List Word) (rc : Word) : List Word :=
  let c := (List.range 5).map fun x => (List.range 5).foldl (fun s y => s ^^^ lane a x y) 0#64
  let d := (List.range 5).map fun x => c.getD ((x + 4) % 5) 0#64 ^^^ (c.getD ((x + 1) % 5) 0#64).rotateLeft 1
  let t := (List.range 25).map fun i => ((lane a i (i / 5)) ^^^ d.getD (i % 5) 0#64).rotateLeft (laneTurns.getD i 0)
  let b := (List.range 25).map fun i => lane t (i % 5 + 3 * (i / 5)) (i % 5)
  let e := (List.range 25).map fun i => lane b i (i / 5) ^^^ (~~~lane b (i + 1) (i / 5) &&& lane b (i + 2) (i / 5))
  match e with
  | x :: r => (x ^^^ rc) :: r
  | [] => []

def keccak (a : List Word) : List Word := roundConstants.foldl keccakRound a

/-- The message with its padding, a multiple of 136 bytes. -/
def sha3Padded (m : List Byte) : List Byte :=
  let n := 136 - m.length % 136
  m ++ (if n = 1 then [0x86#8] else 0x06#8 :: List.replicate (n - 2) 0#8 ++ [0x80#8])

def sha3Absorb (a : List Word) (block : List Byte) : List Word :=
  keccak ((List.range 25).map fun i =>
    a.getD i 0#64 ^^^ (if i < 17 then BitVec.ofNat 64 (leNat ((block.drop (8 * i)).take 8)) else 0#64))

/-- The SHA3-256 digest of a byte string; byte 0 is the lowest of the value. -/
def sha3 (m : List Byte) : BitVec 256 :=
  let p := sha3Padded m
  let a := (List.range (p.length / 136)).foldl (fun a k => sha3Absorb a ((p.drop (136 * k)).take 136)) (List.replicate 25 0#64)
  BitVec.ofNat 256 (leNat (((a.take 4).map fun w => natBytes 8 w.toNat).flatten))

end Sys2Proof.Machine
end

