-- ==== Sys2Proof/Machine/Fabric.lean ====
section
/-! DEFINITION. The fabric of the package: cores by number, management events and the error log (R396, R436), homes and
pool decoders (R279, R425), reads and writes at a home under a key (R287, R377, R395), stashed lines (R281). -/

namespace Sys2Proof.Machine

/-! ### Cores by number -/

/-- The die of a core number (R9). -/
def dieOf (core : Nat) : Nat := core / 16

/-- Insert a core into a list of cores that rises by number. -/
def insertCore : List Core → Core → List Core
  | [], c => [c]
  | d :: r, c => if d.num < c.num then d :: insertCore r c else c :: d :: r

/-- The core of a number; one that no list names is as reset left it. -/
def State.coreAt (s : State) (n : Nat) : Core :=
  if s.core.num = n then s.core else (s.parked.find? fun c => c.num == n).getD (Core.reset n)

/-- The core of a number, if the state lists it. A core that it does not list has no strand and serves no context. -/
def State.listed (s : State) (n : Nat) : Option Core :=
  if s.core.num = n then some s.core else s.parked.find? fun c => c.num == n

/-- The state with core n in `core` and the core that stood there parked. -/
def State.focus (s : State) (n : Nat) : State :=
  if s.core.num = n then s
  else { s with core := s.coreAt n, parked := insertCore (s.parked.filter fun c => c.num != n) s.core }

/-- Act on core n, and leave in `core` the core that stood there. -/
def State.onCore (s : State) (n : Nat) (f : State → State) : State := (f (s.focus n)).focus s.core.num

/-- Change the core in `core`. -/
def State.mapCore (s : State) (f : Core → Core) : State := { s with core := f s.core }

/-- Change the package around the cores. -/
def State.mapPkg (s : State) (f : Package → Package) : State := { s with pkg := f s.pkg }

/-- Change every core. -/
def State.mapCores (s : State) (f : Core → Core) : State := { s with core := f s.core, parked := s.parked.map f }

def State.cores (s : State) : List Core := s.core :: s.parked

/-! ### Activity (R440, R441) -/

def Core.bump (c : Core) (event n : Nat) : Core :=
  { c with activity := c.activity.setIfInBounds event (c.activity.getD event 0 + n) }

/-! ### Enabled positions (R10 to R15) -/

/-- The position's fuse is set (R12). -/
def Package.enabled (p : Package) (core : Nat) : Bool :=
  if h : core / 16 < 8 then p.coreen[core / 16].getLsbD (core % 16) else false

/-- The die serves (R11). -/
def Package.dieServes (p : Package) (die : Nat) : Bool := p.dieen.getLsbD die

/-- The position serves: its COREEN bit and the DIEEN bit of its die are set (R252). -/
def Package.serves (p : Package) (core : Nat) : Bool := p.enabled core && p.dieServes (dieOf core)

/-- The number of enabled positions below a core number (R15). -/
def Package.rank (p : Package) (core : Nat) : Nat := ((List.range core).filter p.enabled).length

/-! ### Time -/

/-- The tick of the fabric timebase at the package (R276). -/
def Package.tick (p : Package) : Nat := Config.ticksOf p.now

/-- The units of one cycle of a die's arithmetic clock (R17). -/
def Package.period (p : Package) (die : Nat) : Nat :=
  if h : die < 8 then Config.cycleUnits p.clocks[die].toNat else Config.cycleUnits Config.hubClock

/-! ### Management events (R436) and the error log (R396) -/

def ringSize : Nat := 2048

/-- Append a record, or mark the last record when the ring is full (R436). -/
def Package.raise (p : Package) (code subject : Nat) : Package :=
  if p.ringTail.toNat - p.ringHead.toNat < ringSize then
    { p with
      ring := p.ring.writeNat (8 * (p.ringTail.toNat % ringSize)) 8
        (code % 256 + 256 * (subject % 256) + 65536 * (p.tick % 2 ^ 48))
      ringTail := p.ringTail + 1#64 }
  else { p with ring := p.ring.write (8 * ((p.ringTail.toNat - 1) % ringSize)) 0xFF#8 }

/-- Append an error record: unit, die, context or 0xFF, address (R396). How many errors of the unit have been corrected since
its last record (R395) is a free value (assumption 9). -/
def Package.logError (p : Package) (unit die ctx : Nat) (addr : Nat) : Package :=
  let a := 32 * (p.errorCount % 1024)
  ({ p with
      errors := ((((p.errors.clear a (a + 32)).writeNat a 3 (unit + 256 * die + 65536 * ctx)).writeNat (a + 8) 8
        addr).writeNat (a + 16) 8 p.tick).writeNat (a + 24) 8 (Config.correctedErrors unit p.errorCount)
      errorCount := p.errorCount + 1 }).raise 0x20 ctx

/-! ### Contexts -/

def Package.ctx (p : Package) (c : Nat) : Context := p.contexts.getD c Context.reset

def Package.setCtx (p : Package) (c : Nat) (f : Context → Context) : Package :=
  { p with contexts := p.contexts.setIfInBounds c (f (p.ctx c)) }

/-- A descriptor's valid flag (R370). -/
def Context.valid (c : Context) : Bool := c.desc.getLsbD 24

def Context.debug (c : Context) : Bool := c.desc.getLsbD 25

def Context.discard (c : Context) : Bool := c.desc.getLsbD 26

def Context.part (c : Context) : Nat := fieldNat c.desc 8 8

/-- The descriptor as the window shows it. -/
def Context.shown (c : Context) : BitVec 512 := c.rewritten.getD c.desc

/-- Function f of the context runs in hardware mode (R381). -/
def Context.hardware (c : Context) (f : Nat) : Bool := c.desc.getLsbD (16 + f)

def Context.ptbase (c : Context) : Word := c.desc.extractLsb' 64 64

def Context.keymask (c : Context) : Word := c.desc.extractLsb' 128 64

def Context.save (c : Context) : Nat := fieldNat c.desc 192 64

def Context.cqcap (c : Context) : Nat := fieldNat c.desc 320 32

def Context.frames (c : Context) : Nat := fieldNat c.desc 384 64

def Context.trapvec (c : Context) : Word := c.desc.extractLsb' 448 64

/-- The key identifier of page-table reads (R372). -/
def Context.ptkey (c : Context) : BitVec 6 := c.ptbase.extractLsb' 52 6

/-- Partition record fields (R432). -/
def partFirst (r : BitVec 128) : Nat := fieldNat r 0 8
def partLast (r : BitVec 128) : Nat := fieldNat r 8 8
def partDefined (r : BitVec 128) : Bool := r.getLsbD 16
def partFloor (r : BitVec 128) : Nat := fieldNat r 32 32
def partTable (r : BitVec 128) : Nat := fieldNat r 64 64

def Package.partition (p : Package) (k : Nat) : BitVec 128 := p.partitions.getD k 0#128

/-- The core lies in the partition. -/
def Package.inPart (p : Package) (part core : Nat) : Bool :=
  let r := p.partition part
  partDefined r && partFirst r ≤ core && core ≤ partLast r

/-- The serving core positions of a context's partition, in coordinate order (R252). -/
def Package.gangPartition (p : Package) (ctx : Nat) : List Nat :=
  (List.range Config.cores).filter fun c => p.inPart (p.ctx ctx).part c && p.serves c

/-- Domain position and number of packages (R435). -/
def Package.position (p : Package) : Nat := fieldNat p.domain 0 6
def Package.packages (p : Package) : Nat := fieldNat p.domain 8 6 + 1

/-! ### Homes (R279) and pool decoders (R425, R431) -/

/-- A physical address of a home device: 0 pool, 1 host, 2 another package. -/
def paOf (home pa : Nat) : Nat := home * 2 ^ 52 + pa

def paHome (pa : Nat) : Nat := pa / 2 ^ 52

/-- The LLC slice that homes a physical address (R279). -/
def homeSlice (pa : Nat) : Nat :=
  let l := pa / 64 % 2 ^ 46
  (List.range 6).foldl (fun h k => h ^^^ (l / 2 ^ (8 * k) % 256)) 0

/-- The hub die that carries the slice (R8). -/
def homeHub (pa : Nat) : Nat := 8 + homeSlice pa / 128

def decBase (d : BitVec 256) : Nat := fieldNat d 0 22 * 2 ^ 30
def decSize (d : BitVec 256) : Nat := fieldNat d 32 22 * 2 ^ 30
def decWays (d : BitVec 256) : Nat := fieldNat d 54 5
def decValid (d : BitVec 256) : Bool := d.getLsbD 63
def decPort (d : BitVec 256) (w : Nat) : Nat := fieldNat d (64 + 8 * w) 8

def decCovers (d : BitVec 256) (pa : Nat) : Bool := decValid d && decBase d ≤ pa && pa < decBase d + decSize d

/-- The pool port that serves an address, when exactly one decoder covers it (R425). -/
def Package.poolPort (p : Package) (pa : Nat) : Option Nat :=
  match p.decoders.toList.filter fun d => decCovers d pa with
  | [d] => some (decPort d ((pa - decBase d) / 256 % decWays d))
  | _ => none

/-- The hub that carries a pool port, and the one that carries a Slathen port (R8). -/
def poolPortHub (port : Nat) : Nat := 8 + port / 12

def slathenPortHub (port : Nat) : Nat := 8 + port / 9

/-- A Slathen port carries requests: it is in service, and so is its hub. -/
def Package.slathenServes (p : Package) (port : Nat) : Bool :=
  (p.slathen.toList[port]?).any (fun l => l.up) && p.dieServes (slathenPortHub port)

/-- Where an access ends. -/
inductive Reach where
  | served
  | undecoded
  | down
  | hubLost (hub : Nat)
deriving DecidableEq, Repr

/-- Whether the home and the port behind an address serve (R397, R399, R425, R426; assumption 10 for the host, assumption 39
for its port when a hub is lost). -/
def Package.reach (p : Package) (pa : Nat) : Reach :=
  if paHome pa = 0 then
    if !p.dieServes (homeHub pa) then .hubLost (homeHub pa)
    else match p.poolPort pa with
      | none => .undecoded
      | some port =>
        if !p.dieServes (poolPortHub port) then .hubLost (poolPortHub port)
        else if (p.poolPorts.getD port ⟨false, false, 0⟩).up then .served else .down
  else if paHome pa = 1 then (if p.hostPort.coherent then .served else .down)
  else if (List.range 18).any p.slathenServes then .served else .down

/-! ### Flits (R254, R427, R428; assumption 23 for the port) -/

def noSlathen : SlathenPort := ⟨false, false, 0, false, 0#12, [], [], 0#12, 0, 0, []⟩

def Package.link (p : Package) (k : Nat) : SlathenPort := p.slathen.getD k noSlathen

def Package.setLink (p : Package) (k : Nat) (l : SlathenPort) : Package := { p with slathen := p.slathen.setIfInBounds k l }

/-- The 236 bytes that carry a transaction. -/
def Transaction.payload : Transaction → BitVec 1888
  | .launch ctx packet => Config.flitPayload true ctx packet
  | .request pa => Config.flitPayload false pa 0#512

/-- Flits that a sender may hold unacknowledged. -/
def replaySize : Nat := 1024

/-- A port in service sends a transaction as its next data flit and holds it for resending; while it holds 1,024 flits, the
transaction waits (R428). -/
def SlathenPort.send (l : SlathenPort) (x : Transaction) : SlathenPort :=
  if !l.up then l
  else if l.held.length < replaySize then
    let f : Flit := ⟨l.next, x⟩
    { l with next := l.next + 1#12, held := l.held ++ [f], sent := l.sent ++ [.data f (l.expect - 1#12)] }
  else { l with waiting := l.waiting ++ [x] }

/-- The port that carries requests for the line of an address in another package. -/
def Package.requestLink (p : Package) (pa : Nat) : Option Nat :=
  if paHome pa = 2 then
    let up := (List.range 18).filter p.slathenServes
    up[Config.requestPort (pa / 64) % up.length]?
  else none

/-- A request for another package's memory leaves in a flit. -/
def Package.request (p : Package) (pa : Nat) : Package :=
  match p.requestLink pa with
  | some k => p.setLink k ((p.link k).send (.request pa))
  | none => p

/-- The port that carries requests for an address holds all the flits that it may hold. -/
def Package.linkFull (p : Package) (pa : Nat) : Bool :=
  (p.requestLink pa).any fun k => replaySize ≤ (p.link k).held.length

/-! ### Keys (R377, R411) -/

/-- The identifier and pair that a line is written under by an access with a key identifier; none for plaintext. A line whose
home device is the host leaves by neither a pool port nor a Slathen link. -/
def Package.pair (p : Package) (k : BitVec 6) (line : Nat) : Option (BitVec 6 × BitVec 512) :=
  if k = 0#6 || paHome (64 * line) = 1 then none else some (k, p.keys[k.toNat]'k.isLt)

/-- The identifier and pair that a line was written under; none for plaintext. -/
def Package.lineKey (p : Package) (line : Nat) : Option (BitVec 6 × BitVec 512) :=
  (p.lineKeys.find? fun e => e.1 == line).map fun e => e.2

/-- Data written under one key as another key decrypts it. Under one identifier's old and new pair it is undefined (R2,
R411). -/
def crossed (line : Nat) (old new : Option (BitVec 6 × BitVec 512)) (data : List Byte) : List Byte :=
  let n := line % 2 ^ 46
  match old, new with
  | none, none => data
  | some a, none => encryptLine a.2 n data
  | none, some b => decryptLine b.2 n data
  | some a, some b =>
    if a.1 = b.1 then natBytes 64 (Config.otherKey a.2 b.2 line (BitVec.ofNat 512 (leNat data))).toNat
    else decryptLine b.2 n (encryptLine a.2 n data)

/-- A byte as a reader with a key identifier sees it. -/
def Package.peek (p : Package) (key : BitVec 6) (a : Nat) : Byte :=
  if p.lineKey (a / 64) = p.pair key (a / 64) then p.mem.read a
  else (crossed (a / 64) (p.lineKey (a / 64)) (p.pair key (a / 64)) (p.mem.bytes (a / 64 * 64) 64)).getD (a % 64) 0#8

/-- The n bytes at an address within one line, as a reader with a key identifier sees them. -/
def Package.peeks (p : Package) (key : BitVec 6) (a n : Nat) : List Byte :=
  if p.lineKey (a / 64) = p.pair key (a / 64) then p.mem.bytes a n
  else (List.range n).map fun i => p.peek key (a + i)

/-- Turn a line into one written under the accessing key, with the data that the key sees. -/
def Package.rekey (p : Package) (key : BitVec 6) (line : Nat) : Package :=
  if p.lineKey line = p.pair key line then p
  else
    { p with
      mem := p.mem.writeBytes (64 * line) (p.peeks key (64 * line) 64)
      lineKeys :=
        let r := p.lineKeys.filter fun e => e.1 != line
        match p.pair key line with
        | none => r
        | some k => (line, k) :: r }

/-- Bytes written under a key at an address within one line. -/
def Package.pokes (p : Package) (key : BitVec 6) (a : Nat) (bs : List Byte) : Package :=
  if bs.isEmpty then p
  else
    let q := p.rekey key (a / 64)
    { q with mem := q.mem.writeBytes a bs }

/-! ### Poison of lines (R395) -/

/-- Some line of the n bytes at a is poisoned. -/
def Package.linesPoisoned (p : Package) (a n : Nat) : Bool := p.poison.any fun l => a < 64 * l + 64 && 64 * l < a + n

/-- Some line of the n bytes at a is poisoned, or some sketch counter among them (R226). -/
def Package.poisonedAt (p : Package) (a n : Nat) : Bool :=
  p.linesPoisoned a n || p.counterPoison.any fun c => a < c + 4 && c < a + n

/-- A write covers whole lines: their poison goes. -/
def Package.cure (p : Package) (a n : Nat) : Package :=
  { p with poison := p.poison.filter fun l => !(a ≤ 64 * l && 64 * l + 64 ≤ a + n) }

def Package.poisonLine (p : Package) (line : Nat) : Package := { p with poison := insertNat p.poison line }

/-- Poison every line that the n bytes at a touch. -/
def Package.poisonRange (p : Package) (a n : Nat) : Package :=
  if n = 0 then p else (List.range ((a + n - 1) / 64 - a / 64 + 1)).foldl (fun q i => q.poisonLine (a / 64 + i)) p

/-! ### Stashed lines (R42, R281) -/

def Page.covers (pg : Page) (va : Nat) : Bool := pg.vbase ≤ va && va < pg.vbase + 2 ^ pg.bits

/-- The physical address of a virtual address of the page. -/
def Page.pa (pg : Page) (va : Nat) : Nat := pg.pbase + (va - pg.vbase)

/-- The physical address of a window's line. -/
def StashWin.linePa (w : StashWin) (line : Nat) : Option Nat :=
  let va := w.glob.toNat + 64 * line
  (w.pages.find? fun pg => pg.covers va).map fun pg => pg.pa va

/-- The window and line of a core that stash a physical address. -/
def Core.stashAt (c : Core) (pa : Nat) : Option (Nat × Nat) :=
  (List.range 8).findSome? fun i =>
    (c.wins.getD i none).bind fun w =>
      (w.lines.find? fun l => w.linePa l.line == some (pa / 64 * 64)).map fun l => (i, l.line)

/-- The core, window and line that stash a physical address. -/
def State.stashOwner (s : State) (pa : Nat) : Option (Nat × Nat × Nat) :=
  s.cores.findSome? fun c => (c.stashAt pa).map fun e => (c.num, e.1, e.2)

/-- The scratchpad offset of a byte of a stashed line. -/
def Core.stashOffset (c : Core) (win line pa : Nat) : Nat :=
  ((c.wins.getD win none).map fun w => w.loc + 64 * line + pa % 64).getD 0

/-- Some granule of the n scratchpad bytes at offset a is poisoned. -/
def Core.scratchPoisoned (c : Core) (a n : Nat) : Bool :=
  c.poison.any fun g => match g with
    | .scratch i => a < 8 * i + 8 && 8 * i < a + n
    | .pair o => a < o + 4 && o < a + n
    | _ => false

/-- Some granule of the n scratchpad bytes at offset a is poisoned as a whole. -/
def Core.granulesPoisoned (c : Core) (a n : Nat) : Bool :=
  c.poison.any fun g => match g with
    | .scratch i => a < 8 * i + 8 && 8 * i < a + n
    | _ => false

/-- Some copy command of the core is enqueued or executes. -/
def Core.copies (c : Core) : Bool := !(c.c0.cmds.isEmpty && c.c1.cmds.isEmpty)

/-- Write scratchpad bytes; whole granules lose their poison. -/
def Core.scratchWrite (c : Core) (a : Nat) (bs : List Byte) : Core :=
  { c with
    scratch := c.scratch.writeBytes a bs
    poison := c.poison.filter fun g => match g with
      | .scratch i => !(a ≤ 8 * i && 8 * i + 8 ≤ a + bs.length)
      | _ => true }

def Core.markDirty (c : Core) (win line : Nat) : Core :=
  let mark := fun w : StashWin =>
    { w with lines := w.lines.map fun l => if l.line = line then { l with dirty := true } else l }
  { c with wins := c.wins.setIfInBounds win ((c.wins.getD win none).map mark) }

/-- Poison the scratchpad granules that the n bytes at offset a touch. -/
def Core.scratchPoison (c : Core) (a n : Nat) : Core :=
  if n = 0 then c
  else
    let add := fun (l : List Granule) (i : Nat) =>
      if l.contains (.scratch (a / 8 + i)) then l else .scratch (a / 8 + i) :: l
    { c with poison := (List.range ((a + n - 1) / 8 - a / 8 + 1)).foldl add c.poison }

/-! ### Watchers (R409, R410) -/

/-- Who makes a write: an instruction of a core, by its place in the core's issue order; a command of one of its engines;
a home for commands of some cores, by their places in the issue orders (R184, R296); any other party; or nobody, where a hub or a
home moves data that stand (R298, R381). -/
inductive Writer where
  | instr (core order : Nat)
  | engine (core : Nat) (q : EngineQ) (m : Cmd)
  | home (cmds : List (Nat × Nat))
  | other
  | moved
deriving DecidableEq, Repr

/-- The write is one of the core's own instructions. -/
def Writer.isOwn (w : Writer) (core : Nat) : Bool :=
  match w with
  | .instr n _ => n == core
  | _ => false

/-- An event that a waiting WFE sees. -/
def Core.see (c : Core) (bit : BitVec 5) : Core := { c with wfe := c.wfe.map fun w => { w with seen := w.seen ||| bit } }

/-- A write to a line follows what an operation has read of it. -/
def GOp.overtake (o : GOp) (line : Nat) : GOp :=
  if o.got.isSome && o.pa / 64 = line then { o with overtaken := true } else o

/-- A write to a line reaches its home: watchers see it, and loads of that line have been overtaken. -/
def Core.sawWrite (c : Core) (w : Writer) (line : Nat) : Core :=
  if w.isOwn c.num then c
  else
    let c := match c.wfe with
      | some r => if r.line = some line then c.see 1#5 else c
      | none => c
    let c := { c with ops := c.ops.map fun (o : GOp) => o.overtake line }
    match c.lastLoad with
    | some (l, _) => if l = line then { c with lastLoad := some (l, true) } else c
    | none => c

/-- A write to a line follows what the last load of a strand in a save image has read (R410). -/
def Rest.saw (r : Rest) (line : Nat) : Rest :=
  match r.lastLoad with
  | some (l, _) => if l = line then { r with lastLoad := some (l, true) } else r
  | none => r

def Package.restsSaw (p : Package) (line : Nat) : Package := { p with rests := p.rests.map fun r => r.saw line }

/-! ### Accesses at a home -/

/-- A context has touched a set of dies, among which are halted ones: from a time on, where none was before, its bounds are frozen
(R21). -/
def Context.touches (c : Context) (dies halted : BitVec 10) (now : Nat) : Context :=
  { c with
    touched := c.touched ||| dies
    frozenAt := if c.touched &&& halted = 0#10 && dies &&& halted != 0#10 then now else c.frozenAt }

/-- A context touches a hub, and the hub that homes an address (R378). -/
def Package.touchHub (p : Package) (ctx hub : Nat) : Package :=
  p.setCtx ctx fun c => c.touches (1#10 <<< hub) p.halted p.now

def Package.touch (p : Package) (ctx pa : Nat) : Package := if paHome pa = 0 then p.touchHub ctx (homeHub pa) else p

/-- A pending trap joins a core's list, in rank order and then in order of arrival at equal rank and order (R388); a
waiting WFE sees it (R409). -/
def insertPending : List Pending → Pending → List Pending
  | [], t => [t]
  | u :: r, t => if u.rank < t.rank || (u.rank == t.rank && u.order ≤ t.order) then u :: insertPending r t else t :: u :: r

def Core.pend (c : Core) (t : Pending) : Core := ({ c with pending := insertPending c.pending t }).see 16#5

def Trap.plain (cause : BitVec 5) (i0 i1 i2 : Word) : Trap := ⟨cause, false, i0, i1, i2, 0#64⟩

/-- The cores that run a strand of a context. -/
def State.coresOf (s : State) (ctx : Nat) : List Nat :=
  (List.range Config.cores).filter fun n => (s.listed n).any fun c => c.strand.isSome && c.resident == some ctx

/-- The context is pre-empted: its strands have left their cores, and it is held or keeps some of them. -/
def State.preempted (s : State) (ctx : Nat) : Bool :=
  (s.coresOf ctx).isEmpty && ((s.pkg.ctx ctx).held || !(s.pkg.ctx ctx).paused.isEmpty)

def Merge.elapsed (m : Merge) (now : Nat) : Nat := m.age + (m.since.map fun t => now - t).getD 0

/-- The open time of a context's merges stops with a pre-emption, and runs on after it (R186). -/
def Merge.timed (m : Merge) (runs : Bool) (now : Nat) : Merge :=
  if runs then (if m.since.isNone then { m with since := some now } else m)
  else { m with age := m.elapsed now, since := none }

def State.settleMerges (s : State) (ctx : Nat) : State :=
  let runs := !s.preempted ctx
  s.mapPkg fun p => { p with merges := p.merges.map fun m => if m.ctx = ctx then m.timed runs p.now else m }

/-- Host-assisted die-loss handling holds a context that is trapped for a lost die (R381 function 4; assumption 27). -/
def Package.holdForLoss (p : Package) (ctx : Nat) : Package :=
  if (p.ctx ctx).hardware 4 then p else p.setCtx ctx fun c => { c with held := true }

/-- Die loss is told once to every strand of a context (R20, R397). -/
def State.tellLoss (s : State) (ctx die : Nat) : State :=
  let t : Pending := ⟨0, 0, .plain 20#5 (BitVec.ofNat 64 die) (s.pkg.dieen.setWidth 64) 0#64, .none⟩
  let tellPaused := fun q : Paused =>
    if q.lost.contains (BitVec.ofNat 4 die) then q else { q with lost := q.lost ++ [BitVec.ofNat 4 die] }
  let tellCore := fun c : Core =>
    if c.strand.isSome && c.resident == some ctx && !(c.pending.contains t) then c.pend t else c
  (s.mapCores tellCore).mapPkg fun p => p.setCtx ctx fun x => { x with paused := x.paused.map tellPaused }

/-- Event 0x31 for an access to a pool address that no decoder, or more than one, covers (R425); its subject is a context, a
function of the host, or 0xFF. -/
def Package.undecoded (p : Package) (subject pa : Nat) : Package := if p.reach pa = .undecoded then p.raise 0x31 subject else p

/-- An access of a context that its home or port does not serve: the event or the trap that it brings. A slice of a serving hub
whose address is decoded to a pool port of a lost hub is reached through that hub (assumption 39). -/
def State.unserved (s : State) (ctx pa : Nat) : State :=
  match s.pkg.reach pa with
  | .served => s
  | .undecoded => s.mapPkg fun p => p.raise 0x31 ctx
  | .down => s
  | .hubLost hub => ((s.mapPkg fun p => (p.touchHub ctx hub).holdForLoss ctx).tellLoss ctx hub).settleMerges ctx

/-- The n bytes at a physical address as a reader with a key sees them, and whether they are poisoned. A stashed line is
read at its owner. -/
def State.look (s : State) (pa n : Nat) (key : BitVec 6) : List Byte × Bool :=
  match s.stashOwner pa with
  | some (c, w, l) =>
    let core := s.coreAt c
    (core.scratch.bytes (core.stashOffset w l pa) n, core.scratchPoisoned (core.stashOffset w l pa) n)
  | none =>
    match s.pkg.reach pa with
    | .served => (s.pkg.peeks key pa n, s.pkg.poisonedAt pa n)
    | _ => (List.replicate n 0#8, true)

/-- The effects on the package of a context's access to an address: TOUCHED, the flit of a request to another package, and
what an unserved access brings. -/
def State.reachFor (s : State) (ctx pa : Nat) : State := (s.mapPkg fun p => (p.touch ctx pa).request pa).unserved ctx pa

/-! ### What a write changes (R129, R283, R288) -/

/-- The bytes at a physical address as a reader with a key sees them, each with its poison. -/
def State.cells (s : State) (pa n : Nat) (key : BitVec 6) : List (Byte × Bool) :=
  (List.range n).map fun i => ((s.look (pa + i) 1 key).1.headD 0#8, (s.look (pa + i) 1 key).2)

def EngQueue.mapCmds (q : EngQueue) (f : Cmd → Cmd) : EngQueue := { q with cmds := q.cmds.map f }

/-- The queue of an engine (R258). -/
def Core.queue (c : Core) : EngineQ → EngQueue
  | .l => c.l | .c0 => c.c0 | .c1 => c.c1 | .k => c.k

/-- The commands of the core's queues. -/
def Core.commands (c : Core) : List Cmd := c.l.cmds ++ c.c0.cmds ++ c.c1.cmds ++ c.k.cmds

/-- Change every command of the core. -/
def Core.mapCmds (c : Core) (f : Cmd → Cmd) : Core :=
  { c with l := c.l.mapCmds f, c0 := c.c0.mapCmds f, c1 := c.c1.mapCmds f, k := c.k.mapCmds f }

/-- The cells from a location on stay with a command as its reads find them; those that it keeps already stay as they are. -/
def Cmd.keep (m : Cmd) (loc : Nat) (cells : List (Byte × Bool)) (written : Bool) : Cmd :=
  let has := fun (i : Nat) => m.olds.any fun x => x.loc == i
  let new := cells.zipIdx.filterMap fun e =>
    if has (loc + e.2) then none else some (⟨loc + e.2, e.1.1, e.1.2, written⟩ : OldByte)
  let met := fun (x : OldByte) => written && loc ≤ x.loc && x.loc < loc + cells.length
  { m with olds := new ++ m.olds.map fun x => if met x then { x with written := true } else x }

/-- An access at a place of the core's issue order meets cells, and may write them. The reads of an earlier command count at its
enqueue and find them as the access did (R288 row 3, R290); one that stands stopped reads afresh when it resumes. -/
def Core.keepFor (c : Core) (order loc : Nat) (cells : List (Byte × Bool)) (written : Bool) : Core :=
  if c.commands.isEmpty then c else c.mapCmds fun m => if m.order < order && m.status != .stopped then m.keep loc cells written else m

/-- The units in which an engine's write of n bytes is made: aligned words of g bytes that lie wholly inside it, and single
bytes (R285). -/
def writeUnits (g a : Nat) : Nat → Nat → List (Nat × Nat)
  | 0, _ => []
  | fuel + 1, n =>
    if n = 0 then []
    else if a % g = 0 && g ≤ n then (a, g) :: writeUnits g (a + g) fuel (n - g)
    else (a, 1) :: writeUnits g (a + 1) fuel (n - 1)

/-- The unit of an engine's write of n bytes: the lattice writes whole 64-byte words (R199), a copy 8-byte ones, and the
sketch counters of 4 bytes and longer words of 8 (R285). -/
def unitOf (n : Nat) : EngineQ → Nat
  | .l => 64
  | .k => if n = 4 then 4 else 8
  | _ => 8

/-- A command of an engine changes units at locations from the old bytes that each holds; no wait of the core has acquired that
yet. -/
def Core.unsee (c : Core) (q : EngineQ) (m : Cmd) (units : List (Nat × List Byte)) : Core :=
  { c with unseen := (units.map fun u => (⟨q, m.nth, fieldNat m.b 34 6, u.1, u.2, [], false⟩ : Unseen)) ++ c.unseen }

/-- A command of an engine changes cells. Poisoned ones are found changed at once (assumption 97). -/
def Core.addUnseen (c : Core) (q : EngineQ) (m : Cmd) (loc : Nat) (cells : List (Byte × Bool)) : Core :=
  let units := (writeUnits (unitOf cells.length q) loc cells.length cells.length).map fun u => (u.1, (cells.drop (u.1 - loc)).take u.2)
  c.unsee q m ((units.filter fun u => u.2.all fun e => !e.2).map fun u => (u.1, u.2.map fun e => e.1))

def Unseen.meets (u : Unseen) (loc n : Nat) : Bool := u.loc < loc + n && loc < u.loc + u.old.length

/-- A write of the core's engines that no wait has acquired meets n bytes at a location. -/
def Core.unseenAt (c : Core) (loc n : Nat) : Bool := c.unseen.any fun u => u.meets loc n

/-- Some entries, newest first, are found old no more, and nor is what they have replaced: an older entry that one of them
meets. -/
def retireUnseen (gone : Unseen → Bool) : List Unseen → List Unseen → List Unseen
  | [], _ => []
  | u :: r, found =>
    if gone u || found.any fun x => u.meets x.loc x.old.length then retireUnseen gone r (u :: found)
    else u :: retireUnseen gone r found

/-- The core acquires the writes of its engines that a predicate selects (R288 row 5, R295, R296). -/
def Core.acquire (c : Core) (covers : Unseen → Bool) : Core := { c with unseen := retireUnseen covers c.unseen [] }

/-- The location order of n bytes has gone past what the core's engines wrote there (R287): nothing older is found. -/
def Core.pass (c : Core) (loc n : Nat) : Core := if c.unseenAt loc n then c.acquire fun u => u.meets loc n else c

/-- Another party has read n bytes at a location: what the core's engines wrote there may reach the core through it. -/
def Core.reveal (c : Core) (loc n : Nat) : Core :=
  if c.unseenAt loc n then { c with unseen := c.unseen.map fun u => if u.meets loc n then { u with shown := true } else u } else c

/-- An acquire, a fence or a wait of the core orders what follows it after every write that has reached the core (R288 rows 1, 4
and 5, R289, R293). -/
def Core.observeShown (c : Core) : Core := c.acquire fun u => u.shown

/-- The core writes n bytes from a location on at a place of its issue order: every ELAPP issued before it leaves them (R347). -/
def Core.overEl (c : Core) (order loc n : Nat) : Core :=
  if c.work.isEmpty then c else { c with work := c.work.map fun w => match w.instr with
    | .elapp .. =>
      if w.order < order then { w with later := (List.range n).foldl (fun l i => insertNat l (loc + i)) w.later } else w
    | _ => w }

def Core.overWriter (c : Core) (who : Writer) (loc n : Nat) : Core :=
  match who with
  | .instr core order => if core = c.num then c.overEl order loc n else c
  | _ => c

/-- What a core keeps of cells that a write at a location is about to change. -/
def Core.foresee (c : Core) (who : Writer) (loc : Nat) (cells : List (Byte × Bool)) : Core :=
  match who with
  | .instr n order =>
    ((if n = c.num then c.keepFor order loc cells true else c).overWriter who loc cells.length).pass loc cells.length
  | .engine n q m => if n = c.num then (c.keepFor m.order loc cells true).addUnseen q m loc cells else c.pass loc cells.length
  | .home cmds =>
    (cmds.foldl (fun c b => if b.1 = c.num then c.keepFor b.2 loc cells true else c) c).pass loc cells.length
  | _ => c.pass loc cells.length

/-- A reader other than a core's own units reads n bytes at a location: the core of a number, or another party. -/
def State.showTo (s : State) (reader : Option Nat) (loc n : Nat) : State :=
  if s.cores.any fun c => reader != some c.num && c.unseenAt loc n then
    s.mapCores fun c => if reader = some c.num then c else c.reveal loc n
  else s

/-- The author of a write as a copy command compares it (R283, R295). -/
def Writer.author : Writer → Option (Nat × Nat)
  | .instr core order => some (core, order)
  | _ => none

/-- A write of n bytes at a physical address is noted while some copy command is enqueued, or saved in an image (R283). -/
def State.noteWrite (s : State) (who : Writer) (pa n : Nat) : State :=
  if who != .moved && (s.cores.any Core.copies || s.pkg.rests.any fun r => !r.cmds.isEmpty) then
    s.mapPkg fun p => { p with written := p.written ++ [⟨pa, n, who.author⟩] }
  else s

/-- The old words of code that a core's store of n bytes changes, as a reader with a key sees them, newest first (R129). -/
def State.noteStale (s : State) (core order pa n : Nat) (key : BitVec 6) : State :=
  let words := (List.range ((pa + n - 1) / 8 - pa / 8 + 1)).map fun i => 8 * (pa / 8 + i)
  let old := words.map fun a =>
    (⟨core, (s.coreAt core).resident.getD 0, order, a, BitVec.ofNat 64 (leNat (s.look a 8 key).1)⟩ : StaleWord)
  if n = 0 then s
  else s.mapPkg fun p => { p with stale := old ++ p.stale.filter fun e => !old.contains e }

/-- A write at a physical address takes effect: a core stashes its line, or its home and port serve. -/
def State.lands (s : State) (pa : Nat) : Bool := (s.stashOwner pa).isSome || s.pkg.reach pa == .served

/-- What is kept of n bytes that a write at a physical address is about to change. -/
def State.foresee (s : State) (who : Writer) (pa n : Nat) (key : BitVec 6) : State :=
  let s := match who with
    | .instr core order => s.noteStale core order pa n key
    | _ => s
  s.mapCores fun c => c.foresee who pa (s.cells pa n key)

/-- Bytes written at a physical address within one line. A write that no home serves is discarded, and nothing sees it. -/
def State.put (s : State) (who : Writer) (pa : Nat) (bs : List Byte) (key : BitVec 6) : State :=
  if !s.lands pa then s
  else
    let s := s.foresee who pa bs.length key
    let s' := match s.stashOwner pa with
      | some (c, w, l) =>
        s.onCore c fun t => t.mapCore fun core =>
          (core.scratchWrite (core.stashOffset w l pa) bs).markDirty w l
      | none => s.mapPkg fun p => (p.pokes key pa bs).cure pa bs.length
    ((s'.mapCores fun c => c.sawWrite who (pa / 64)).mapPkg fun p => p.restsSaw (pa / 64)).noteWrite who pa bs.length

/-- The line that the host holds modified comes back to its home (R298). -/
def State.recall (s : State) (line : Nat) : State :=
  match s.pkg.hostLines.find? fun e => e.1 == line with
  | none => s
  | some e =>
    let t := s.mapPkg fun p => { p with
      hostLines := p.hostLines.filter fun x => x.1 != line
      snoops := p.snoops.filter fun x => x != line }
    (t.mapPkg fun p => p.undecoded 0xFF (64 * line)).put .moved (64 * line) (natBytes 64 e.2.toNat) s.pkg.hostkey

/-- What a reader finds at a home that waits for a line that the host holds modified (R298). -/
def State.lookHome (s : State) (pa n : Nat) (key : BitVec 6) : List Byte × Bool := (s.recall (pa / 64)).look pa n key

/-! ### Poisoned counters (R226) -/

def Core.setGranule (c : Core) (g : Granule) (bad : Bool) : Core :=
  let r := c.poison.filter fun x => x != g
  { c with poison := if bad then g :: r else r }

/-- The counter at a physical address is poisoned by itself, or is so no more, where its line stands. -/
def State.setPair (s : State) (pa : Nat) (bad : Bool) : State :=
  match s.stashOwner pa with
  | some (c, w, l) => s.onCore c fun t => t.mapCore fun core => core.setGranule (.pair (core.stashOffset w l pa)) bad
  | none => s.mapPkg fun p => { p with
      counterPoison := if bad then insertNat p.counterPoison pa else p.counterPoison.filter fun a => a != pa }

/-- The stretch around a physical address that is poisoned as a whole: a granule of a stashed line, or a line. -/
def State.poisonAround (s : State) (pa : Nat) : Option (Nat × Nat) :=
  match s.stashOwner pa with
  | some (c, w, l) =>
    let core := s.coreAt c
    if core.granulesPoisoned (core.stashOffset w l pa) 1 then some (pa / 8 * 8, 8) else none
  | none => if s.pkg.linesPoisoned pa 1 then some (pa / 64 * 64, 64) else none

/-- That poison goes. -/
def State.liftPoison (s : State) (pa : Nat) : State :=
  match s.stashOwner pa with
  | some (c, w, l) =>
    s.onCore c fun t => t.mapCore fun core => core.setGranule (.scratch (core.stashOffset w l pa / 8)) false
  | none => s.mapPkg fun p => { p with poison := p.poison.filter fun l => l != pa / 64 }

/-- Make the line of an address poisoned data, wherever it stands. -/
def State.putPoison (s : State) (pa n : Nat) : State :=
  match s.stashOwner pa with
  | some (c, w, l) => s.onCore c fun t => t.mapCore fun core => core.scratchPoison (core.stashOffset w l pa) n
  | none => s.mapPkg fun p => p.poisonRange pa n

end Sys2Proof.Machine
end

