-- ==== Sys2Proof/Machine/Translate.lean ====
section
/-! DEFINITION. Translation of global addresses (R278, R375, R376), held translations (R407) and accesses through them. -/

namespace Sys2Proof.Machine

/-- Why an address is translated: the permission it needs (R376), if any, and the code that a trap carries (R390). -/
inductive Acc where
  | read | write | rmw | fetch | probe
deriving DecidableEq, Repr

/-! ### Page-table entries (R375) -/

def pteValid (e : Word) : Bool := e.getLsbD 0
def pteDemand (e : Word) : Bool := e.getLsbD 8
def pteLeaf (e : Word) : Bool := e.getLsbD 9
def pteBig (e : Word) : Bool := e.getLsbD 10
def pteLz (e : Word) : Bool := e.getLsbD 11
def pteHome (e : Word) : Nat := fieldNat e 6 2
def ptePpn (e : Word) : Nat := fieldNat e 12 40 * 4096
def pteKey (e : Word) : BitVec 6 := e.extractLsb' 52 6
def pteOwner (e : Word) : BitVec 6 := e.extractLsb' 58 6

/-- The physical address of an entry's page or table. A home of another package that names this package is its own pool
(R375, R435). -/
def Package.ptePa (p : Package) (e : Word) : Nat :=
  if pteHome e = 2 && ptePpn e / 2 ^ 46 == p.position then paOf 0 (ptePpn e % 2 ^ 46)
  else paOf (pteHome e) (ptePpn e)

/-- An entry that the first row of R376 refuses by its own bits, at a level. -/
def pteRefused (level : Nat) (e : Word) : Bool :=
  pteValid e == pteDemand e || e.getLsbD 4 || (pteLz e && !pteDemand e) || pteHome e == 3
    || (pteBig e && level != 0) || (pteLeaf e && 2 < level)

/-- The index of an address at a level (R375). -/
def ptIndex (va level : Nat) : Nat := va / 2 ^ (12 + 9 * level) % 512

/-- The end of a walk: a leaf entry with the log2 of its page's size and the address of the entry, a refusal, or a
poisoned table entry. -/
inductive Walk where
  | leaf (e : Word) (bits : Nat) (at_ : Nat)
  | demand (e : Word) (bits : Nat) (at_ : Nat)
  | refused
  | poisoned
deriving DecidableEq, Repr

def State.tableWord (s : State) (pa : Nat) (key : BitVec 6) : Word × Bool :=
  let r := s.lookHome pa 8 key
  (BitVec.ofNat 64 (leNat r.1), r.2)

/-- The 16 entries of a 64 KiB group hold one word (R375). -/
def State.groupAgrees (s : State) (table va : Nat) (key : BitVec 6) (e : Word) : Bool :=
  (List.range 16).all fun i => (s.tableWord (table + 8 * (ptIndex va 0 / 16 * 16 + i)) key).1 == e

/-- Walk the tables from a level down, with the table addresses read (R375). -/
def State.walk (s : State) (key : BitVec 6) (va : Nat) : Nat → Nat → List Nat × Walk
  | 0, table =>
    let a := table + 8 * ptIndex va 0
    let e := (s.tableWord a key).1
    ([a],
      if (s.tableWord a key).2 then .poisoned
      else if pteRefused 0 e then .refused
      else if pteBig e && !s.groupAgrees table va key e then .refused
      else
        let bits := if pteBig e then 16 else 12
        if pteDemand e then .demand e bits a else .leaf e bits a)
  | level + 1, table =>
    let a := table + 8 * ptIndex va (level + 1)
    let e := (s.tableWord a key).1
    if (s.tableWord a key).2 then ([a], .poisoned)
    else if pteRefused (level + 1) e then ([a], .refused)
    else if pteDemand e then ([a], .demand e (12 + 9 * (level + 1)) a)
    else if pteLeaf e then ([a], .leaf e (12 + 9 * (level + 1)) a)
    else
      let r := s.walk key va level (s.pkg.ptePa e)
      (a :: r.1, r.2)

/-- The page that a leaf entry gives an address. The low bits of the physical page come from the address (R375). -/
def Package.pageOf (p : Package) (ctx va bits : Nat) (e : Word) : Page where
  ctx := ctx
  vbase := va / 2 ^ bits * 2 ^ bits
  bits := bits
  pbase := p.ptePa e / 2 ^ bits * 2 ^ bits
  key := pteKey e
  owner := pteOwner e
  x := e.getLsbD 3
  w := e.getLsbD 2
  r := e.getLsbD 1
  c := e.getLsbD 5

/-- The level-4 table of a context (R372). -/
def Context.table (c : Context) : Nat := fieldNat c.ptbase 12 40 * 4096

/-- The address of the walk's tables that a translation of a context reads, and its end. -/
def State.walkFor (s : State) (ctx : Nat) (va : Nat) : List Nat × Walk :=
  s.walk (s.pkg.ctx ctx).ptkey va 4 (s.pkg.ctx ctx).table

/-! ### Checks -/

/-- The page's permissions against an access: the cause and the access code of the refusal (R376). -/
def Page.refuses (pg : Page) : Acc → Option (BitVec 5 × Word)
  | .fetch => if pg.x then none else some (9#5, 3#64)
  | .read => if pg.r then none else some (9#5, 1#64)
  | .probe => none
  | .write => if pg.w then none else some (11#5, 2#64)
  | .rmw => if !pg.r then some (9#5, 1#64) else if pg.w then none else some (11#5, 2#64)

/-- The code of an access in TRAPINFO2 (R390). -/
def Acc.code : Acc → Word
  | .read => 1#64 | .write => 2#64 | .rmw => 1#64 | .fetch => 3#64 | .probe => 1#64

def usableKey (c : Context) (k : BitVec 6) : Bool := c.keymask.getLsbD k.toNat

/-- A translation that ends a walk, checked in the order of R376. -/
def State.checkWalk (s : State) (ctx : Nat) (va : Word) (acc : Acc) : Except Trap Page :=
  let c := s.pkg.ctx ctx
  let bad := fun cause => Except.error (Trap.plain cause va 0#64 acc.code)
  match (s.walkFor ctx va.toNat).2 with
  | .poisoned => bad 19#5
  | .refused => bad 9#5
  | .demand e _ _ => if usableKey c (pteKey e) && usableKey c c.ptkey then bad 10#5 else bad 9#5
  | .leaf e bits _ =>
    if usableKey c (pteKey e) && usableKey c c.ptkey then .ok (s.pkg.pageOf ctx va.toNat bits e) else bad 9#5

def checkPerm (va : Word) (acc : Acc) (pg : Page) : Except Trap Page :=
  match pg.refuses acc with
  | none => .ok pg
  | some (cause, code) => .error (.plain cause va 0#64 code)

/-- A walk gives a page. -/
def givesPage (r : Except Trap Page) (pg : Page) : Bool :=
  match r with
  | .ok q => q = pg
  | .error _ => false

/-- Translate a virtual address of a context. Where a held translation differs from what a walk gives, it is used or walked
again, as the part chooses (Config.usesHeld); a walk touches the hubs of its tables (R378), and its page is held from then on. -/
def State.translate (s : State) (ctx : Nat) (va : Word) (acc : Acc) : State × Except Trap Page :=
  if 2 ^ 57 ≤ va.toNat then (s, .error (.plain 9#5 va 0#64 acc.code))
  else
    match s.pkg.held.find? fun pg => pg.ctx == ctx && pg.covers va.toNat with
    | some pg =>
      if givesPage (s.checkWalk ctx va acc) pg then (s, checkPerm va acc pg)
      else if Config.usesHeld s.fresh then ({ s with fresh := s.fresh + 1 }, checkPerm va acc pg)
      else walkNow { s with fresh := s.fresh + 1 }
    | none => walkNow s
where
  walkNow (s : State) : State × Except Trap Page :=
    let s' := ((s.walkFor ctx va.toNat).1.foldl (fun t a => (t.recall (a / 64)).reachFor ctx a) s).mapCore fun c => c.bump 40 1
    match s.checkWalk ctx va acc with
    | .error t => (s', .error t)
    | .ok pg =>
      let keep := fun p : Package =>
        { p with held := pg :: p.held.filter fun q => !(q.ctx == ctx && q.covers va.toNat) }
      (s'.mapPkg keep, checkPerm va acc pg)

/-- Translate every page of an extent in ascending order (R282). The fuel bounds the number of pages. -/
def State.translateRange (s : State) (ctx va stop : Nat) (acc : Acc) : Nat → State × Except Trap (List Page)
  | 0 => (s, .ok [])
  | fuel + 1 =>
    if stop ≤ va then (s, .ok [])
    else
      match s.translate ctx (BitVec.ofNat 64 va) acc with
      | (s, .error t) => (s, .error t)
      | (s, .ok pg) =>
        match s.translateRange ctx (pg.vbase + 2 ^ pg.bits) stop acc fuel with
        | (s, .error t) => (s, .error t)
        | (s, .ok r) => (s, .ok (pg :: r))

/-- The pages of the n bytes at a global address. -/
def State.translateExtent (s : State) (ctx va n : Nat) (acc : Acc) : State × Except Trap (List Page) :=
  s.translateRange ctx va (va + n) acc (n / 4096 + 2)

/-- The page of a list that covers an address. -/
def pageFor (pages : List Page) (va : Nat) : Option Page := pages.find? fun pg => pg.covers va

end Sys2Proof.Machine
end

