-- ==== Sys2Proof/Machine/Regs.lean ====
section
/-! DEFINITION. The registers of a core, what the system registers show (R44 to R46, R372, R389), writes in flight and the
passing of cycles (R22, R23, R33, R34). -/

namespace Sys2Proof.Machine

/-! ### Scalar, vector and predicate registers (R29, R32, R34) -/

def Core.getX (c : Core) (r : Reg) : Word := if r = 0#6 then 0#64 else c.x[r.toNat]'r.isLt

/-- The physical slot of a vector register (R32). -/
def Core.vslot (c : Core) (n : BitVec 6) : Nat :=
  if n.toNat < 16 then n.toNat else 16 + (n.toNat - 16 + c.vbase.toNat) % 32

/-- The physical slot of a predicate register (R32). -/
def Core.pslot (c : Core) (n : PReg) : Nat :=
  if n.toNat < 8 then n.toNat else 8 + (n.toNat - 8 + c.pbase.toNat) % 8

def Core.vdead (c : Core) (slot : Nat) : Bool :=
  16 ≤ slot && c.vdepth != 0#6 && c.vdepth.toNat ≤ (c.vage.getD (slot - 16) 0#6).toNat

def Core.pdead (c : Core) (slot : Nat) : Bool :=
  8 ≤ slot && c.pdepth != 0#4 && c.pdepth.toNat ≤ (c.page.getD (slot - 8) 0#6).toNat

/-- The image of a vector register as a source reads it (R34). -/
def Core.getV (c : Core) (n : BitVec 6) : VecImg :=
  if c.vdead (c.vslot n) then 0#4096 else c.v.getD (c.vslot n) 0#4096

def allTrue : PredImg := BitVec.allOnes 128

/-- The value of a predicate register as a source reads it (R29, R34). -/
def Core.getP (c : Core) (n : PReg) : PredImg :=
  if n = 0#4 then allTrue
  else if c.pdead (c.pslot n) then 0#128 else c.p.getD (c.pslot n) 0#128

/-- Lane k of an image. -/
def laneOf (v : VecImg) (k : Nat) : Lane := v.extractLsb' (32 * k) 32

/-- The image of 128 lanes, lane 0 first. -/
def ofLanes (f : Nat → Lane) : VecImg :=
  BitVec.ofNat 4096 ((List.range 128).foldr (fun k acc => acc * 2 ^ 32 + (f k).toNat) 0)

/-- A predicate image of 128 bits. -/
def ofBits (f : Nat → Bool) : PredImg :=
  BitVec.ofNat 128 ((List.range 128).foldr (fun k acc => 2 * acc + (f k).toNat) 0)

/-- The lanes of a list, the rest +0. -/
def ofLaneList (l : List Lane) : VecImg :=
  BitVec.ofNat 4096 ((l.take 128).foldr (fun v acc => acc * 2 ^ 32 + v.toNat) 0)

def lanesOf (v : VecImg) : List Lane := (List.range 128).map (laneOf v)

/-- Each of the 128 bits repeated over its 32-bit lane. -/
def laneMask (m : PredImg) : VecImg := ofLanes fun k => if m.getLsbD k then BitVec.allOnes 32 else 0#32

/-! ### Counts of the classes (R26, R258, R309) -/

def GKind.countsG : GKind → Bool
  | .load _ | .amo .. | .cas .. | .barGen | .gsize _ | .grank _ | .tlbinv .. | .handle => true
  | _ => false

def GKind.countsS : GKind → Bool
  | .store | .barInit | .barExp | .barArv | .spawn _ | .launch _ | .gjoin _ | .gleave _ | .keyset .. | .writeback => true
  | _ => false

/-- An EL instruction that writes a register counts in class G, the others in class S (R346). -/
def ElWork.countsG (w : ElWork) : Bool :=
  match w.instr with
  | .elcat .. | .ellen .. | .elget .. => true
  | _ => false

/-- The work writes the entries of a list (R347). -/
def ElWork.applies (w : ElWork) : Bool :=
  match w.instr with
  | .elapp .. => true
  | _ => false

def Core.classG (c : Core) : Nat :=
  (c.ops.filter fun o => o.kind.countsG).length + (c.work.filter fun w => w.countsG).length

def Core.classS (c : Core) : Nat :=
  (c.ops.filter fun o => o.kind.countsS).length + (c.work.filter fun w => !w.countsG).length

def Core.classC (c : Core) : Nat := c.c0.cmds.length + c.c1.cmds.length
def Core.classA (c : Core) : Nat := c.l.cmds.length
def Core.classK (c : Core) : Nat := c.k.cmds.length

def Core.setQueue (c : Core) (q : EngineQ) (e : EngQueue) : Core :=
  match q with
  | .l => { c with l := e } | .c0 => { c with c0 := e } | .c1 => { c with c1 := e } | .k => { c with k := e }

/-- The context that the core serves. -/
def Core.ctx (c : Core) : Nat := c.resident.getD 0

/-! ### System registers -/

def bitAt (b : Bool) (n : Nat) : Word := (BitVec.ofBool b).setWidth 64 <<< n

def Core.status (c : Core) : Word :=
  c.pblkPred.setWidth 64 <<< 20 ||| c.pblkCount.setWidth 64 <<< 16 ||| c.pblkPat.setWidth 64 <<< 8
    ||| bitAt c.collect 1 ||| bitAt c.super 0

def Core.rrb (c : Core) : Word := c.pbase.setWidth 64 <<< 8 ||| c.vbase.setWidth 64

def Core.livedepth (c : Core) : Word := c.pdepth.setWidth 64 <<< 8 ||| c.vdepth.setWidth 64

def Core.outst (c : Core) : Word :=
  BitVec.ofNat 64 (c.classG % 4096 + c.classS % 4096 * 2 ^ 12 + c.classC % 128 * 2 ^ 24 + c.classA % 64 * 2 ^ 32
    + c.classK % 64 * 2 ^ 40)

def Core.lstat (c : Core) : Word :=
  let queued := (c.l.cmds.filter fun m => m.status == .queued).length
  c.lat.lastSeq.setWidth 64 <<< 48 ||| c.lat.fault.setWidth 64 <<< 32 ||| c.lat.nullPairs.setWidth 64 <<< 16
    ||| bitAt c.lat.recAlt 10 ||| bitAt (c.l.cmds.any fun m => m.status == .stopped) 9
    ||| bitAt (c.l.cmds.any fun m => m.status == .running) 8 ||| BitVec.ofNat 64 queued

/-- The value of PARTITION for a context (R372). -/
def Package.partReg (p : Package) (ctx : Nat) : Word :=
  let k := (p.ctx ctx).part
  let r := p.partition k
  BitVec.ofNat 64 (partFloor r % 2 ^ 16 * 2 ^ 48 + k % 16 * 2 ^ 32 + partLast r % 128 * 2 ^ 16 + partFirst r % 128)

/-- What MOVSR samples (R121). -/
def State.readSys (s : State) (r : SysReg) : Word :=
  let c := s.core
  let x := s.pkg.ctx c.ctx
  match r with
  | .status => c.status
  | .rrb => c.rrb
  | .livedepth => c.livedepth
  | .tags => c.tags
  | .tagdrop => c.tagdrop
  | .outst => c.outst
  | .tick => BitVec.ofNat 64 (Config.ticksOf c.time)
  | .coreid => BitVec.ofNat 64 (s.pkg.rank c.num * 256 + c.num)
  | .strand => c.strandReg
  | .frame => c.frame
  | .elbase => c.elbase.setWidth 64
  | .elcap => c.elcap.setWidth 64
  | .lstat => c.lstat
  | .normin => c.lat.normin
  | .normout => c.lat.normout
  | .qfmt q => c.qfmt[q.toNat]'q.isLt
  | .pace q => (c.pace[q.code.toNat]'q.code.isLt).setWidth 64
  | .trapcause => c.trapcause
  | .trappc => c.trappc
  | .trapinfo n => c.trapinfo[n.toNat]'n.isLt
  | .trapvec => c.trapvec
  | .savearea => x.desc.extractLsb' 192 64 &&& ~~~0xFFF#64
  | .ctxid => BitVec.ofNat 64 c.ctx
  | .ptbase => x.ptbase &&& 0x03FFFFFFFFFFF000#64
  | .keyid => x.keymask
  | .touched => x.touched.setWidth 64
  | .part => s.pkg.partReg c.ctx
  | .pkgpos => s.pkg.domain
  | .dieen => s.pkg.dieen.setWidth 64
  | .coreen d => (s.pkg.coreen[d.toNat]'d.isLt).setWidth 64
  | .dbgctl => bitAt c.step 1 ||| bitAt x.debug 0

/-- The fields of QFMT that a write stores (R101). -/
def qfmtMask : Word := 0x71F1F#64

/-- The fields of TRAPCAUSE that a write stores (R389). -/
def trapcauseMask : Word := 0xC00000000000001F#64

/-- The effect of a write of a system register when it lands (R46, R101, R260, R337, R389): reserved fields are discarded,
and a read-only register keeps its value. -/
def Core.writeSys (c : Core) (r : SysReg) (v : Word) : Core :=
  match r with
  | .status => { c with
      pblkPred := v.extractLsb' 20 4, pblkCount := v.extractLsb' 16 4, pblkPat := v.extractLsb' 8 8 }
  | .rrb => { c with vbase := v.extractLsb' 0 5, pbase := v.extractLsb' 8 3 }
  | .livedepth => { c with
      vdepth := if 32 < fieldNat v 0 6 then 32#6 else v.extractLsb' 0 6
      pdepth := if 8 < fieldNat v 8 4 then 8#4 else v.extractLsb' 8 4 }
  | .frame => { c with frame := v }
  | .elbase => { c with elbase := v.extractLsb' 0 22 }
  | .elcap => { c with elcap := v.extractLsb' 0 22 }
  | .qfmt q => { c with qfmt := c.qfmt.set q.toNat (v &&& qfmtMask) q.isLt }
  | .pace q => { c with pace := c.pace.set q.code.toNat (v.extractLsb' 0 20) q.code.isLt }
  | .trapcause => { c with trapcause := v &&& trapcauseMask }
  | .trappc => { c with trappc := v }
  | .trapinfo n => { c with trapinfo := c.trapinfo.set n.toNat v n.isLt }
  | .trapvec => { c with trapvec := v &&& ~~~7#64 }
  | .dbgctl => { c with step := v.getLsbD 1 }
  | .tags | .tagdrop | .outst | .tick | .coreid | .strand | .lstat | .normin | .normout | .savearea | .ctxid | .ptbase
  | .keyid | .touched | .part | .pkgpos | .dieen | .coreen _ => c

/-- User mode may write the register (R44). -/
def SysReg.userWrites : SysReg → Bool
  | .rrb | .livedepth | .frame | .elbase | .elcap | .qfmt _ | .pace _ => true
  | _ => false

/-- The register is numbered 0x100 or above: for the supervisor alone (R44). -/
def SysReg.privileged (r : SysReg) : Bool := 0x100 ≤ r.code.toNat

/-! ### Landing of writes -/

def Core.setX (c : Core) (r : Reg) (v : Word) : Core :=
  if r = 0#6 then c
  else { c with x := c.x.set r.toNat v r.isLt, poison := c.poison.filter fun g => g != .x r }

/-- Write the lanes that a mask selects into a vector slot; its age becomes zero, and granules written whole lose their
poison (R34, R62, R395). A masked write to a dead slot keeps the lanes that the slot stores (assumption 41). -/
def Core.setV (c : Core) (slot : Nat) (mask : PredImg) (img : VecImg) : Core :=
  let m := laneMask mask
  let keep := fun g : Granule => match g with
    | .v s k => !(s == slot && mask.getLsbD (2 * k) && mask.getLsbD (2 * k + 1))
    | _ => true
  { c with
    v := c.v.setIfInBounds slot ((c.v.getD slot 0#4096 &&& ~~~m) ||| (img &&& m))
    vage := if 16 ≤ slot then c.vage.setIfInBounds (slot - 16) 0#6 else c.vage
    poison := c.poison.filter keep }

/-- Write the bits that a mask selects into a predicate slot; p0 discards writes (R29). -/
def Core.setP (c : Core) (slot : Nat) (mask img : PredImg) : Core :=
  if slot = 0 then c
  else
    let keep := fun g : Granule => match g with
      | .p s k => !(s == slot && mask.extractLsb' (64 * k) 64 == BitVec.allOnes 64)
      | _ => true
    { c with
      p := c.p.setIfInBounds slot ((c.p.getD slot 0#128 &&& ~~~mask) ||| (img &&& mask))
      page := if 8 ≤ slot then c.page.setIfInBounds (slot - 8) 0#6 else c.page
      poison := c.poison.filter keep }

/-- Fill the reserved place of a queue (R132). -/
def Core.fillEntry (c : Core) (q : QNum) (ticket : Nat) (img : VecImg) : Core :=
  let fill := fun e : QEntry => if e.ticket = ticket then { e with img := some img } else e
  { c with queues := c.queues.set q.toNat ((c.queues[q.toNat]'q.isLt).map fill) q.isLt }

def Core.land (c : Core) : Landing → Core
  | .x r v => c.setX r v
  | .v slot mask img => c.setV slot mask img
  | .p slot mask img => c.setP slot mask img
  | .fill q t img => c.fillEntry q t img
  | .sys r v => c.writeSys r v

/-- Land every write whose cycle has come, in issue order (R23). -/
def Core.landDue (c : Core) : Core :=
  ((c.flight.filter fun f => f.land ≤ c.cycle).foldl (fun d f => d.land f.dest)
    { c with
      flight := c.flight.filter fun f => c.cycle < f.land
      landed := c.landed ++ c.flight.filter fun f => f.land ≤ c.cycle })

/-- A write that lands n cycles after the present cycle. -/
def Core.send (c : Core) (n : Nat) (d : Landing) : Core :=
  { c with flight := c.flight ++ [⟨c.cycle + n, c.issued, d⟩] }

def Landing.writesX (l : Landing) (r : Reg) : Bool :=
  match l with
  | .x d _ => d == r
  | _ => false

/-- A scalar register has been written in this cycle by an instruction issued later than the one at a place in the issue
order (R23). -/
def Core.overtaken (c : Core) (order : Nat) (r : Reg) : Bool :=
  c.landed.any fun f => order < f.order && f.dest.writesX r

/-- A write of a scalar register without a fixed latency, by the instruction at a place in the issue order (R23, R26). -/
def Core.lateX (c : Core) (order : Nat) (r : Reg) (v : Word) : Core :=
  if c.overtaken order r then c
  else ({ c with landed := c.landed ++ [⟨c.cycle, order, .x r v⟩] } : Core).setX r v

/-- The cycle of the last landing in flight, or the present cycle. -/
def Core.lastLanding (c : Core) : Nat := c.flight.foldl (fun m f => max m f.land) c.cycle

/-! ### Cycles -/

/-- A halted die freezes the bounds of the contexts that have touched it (R21). -/
def State.frozen (s : State) : Bool := (s.pkg.ctx s.core.ctx).touched &&& s.pkg.halted != 0#10

/-- The halts of some dies hold the core: its die is one, or its context waits for one (R21, R398). -/
def State.heldBy (s : State) (dies : BitVec 10) : Bool :=
  dies.getLsbD (dieOf s.core.num) || (s.pkg.ctx s.core.ctx).touched &&& dies != 0#10

/-- A debugger's halt holds the core. -/
def State.standsHalted (s : State) : Bool := s.heldBy s.pkg.halted

/-- What n cycles add to the count that bounds run on: those before a freeze of them began. -/
def State.metered (s : State) (n : Nat) : Nat :=
  if s.frozen then min n (((s.pkg.ctx s.core.ctx).frozenAt - s.core.time) / s.pkg.period (dieOf s.core.num)) else n

/-- One cycle of the core passes: its clock and its local time advance, writes due land, and the package's time is never
behind a core's (R17, R22). -/
def State.tick (s : State) : State :=
  let c := { s.core with
    cycle := s.core.cycle + 1
    meter := s.core.meter + s.metered 1
    time := s.core.time + s.pkg.period (dieOf s.core.num)
    landed := [] }
  { s with core := c.landDue, pkg := { s.pkg with now := max s.pkg.now c.time } }

def State.advance : Nat → State → State
  | 0, s => s
  | n + 1, s => State.advance n s.tick

/-- A waiting or free core's clock catches up with the package's time: the cycles between pass, and the writes in flight
land in theirs. -/
def State.catchUp (s : State) : State :=
  let p := s.pkg.period (dieOf s.core.num)
  let n := (s.pkg.now - s.core.time) / p
  let k := min n (s.core.lastLanding - s.core.cycle)
  let t := s.advance k
  t.mapCore fun c => { c with
    cycle := c.cycle + (n - k)
    landed := if n = k then c.landed else []
    meter := c.meter + t.metered (n - k)
    time := c.time + (n - k) * p }

/-- A core that waits catches up with the package's time; the cycles in which its issue is held are counted (R441). -/
def State.heldUntilNow (s : State) : State :=
  let t := s.catchUp
  t.mapCore fun c => c.bump 2 (c.cycle - s.core.cycle)

end Sys2Proof.Machine
end

