-- ==== Sys2Proof/Machine/Flags.lean ====
section
/-! DEFINITION. Number formats (R87 to R95), rounding and conversion (R96 to R100), exact arithmetic on the values of the
formats (R137, R140), and the conditions of branches and comparisons (R112, R144). -/

namespace Sys2Proof.Machine

/-! ### Values -/

/-- A value to be rounded: NaN, an infinity, or ±(m + ε) × 2^e with ε = 0, or 0 < ε < 1 when `sticky`. A zero keeps its
sign (R97). -/
inductive XVal where
  | nan
  | inf (neg : Bool)
  | fin (neg : Bool) (m : Nat) (e : Int) (sticky : Bool)
deriving DecidableEq, Repr

def XVal.zero (neg : Bool) : XVal := .fin neg 0 0 false

/-- The value of an integer times a power of two; zero is +0, in every rounding mode (assumption 113). -/
def XVal.ofInt (n e : Int) : XVal := .fin (n < 0) n.natAbs e false

def XVal.isNaN : XVal → Bool
  | .nan => true
  | _ => false

/-- The integer m with its sign, for a finite value. -/
def signed (neg : Bool) (m : Nat) : Int := if neg then -(m : Int) else m

def XVal.neg : XVal → XVal
  | .nan => .nan
  | .inf n => .inf (!n)
  | .fin n m e k => .fin (!n) m e k

/-! ### Float formats (R90) -/

/-- A float format: widths of the exponent and fraction fields, bias, whether it has infinities, its greatest finite code,
and its canonical NaN if it has NaNs. -/
structure FloatFmt where
  exp : Nat
  frac : Nat
  bias : Nat
  hasInf : Bool
  maxCode : Nat
  nan : Option Nat

def FloatFmt.width (f : FloatFmt) : Nat := 1 + f.exp + f.frac

/-- The exponent of the spacing of subnormals. -/
def FloatFmt.qmin (f : FloatFmt) : Int := 1 - (f.bias : Int) - f.frac

def fF32 : FloatFmt := ⟨8, 23, 127, true, 0x7F7FFFFF, some 0x7FC00000⟩
def fBF16 : FloatFmt := ⟨8, 7, 127, true, 0x7F7F, some 0x7FC0⟩
def fF16 : FloatFmt := ⟨5, 10, 15, true, 0x7BFF, some 0x7E00⟩
def fE5M2 : FloatFmt := ⟨5, 2, 15, true, 0x7B, some 0x7E⟩
def fE4M3 : FloatFmt := ⟨4, 3, 7, false, 0x7E, some 0x7F⟩
def fE3M2 : FloatFmt := ⟨3, 2, 3, false, 0x1F, none⟩
def fE2M3 : FloatFmt := ⟨2, 3, 1, false, 0x1F, none⟩
def fE2M1 : FloatFmt := ⟨2, 1, 1, false, 0x7, none⟩
def fF64 : FloatFmt := ⟨11, 52, 1023, true, 0x7FEFFFFFFFFFFFFF, some 0x7FF8000000000000⟩

/-- The value of a code (R90). -/
def FloatFmt.decode (f : FloatFmt) (code : Nat) : XVal :=
  let neg := code / 2 ^ (f.exp + f.frac) % 2 == 1
  let mag := code % 2 ^ (f.exp + f.frac)
  let field := mag / 2 ^ f.frac
  let m := mag % 2 ^ f.frac
  if f.maxCode < mag then
    (if f.hasInf && m == 0 then .inf neg else .nan)
  else if field = 0 then .fin neg m f.qmin false
  else .fin neg (2 ^ f.frac + m) (f.qmin + (field - 1 : Nat)) false

/-! ### Rounding (R96) -/

/-- Whether a magnitude n with a remainder is rounded up: rem compares the remainder with one half (0 none, 1 below,
2 equal, 3 above). -/
def roundsUp (mode : Rnd) (neg : Bool) (n rem : Nat) : Bool :=
  match mode with
  | .rne => rem == 3 || (rem == 2 && n % 2 == 1)
  | .rtz => false
  | .rdn => neg && rem != 0
  | .rup => !neg && rem != 0

/-- The whole part and the remainder class of (m + ε) × 2^d. When ε is not zero, d is below −1 (the makers of such values
give two more bits than any rounding keeps). -/
def splitAt (m : Nat) (d : Int) (sticky : Bool) : Nat × Nat :=
  match d with
  | .ofNat k => (m * 2 ^ k, if sticky then 1 else 0)
  | .negSucc k =>
    let low := m % 2 ^ (k + 1)
    let half := 2 ^ k
    (m / 2 ^ (k + 1),
      if low = 0 then (if sticky then 1 else 0)
      else if low < half then 1
      else if low = half then (if sticky then 3 else 2)
      else 3)

/-- The magnitude rounded to a whole multiple of 2^q. -/
def roundAt (mode : Rnd) (neg : Bool) (m : Nat) (e q : Int) (sticky : Bool) : Nat :=
  let r := splitAt m (e - q) sticky
  if roundsUp mode neg r.1 r.2 then r.1 + 1 else r.1

/-- The exponent of the spacing of the format's values around a magnitude. -/
def FloatFmt.quantum (f : FloatFmt) (m : Nat) (e : Int) : Int :=
  if m = 0 then f.qmin else max f.qmin (e + m.log2 - f.frac)

def FloatFmt.signBit (f : FloatFmt) (neg : Bool) : Nat := if neg then 2 ^ (f.exp + f.frac) else 0

/-- The code of an overflow's infinity, or of the NaN that stands for it (R97). -/
def FloatFmt.overflow (f : FloatFmt) (neg : Bool) : Nat :=
  if f.hasInf then f.signBit neg + (f.maxCode / 2 ^ f.frac + 1) * 2 ^ f.frac else f.nan.getD (f.signBit neg + f.maxCode)

/-- Conversion to a float format: the code (R97). -/
def FloatFmt.cvt (f : FloatFmt) (mode : Rnd) (sat : Bool) : XVal → Nat
  | .nan => f.nan.getD 0
  | .inf neg =>
    if sat || (!f.hasInf && f.nan.isNone) then f.signBit neg + f.maxCode else f.overflow neg
  | .fin neg m e sticky =>
    let q := f.quantum m e
    let r := roundAt mode neg m e q sticky
    let code := (q - f.qmin).toNat * 2 ^ f.frac + r
    if f.maxCode < code then
      if sat || (!f.hasInf && f.nan.isNone) then f.signBit neg + f.maxCode
      else if mode = .rne || (mode = .rup && !neg) || (mode = .rdn && neg) then f.overflow neg
      else f.signBit neg + f.maxCode
    else f.signBit neg + code

/-- The integer nearest an exact value under a mode; a NaN gives 0 (R98, R100). -/
def roundInt (mode : Rnd) : XVal → Int
  | .fin neg m e sticky => signed neg (roundAt mode neg m e 0 sticky)
  | _ => 0

/-- Conversion to an integer format of a width and signedness (R98). -/
def cvtInt (width : Nat) (isSigned : Bool) (mode : Rnd) (sat : Bool) (v : XVal) : Int :=
  let lo : Int := if isSigned then -(2 ^ (width - 1) : Int) else 0
  let hi : Int := if isSigned then 2 ^ (width - 1) - 1 else 2 ^ width - 1
  match v with
  | .nan => 0
  | .inf neg => if neg then lo else hi
  | .fin .. =>
    let n := roundInt mode v
    if sat then max lo (min hi n)
    else
      let r := n % 2 ^ width
      if isSigned && (2 ^ (width - 1) : Int) ≤ r then r - 2 ^ width else r

/-! ### Exact arithmetic (R137, R140) -/

/-- Sum of two exact finite values. -/
def addFin (mode : Rnd) (na : Bool) (ma : Nat) (ea : Int) (nb : Bool) (mb : Nat) (eb : Int) : XVal :=
  if ma = 0 && mb = 0 then .zero (if na = nb then na else mode == .rdn)
  else
    let e := min ea eb
    let t := signed na ma * 2 ^ (ea - e).toNat + signed nb mb * 2 ^ (eb - e).toNat
    if t = 0 then .zero (mode == .rdn) else .ofInt t e

/-- Sum of two exact values, with the zero's sign that the mode gives (R97, R137). -/
def XVal.add (mode : Rnd) (a b : XVal) : XVal :=
  match a, b with
  | .nan, _ | _, .nan => .nan
  | .inf n, .inf m => if n = m then .inf n else .nan
  | .inf n, .fin .. => .inf n
  | .fin .., .inf n => .inf n
  | .fin na ma ea _, .fin nb mb eb _ => addFin mode na ma ea nb mb eb

/-- Product of two exact values (R137). -/
def XVal.mul (a b : XVal) : XVal :=
  match a, b with
  | .nan, _ | _, .nan => .nan
  | .inf n, .inf m => .inf (n != m)
  | .inf n, .fin m k _ _ => if k = 0 then .nan else .inf (n != m)
  | .fin m k _ _, .inf n => if k = 0 then .nan else .inf (n != m)
  | .fin na ma ea _, .fin nb mb eb _ => .fin (na != nb) (ma * mb) (ea + eb) false

/-- Bits kept by inexact quotients and roots: more than any rounding of the machine needs. -/
def keepBits : Nat := 160

/-- Quotient of two exact values (R140). -/
def XVal.div (a b : XVal) : XVal :=
  match a, b with
  | .nan, _ | _, .nan => .nan
  | .inf _, .inf _ => .nan
  | .inf n, .fin m _ _ _ => .inf (n != m)
  | .fin n _ _ _, .inf m => .zero (n != m)
  | .fin na ma ea _, .fin nb mb eb _ =>
    if mb = 0 then (if ma = 0 then .nan else .inf (na != nb))
    else if ma = 0 then .zero (na != nb)
    else
      let k := keepBits + mb.log2
      .fin (na != nb) (ma * 2 ^ k / mb) (ea - eb - k) (ma * 2 ^ k % mb != 0)

/-- The bits of the whole square root of n, from bit i down. -/
def isqrtFrom (n : Nat) : Nat → Nat → Nat
  | 0, acc => if (acc + 1) * (acc + 1) ≤ n then acc + 1 else acc
  | i + 1, acc => isqrtFrom n i (if (acc + 2 ^ (i + 1)) * (acc + 2 ^ (i + 1)) ≤ n then acc + 2 ^ (i + 1) else acc)

/-- The whole square root. -/
def isqrt (n : Nat) : Nat := isqrtFrom n (n.log2 / 2 + 1) 0

/-- Square root of an exact value (R139). -/
def XVal.sqrt : XVal → XVal
  | .nan => .nan
  | .inf n => if n then .nan else .inf false
  | .fin n m e _ =>
    if m = 0 then .zero n
    else if n then .nan
    else
      let m := if e % 2 = 0 then m else 2 * m
      let e := if e % 2 = 0 then e else e - 1
      let r := isqrt (m * 2 ^ (2 * keepBits))
      .fin false r (e / 2 - keepBits) (r * r != m * 2 ^ (2 * keepBits))

/-- Reciprocal of an exact value (R139). -/
def XVal.recip (a : XVal) : XVal := XVal.div (.fin false 1 0 false) a

/-- Reciprocal square root of an exact value (R139): the whole root of 2^k / m. -/
def XVal.rsqrt : XVal → XVal
  | .nan => .nan
  | .inf n => if n then .nan else .zero false
  | .fin n m e _ =>
    if m = 0 then .inf n
    else if n then .nan
    else
      let m := if e % 2 = 0 then m else 2 * m
      let e := if e % 2 = 0 then e else e - 1
      let k := keepBits + m.log2
      let r := isqrt (2 ^ (2 * k) / m)
      .fin false r (-(e / 2) - k) (r * r * m != 2 ^ (2 * k))

/-- Order of two finite or infinite values as numbers: a < b. -/
def XVal.lt (a b : XVal) : Bool :=
  match a, b with
  | .nan, _ | _, .nan => false
  | .inf n, .inf m => n && !m
  | .inf n, .fin .. => n
  | .fin .., .inf m => !m
  | .fin na ma ea _, .fin nb mb eb _ =>
    let e := min ea eb
    signed na ma * 2 ^ (ea - e).toNat < signed nb mb * 2 ^ (eb - e).toNat

/-- Equal as numbers: the zeros are equal. -/
def XVal.numEq (a b : XVal) : Bool := !a.isNaN && !b.isNaN && !a.lt b && !b.lt a

/-! ### F32 lanes -/

def ofF32 (l : Lane) : XVal := fF32.decode l.toNat

/-- cvt(v, F32, mode, sat) as a lane (R97). -/
def toF32 (mode : Rnd) (sat : Bool) (v : XVal) : Lane := BitVec.ofNat 32 (fF32.cvt mode sat v)

/-- rn_f32 (R100). -/
def rnF32 (v : XVal) : Lane := toF32 .rne false v

def isNaN32 (l : Lane) : Bool := (ofF32 l).isNaN

/-- a precedes b in the order that puts −0 below +0 (R138); neither is a NaN. -/
def below32 (a b : Lane) : Bool :=
  (ofF32 a).lt (ofF32 b) || ((ofF32 a).numEq (ofF32 b) && a.getLsbD 31 && !b.getLsbD 31)

/-- Lesser and greater of two F32 lanes (R138). -/
def min32 (a b : Lane) : Lane := if isNaN32 a || isNaN32 b then QNaN else if below32 b a then b else a
def max32 (a b : Lane) : Lane := if isNaN32 a || isNaN32 b then QNaN else if below32 a b then b else a

/-! ### Format codes (R87) -/

def floatFmt : Nat → Option FloatFmt
  | 0 => some fF32 | 1 => some fBF16 | 2 => some fF16 | 3 => some fE5M2 | 4 => some fE4M3 | 5 => some fE3M2
  | 6 => some fE2M3 | 7 => some fE2M1
  | _ => none

/-- Width and signedness of an integer format. -/
def intFmt : Nat → Option (Nat × Bool)
  | 8 => some (16, true) | 9 => some (8, true) | 10 => some (8, false) | 11 => some (4, true) | 12 => some (4, false)
  | 21 => some (32, true)
  | _ => none

def isAngle (f : Nat) : Bool := f == 19 || f == 20
def isGrouped (f : Nat) : Bool := 13 ≤ f && f ≤ 18
def isReserved (f : Nat) : Bool := 22 ≤ f

/-- Bits of an element in memory (R87, R89). -/
def memBits (f : Nat) : Nat :=
  match f with
  | 0 | 19 | 21 => 32
  | 1 | 2 | 8 | 20 => 16
  | 3 | 4 | 5 | 6 | 9 | 10 | 13 | 14 | 15 => 8
  | _ => 4

/-- The two's-complement integer of the low bits of a lane (R88). -/
def lowInt (l : Lane) (width : Nat) (isSigned : Bool) : Int :=
  let n := l.toNat % 2 ^ width
  if isSigned && 2 ^ (width - 1) ≤ n then (n : Int) - 2 ^ width else n

/-- A lane read as a float or integer format (R88). -/
def readFmt (f : Nat) (l : Lane) : XVal :=
  match floatFmt f, intFmt f with
  | some g, _ => g.decode (l.toNat % 2 ^ g.width)
  | none, some (w, sg) => .ofInt (lowInt l w sg) 0
  | none, none => .nan

/-- A value converted to a float or integer format, in its lane container (R88, R97, R98). -/
def writeFmt (f : Nat) (mode : Rnd) (sat : Bool) (v : XVal) : Lane :=
  match floatFmt f, intFmt f with
  | some g, _ => BitVec.ofNat 32 (g.cvt mode sat v)
  | none, some (w, sg) => BitVec.ofInt 32 (cvtInt w sg mode sat v)
  | none, none => 0#32

/-- Conversion between angle formats (R99). -/
def cvtAngle (src dst : Nat) (mode : Rnd) (l : Lane) : Lane :=
  if src = dst then l
  else if dst = 19 then (l &&& 0xFFFF#32) <<< 16
  else BitVec.ofInt 32 (roundInt mode (.ofInt l.toNat (-16)) % 2 ^ 16)

/-- A lane converted from one format to another: equal formats pass the bits (R91, R103, R148). -/
def cvtLane (src dst : Nat) (mode : Rnd) (sat : Bool) (l : Lane) : Lane :=
  if src = dst then l
  else if isAngle src then cvtAngle src dst mode l
  else writeFmt dst mode sat (readFmt src l)

/-- The pair of formats has no conversion (R99, R102, R148). -/
def badPair (src dst : Nat) : Bool :=
  isGrouped src || isReserved src || isGrouped dst || isReserved dst || (isAngle src != isAngle dst)

/-! ### Group headers (R94, R95) -/

def hdrError (h : Lane) : Bool := h.extractLsb' 28 4 != 0#4
def hdrInvalid (h : Lane) : Bool := h.extractLsb' 12 8 == 0xFF#8
def hdrZero (h : Lane) : Int := (h.extractLsb' 20 8).toInt

/-- The scale of a valid header. -/
def hdrScale (h : Lane) : XVal :=
  let sexp := fieldNat h 12 8
  if sexp = 0 then .zero false else .fin false (4096 + fieldNat h 0 12) ((sexp : Int) - 127 - 12) false

/-- A header of a group of I4 elements whose zero point leaves the I4 range (R95). -/
def hdrI4Error (h : Lane) : Bool := hdrZero h < -8 || 7 < hdrZero h

/-! ### Conditions -/

/-- BRC (R112). -/
def Cond.holds (cc : Cond) (a b : Word) : Bool :=
  match cc with
  | .eq => a == b
  | .ne => a != b
  | .lt => a.slt b
  | .ge => !a.slt b
  | .ltu => a.ult b
  | .geu => !a.ult b
  | .bits => a.getLsbD (b.toNat % 64)
  | .bitc => !a.getLsbD (b.toNat % 64)

/-- VFCMP (R144). -/
def FCond.holds (cc : FCond) (a b : Lane) : Bool :=
  let x := ofF32 a
  let y := ofF32 b
  let un := x.isNaN || y.isNaN
  match cc with
  | .eq => x.numEq y
  | .ne => !x.numEq y
  | .lt => x.lt y
  | .le => !un && !y.lt x
  | .gt => y.lt x
  | .ge => !un && !x.lt y
  | .un => un
  | .or => !un

/-- VICMP (R144). -/
def ICond.holds (cc : ICond) (a b : Lane) : Bool :=
  match cc with
  | .eq => a == b
  | .ne => a != b
  | .lt => a.slt b
  | .le => a.sle b
  | .gt => b.slt a
  | .ge => b.sle a
  | .ltu => a.ult b
  | .geu => b.ule a

end Sys2Proof.Machine
end

