-- ==== Sys2Proof/Machine/Ops.lean ====
section
/-! DEFINITION. How an instruction issues and ends: the checks of R60 that every family shares, the prefix block (R61 to
R64), waits (R28), taking a trap and returning from one (R386 to R390, R403), addresses of the scratchpad (R35), free values
(R2). -/

namespace Sys2Proof.Machine

abbrev Out := Host.Outcome State Fault Refusal

/-- Why an instruction does not complete: a trap at its issue, such a trap in a state that its translation has changed, or
a wait under R28 in the state given. -/
inductive Stop where
  | trap (t : Trap)
  | trapAt (t : Trap) (s : State)
  | wait (w : Wait) (s : State)

abbrev Res (α : Type) := Except Stop α

def Res.trap {α : Type} (t : Trap) : Res α := .error (.trap t)

/-! ### Free values (R2, assumption 1) -/

/-- The next n bytes of undefined values. -/
def freeBytes (base : Nat) : Nat → List Byte
  | 0 => []
  | n + 1 => Config.freeByte base :: freeBytes (base + 1) n

def State.takeFree (s : State) (n : Nat) : List Byte × State := (freeBytes s.fresh n, { s with fresh := s.fresh + n })

/-! ### Taking a trap (R386, R389) -/

/-- TRAPCAUSE for a trap taken in a mode (R387, R389). -/
def trapcauseOf (t : Trap) (nested : Bool) : Word := bitAt t.engine 63 ||| bitAt nested 62 ||| t.cause.setWidth 64

/-- The trap registers, STATUS and the program counter at a trap (R64, R386). -/
def Core.enterTrap (c : Core) (t : Trap) : Core :=
  { c with
    trappc := c.pc
    trapcause := trapcauseOf t c.super
    trapinfo := #v[t.info0, t.info1, t.info2, t.info3]
    pblkPred := (c.block.map fun b => b.pred).getD 0#4
    pblkCount := (c.block.map fun b => BitVec.ofNat 4 b.left).getD 0#4
    pblkPat := (c.block.map fun b => b.pat).getD 0#8
    block := none
    super := true
    wait := none
    filled := []
    wfe := none
    pc := if c.super then c.trapvec + 0x40#64 else c.trapvec }

/-- Take a trap at the instruction at pc. The handler's first word issues two cycles later, or in the cycle after the last
landing in flight, whichever is later (R386). -/
def State.takeTrap (s : State) (t : Trap) : State :=
  (s.mapCore fun c => c.enterTrap t).advance (max 2 (s.core.lastLanding + 1 - s.core.cycle))

/-- Take the first pending trap, if the mode lets it be taken (R387, R388). What it stopped resumes at TRET. -/
def State.takePending (s : State) : State :=
  match s.core.super, s.core.pending with
  | false, t :: r =>
    (s.mapCore fun c => { c with
      pending := r
      taken := if t.stopped = .none then c.taken else t.stopped :: c.taken }).takeTrap t.trap
  | _, _ => s

/-! ### The prefix block (R61 to R63) -/

/-- The lanes that pass the open block, or all lanes. -/
def Core.passMask (c : Core) : PredImg :=
  match c.block with
  | none => allTrue
  | some b => if b.pat.getLsbD 0 then b.value else ~~~b.value

/-- Lane 0 passes: it decides for every covered instruction outside the vector unit. -/
def Core.lane0 (c : Core) : Bool := c.passMask.getLsbD 0

/-- The block after one covered word. -/
def Block.next (b : Block) : Option Block :=
  if b.left ≤ 1 then none else some { b with left := b.left - 1, pat := b.pat >>> 1 }

/-! ### Ends of an issue -/

/-- The GBARs of a mode that its strand goes on without: a finished one is gone, an arrival that stands waits for its episode
(R272). -/
def leaveBars (super : Bool) (l : List GbarRec) : List GbarRec :=
  l.filterMap fun r =>
    if r.super != super then some r else if r.finished then none else some { r with pc := none }

def debugTrap (reason : Word) : Pending := ⟨7, 0, .plain 22#5 reason 0#64 0#64, .none⟩

/-- An instruction has issued from s and made its effects in t: the block counts down, the next instruction issues n cycles
later at the target or at the next word, and single step raises its trap (R24, R47, R384). -/
def State.done (t s : State) (target : Option Word) (n : Nat) : State :=
  let stepped := !s.core.super && s.core.step
  (t.mapCore fun c =>
    let c := { c with
      block := match s.core.block with
        | some b => b.next
        | none => c.block
      wait := none
      filled := []
      gbar := leaveBars s.core.super c.gbar
      joinDue := if s.core.super then c.joinDue else none
      barwt := c.barwt.filter fun r => r.super != s.core.super
      issued := c.issued + 1
      pc := target.getD (s.core.pc + 8#64) }
    let c := c.bump 0 1
    let c := if target.isSome then c.bump 1 1 else c
    if stepped then c.pend (debugTrap 2#64) else c).advance n

/-- A cycle in which issue is held (R28). -/
def State.stall (s : State) (w : Wait) : State := (s.mapCore fun c => ({ c with wait := some w }).bump 2 1).tick

/-- How the issue from s ends. -/
def State.settle (s : State) : Res State → Out
  | .ok t => .next (t.done s none 1)
  | .error (.trap t) => .next (s.takeTrap t)
  | .error (.trapAt t u) => .next (u.takeTrap t)
  | .error (.wait w t) => .next (t.stall w)

/-- How the issue of a transfer from s ends: the target, if it is taken, and the cycles to the next issue. -/
def State.settleTo (s : State) : Res (State × Option Word × Nat) → Out
  | .ok (t, target, n) => .next (t.done s target n)
  | .error (.trap t) => .next (s.takeTrap t)
  | .error (.trapAt t u) => .next (u.takeTrap t)
  | .error (.wait w t) => .next (t.stall w)

/-! ### Ways to issue (R60, R62, R63) -/

/-- A trap that carries the instruction's word. -/
def trapW (i : Instr) (cause : BitVec 5) (info1 : Word) : Trap := .plain cause (wordOf i) info1 0#64

/-- Issue an instruction outside the vector unit: lane 0 of an open block decides whether it executes (R62). -/
def issue (s : State) (body : State → Res State) : Out :=
  if s.core.lane0 then s.settle (body s) else .next (s.done s none 1)

/-- Issue a transfer of control, which no block may cover (R63). -/
def issueTransfer (i : Instr) (s : State) (body : State → Res (State × Option Word × Nat)) : Out :=
  if s.core.block.isSome then .next (s.takeTrap (trapW i 4#5 0#64)) else s.settleTo (body s)

/-- Issue an instruction that the supervisor alone may execute (R401). -/
def superOnly (i : Instr) (s : State) (k : Out) : Out :=
  if s.core.super then k else .next (s.takeTrap (trapW i 3#5 0#64))

/-- Issue an engine command: a bound of zero is refused from user mode (R56). -/
def boundOk (i : Instr) (bound : BitVec 20) (s : State) (k : Out) : Out :=
  if bound = 0#20 && !s.core.super then .next (s.takeTrap (trapW i 2#5 0#64)) else k

/-- Refused in collecting mode (R263, R301, R343): user mode while STATUS.collect is 1. -/
def Core.collecting (c : Core) : Bool := c.collect && !c.super

def notCollecting (i : Instr) (c : Core) : Res Unit := if c.collecting then .trap (trapW i 16#5 0#64) else .ok ()

/-- Consuming a poisoned scalar register raises cause 19 (R395; assumption 11). x0 holds nothing. -/
def Core.useX (c : Core) (rs : List Reg) : Res Unit :=
  if rs.any fun r => r != 0#6 && c.poison.contains (.x r) then .trap (.plain 19#5 0#64 0#64 0#64) else .ok ()

/-- The predicate source holds poisoned bytes (R395). -/
def Core.predPoisoned (c : Core) (n : PReg) : Bool :=
  n != 0#4 && !c.pdead (c.pslot n) && c.poison.any fun g => match g with
    | .p slot _ => slot == c.pslot n
    | _ => false

/-- Consuming poisoned register or queue data (R395; assumption 11). -/
def usePoison (b : Bool) : Res Unit := if b then .trap (.plain 19#5 0#64 0#64 0#64) else .ok ()

/-! ### Transfers (R48) -/

/-- Check the target of a transfer. -/
def checkTarget (t : Word) : Res Unit :=
  if t.extractLsb' 0 3 ≠ 0#3 then .trap (.plain 5#5 t 0#64 0#64)
  else if t.getLsbD 63 then .trap (.plain 6#5 t 0#64 0#64)
  else if t.extractLsb' 57 6 ≠ 0#6 then .trap (.plain 9#5 t 0#64 3#64)
  else .ok ()

/-- A pc-relative word offset (R52). -/
def wordOffset (off : BitVec 32) : Word := off.signExtend 64 <<< 3

/-! ### Return from a trap (R403, R445, R446) -/

/-- The full bound of a command, in cycles (R56). -/
def fullBound (word : Word) : Option Nat :=
  if Fld.bound word = 0#20 then none else some (16 * (Fld.bound word).toNat)

/-- The head of an engine queue resumes: a lattice command continues, another begins again from its progress, under the bound
that remained. After a stop for a bound overrun the full bound is counted afresh (R445). -/
def Cmd.resume (m : Cmd) (q : EngineQ) (now : Nat) : Cmd :=
  if m.status = .stopped then
    let runs := q = .l && m.begun
    { m with
      status := if runs then .running else .queued
      left := if (m.stop.map fun e => e.1) = some 6 then fullBound m.word else m.left
      since := if runs then some now else none
      refused := none
      stop := none }
  else m

def Core.resumeStop (c : Core) : Stopped → Core
  | .none => c
  | .engine q =>
    match (c.queue q).cmds with
    | m :: r => c.setQueue q { c.queue q with cmds := m.resume q c.meter :: r }
    | [] => c
  | .el =>
    match c.work with
    | w :: r => { c with work := { w with stopped := false } :: r }
    | [] => c

/-- The block that TRET reopens: pattern bits past its words are ignored (R64). -/
def Core.reopened (c : Core) (n : Nat) (pat : BitVec 8) : Option Block :=
  if n = 0 then none else some ⟨c.pblkPred, c.getP c.pblkPred, n, pat &&& BitVec.ofNat 8 (2 ^ n - 1)⟩

/-- TRET: the state that it leaves and its target. -/
def Core.returnFrom (c : Core) (skip : Bool) : Res (Core × Word) := do
  if 8 < c.pblkCount.toNat then Res.trap (trapW (.tret skip) 2#5 0#64)
  let covered := c.pblkCount ≠ 0#4
  let t := if skip then c.trappc + 8#64 else c.trappc
  let n := if skip && covered then c.pblkCount.toNat - 1 else c.pblkCount.toNat
  let pat := if skip && covered then c.pblkPat >>> 1 else c.pblkPat
  checkTarget t
  usePoison (n != 0 && c.predPoisoned c.pblkPred)
  let d := c.taken.foldl Core.resumeStop { c with
    super := false
    gbar := if skip then leaveBars false c.gbar else c.gbar
    barwt := if skip then c.barwt.filter fun r => r.super else c.barwt
    block := c.reopened n pat
    pblkPred := 0#4
    pblkCount := 0#4
    pblkPat := 0#8
    taken := [] }
  .ok (d, t)

/-! ### Local and global addresses (R35, R278) -/

/-- The scratchpad offset of a local address; none for a form or an offset that R35 refuses. -/
def localOffset (a : Word) : Option Nat :=
  if a.getLsbD 63 && a.extractLsb' 22 41 == 0#41 && fieldNat a 0 22 < Config.scratchBytes then some (fieldNat a 0 22)
  else none

/-- The n bytes at a local address lie in the scratchpad. -/
def localExtent (a : Word) (n : Nat) : Option Nat :=
  (localOffset a).bind fun o => if o + n ≤ Config.scratchBytes then some o else none

def isLocal (a : Word) : Bool := a.getLsbD 63

/-- The bank and row of a scratchpad word (R36). -/
def bankOf (w : Nat) : Nat := w % 31
def rowOf (w : Nat) : Nat := w / 31

/-! ### Outstanding operations (R26, R309) -/

/-- A place in class G or S. -/
def Core.roomG (c : Core) (i : Instr) : Res Unit :=
  if c.classG < 4095 then .ok () else .trap (trapW i 25#5 8#64)

def Core.roomS (c : Core) (i : Instr) : Res Unit :=
  if c.classS < 4095 then .ok () else .trap (trapW i 25#5 8#64)

/-- An outstanding operation with nothing but its kind, to be filled in. -/
def Core.newOp (c : Core) (serial : Nat) (kind : GKind) : GOp where
  kind := kind
  pc := c.pc
  order := c.issued
  serial := serial
  page := none
  va := 0#64
  pa := 0
  size := 0
  data := 0#64
  dst := 0#6
  acquire := none
  release := none
  overlay := []
  got := none
  tainted := false
  lost := false
  overtaken := false

/-- The operation is a request to a hub, which answers it (R441 events 38 and 39). -/
def GKind.asks : GKind → Bool
  | .fence _ | .writeback | .handle => false
  | _ => true

/-- Put an operation after the core's outstanding ones. -/
def State.addOp (s : State) (o : GOp) : State :=
  { s with
    core := ({ s.core with ops := s.core.ops ++ [{ o with serial := s.pkg.serial }] } : Core).bump 38 o.kind.asks.toNat
    pkg := { s.pkg with serial := s.pkg.serial + 1 } }

/-- Remove the operation at index k; a waiting WFE sees a class counter fall (R409). -/
def Core.dropOp (c : Core) (k : Nat) : Core :=
  let answers := ((c.ops[k]?).map fun o => o.kind.asks.toNat).getD 0
  let d := ({ c with ops := c.ops.eraseIdx k } : Core).bump 39 answers
  if d.classG < c.classG || d.classS < c.classS then d.see 4#5 else d

end Sys2Proof.Machine
end

