-- ==== Sys2Proof/Machine/Operands.lean ====
section
/-! DEFINITION. Operand forms: vector sources with their pops, peeks and conversion (R30, R31, R103, R133), vector and
predicate destinations with their pushes (R62, R132), effective addresses of format M (R51), stream of records (R157). -/

namespace Sys2Proof.Machine

/-! ### Queues (R30, R31) -/

/-- The queue that a source field names. -/
def VSrc.queue : VSrc → Option QNum
  | .reg _ => none
  | .pop q => some q
  | .peek q => some q

/-- The control core may pop and peek the queue (R31). -/
def popSide (q : QNum) : Bool := q != 0#3 && q != 4#3

/-- The control core may push the queue through a destination field (R31). -/
def pushSide (q : QNum) : Bool := q == 0#3 || 5#3 ≤ q

def Core.entries (c : Core) (q : QNum) : List QEntry := c.queues[q.toNat]'q.isLt

def Core.setEntries (c : Core) (q : QNum) (l : List QEntry) : Core := { c with queues := c.queues.set q.toNat l q.isLt }

/-- The oldest entry, when it is visible to the consumer (R132). -/
def Core.visible (c : Core) (q : QNum) : Option (QEntry × VecImg) :=
  match c.entries q with
  | e :: _ => e.img.map fun v => (e, v)
  | [] => none

def trapQ (i : Instr) (q : QNum) : Trap := trapW i 25#5 (q.setWidth 64)

/-! ### Sources -/

/-- A queue on the wrong side, or named by two source fields (R31). -/
def checkSides (i : Instr) : List VSrc → List QNum → Res Unit
  | [], _ => .ok ()
  | v :: r, seen =>
    match VSrc.queue v with
    | none => checkSides i r seen
    | some q => if !popSide q || seen.contains q then .trap (trapQ i q) else checkSides i r (q :: seen)

/-- Wait for the first named queue that shows no entry (R28). -/
def waitEntries (s : State) : List VSrc → Res Unit
  | [] => .ok ()
  | v :: r =>
    match VSrc.queue v with
    | none => waitEntries s r
    | some q => if (s.core.visible q).isSome then waitEntries s r else .error (.wait (.entry q) s)

/-- A QFMT value converts what its queue delivers. -/
def converts (f : Word) : Bool := fieldNat f 0 5 != fieldNat f 8 5

/-- An entry converted by a QFMT value (R103). -/
def deliverAs (f : Word) (img : VecImg) : VecImg :=
  if fieldNat f 0 5 = fieldNat f 8 5 then img
  else ofLanes fun k =>
    cvtLane (fieldNat f 0 5) (fieldNat f 8 5) (Rnd.ofCode (f.extractLsb' 16 2)) (f.getLsbD 18) (laneOf img k)

/-- An entry as QFMT delivers it; q3 is never converted (R103). -/
def Core.deliver (c : Core) (q : QNum) (img : VecImg) : VecImg :=
  if q = 3#3 then img else deliverAs (c.qfmt[q.toNat]'q.isLt) img

/-- The 128 lanes that a source delivers. -/
def Core.readSrc (c : Core) (v : VSrc) : VecImg :=
  match VSrc.queue v, v with
  | some q, _ => (c.visible q).elim 0#4096 fun e => c.deliver q e.2
  | none, .reg n => c.getV n
  | none, _ => 0#4096

/-- The lanes of a source that no QFMT converts (R103, R150). -/
def Core.rawSrc (c : Core) (v : VSrc) : VecImg :=
  match VSrc.queue v with
  | some q => (c.visible q).elim 0#4096 fun e => e.2
  | none => c.readSrc v

/-- The core after the pop of a source field that no QFMT converts. -/
def Core.popRaw (c : Core) (v : VSrc) : Core :=
  match v with
  | .reg _ => c
  | .pop q => (c.setEntries q (c.entries q).tail).bump 18 1
  | .peek _ => c.bump 18 1

/-- The core after a source field's pop, with its queue traffic counted (R441). -/
def Core.popSrc (c : Core) (v : VSrc) : Core :=
  let count := fun (d : Core) (q : QNum) =>
    let f := c.qfmt[q.toNat]'q.isLt
    let d := d.bump 18 1
    if q = 3#3 || fieldNat f 0 5 = fieldNat f 8 5 then d else d.bump 19 1
  match v with
  | .reg _ => c
  | .pop q => count (c.setEntries q (c.entries q).tail) q
  | .peek q => count c q

/-- The source delivers poisoned bytes (R395). -/
def Core.srcPoisoned (c : Core) (v : VSrc) : Bool :=
  match v with
  | .reg n =>
    !c.vdead (c.vslot n) && c.poison.any fun g => match g with
      | .v slot _ => slot == c.vslot n
      | _ => false
  | .pop q | .peek q => (c.visible q).any fun e => e.1.poison != 0#64

/-- A destination that pushes: its queue. -/
def VDst.queue : VDst → Option QNum
  | .reg _ => none
  | .push q => some q

/-- The destination pushes a queue on the wrong side (R31). -/
def checkPushSide (i : Instr) (d : VDst) : Res Unit :=
  match VDst.queue d with
  | none => .ok ()
  | some q => if pushSide q then .ok () else .trap (trapQ i q)

/-- The destination's queue has no place for another entry (R132). -/
def checkRoom (i : Instr) (d : VDst) (c : Core) : Res Unit :=
  match VDst.queue d with
  | none => .ok ()
  | some q => if (c.entries q).length < Config.queueDepth then .ok () else .trap (trapQ i q)

/-- A covered word that pushes through its destination field (R63). -/
def coveredPush (i : Instr) (d : VDst) (c : Core) : Res Unit :=
  if c.block.isSome && (VDst.queue d).isSome then .trap (trapW i 4#5 0#64) else .ok ()

/-- Sources read whole at issue, their pops made: the checks of R60 step 7, the wait of R28, the poison of R395. -/
def takeSrcs (i : Instr) (srcs : List VSrc) (s : State) : Res (List VecImg × State) := do
  checkSides i srcs []
  waitEntries s srcs
  usePoison (srcs.any s.core.srcPoisoned)
  .ok (srcs.map s.core.readSrc, s.mapCore fun c => srcs.foldl Core.popSrc c)

/-- Sources of an instruction that writes a vector destination; `use` consumes its scalar or predicate sources. -/
def takeFor (i : Instr) (srcs : List VSrc) (d : VDst) (use : Res Unit) (s : State) : Res (List VecImg × State) := do
  checkSides i srcs []
  checkPushSide i d
  waitEntries s srcs
  checkRoom i d (srcs.foldl Core.popSrc s.core)
  use
  usePoison (srcs.any s.core.srcPoisoned)
  .ok (srcs.map s.core.readSrc, s.mapCore fun c => srcs.foldl Core.popSrc c)

/-! ### Destinations -/

/-- Append an entry, filled or open (R132). -/
def Core.append (c : Core) (q : QNum) (img : Option VecImg) : Core :=
  let e : QEntry := ⟨c.ticket, img, 0#64⟩
  ({ c.setEntries q (c.entries q ++ [e]) with ticket := c.ticket + 1 }).bump 17 1

/-- Reserve a place of a queue at issue, to be filled n cycles later (R132). -/
def Core.reserve (c : Core) (q : QNum) (n : Nat) (img : VecImg) : Core :=
  (c.append q none).send n (.fill q c.ticket img)

/-- Write a vector destination n cycles after the present one, in the lanes that pass the block (R62, R132). -/
def Core.putDst (c : Core) (d : VDst) (n : Nat) (img : VecImg) : Core :=
  match d with
  | .reg r => c.send n (.v (c.vslot r) c.passMask img)
  | .push q => c.reserve q n img

/-- Full entries, present from the next cycle on. -/
def Core.pushFull (c : Core) (q : QNum) (imgs : List VecImg) : Core := imgs.foldl (fun d img => d.append q (some img)) c

/-- A scalar destination written n cycles after the present one. -/
def Core.putX (c : Core) (r : Reg) (n : Nat) (v : Word) : Core := c.send n (.x r v)

/-- Issue a vector instruction with a vector destination (R131 to R136): `fmt` checks its format codes, `use` consumes its
scalar or predicate sources, and event e counts it. -/
def vector (i : Instr) (srcs : List VSrc) (d : VDst) (lat e : Nat) (f : List VecImg → VecImg) (s : State)
    (fmt use : Res Unit := .ok ()) : Out :=
  s.settle do
    coveredPush i d s.core
    fmt
    let (imgs, t) ← takeFor i srcs d use s
    .ok (t.mapCore fun c => (c.putDst d lat (f imgs)).bump e 1)

/-- Lanes computed from the lanes of one, two or three sources. -/
def lanes1 (g : Lane → Lane) : List VecImg → VecImg
  | [a] => ofLanes fun k => g (laneOf a k)
  | _ => 0#4096

def lanes2 (g : Lane → Lane → Lane) : List VecImg → VecImg
  | [a, b] => ofLanes fun k => g (laneOf a k) (laneOf b k)
  | _ => 0#4096

def lanes3 (g : Lane → Lane → Lane → Lane) : List VecImg → VecImg
  | [a, b, c] => ofLanes fun k => g (laneOf a k) (laneOf b k) (laneOf c k)
  | _ => 0#4096

/-! ### Addresses of format M (R51) -/

/-- Base register plus displacement. -/
def Core.effective (c : Core) (a : Reg) (disp : BitVec 24) : Word := c.getX a + disp.signExtend 64

/-- The bytes of an access of size 1, 2, 4 or 8 start at a multiple of its size (cause 5). -/
def checkAligned (a : Word) (size : Nat) : Res Unit :=
  if a.toNat % size = 0 then .ok () else .trap (.plain 5#5 a 0#64 0#64)

/-- The offset of n bytes at a local address (cause 6, R35). -/
def checkLocal (a : Word) (n : Nat) : Res Nat :=
  match localExtent a n with
  | some o => .ok o
  | none => .trap (.plain 6#5 a 0#64 0#64)

/-- Loads of poisoned scratchpad bytes (R126). -/
def checkScratch (s : State) (a : Word) (o n : Nat) : Res Unit :=
  if s.core.scratchPoisoned o n then .trap (.plain 19#5 a s.core.pc 0#64) else .ok ()

end Sys2Proof.Machine
end

