-- ==== Sys2Proof/Machine/Lists.lean ====
section
/-! DEFINITION. Effect lists: entries (R339), the list table (R338), the open list with its capacity and its reads (R337,
R340 to R342), the closing of a collecting call (R345). -/

namespace Sys2Proof.Machine

def entrySize : Nat := 80

/-! ### Entries (R339) -/

/-- The 80 bytes of an entry. -/
def entryBytes (a : Word) (data : List Byte) : List Byte :=
  let addr := if isLocal a then fieldNat a 0 22 else fieldNat a 0 48
  let attr := if isLocal a then 2 ^ 15 else fieldNat a 48 9
  natBytes 6 addr ++ natBytes 2 data.length ++ natBytes 2 attr ++ natBytes 6 0 ++ data
    ++ List.replicate (64 - data.length) 0#8

/-- An entry as the unit reads it. -/
structure Entry where
  addr : Nat
  size : Nat
  attr : Nat
  rest : Nat
deriving DecidableEq, Repr

def Core.entryAt (c : Core) (o : Nat) : Entry :=
  ⟨c.scratch.nat o 6, c.scratch.nat (o + 6) 2, c.scratch.nat (o + 8) 2, c.scratch.nat (o + 10) 6⟩

def Entry.bit (e : Entry) (k : Nat) : Bool := e.attr / 2 ^ k % 2 == 1

def Entry.isLocal (e : Entry) : Bool := e.bit 15
def Entry.void (e : Entry) : Bool := e.bit 14

/-- The 64-bit address of an entry. -/
def Entry.address (e : Entry) : Word :=
  if e.isLocal then BitVec.ofNat 64 (2 ^ 63 + e.addr) else BitVec.ofNat 64 (e.addr + e.attr % 512 * 2 ^ 48)

def Entry.malformed (e : Entry) : Bool :=
  e.size == 0 || 64 < e.size || e.bit 13 || e.attr / 512 % 16 != 0 || e.rest != 0
    || (e.isLocal && (2 ^ 22 ≤ e.addr || e.attr % 512 != 0))

def Entry.live (e : Entry) : Bool := !e.void && !e.malformed

/-- The entry after ELFLT: void unless it lies wholly inside the range. -/
def Entry.filtered (e : Entry) (lo hi : Word) : Entry :=
  if e.live && !(lo.toNat ≤ e.address.toNat && e.address.toNat + e.size ≤ hi.toNat) then { e with attr := e.attr + 2 ^ 14 } else e

/-- The entry after ELRBS. -/
def Entry.rebased (e : Entry) (b x : Word) : Entry :=
  let a := e.address - b + x
  if !e.live then e
  else if a.getLsbD 63 then
    if a.extractLsb' 22 41 ≠ 0#41 then { e with attr := e.attr + 2 ^ 13 }
    else { e with addr := fieldNat a 0 22, attr := 2 ^ 15 }
  else if a.extractLsb' 57 6 ≠ 0#6 then { e with attr := e.attr + 2 ^ 13 }
  else { e with addr := fieldNat a 0 48, attr := fieldNat a 48 9 }

/-- Address, size and attributes of an entry, as they stand in its storage. -/
def Entry.bytes (e : Entry) : List Byte := natBytes 6 e.addr ++ natBytes 2 e.size ++ natBytes 2 e.attr

/-- What a queued EL instruction makes of an entry of its list. -/
def ElWork.change (w : ElWork) (e : Entry) : Entry :=
  match w.instr with
  | .elflt .. => e.filtered w.b w.c
  | .elrbs .. => e.rebased w.b w.c
  | _ => e

/-- The entries of a list, as scratchpad offsets. -/
def segEntries (segs : List (Nat × Nat)) : List Nat :=
  (segs.map fun g => (List.range g.2).map fun i => g.1 + entrySize * i).flatten

/-- An entry as it will stand when work of the unit comes to it: the work queued before may change it (R346). -/
def Core.entryThen (c : Core) (w : ElWork) (o : Nat) : Entry :=
  (c.work.takeWhile fun v => v.order < w.order).foldl (fun e v =>
    if ((segEntries v.segs).drop v.done).contains o then v.change e else e) (c.entryAt o)

/-! ### The list table (R338) -/

def Core.slot (c : Core) (k : BitVec 4) : ListSlot := c.slots[k.toNat]'k.isLt

def Core.setSlot (c : Core) (k : BitVec 4) (l : ListSlot) : Core := { c with slots := c.slots.set k.toNat l k.isLt }

def slotHandle (k : BitVec 4) (l : ListSlot) : Word := l.gen.setWidth 64 <<< 4 ||| k.setWidth 64

/-- The next generation: from 1 to 4,095, and again 1. -/
def nextGen (g : BitVec 12) : BitVec 12 := if g = 4095#12 then 1#12 else g + 1#12

/-- The slot that a live handle names. -/
def Core.liveSlot (c : Core) (h : Word) : Option (BitVec 4) :=
  let k := h.extractLsb' 0 4
  let l := c.slot k
  if l.state = .live && h.extractLsb' 4 12 == l.gen && l.gen != 0#12 then some k else none

/-- The segments of every live list. -/
def Core.liveSegs (c : Core) : List (Nat × Nat) :=
  c.slots.toList.foldr (fun l acc => if l.state = .live then l.segs ++ acc else acc) []

def ListSlot.entries (l : ListSlot) : Nat := (l.segs.map fun g => g.2).foldl (· + ·) 0

/-! ### The open list (R337, R340) -/

/-- The greatest number of entries of the open list (R337). -/
def Core.capacity (c : Core) (l : OpenList) : Nat :=
  let stop := (c.liveSegs.filter fun g => l.start < g.1).foldl (fun m g => min m g.1) Config.scratchBytes
  min 4096 (min (c.elcap.toNat / entrySize) ((stop - l.start) / entrySize))

/-- The byte that the last covering entry of the open list gives an address (R342), searched from the last entry down. -/
def Core.lookup (c : Core) (start a : Nat) : Nat → Option Byte
  | 0 => none
  | n + 1 =>
    let o := start + entrySize * n
    let e := c.entryAt o
    let first := e.address.toNat
    if first ≤ a && a < first + e.size then some (c.scratch.read (o + 16 + (a - first))) else c.lookup start a n

/-- What a load of n bytes at an address takes from the open list: none for each byte that no entry covers. -/
def Core.merged (c : Core) (a : Word) (n : Nat) : List (Option Byte) :=
  match c.collecting, c.opened with
  | true, some l => (List.range n).map fun i => c.lookup l.start (a.toNat + i) l.count
  | _, _ => List.replicate n none

/-- The covering entry of a byte has poisoned data there (R342). -/
def Core.lookupPoison (c : Core) (start a : Nat) : Nat → Bool
  | 0 => false
  | n + 1 =>
    let o := start + entrySize * n
    let e := c.entryAt o
    let first := e.address.toNat
    if first ≤ a && a < first + e.size then c.scratchPoisoned (o + 16 + (a - first)) 1 else c.lookupPoison start a n

/-- Some byte that a load takes from the open list is poisoned there. -/
def Core.mergedPoison (c : Core) (a : Word) (n : Nat) : Bool :=
  match c.collecting, c.opened with
  | true, some l => (List.range n).any fun i => c.lookupPoison l.start (a.toNat + i) l.count
  | _, _ => false

/-- Bytes with the merged ones in place. -/
def overlaid (known : List (Option Byte)) (bs : List Byte) : List Byte :=
  List.zipWith (fun o b => o.getD b) known bs

/-- Load latency of a core: six cycles more in collecting mode (R342). -/
def Core.loadCycles (c : Core) (n : Nat) : Nat := if c.collecting then n + 6 else n

/-- The n bytes at a scratchpad offset touch storage of the open list, or of a list whose handle is still to be written
(R341). -/
def Core.inOpenStorage (c : Core) (o n : Nat) : Bool :=
  let hits := fun (start count : Nat) => o < start + entrySize * count && start < o + n
  (c.opened.any fun l => hits l.start l.count)
    || c.ops.any fun p => p.kind == .handle && (c.liveSlot p.data).any fun k => (c.slot k).segs.any fun g => hits g.1 g.2

/-! ### CALLC and the RET that closes a call (R344, R345) -/

/-- The region of CALLC breaks a condition of reason 3. -/
def Core.regionRefused (c : Core) : Bool :=
  let b := c.elbase.toNat
  let n := c.elcap.toNat
  b % Config.stripe != 0 || n % Config.stripe != 0 || Config.scratchBytes < b + n
    || c.liveSegs.any fun g => g.1 < b + n && b < g.1 + entrySize * g.2

def Core.freeSlot (c : Core) : Option (BitVec 4) :=
  ((List.range 16).map (BitVec.ofNat 4)).find? fun k => (c.slot k).state == .free

/-- The checks of CALLC on the region and the list table. -/
def openCheck (c : Core) : Res (BitVec 4) :=
  if c.regionRefused then .trap (.plain 15#5 3#64 (c.elbase.setWidth 64) (c.elcap.setWidth 64))
  else
    match c.freeSlot with
    | none => .trap (.plain 15#5 2#64 0#64 0#64)
    | some k => .ok k

/-- Open a list on a slot. -/
def Core.openList (c : Core) (k : BitVec 4) : Core :=
  { c.setSlot k ⟨nextGen (c.slot k).gen, .opened, []⟩ with
    opened := some ⟨k, c.elbase.toNat, 0, 0⟩
    collect := true }

/-- Whole stripes that hold n bytes (R73). -/
def stripesOf (n : Nat) : Nat := (n + Config.stripe - 1) / Config.stripe

/-- Close the open list: the region's registers, the list live, and the handle on its way to x5 in class G. ELBASE and ELCAP are
written in RET's issue cycle, so that a MOVRS still in flight lands over them (assumption 114). -/
def State.closeList (s : State) (l : OpenList) : State :=
  let a := stripesOf (entrySize * l.count) * Config.stripe
  let c := s.core
  let slot : ListSlot := ⟨(c.slot l.slot).gen, .live, [(l.start, l.count)]⟩
  let d := { c.setSlot l.slot slot with
    elbase := BitVec.ofNat 22 (l.start + a)
    elcap := BitVec.ofNat 22 (c.elcap.toNat - a)
    collect := false
    opened := none }
  ({ s with core := d }).addOp { d.newOp s.pkg.serial .handle with dst := 5#6, data := slotHandle l.slot slot }

end Sys2Proof.Machine
end

