-- ==== Sys2Proof/Machine/Own.lean ====
section
/-! DEFINITION. What a read of the control core finds: atomic operations (R304, R305), the writes of the core's engines that no
wait has acquired (R199, R285, R320), poison that collected stores do not cover (R126, R342), and the making of an operation
before it completes (R125). -/

namespace Sys2Proof.Machine

/-! ### Atomic operations (R304, R305) -/

def amoSize : AmoSize → Nat
  | .word => 4 | .dword => 8

/-- f(v, b) of an AMO over w bits (R304). -/
def AmoOp.apply {w : Nat} (op : AmoOp) (v b : BitVec w) : BitVec w :=
  match op with
  | .add => v + b
  | .and => v &&& b
  | .or => v ||| b
  | .xor => v ^^^ b
  | .min => if b.slt v then b else v
  | .max => if v.slt b then b else v
  | .minu => if b.ult v then b else v
  | .maxu => if v.ult b then b else v
  | .swap => b

/-- The new bytes of an AMO's target. -/
def AmoOp.bytes (op : AmoOp) (w : AmoSize) (v : List Byte) (b : Word) : List Byte :=
  match w with
  | .word => natBytes 4 (op.apply (BitVec.ofNat 32 (leNat v)) (b.extractLsb' 0 32)).toNat
  | .dword => natBytes 8 (op.apply (BitVec.ofNat 64 (leNat v)) b).toNat

/-- The low bytes of the expected value of a CAS match (R305). -/
def casMatches (w : AmoSize) (e : Word) (v : List Byte) : Bool := natBytes (amoSize w) e.toNat == v

/-- The bytes that an atomic operation writes over the bytes it read; none for a CAS that fails. -/
def GKind.newBytes (kind : GKind) (data : Word) (v : List Byte) : Option (List Byte) :=
  match kind with
  | .amo op w => some (op.bytes w v data)
  | .cas w e => if casMatches w e v then some (natBytes (amoSize w) data.toNat) else none
  | _ => none

/-! ### Writes of the core's engines that no wait has acquired -/

/-- A scratchpad byte outside every window as a location, beside those of physical memory. -/
def scratchLoc (o : Nat) : Nat := 2 ^ 60 + o

/-- The bytes from a location on with those of an older value in place. -/
def Unseen.within (u : Unseen) (loc : Nat) (bs : List Byte) : List Byte :=
  bs.zipIdx.map fun e => if u.loc ≤ loc + e.2 then (u.old[loc + e.2 - u.loc]?).getD e.1 else e.1

/-- The bytes that a read finds, of those that stand at a location, and the entries that later reads may still find old. A unit
is found whole, old or new, as the part chooses, and new where it is the reader's own; what follows a unit found new is older
than it and is found no more. -/
def findBytes (own : Option EngineQ) (loc : Nat) : List Unseen → List Unseen → Nat → List Byte → List Unseen × Nat × List Byte
  | [], _, f, bs => ([], f, bs)
  | u :: r, found, f, bs =>
    let stays := fun (t : List Unseen × Nat × List Byte) => (u :: t.1, t.2)
    if found.any fun x => u.meets x.loc x.old.length then findBytes own loc r (u :: found) f bs
    else if !u.meets loc bs.length then stays (findBytes own loc r found f bs)
    else if own == some u.queue then findBytes own loc r (u :: found) f bs
    else if Config.findsOld f then stays (findBytes own loc r found (f + 1) (u.within loc bs))
    else findBytes own loc r (u :: found) (f + 1) bs

/-- A load of the control core finds bytes that stand at a location. -/
def State.findLoad (s : State) (loc : Nat) (bs : List Byte) : List Byte × State :=
  if !s.core.unseenAt loc bs.length then (bs, s)
  else
    let r := findBytes none loc s.core.unseen [] s.fresh bs
    (r.2.2, { s with core := { s.core with unseen := r.1 }, fresh := r.2.1 })

/-- An engine finds bytes that another engine of the core may have written. What it finds new in memory the core finds old no
more (R287, R290); bytes of the scratchpad are no location of R285. -/
def State.findEngine (s : State) (q : EngineQ) (loc : Nat) (bs : List Byte) : List Byte × State :=
  if !s.core.unseenAt loc bs.length then (bs, s)
  else
    let r := findBytes (some q) loc s.core.unseen [] s.fresh bs
    (r.2.2, { s with
      core := { s.core with unseen := if loc < scratchLoc 0 then r.1 else s.core.unseen }
      fresh := r.2.1 })

/-- A read of the core at a place of its issue order has found bytes of memory: its earlier commands find no newer ones
(R288 row 3, R290), and what other cores' engines wrote there has been read. -/
def State.pinFound (s : State) (order loc : Nat) (cells : List (Byte × Bool)) : State :=
  if loc < scratchLoc 0 then (s.mapCore fun c => c.keepFor order loc cells false).showTo (some s.core.num) loc cells.length
  else s

/-- Scratchpad bytes as they stand, each with its poison. -/
def Core.scratchCells (c : Core) (o n : Nat) : List (Byte × Bool) :=
  (List.range n).map fun i => (c.scratch.read (o + i), c.scratchPoisoned (o + i) 1)

/-- Found bytes with the poison of the cells that they were read from. -/
def foundCells (bs : List Byte) (cells : List (Byte × Bool)) : List (Byte × Bool) := bs.zip (cells.map fun e => e.2)

/-! ### What an operation reads -/

/-- The key identifier of an operation's page. -/
def GOp.key (o : GOp) : BitVec 6 := (o.page.map fun g => g.key).getD 0#6

/-- Some of the bytes of an operation that no collected store supplies are poisoned (R126, R342). -/
def State.openPoison (s : State) (o : GOp) : Bool :=
  if o.overlay.isEmpty then (s.look o.pa o.size o.key).2
  else o.overlay.zipIdx.any fun b => b.1.isNone && (s.look (o.pa + b.2) 1 o.key).2

/-- The bytes that an operation reads now, with the poison of those that no collected store supplies. The request of a lost
one has been answered with poisoned data (R399, R426). An atomic operation reads what stands (R287). -/
def State.readOp (s : State) (o : GOp) : (List Byte × Bool) × State :=
  if o.lost then ((List.replicate o.size 0#8, o.overlay.isEmpty || o.overlay.any Option.isNone), s)
  else
    let bs := (s.look o.pa o.size o.key).1
    let r := match o.kind with
      | .load _ => s.findLoad o.pa bs
      | _ => (bs, s.mapCore fun c => c.pass o.pa o.size)
    ((r.1, s.openPoison o), r.2.pinFound o.order o.pa (foundCells r.1 (s.cells o.pa o.size o.key)))

/-! ### The core's own operations on its stashed lines (R125) -/

/-- Loads, stores, AMOs and CASes. -/
def GKind.isScalar : GKind → Bool
  | .load _ | .store | .amo .. | .cas .. => true
  | _ => false

def Core.setOp (c : Core) (k : Nat) (o : GOp) : Core := { c with ops := c.ops.set k o }

/-- The operation at index k is made: it has read, or written, and counts until it completes. A write that the load may still
find old follows it (R410). -/
def State.makeOwn (s : State) (k : Nat) (o : GOp) : State :=
  match o.kind with
  | .store =>
    (s.put (.instr s.core.num o.order) o.pa (natBytes o.size o.data.toNat) o.key).mapCore fun c => c.setOp k { o with size := 0 }
  | _ =>
    let r := s.readOp o
    let t := match r.1.2, o.kind.newBytes o.data r.1.1 with
      | false, some bs => r.2.put (.instr s.core.num o.order) o.pa bs o.key
      | _, _ => r.2
    t.mapCore fun c => c.setOp k { o with got := some r.1, overtaken := r.2.core.unseenAt o.pa o.size }

end Sys2Proof.Machine
end

