-- ==== Sys2Proof/Machine/Windows.lean ====
section
/-! DEFINITION. The lines of stash windows: where an access meets one, filling, releasing and writing back (R42, R43, R281,
R311), reads and writes of the scratchpad, and the entries of collected stores (R340,
R341). -/

namespace Sys2Proof.Machine

/-! ### Where an access meets a window -/

/-- The open window and its line at a scratchpad offset. -/
def Core.windowAt (c : Core) (o : Nat) : Option (Nat × Nat) :=
  (List.range 8).findSome? fun i =>
    (c.wins.getD i none).bind fun w => if w.loc ≤ o && o < w.loc + w.len then some (i, (o - w.loc) / 64) else none

/-- The open window and its line at a global address. -/
def Core.windowOf (c : Core) (va : Nat) : Option (Nat × Nat) :=
  (List.range 8).findSome? fun i =>
    (c.wins.getD i none).bind fun w =>
      if w.glob.toNat ≤ va && va < w.glob.toNat + w.len then some (i, (va - w.glob.toNat) / 64) else none

def Core.stashed (c : Core) (win line : Nat) : Bool :=
  (c.wins.getD win none).any fun w => w.lines.any fun l => l.line == line

/-- The page of a window's line lets it be written. -/
def Core.lineWritable (c : Core) (win line : Nat) : Bool :=
  (c.wins.getD win none).any fun w => (pageFor w.pages (w.glob.toNat + 64 * line)).any fun pg => pg.w

/-- The physical address of a byte of a window. -/
def Core.windowPa (c : Core) (win o : Nat) : Nat :=
  ((c.wins.getD win none).bind fun w =>
    let va := w.glob.toNat + (o - w.loc)
    (pageFor w.pages va).map fun pg => pg.pa va).getD 0

/-! ### Filling, releasing and writing back (R42, R281) -/

/-- Bytes that reach their home, past any stash. -/
def State.putHome (s : State) (pa : Nat) (bs : List Byte) (key : BitVec 6) (poisoned : Bool) : State :=
  match s.pkg.reach pa with
  | .served => s.mapPkg fun p =>
    let q := (p.pokes key pa bs).cure pa bs.length
    if poisoned then q.poisonRange pa bs.length else q
  | _ => s

def StashWin.page (w : StashWin) (line : Nat) : Option Page := pageFor w.pages (w.glob.toNat + 64 * line)

/-- Write one stashed line of the core in `core` back to its home. -/
def State.writeBackLine (s : State) (w : StashWin) (line : Nat) : State :=
  match w.page line with
  | none => s
  | some pg =>
    let o := w.loc + 64 * line
    let pa := pg.pa (w.glob.toNat + 64 * line)
    ((s.reachFor s.core.ctx pa).putHome pa (s.core.scratch.bytes o 64) pg.key (s.core.granulesPoisoned o 64)).mapCore fun c =>
      (((c.bump 35 1).bump 15 1).bump 38 1).bump 39 1

/-- The physical address of a line of a window of the core in `core`. -/
def Core.linePa (c : Core) (win line : Nat) : Option (Nat × Page) :=
  (c.wins.getD win none).bind fun w => (w.page line).map fun pg => (pg.pa (w.glob.toNat + 64 * line), pg)

/-- The poisoned counters of a line of a window are its home's to know again; the local bytes keep their poison. -/
def State.pairsHome (s : State) (w : StashWin) (line : Nat) : State :=
  let o := w.loc + 64 * line
  let pairs := s.core.poison.filterMap fun g => match g with
    | .pair a => if o ≤ a && a < o + 64 then some a else none
    | _ => none
  match w.page line with
  | none => s
  | some pg =>
    let pa := pg.pa (w.glob.toNat + 64 * line)
    { s with
      core := pairs.foldl (fun c a => (c.setGranule (.pair a) false).setGranule (.scratch (a / 8)) true) s.core
      pkg := { s.pkg with counterPoison := pairs.foldl (fun l a => insertNat l (pa + (a - o))) s.pkg.counterPoison } }

/-- Fill a line of a window from its home. -/
def State.fillLine (s : State) (win line : Nat) : State :=
  match s.core.linePa win line, s.core.wins.getD win none with
  | some (pa, pg), some w =>
    let s := s.reachFor s.core.ctx pa
    let pairs := s.pkg.counterPoison.filter fun a => a / 64 == pa / 64
    let s := s.mapPkg fun p => { p with counterPoison := p.counterPoison.filter fun a => a / 64 != pa / 64 }
    let r := s.look pa 64 pg.key
    let o := w.loc + 64 * line
    let filled : StashWin := { w with lines := w.lines ++ [StashLine.mk line false] }
    s.mapCore fun c =>
      let d := c.scratchWrite o r.1
      let d := if r.2 then d.scratchPoison o 64 else d
      let d := pairs.foldl (fun d a => d.setGranule (.pair (o + (a - pa))) true) d
      (((({ d with wins := d.wins.setIfInBounds win (some filled) } : Core).bump 35 1).bump 16 1).bump 38 1).bump 39 1
  | _, _ => s

/-- Write a line of the core in `core` back if it is dirty, and release it. -/
def State.releaseLine (s : State) (win line : Nat) : State :=
  match s.core.wins.getD win none with
  | none => s
  | some w =>
    let s := if w.lines.any fun l => l.line == line && l.dirty then s.writeBackLine w line else s
    (s.pairsHome w line).mapCore fun c => { c with
      wins := c.wins.setIfInBounds win (some { w with lines := w.lines.filter fun l => l.line != line }) }

/-- The core has still to make the access that filled the line of one of its windows, or another that it has issued to the
line (R281). -/
def Core.keepsLine (c : Core) (win line pa : Nat) : Bool :=
  c.wait == some (.stash win line) || c.filled.contains (win, line)
    || c.ops.any fun o => o.size != 0 && o.got.isNone && o.pa / 64 == pa / 64

/-- Another core holds the line of a window stashed, and keeps it for accesses that it has still to make (R281). -/
def State.lineKept (s : State) (hit : Option (Nat × Nat)) : Bool :=
  hit.any fun h => !s.core.stashed h.1 h.2 && (s.core.linePa h.1 h.2).any fun e =>
    (s.stashOwner e.1).any fun o => (s.coreAt o.1).keepsLine o.2.1 o.2.2 e.1

/-- A line of a window of the core is stashed: filled now if it is not, from an owner that gives it up. -/
def State.claimLine (s : State) (win line : Nat) : State :=
  if s.core.stashed win line then s
  else
    match s.core.linePa win line with
    | none => s
    | some (pa, _) =>
      let s := match s.stashOwner pa with
        | some (c, w, l) => s.onCore c fun t => t.releaseLine w l
        | none => s.recall (pa / 64)
      s.fillLine win line

def State.claimAt (s : State) (hit : Option (Nat × Nat)) : State :=
  match hit with
  | some (w, l) => s.claimLine w l
  | none => s

/-! ### Pieces -/

/-- Cut the n bytes at an address at every multiple of g. The fuel bounds the number of pieces. -/
def pieces (g a : Nat) : Nat → Nat → List (Nat × Nat)
  | 0, _ => []
  | fuel + 1, n =>
    if n = 0 then []
    else
      let k := min n (g - a % g)
      (a, k) :: pieces g (a + k) fuel (n - k)

/-- The pieces of an extent that lie in one line each. -/
def piecesOf (a : Word) (n : Nat) : List (Nat × Nat) := pieces 64 a.toNat (n / 64 + 2) n

/-! ### Reads and writes of the scratchpad -/

/-- The location of a scratchpad byte: a byte of a window's line stands for its byte of memory. -/
def Core.locOf (c : Core) (o : Nat) : Nat :=
  match c.windowAt o with
  | some (w, _) => c.windowPa w o
  | none => scratchLoc o

/-- A write of the scratchpad outside every window is noted while a copy command of the core is enqueued (R283). -/
def Core.noteLocal (c : Core) (who : Writer) (o n : Nat) : Core :=
  if c.copies then { c with wrote := c.wrote ++ [⟨scratchLoc o, n, who.author⟩] } else c

/-- What the core keeps of scratchpad bytes outside every window that are about to change. No rule orders them after the reads
of an earlier command (R199, R284). -/
def Core.foreseeLocal (c : Core) (who : Writer) (o : Nat) (bs : List Byte) : Core :=
  match who with
  | .engine _ q m =>
    c.addUnseen q m (scratchLoc o) (c.scratchCells o bs.length)
  | _ => (c.overWriter who (scratchLoc o) bs.length).pass (scratchLoc o) bs.length

/-- Scratchpad bytes within one line written by the control core, by an engine, or by the effect-list unit for its core. -/
def State.writeLocal (s : State) (who : Writer) (o : Nat) (bs : List Byte) : State :=
  match s.core.windowAt o with
  | some (w, l) =>
    let pa := s.core.windowPa w o
    let t := ((s.claimLine w l).foresee who pa bs.length 0#6).mapCore fun c =>
      ((c.overWriter who (scratchLoc o) bs.length).scratchWrite o bs).markDirty w l
    ((t.mapCores fun c => c.sawWrite who (pa / 64)).mapPkg fun p => p.restsSaw (pa / 64)).noteWrite who pa bs.length
  | none => s.mapCore fun c => ((c.foreseeLocal who o bs).scratchWrite o bs).noteLocal who o bs.length

end Sys2Proof.Machine
end

