-- ==== Sys2Proof/Machine/Order.lean ====
section
/-! DEFINITION. Outstanding operations of a core: what they return, the order among them (R288), the order after an ELAPP (R347),
and their completion at a home (R125, R126, R128, R304, R305); where an access goes (R123, R278, R376) and the
window lines that it meets (R43, R311). -/

namespace Sys2Proof.Machine

/-! ### Sizes and values -/

def loadSize : LoadKind → Nat
  | .b | .bu => 1 | .h | .hu => 2 | .w | .wu => 4 | .d => 8

def storeSize : StoreSize → Nat
  | .b => 1 | .h => 2 | .w => 4 | .d => 8

/-- Loaded bytes extended to a register (R123). -/
def extendLoad (k : LoadKind) (bs : List Byte) : Word :=
  let n := leNat bs
  match k with
  | .b => (BitVec.ofNat 8 n).signExtend 64
  | .h => (BitVec.ofNat 16 n).signExtend 64
  | .w => (BitVec.ofNat 32 n).signExtend 64
  | _ => BitVec.ofNat 64 n

/-- The old value of an AMO or CAS as its register receives it; MINU and MAXU zero-extend a word (R304). -/
def oldValue (w : AmoSize) (zero : Bool) (v : List Byte) : Word :=
  match w with
  | .word => if zero then BitVec.ofNat 64 (leNat v) else (BitVec.ofNat 32 (leNat v)).signExtend 64
  | .dword => BitVec.ofNat 64 (leNat v)

def AmoOp.zeroExtends : AmoOp → Bool
  | .minu | .maxu => true
  | _ => false

/-! ### Order among outstanding operations (R288) -/

def GKind.reads : GKind → Bool
  | .load _ | .amo .. | .cas .. | .barGen | .barExp | .barArv | .grank _ | .gsize _ => true
  | _ => false

def GKind.writes : GKind → Bool
  | .store | .amo .. | .cas .. | .barInit | .barExp | .barArv | .spawn _ | .launch _ | .gjoin _ | .gleave _ | .gbar _
  | .writeback => true
  | _ => false

def GKind.isGroup : GKind → Bool
  | .gjoin _ | .gleave _ | .gbar _ | .gsize _ | .grank _ => true
  | _ => false

def GOp.overlaps (a b : GOp) : Bool :=
  a.size != 0 && b.size != 0 && a.pa < b.pa + b.size && b.pa < a.pa + a.size

/-- Row 4: a fence of a kind between a and b orders them. -/
def fenceOrders (k : FenceKind) (a b : GOp) : Bool :=
  match k with
  | .acq => a.kind.reads
  | .rel => b.kind.writes
  | .ar | .sc => true

/-- Two loads to one register complete in issue order (R125). -/
def sameTarget (a b : GOp) : Bool := a.kind.countsG && b.kind.countsG && a.dst == b.dst && a.dst != 0#6

/-- An earlier operation a must be done before b: rows 1 to 4 of R288, R125 and R270. `between` stands between them. -/
def mustPrecede (a b : GOp) (between : List GOp) : Bool :=
  match a.kind, b.kind with
  | .fence _, _ => false
  | .handle, _ => sameTarget a b
  | _, .handle => sameTarget a b
  | _, _ =>
    a.acquire.isSome || b.release.isSome || a.overlaps b || sameTarget a b || (a.kind.isGroup && b.kind.isGroup)
      || between.any fun f => match f.kind with
        | .fence k => fenceOrders k a b
        | _ => false

/-- Some earlier operation holds b back. -/
def heldBack (b : GOp) : List GOp → Bool
  | [] => false
  | a :: r => mustPrecede a b r || heldBack b r

/-- Fences that no operation and no ELAPP precedes any more have done their work. -/
def dropFences (work : List ElWork) : List GOp → List GOp
  | [] => []
  | o :: r =>
    match o.kind with
    | .fence _ => if work.any fun w => w.applies && w.order < o.order then o :: r else dropFences work r
    | _ => o :: r

def Core.settleFences (c : Core) : Core :=
  let r := dropFences c.work c.ops
  if r.length = c.ops.length then c else { c with ops := r }.observeShown

/-- Remove the operation at index k, done. -/
def Core.finishOp (c : Core) (k : Nat) : Core := (c.dropOp k).settleFences

/-! ### Order after the writes of ELAPP (R347) -/

/-- The physical address of a global address of an entry, where its page is mapped. -/
def State.entryPa (s : State) (a : Nat) : Option Nat :=
  match s.checkWalk s.core.ctx (BitVec.ofNat 64 a) .probe with
  | .ok pg => some (pg.pa a)
  | .error _ => none

/-- The places in memory of an entry's bytes, a line at a time: none of local bytes outside every window. -/
def State.entryPlaces (s : State) (e : Entry) : List (Nat × Nat) :=
  if e.isLocal then
    (pieces 64 e.addr 2 e.size).filterMap fun p => (s.core.windowAt p.1).map fun h => (s.core.windowPa h.1 p.1, p.2)
  else (piecesOf e.address e.size).filterMap fun p => (s.entryPa p.1).map fun pa => (pa, p.2)

/-- One of the entries that an ELAPP has still to write meets an operation's bytes. -/
def State.elMeets (s : State) (o : GOp) (w : ElWork) : Bool :=
  o.size != 0 && (segEntries w.segs).zipIdx.any fun x =>
    let e := s.core.entryThen w x.1
    (w.done ≤ x.2 || w.live == x.2 + 1) && e.live
      && (s.entryPlaces e).any fun p => p.1 < o.pa + o.size && o.pa < p.1 + p.2

/-- An ELAPP's writes must be made before a later operation: a release follows them all, a fence between orders them, or the
bytes meet (R288, R306, R347). -/
def State.elPrecedes (s : State) (o : GOp) (earlier : List GOp) (w : ElWork) : Bool :=
  w.applies && w.order < o.order && (o.release.isSome || s.elMeets o w || earlier.any fun f =>
    w.order < f.order && match f.kind with
      | .fence .rel => o.kind.writes
      | .fence .acq => false
      | .fence _ => o.kind.reads || o.kind.writes
      | _ => false)

/-- The effect-list unit stands stopped (R349). -/
def Core.elStands (c : Core) : Bool := (c.work.head?.map fun w => w.stopped).getD false

/-- Some earlier operation or ELAPP holds an operation back. A handler's reads go past a stopped unit, which moves only after
its TRET (R349; assumption 32). -/
def State.holds (s : State) (o : GOp) (earlier : List GOp) : Bool :=
  heldBack o earlier || ((o.kind.writes || !s.core.elStands) && s.core.work.any (s.elPrecedes o earlier))

/-- The value that a load or an atomic operation returns. -/
def GKind.result (kind : GKind) (v : List Byte) : Word :=
  match kind with
  | .load k => extendLoad k v
  | .amo op w => oldValue w op.zeroExtends v
  | .cas w _ => oldValue w false v
  | _ => BitVec.ofNat 64 (leNat v)

/-! ### Completion at a home -/

/-- The late poison trap of an operation (R126, R388). -/
def lateTrap (o : GOp) (cause : BitVec 5) (i0 i1 : Word) : Pending := ⟨6, o.order, .plain cause i0 i1 0#64, .none⟩

/-- The access is held, and the snoop sent: the host holds the line modified, or its response has not arrived (R298). -/
def State.hostHolds (s : State) (line : Nat) : Bool :=
  s.pkg.hostLines.any (fun e => e.1 == line) || s.pkg.snoops.contains line

def State.snoop (s : State) (line : Nat) : State :=
  s.mapPkg fun p => if p.snoops.contains line then p else { p with snoops := p.snoops ++ [line] }

/-- The link that an access of another package's memory takes holds all the flits that it may hold (R428). -/
def State.linkFull (s : State) (o : GOp) : Bool := o.size != 0 && !o.lost && o.got.isNone && s.pkg.linkFull o.pa

/-- The operation of the core at index k, when no earlier one holds it back. -/
def State.ready (s : State) (k : Nat) : Option GOp :=
  (s.core.ops[k]?).bind fun o => if s.holds o (s.core.ops.take k) || s.linkFull o then none else some o

/-- An acquire that completes orders everything later after what has reached the core (R288 row 1). -/
def Core.acquires (c : Core) (o : GOp) : Core := if o.acquire.isSome then c.observeShown else c

/-- A load or an atomic operation at index k of the core completes (R26, R125, R126, R304). A write of its core's engines that
it has found old follows what it read (R410). -/
def State.completeLoad (s : State) (k : Nat) (o : GOp) : State :=
  if o.got.isNone && s.hostHolds (o.pa / 64) then s.snoop (o.pa / 64)
  else
    let s := if o.got.isSome then s else s.reachFor s.core.ctx o.pa
    let (r, s) := match o.got with
      | some r => (r, s)
      | none => s.readOp o
    let v := overlaid (o.overlay ++ List.replicate (o.size - o.overlay.length) none) r.1
    let s := s.mapCore fun c => { (c.finishOp k).acquires o with
      lastLoad := some (o.pa / 64, o.overtaken || (o.got.isNone && c.unseenAt o.pa o.size)) }
    if o.tainted || r.2 then
      s.mapCore fun c => c.pend (lateTrap o 19#5 o.va o.pc)
    else
      let s := match o.got, o.kind.newBytes o.data v with
        | none, some bs => s.put (.instr s.core.num o.order) o.pa bs o.key
        | _, _ => s
      s.mapCore fun c => c.lateX o.order o.dst (o.kind.result v)

/-- A store or a write-back at index k of the core is accepted by its home (R128). -/
def State.acceptStore (s : State) (k : Nat) (o : GOp) : State :=
  if o.size != 0 && s.hostHolds (o.pa / 64) then s.snoop (o.pa / 64)
  else
    let s := if o.size = 0 then s else s.reachFor s.core.ctx o.pa
    let s := if o.size = 0 || o.lost then s else s.put (.instr s.core.num o.order) o.pa (natBytes o.size o.data.toNat) o.key
    s.mapCore fun c => c.finishOp k

/-! ### Where an access goes -/

inductive Place where
  | scratch (o : Nat)
  | global (pg : Page) (pa : Nat)

/-- The checks on an address in their order: causes 5, 6, then 9, 10 or 11. -/
def locate (a : Word) (n : Nat) (acc : Acc) (s : State) : Res (State × Place) := do
  checkAligned a n
  if isLocal a then
    let o ← checkLocal a n
    .ok (s, .scratch o)
  else
    match s.translate s.core.ctx a acc with
    | (s, .error t) => .error (.trapAt t s)
    | (s, .ok pg) => .ok (s, .global pg (pg.pa a.toNat))

/-- A write into a window's line without permission (R311). -/
def mayWrite (s : State) (hit : Option (Nat × Nat)) (a : Word) : Res Unit :=
  match hit with
  | none => .ok ()
  | some (w, l) => if s.core.lineWritable w l then .ok () else .error (.trapAt (.plain 11#5 a 0#64 2#64) s)

/-- The control core touches a line of a window: a line still to be filled holds it at issue (R43). -/
def touchWindow (s : State) (hit : Option (Nat × Nat)) : Res Unit :=
  match hit with
  | none => .ok ()
  | some (w, l) => if s.core.stashed w l then .ok () else .error (.wait (.stash w l) s)

end Sys2Proof.Machine
end

