-- ==== Sys2Proof/Machine/Stash.lean ====
section
/-! DEFINITION. Stash windows: opening, write-back, closing (R42, R310 to R312, R450), filling and releasing a line
(R281). -/

namespace Sys2Proof.Machine

/-! ### Opening (R310) -/

/-- Two ranges share a byte; an empty one shares none. -/
def rangesMeet (a n b m : Nat) : Bool := n != 0 && m != 0 && a < b + m && b < a + n

/-- A page breaks a condition of code 4. -/
def pageUnfit (first pg : Page) : Bool := !pg.r || !pg.c || paHome pg.pbase == 1 || pg.key != first.key || pg.owner != first.owner

/-- The code that refuses a window with its pages translated, tested in the order of the table (R312; assumption 14). -/
def Core.windowCode (c : Core) (n : Nat) (loc glob : Word) (len : Nat) (pages : List Page) : Option Nat :=
  let o := fieldNat loc 0 22
  let others := (c.wins.toList.filterMap id)
  if (c.wins.getD n none).isSome then some 1
  else if others.any fun w => rangesMeet o len w.loc w.len || rangesMeet glob.toNat len w.glob.toNat w.len then some 2
  else if (localOffset loc).isNone || o % Config.stripe != 0 || glob.toNat % 64 != 0 || len == 0 || len % Config.stripe != 0
      || Config.scratchBytes < o + len then some 3
  else if pages.any fun pg => pageUnfit (pages.headD pg) pg then some 4
  else none

/-- Open window n, or the trap that refuses it. -/
def State.openWindow (s : State) (n : Nat) (loc glob : Word) (len : Nat) : State × Except Trap State :=
  match s.translateExtent s.core.ctx glob.toNat len .probe with
  | (s, .error t) => (s, .error t)
  | (s, .ok pages) =>
    match s.core.windowCode n loc glob len pages with
    | some code => (s, .error (.plain 26#5 (BitVec.ofNat 64 code) (BitVec.ofNat 64 n) 0#64))
    | none =>
      let w : StashWin := ⟨fieldNat loc 0 22, glob, len, pages, []⟩
      (s, .ok (s.mapCore fun c => { c with wins := c.wins.setIfInBounds n (some w) }))

/-! ### Writing back and closing (R312) -/

/-- Write back every dirty line of a window; the lines become clean. -/
def State.cleanWindow (s : State) (n : Nat) : State :=
  match s.core.wins.getD n none with
  | none => s
  | some w =>
    let t := (w.lines.filter fun l => l.dirty).foldl (fun t l => t.writeBackLine w l.line) s
    t.mapCore fun c => { c with
      wins := c.wins.setIfInBounds n (some { w with lines := w.lines.map fun l => { l with dirty := false } }) }

/-- Write back every dirty line of a window, and release all. -/
def State.emptyWindow (s : State) (n : Nat) : State :=
  let s := s.cleanWindow n
  match s.core.wins.getD n none with
  | none => s
  | some w =>
    (w.lines.foldl (fun s l => s.pairsHome w l.line) s).mapCore fun c => { c with
      wins := c.wins.setIfInBounds n (some { w with lines := [] }) }

/-- Write back and close a window; the local range keeps its bytes. -/
def State.closeWindow (s : State) (n : Nat) : State :=
  (s.emptyWindow n).mapCore fun c => { c with wins := c.wins.setIfInBounds n none }

def State.closeWindows (s : State) : State := (List.range 8).foldl State.closeWindow s

/-- Some line of the windows selected is dirty. -/
def Core.dirty (c : Core) (ns : List Nat) : Bool := ns.any fun n => (c.wins.getD n none).any fun w => w.lines.any fun l => l.dirty

/-- The windows that STFL and STINV name. -/
def selected (w : WindowSel) : List Nat :=
  match w with
  | .one n => [n.toNat]
  | .all => List.range 8

/-- The write-backs of one STFL or STINV count as one in class S until they are accepted (assumption 15). -/
def State.countWriteback (s : State) (dirty : Bool) : State :=
  if dirty then s.addOp (s.core.newOp s.pkg.serial .writeback) else s

/-- The line that a core's waiting access asks for. -/
def Core.wanted (c : Core) : Option (Nat × Nat) :=
  match c.wait with
  | some (.stash w l) => if c.stashed w l then none else some (w, l)
  | _ => none

/-- Some other core asks for the line at a physical address. -/
def State.askedFor (s : State) (n pa : Nat) : Bool :=
  s.cores.any fun c => c.num != n && c.wanted.any fun h => (c.linePa h.1 h.2).any fun e => e.1 == pa

end Sys2Proof.Machine
end

