-- ==== Sys2Proof/Machine/Memory.lean ====
section
/-! DEFINITION. FENCE, WAITC, PFH and stash windows (spec/15), copy tags (R323, R324), and the steps in which accesses
reach their homes (R26, R125, R128, R281). -/

namespace Sys2Proof.Machine

/-! ### FENCE, WAITC, PFH -/

/-- Stale words, newest first, without those that a FENCE covers and every one that is older at their addresses. -/
def freshWords (covers : StaleWord → Bool) : List StaleWord → List Nat → List StaleWord
  | [], _ => []
  | e :: r, seen =>
    if seen.contains e.pa then freshWords covers r seen
    else if covers e then freshWords covers r (e.pa :: seen)
    else e :: freshWords covers r seen

/-- The store of a stale word has completed: its core counts it in class S no more. -/
def State.storeDone (s : State) (e : StaleWord) : Bool :=
  let c := s.coreAt e.core
  !(c.ops.any fun o => o.order == e.order) && !(c.work.any fun w => w.order == e.order)

/-- Code that the context's completed stores changed is fetched as written, or as written later, from here on (R129). A FENCE
of any strand of the storing context completes the rule (assumption 98). -/
def State.freshCode (s : State) : State :=
  s.mapPkg fun p => { p with stale := freshWords (fun e => e.ctx == s.core.ctx && s.storeDone e) p.stale [] }

/-- FENCE (R306): it stands among the outstanding operations while there are any, or an ELAPP, and never holds issue. -/
def execFence (kind : FenceKind) (_sc : Scope) (s : State) : Out :=
  issue s fun s =>
    let s := s.freshCode
    .ok (if s.core.ops.isEmpty && !(s.core.work.any ElWork.applies) then s.mapCore Core.observeShown else s.addOp (s.core.newOp s.pkg.serial (.fence kind)))

/-- A WAITC field holds: 15 sets no condition (R307). -/
def fieldHolds (n : BitVec 4) (count : Nat) : Bool := n == 15#4 || count ≤ n.toNat

def Core.classesHold (q : Core) (g s c a k : BitVec 4) : Bool :=
  fieldHolds g q.classG && fieldHolds s q.classS && fieldHolds c q.classC && fieldHolds a q.classA && fieldHolds k q.classK

/-- A finished WAITC covers the writes of the commands that its fields for C, A and K cover: n commands or more of their own queue
were issued after them (R288 row 5, R308). It orders what follows it also after what those commands have read. -/
def Core.waitCovers (q : Core) (c a k : BitVec 4) (u : Unseen) : Bool :=
  let n := match u.queue with
    | .c0 | .c1 => c
    | .l => a
    | .k => k
  u.shown || (n != 15#4 && u.nth + 1 + n.toNat ≤ (q.queue u.queue).count)

def execWaitc (g s c a k : BitVec 4) (t : State) : Out :=
  issue t fun t =>
    if t.core.classesHold g s c a k then .ok (t.mapCore fun q => q.acquire (q.waitCovers c a k))
    else .error (.wait (.classes g s c a k) t)

/-- PFH (R313): the hint is dropped (assumption 16). -/
def execPfh (_kind : PrefetchKind) (_a _b : Reg) (_disp : BitVec 24) (s : State) : Out := issue s .ok

/-! ### Stash windows (R310 to R312) -/

/-- STWIN (R310 to R312). Poison of a source register is consumed before the entry's own checks, as in every entry whose own list
of refusals does not give cause 19 a place (R60, R395; assumption 105). -/
def execStwin (n : BitVec 3) (a b c : Reg) (s : State) : Out :=
  issue s fun s => do
    s.core.useX [a, b, c]
    notCollecting (.stwin n a b c) s.core
    match s.openWindow n.toNat (s.core.getX a) (s.core.getX b) (s.core.getX c).toNat with
    | (s, .error t) => .error (.trapAt t s)
    | (_, .ok s) => .ok s

def execStfl (w : WindowSel) (s : State) : Out :=
  issue s fun s => do
    let dirty := s.core.dirty (selected w)
    if dirty then s.core.roomS (.stfl w)
    notCollecting (.stfl w) s.core
    .ok (((selected w).foldl State.cleanWindow s).countWriteback dirty)

def execStinv (w : WindowSel) (s : State) : Out :=
  issue s fun s => do
    let dirty := s.core.dirty (selected w)
    if dirty then s.core.roomS (.stinv w)
    notCollecting (.stinv w) s.core
    .ok (((selected w).foldl State.closeWindow s).countWriteback dirty)

/-! ### Copy tags (R323, R324) -/

def bitSet (m : Word) (k : Nat) : Word := m ||| (1#64 <<< k)

/-- The tag of a copy command's control word (R315). -/
def cmdTag (m : Cmd) : Nat := fieldNat m.b 34 6

/-- The tags that issued copies of the core name (R324). -/
def Core.pendingTags (c : Core) : Word := (c.c0.cmds ++ c.c1.cmds).foldl (fun m k => bitSet m (cmdTag k)) 0#64

def Core.clearTags (c : Core) (m : Word) : Core :=
  { c with
    tags := c.tags &&& ~~~m
    tagdrop := c.tagdrop &&& ~~~m
    tagDiffers := c.tagDiffers &&& ~~~m
    tagMalformed := c.tagMalformed &&& ~~~m }

/-- Tags whose bits a wait observes: the writes of the copies that name them are acquired (R295), and what has reached the core
(R288 row 1). -/
def Core.observeTags (c : Core) (m : Word) : Core :=
  c.acquire fun u => u.shown || ((u.queue == .c0 || u.queue == .c1) && m.getLsbD u.tag)

/-- A wait for some tag of m that nothing can end raises cause 25. -/
def waitAny (i : Instr) (m : Word) (s : State) : Res Unit :=
  if s.core.tags &&& m ≠ 0#64 then .ok ()
  else if (s.core.pendingTags &&& m) = 0#64 then .trap (trapW i 25#5 0#64)
  else .error (.wait (.tagsAny m) s)

def execTagwany (d a : Reg) (s : State) : Out :=
  issue s fun s => do
    s.core.useX [a]
    let m := s.core.getX a
    if m ≠ 0#64 then waitAny (.tagwany d a) m s
    .ok (s.mapCore fun c => (c.putX d 2 (c.tags &&& m)).observeTags (c.tags &&& m))

def execTagwall (a : Reg) (s : State) : Out :=
  issue s fun s => do
    s.core.useX [a]
    let m := s.core.getX a
    let missing := m &&& ~~~s.core.tags
    if missing = 0#64 then .ok (s.mapCore fun c => c.observeTags m)
    else if missing &&& ~~~s.core.pendingTags ≠ 0#64 then .trap (trapW (.tagwall a) 25#5 0#64)
    else .error (.wait (.tagsAll m) s)

/-- The value that TAGFFR gives for a tag. -/
def Core.tagReport (c : Core) (t : Nat) : Word :=
  BitVec.ofNat 64 t ||| bitAt (c.tagDiffers.getLsbD t) 8 ||| bitAt (c.tagMalformed.getLsbD t) 9
    ||| bitAt (c.tagdrop.getLsbD t) 10

def execTagffr (d a : Reg) (s : State) : Out :=
  issue s fun s => do
    s.core.useX [a]
    let m := s.core.getX a
    waitAny (.tagffr d a) m s
    let t := (s.core.tags &&& m &&& (0#64 - (s.core.tags &&& m))).toNat.log2
    .ok (s.mapCore fun c => ((c.putX d 2 (c.tagReport t)).clearTags (1#64 <<< t)).observeTags (1#64 <<< t))

def execTagclr (a : Reg) (s : State) : Out :=
  issue s fun s => do
    s.core.useX [a]
    .ok (s.mapCore fun c => c.clearTags (s.core.getX a))

/-! ### Steps of the memory path -/

/-- The line of an operation is stashed by another core (R281). -/
def State.remoteStash (s : State) (n : Nat) (o : GOp) : Bool :=
  o.size != 0 && (s.stashOwner o.pa).any fun e => e.1 != n

def isLoadOp : GKind → Bool
  | .load _ | .amo .. | .cas .. => true
  | _ => false

def isStoreOp : GKind → Bool
  | .store | .writeback => true
  | _ => false

/-- Perform the operation at index k of the core in `core`, when it is ready. -/
def State.performAccess (s : State) (k : Nat) (loads stores remote : Bool) : State :=
  match s.ready k with
  | none => s
  | some o =>
    if s.remoteStash s.core.num o != remote then s
    else if loads && isLoadOp o.kind then s.completeLoad k o
    else if stores && isStoreOp o.kind then s.acceptStore k o
    else s

def execGlobalLoadComplete (core k : Nat) (s : State) : Out := .next (s.onCore core fun t => t.performAccess k true false false)

def execGlobalStoreAccept (core k : Nat) (s : State) : Out := .next (s.onCore core fun t => t.performAccess k false true false)

def execStashRemoteAccess (core k : Nat) (s : State) : Out := .next (s.onCore core fun t => t.performAccess k true true true)

/-- A line that the core waits for arrives, once no other core holds it and the host has given it up. -/
def State.fillWanted (s : State) (win line : Nat) : State :=
  if s.core.wanted = some (win, line) then
    match s.core.linePa win line with
    | none => s
    | some (pa, _) =>
      if (s.stashOwner pa).isSome then s
      else if s.hostHolds (pa / 64) then s.snoop (pa / 64)
      else s.fillLine win line
  else s

def execStashLineFill (core win line : Nat) (s : State) : Out := .next (s.onCore core fun t => t.fillWanted win line)

/-- An owner gives up a line that another core asks for, once the accesses that it has issued to it have been made. -/
def State.yieldLine (s : State) (win line : Nat) : State :=
  match s.core.linePa win line with
  | none => s
  | some (pa, _) =>
    if s.core.stashed win line && s.askedFor s.core.num pa && !s.core.keepsLine win line pa then
      s.releaseLine win line
    else s

def execStashLineRelease (core win line : Nat) (s : State) : Out := .next (s.onCore core fun t => t.yieldLine win line)

end Sys2Proof.Machine
end

