-- ==== Sys2Proof/Machine/Barrier.lean ====
section
/-! DEFINITION. Barrier objects (R325, R326): the BAR instructions (R327) and the steps at an object's home (R296). -/

namespace Sys2Proof.Machine

/-! ### The object (R325, R326) -/

/-- A barrier object, with the bits of its reserved bytes. -/
structure BarObj where
  expected : Word
  arrived : Word
  gen : BitVec 32
  flags : Byte
  rest : BitVec 88

def barRead (bs : List Byte) : BarObj where
  expected := BitVec.ofNat 64 (leNat (bs.take 8))
  arrived := BitVec.ofNat 64 (leNat ((bs.drop 8).take 8))
  gen := BitVec.ofNat 32 (leNat ((bs.drop 16).take 4))
  flags := bs.getD 20 0#8
  rest := BitVec.ofNat 88 (leNat ((bs.drop 21).take 11))

def BarObj.bytes (o : BarObj) : List Byte :=
  natBytes 8 o.expected.toNat ++ natBytes 8 o.arrived.toNat ++ natBytes 4 o.gen.toNat ++ [o.flags]
    ++ natBytes 11 o.rest.toNat

/-- The check after a BAREXP or an arrival: the generation may advance (R326). -/
def BarObj.check (o : BarObj) : BarObj :=
  if o.expected ≠ 0#64 && o.expected.ule o.arrived then
    { o with
      flags := if o.expected.ult o.arrived then o.flags ||| 1#8 else o.flags
      gen := o.gen + 1#32
      expected := 0#64
      arrived := 0#64 }
  else o

/-- An arrival of n bytes. -/
def BarObj.arrive (o : BarObj) (n : Word) : BarObj := { o with arrived := o.arrived + n }.check

def BarObj.expect (o : BarObj) (n : Word) : BarObj := { o with expected := o.expected + n }.check

/-- What BARINIT leaves. -/
def BarObj.init (n : Word) : BarObj := ⟨0#64, 0#64, n.setWidth 32, 0#8, 0#88⟩

/-- A waiter that presented g observes an advance (R326). -/
def advanced (gen g : BitVec 32) : Bool := 1 ≤ (gen - g).toNat && (gen - g).toNat ≤ 2 ^ 31 - 1

/-! ### Issue (R327) -/

/-- The address of a barrier operation, checked: cause 25, poison, then 16, 5, 6, then 9, 10 or 11. -/
def barPlace (room collecting : Res Unit) (used : List Reg) (a : Reg) (disp : BitVec 24) (acc : Acc) (s : State) :
    Res (State × Page × Word) := do
  let addr := s.core.effective a disp
  room
  s.core.useX used
  collecting
  checkAligned addr 32
  if isLocal addr then Res.trap (.plain 6#5 addr 0#64 0#64)
  match s.translate s.core.ctx addr acc with
  | (s, .error t) => .error (.trapAt t s)
  | (s, .ok pg) => .ok (s, pg, addr)

/-- A barrier operation that writes counts in class S until its home has applied it. -/
def barWrite (i : Instr) (kind : GKind) (acc : Acc) (rel : Option Scope) (b a : Reg) (disp : BitVec 24) (s : State) : Out :=
  issue s fun s => do
    let (s, pg, addr) ← barPlace (s.core.roomS i) (notCollecting i s.core) [a, b] a disp acc s
    .ok (s.addOp { s.core.newOp s.pkg.serial kind with
      page := some pg, va := addr, pa := pg.pa addr.toNat, size := 32, data := s.core.getX b, release := rel })

def execBarinit (b a : Reg) (disp : BitVec 24) (s : State) : Out :=
  barWrite (.barinit b a disp) .barInit .write none b a disp s

def execBarexp (b a : Reg) (disp : BitVec 24) (s : State) : Out := barWrite (.barexp b a disp) .barExp .rmw none b a disp s

def execBararv (sc : Scope) (b a : Reg) (disp : BitVec 24) (s : State) : Out :=
  barWrite (.bararv sc b a disp) .barArv .rmw (some sc) b a disp s

def execBargen (d a : Reg) (disp : BitVec 24) (s : State) : Out :=
  issue s fun s => do
    let (s, pg, addr) ← barPlace (s.core.roomG (.bargen d a disp)) (.ok ()) [a] a disp .read s
    .ok (s.addOp { s.core.newOp s.pkg.serial .barGen with
      page := some pg, va := addr, pa := pg.pa addr.toNat + 16, size := 4, dst := d })

/-- The BARWT at pc, waiting on an object (R327). -/
def Core.waitingOn (c : Core) (pa : Nat) (g : BitVec 32) : Option BarwtRec :=
  c.barwt.find? fun r => r.pc == c.pc && r.super == c.super && r.pa == pa && r.gen == g

/-- A BARWT waits: the generation that it presented is recorded. -/
def Core.waitOn (c : Core) (pa : Nat) (g : BitVec 32) : Core :=
  if (c.waitingOn pa g).isSome then c else { c with barwt := c.barwt ++ [⟨c.pc, c.super, pa, g, none⟩] }

/-- A wait of a core that observes the advance past a generation acquires what was counted into it: the writes of its own copies,
and of its engines' writes those that precede a counted BARARV (R296). -/
def Core.observeBarrier (c : Core) (pa : Nat) (g : BitVec 32) : Core := c.acquire fun u => u.counted.contains (pa, g)

/-- What other cores' engines had counted reaches the waiter, and through it others. -/
def Core.countedShown (c : Core) (pa : Nat) (g : BitVec 32) : Core :=
  { c with unseen := c.unseen.map fun u => if u.counted.contains (pa, g) then { u with shown := true } else u }

/-- The core in `core` observes the advance past a generation. -/
def State.observeBarrier (s : State) (pa : Nat) (g : BitVec 32) : State :=
  { s with core := s.core.observeBarrier pa g, parked := s.parked.map fun c => c.countedShown pa g }

/-- A record of a waiter that observes the generation that an operation on its object leaves. -/
def BarwtRec.wakes (r : BarwtRec) (pa : Nat) (gen : BitVec 32) : Bool := r.pa == pa && r.seen.isNone && advanced gen r.gen

/-- Waiters on an object observe the generation that an operation on it leaves, and acquire what was counted into the one that
they presented; a BARINIT gives them nothing, and what the object has counted is forgotten (R327). -/
def State.observe (s : State) (pa : Nat) (gen : BitVec 32) (init : Bool) : State :=
  let woken := fun (c : Core) => (c.barwt.filter fun r => r.wakes pa gen).map fun r => r.gen
  let all := s.cores.flatMap fun c => (woken c).map fun g => (c.num, g)
  let see := fun (c : Core) =>
    { c with barwt := c.barwt.map fun r => if r.wakes pa gen then { r with seen := some gen } else r }
  let learn := fun (c : Core) => all.foldl (fun c e =>
    if e.1 = c.num then c.observeBarrier pa e.2 else c.countedShown pa e.2) c
  let forget := fun (c : Core) =>
    { c with unseen := c.unseen.map fun u => { u with counted := u.counted.filter fun e => e.1 != pa } }
  s.mapCores fun c => see (if init then forget c else learn c)

/-- BARWT: the wait reads the object at its home, after the core's earlier operations on it; an advance that the object's
home has shown it stands, whatever comes after. -/
def execBarwt (sc : Scope) (d a b : Reg) (disp : BitVec 24) (s : State) : Out :=
  let i : Instr := .barwt sc d a b disp
  issue s fun s => do
    let (s, pg, addr) ← barPlace (.ok ()) (notCollecting i s.core) [a, b] a disp .read s
    let pa := pg.pa addr.toNat
    let g := (s.core.getX b).setWidth 32
    let read : GOp := { s.core.newOp s.pkg.serial .barGen with page := some pg, va := addr, pa := pa, size := 32 }
    match (s.core.waitingOn pa g).bind fun r => r.seen with
    | some gen => return s.mapCore fun c => c.putX d 2 (gen.setWidth 64)
    | none => pure ()
    if s.holds read s.core.ops then Except.error (Stop.wait (.barrier pa pg.key g) s)
    if s.hostHolds (pa / 64) then Except.error (Stop.wait (.barrier pa pg.key g) (s.snoop (pa / 64)))
    let s := s.reachFor s.core.ctx pa
    let r := s.look pa 32 pg.key
    if r.2 then Except.error (Stop.trapAt (.plain 19#5 addr s.core.pc 0#64) s)
    let o := barRead r.1
    if advanced o.gen g then .ok ((s.observeBarrier pa g).mapCore fun c => c.putX d 2 (o.gen.setWidth 64))
    else .error (.wait (.barrier pa pg.key g) (s.mapCore fun c => c.waitOn pa g))

/-! ### At the home (R296, R326) -/

/-- The object after an operation. -/
def GKind.barApply (kind : GKind) (data : Word) (o : BarObj) : BarObj :=
  match kind with
  | .barInit => BarObj.init data
  | .barExp => o.expect data
  | .barArv => o.arrive data
  | _ => o

/-- A BARARV is counted into a generation: so is every engine's write that has reached another party (R296). -/
def State.countShown (s : State) (pa : Nat) (g : BitVec 32) : State :=
  s.mapCores fun c => { c with unseen := c.unseen.map fun u => if u.shown then { u with counted := (pa, g) :: u.counted } else u }

/-- The home applies the barrier operation at index k as one step; a poisoned object raises a late trap. -/
def State.applyBarrier (s : State) (k : Nat) (o : GOp) : State :=
  if s.hostHolds (o.pa / 64) then s.snoop (o.pa / 64)
  else
    let s := s.reachFor s.core.ctx o.pa
    let r := s.look o.pa 32 o.key
    let s := s.mapCore fun c => c.finishOp k
    if r.2 || o.lost then s.mapCore fun c => c.pend (lateTrap o 19#5 o.va o.pc)
    else
      let was := barRead r.1
      let x := o.kind.barApply o.data was
      let s := if o.kind = .barArv then s.countShown o.pa was.gen else s
      (s.put (.instr s.core.num o.order) o.pa x.bytes o.key).observe o.pa x.gen (o.kind = .barInit)

def State.barrierStep (s : State) (k : Nat) : State :=
  match s.ready k with
  | none => s
  | some o =>
    match o.kind with
    | .barInit | .barExp | .barArv => s.applyBarrier k o
    | .barGen => s.completeLoad k o
    | _ => s

def execBarrierOperationAtHome (core k : Nat) (s : State) : Out := .next (s.onCore core fun t => t.barrierStep k)

end Sys2Proof.Machine
end

