-- ==== Sys2Proof/Machine/Engine.lean ====
section
/-! DEFINITION. What the engines of a core share: the engine queues (R258 to R261), enqueueing, beginning, stopping and
retiring a command, cycle bounds (R197, R259), and the accesses that an engine makes to the scratchpad and to global memory
(R281 to R283, R295). -/

namespace Sys2Proof.Machine

/-! ### The work of an engine -/

/-- Why the next part of a command is not made now: it waits under a condition of R259, or the command stops. -/
inductive Halt where
  | wait (cond : BitVec 3)
  | stop (t : Trap)

/-- Work that an engine of the core in `core` does. -/
abbrev Eng (α : Type) := EStateM Halt State α

def Eng.stop {α : Type} (t : Trap) : Eng α := throw (.stop t)

def Eng.wait {α : Type} (cond : BitVec 3) : Eng α := throw (.wait cond)

/-- Lift an issue-time check into an engine's work: its trap stops the command. -/
def Eng.guard (b : Bool) (t : Trap) : Eng Unit := if b then pure () else Eng.stop t

/-! ### Attribution (R259, R390) -/

/-- The attribution word of a command with the condition it awaits. -/
def attribution (q : EngineQ) (m : Cmd) (cond : BitVec 3) : Word :=
  cond.setWidth 64 <<< 32 ||| m.seq.setWidth 64 <<< 16 ||| q.code.setWidth 64

/-- A trap of an access, attributed to a command: a refused translation, and an angle array of
SKOPT that is misaligned or outside the scratchpad, await condition 3 (assumption 17). -/
def blame (q : EngineQ) (m : Cmd) (t : Trap) : Trap :=
  { t with engine := true, info1 := attribution q m (if t.cause = 19#5 then 0#3 else 3#3) }

/-- Causes 13, 14 and 24: the attribution word first. -/
def engineTrap (q : EngineQ) (m : Cmd) (cause : BitVec 5) (info1 : Word) : Trap :=
  ⟨cause, true, attribution q m 0#3, info1, 0#64, 0#64⟩

/-- Poison that an engine consumes at an address (R390, R395). -/
def poisonTrap (q : EngineQ) (m : Cmd) (a : Word) : Trap := blame q m (.plain 19#5 a 0#64 0#64)

/-! ### Enqueueing (R56, R193, R258, R282) -/

/-- The pages of the n bytes at an address in ascending order; none for a local range (R282). -/
def pinRange (a : Word) (n : Nat) (acc : Acc) (s : State) : Res (List Page × State) :=
  if isLocal a || n = 0 then .ok ([], s)
  else
    match s.translateExtent s.core.ctx a.toNat n acc with
    | (s, .error t) => .error (.trapAt t s)
    | (s, .ok pages) => .ok (pages, s)

/-- The pages of several extents, for a pinned command; a demand command pins nothing. -/
def pinAll (demand : Bool) (ranges : List (Word × Nat × Acc)) (s : State) : Res (List Page × State) :=
  if demand then .ok ([], s)
  else
    ranges.foldlM (fun (acc : List Page × State) r => do
      let (ps, s) ← pinRange r.1 r.2.1 r.2.2 acc.2
      .ok (acc.1 ++ ps, s)) ([], s)

/-- The command that an instruction issues, with its captured operands. -/
def Core.command (c : Core) (i : Instr) (q : EngineQ) (d a b x : Word) (pins : List Page) : Cmd where
  word := wordOf i
  instr := i
  d := d
  a := a
  b := b
  c := x
  seq := (c.queue q).next
  order := c.issued
  left := fullBound (wordOf i)
  since := none
  pins := pins
  hold := []
  nest := []
  qfmt := 0#64
  noted := (0, 0)
  spoilt := false
  olds := []
  nth := (c.queue q).count
  status := .queued
  sweep := Sweep.start
  begun := false
  refused := none
  stop := none

/-- Put a command at the end of its queue, or wait while the queue is full (R28, R258). -/
def enqueue (q : EngineQ) (m : Cmd) (s : State) : Res State :=
  let e := s.core.queue q
  if e.cmds.length < Config.queueDepth then
    .ok (s.mapCore fun c =>
      (c.setQueue q { e with cmds := e.cmds ++ [m], next := e.next + 1#16, count := e.count + 1 }).bump 43 1)
  else .error (.wait (.engine q) s)

/-! ### Heads of queues -/

def Core.head (c : Core) (q : EngineQ) : Option Cmd := (c.queue q).cmds.head?

def Core.setHead (c : Core) (q : EngineQ) (m : Cmd) : Core :=
  c.setQueue q { c.queue q with cmds := m :: (c.queue q).cmds.tail }

/-- The gap of the queue's pacing register (R260). -/
def Core.gap (c : Core) (q : EngineQ) : Nat := (c.pace[q.code.toNat]'q.code.isLt).toNat

/-- Every access of the core that was issued before a command has been made (R288, R295). -/
def Core.earlierDone (c : Core) (m : Cmd) : Bool :=
  (c.ops.all fun o => m.order ≤ o.order || !(o.kind.reads || o.kind.writes)) && c.work.all fun w => m.order ≤ w.order

/-- The engine of a queue may make a step: no debugger's halt holds its core (R21, R398). -/
def State.engineRuns (s : State) : Bool := !s.standsHalted

/-- The head of a queue, when it may begin now (R194, R258, R260). The gap lies between the beginnings of two commands, and
delays none that begins again (assumption 99). -/
def State.beginner (s : State) (q : EngineQ) : Option Cmd :=
  match s.core.head q with
  | none => none
  | some m =>
    let e := s.core.queue q
    let paced := e.last == some m.order || match e.began with
      | none => true
      | some t => t + s.core.gap q ≤ s.core.cycle
    if s.engineRuns && m.status == .queued && paced && s.core.earlierDone m then some m else none

/-- The running head of a queue. -/
def State.runner (s : State) (q : EngineQ) : Option Cmd :=
  match s.core.head q with
  | some m => if s.engineRuns && m.status == .running then some m else none
  | none => none

/-- The command begins: its bound counts from this cycle. -/
def Core.begin (c : Core) (q : EngineQ) (m : Cmd) : Core :=
  let c := c.setQueue q { c.queue q with began := some c.cycle, last := some m.order }
  c.setHead q { m with status := .running, since := some c.meter, begun := true }

/-! ### Bounds (R197, R259, R445) -/

/-- Cycles of bound left at a value of the core's `meter`. -/
def Cmd.leftAt (m : Cmd) (now : Nat) : Option Nat :=
  m.left.map fun n => match m.since with
    | some t => n - (now - t)
    | none => n

/-- The command with its count standing. -/
def Cmd.freeze (m : Cmd) (now : Nat) : Cmd := { m with left := m.leftAt now, since := none }

/-! ### Stops and retirement -/

def stopRank : EngineQ → Nat
  | .l => 2 | .c0 => 3 | .c1 => 4 | .k => 5

/-- The head of a queue stands stopped, and holds no page that it translated itself (R203, R232, R321; assumption 121). -/
def Core.standHead (c : Core) (q : EngineQ) (m : Cmd) (status : CmdStatus) : Core :=
  c.setHead q { m.freeze c.meter with status := status, hold := [], olds := [] }

/-- The head of a queue stops with a trap pending (R201, R232, R321). -/
def Core.stopHead (c : Core) (q : EngineQ) (m : Cmd) (t : Trap) : Core :=
  (c.standHead q m .stopped).pend ⟨stopRank q, 0, t, .engine q⟩

/-- The head of a queue leaves it; a waiting WFE sees its class counter fall (R409). -/
def Core.dropHead (c : Core) (q : EngineQ) : Core :=
  (c.setQueue q { c.queue q with cmds := (c.queue q).cmds.tail }).see 4#5

/-! ### Locations -/

/-- A number that stands for a byte of memory or of the scratchpad as a command addresses it: a byte of a window's line stands
for its byte of memory, and a byte that no page maps for itself. -/
def State.locate (s : State) (m : Cmd) (a : Nat) : Nat :=
  if isLocal (BitVec.ofNat 64 a) then s.core.locOf (a % 2 ^ 22)
  else
    match pageFor m.pins a, s.checkWalk s.core.ctx (BitVec.ofNat 64 a) .probe with
    | some pg, _ => pg.pa a
    | none, .ok pg => pg.pa a
    | none, .error _ => 2 ^ 61 + a

/-- The stretches of the n bytes at an address, as locations. -/
def State.stretches (s : State) (m : Cmd) (a : Word) (n : Nat) : List (Nat × Nat) :=
  (piecesOf a n).map fun p => (s.locate m p.1, p.2)

def stretchesMeet (x y : List (Nat × Nat)) : Bool := x.any fun a => y.any fun b => a.1 < b.1 + b.2 && b.1 < a.1 + a.2

/-! ### Accesses -/

/-- The page that a command uses for an address: one that it holds, or a translation made now; either must permit the access
(R282, R283, R376). -/
def Eng.page (q : EngineQ) (m : Cmd) (a : Word) (acc : Acc) : Eng Page := fun s =>
  let r := match pageFor (m.hold ++ m.pins) a.toNat with
    | some pg => (s, checkPerm a acc pg)
    | none => s.translate s.core.ctx a acc
  match r with
  | (s, .error t) => .error (.stop (blame q m t)) s
  | (s, .ok pg) => .ok pg s

/-- A piece of memory as an engine read it: its address, and its bytes, each with its poison. -/
structure Piece where
  addr : Nat
  cells : List (Byte × Bool)

def Piece.bytes (p : Piece) : List Byte := p.cells.map fun e => e.1

def Piece.poisoned (p : Piece) : Bool := p.cells.any fun e => e.2

/-- An engine waits for the line of a window while its owner keeps it, and for the link to another package while it holds all
the flits that it may hold, unless the links have let its part through (R281, R428). -/
def Eng.awaitLine (q : EngineQ) (hit : Option (Nat × Nat)) (pg : Option Page) (a : Nat) : Eng Unit := do
  let s ← get
  if s.lineKept hit then Eng.wait 5#3
  if !((s.core.head q).any fun m => m.sweep.granted) && pg.any fun g => s.pkg.linkFull (g.pa a) then Eng.wait 4#3

/-- Cells at a location with the old ones in place that a command keeps. -/
def withOlds (olds : List OldByte) (loc : Nat) (cells : List (Byte × Bool)) : List (Byte × Bool) :=
  if olds.any fun e => loc ≤ e.loc && e.loc < loc + cells.length then
    cells.zipIdx.map fun e => ((olds.find? fun x => x.loc == loc + e.2).map fun x => (x.byte, x.poisoned)).getD e.1
  else cells

/-- The bytes at a location as the head of a queue reads them: those that later accesses of its core have met as they stood,
the others with what it may find of another engine's writes (R288 row 3, R290, R320). -/
def State.engineView (s : State) (q : EngineQ) (loc : Nat) (cells : List (Byte × Bool)) : List (Byte × Bool) × State :=
  let found := s.findEngine q loc (cells.map fun e => e.1)
  let v := withOlds (((s.core.head q).map fun m => m.olds).getD []) loc (foundCells found.1 cells)
  let order := ((s.core.head q).map fun m => m.order).getD 0
  (v, found.2.pinFound order loc v)

/-- The bytes of one line that the head of a queue reads through a page, or from the scratchpad (none); `counted` where the word
is a new one, which takes a request of its own (R441). -/
def Eng.readPiece (q : EngineQ) (pg : Option Page) (a n : Nat) (counted : Bool) : Eng Piece := fun s =>
  match pg with
  | none =>
    let o := a % 2 ^ 22
    let s := (s.claimAt (s.core.windowAt o)).mapCore fun c => c.bump 15 (if counted then 1 else 0)
    let r := s.engineView q (s.core.locOf o) (s.core.scratchCells o n)
    .ok ⟨a, r.1⟩ r.2
  | some pg =>
    let pa := pg.pa a
    let s := (s.claimAt (s.core.windowOf a)).recall (pa / 64)
    let s := if counted then (s.reachFor s.core.ctx pa).mapCore fun c => (c.bump 38 1).bump 39 1 else s
    let r := s.engineView q pa (s.cells pa n pg.key)
    .ok ⟨a, r.1⟩ r.2

/-- The page of a piece at an address; none for a local one. -/
def Eng.place (q : EngineQ) (m : Cmd) (a : Nat) (acc : Acc) : Eng (Option Page) :=
  if isLocal (BitVec.ofNat 64 a) then pure none else do
    let pg ← Eng.page q m (BitVec.ofNat 64 a) acc
    pure (some pg)

/-- The window and line that an engine's access meets. -/
def Core.meets (c : Core) (a : Nat) (pg : Option Page) : Option (Nat × Nat) :=
  if pg.isNone then c.windowAt (a % 2 ^ 22) else c.windowOf a

def Eng.readPieces (q : EngineQ) (m : Cmd) (cut : List (Nat × Nat)) : Eng (List Piece) :=
  cut.mapM fun p => do
    let pg ← Eng.place q m p.1 .read
    let s ← get
    Eng.awaitLine q (s.core.meets p.1 pg) pg p.1
    Eng.readPiece q pg p.1 p.2 true

def pieceBytes (l : List Piece) : List Byte := l.foldr (fun p acc => p.bytes ++ acc) []

/-- The n bytes at an address; poison among them stops the command (R395). -/
def Eng.read (q : EngineQ) (m : Cmd) (a : Word) (n : Nat) : Eng (List Byte) := do
  let ps ← Eng.readPieces q m (piecesOf a n)
  match ps.find? fun p => p.poisoned with
  | some p => Eng.stop (poisonTrap q m (BitVec.ofNat 64 p.addr))
  | none => pure (pieceBytes ps)

/-- A fetch of a stage list, an array of angles or factors, or a sketch header: always translated on demand, and an address
that is not global is a translation fault (R192, R201). -/
def Eng.fetch (q : EngineQ) (m : Cmd) (a : Word) (n : Nat) : Eng (List Byte) :=
  if isLocal a then Eng.stop (blame q m (.plain 9#5 a 0#64 1#64)) else Eng.read q { m with pins := [], hold := [] } a n

def Eng.fetchNat (q : EngineQ) (m : Cmd) (a : Word) (n : Nat) : Eng Nat := do
  let bs ← Eng.fetch q m a n
  pure (leNat bs)

/-- The places of the n bytes at an address, all of them writable (R311, R376). -/
def Eng.writable (q : EngineQ) (m : Cmd) (a : Word) (n : Nat) : Eng (List (Nat × Option Page)) :=
  (piecesOf a n).mapM fun p => do
    let pg ← Eng.place q m p.1 .write
    let s ← get
    Eng.awaitLine q (s.core.meets p.1 pg) pg p.1
    match pg, s.core.windowAt (p.1 % 2 ^ 22) with
    | none, some (w, l) =>
      if s.core.lineWritable w l then pure (p.1, pg)
      else Eng.stop (blame q m (.plain 11#5 (BitVec.ofNat 64 p.1) 0#64 2#64))
    | _, _ => pure (p.1, pg)

/-- Bytes of one line written by an engine (R295, R320), or by the effect-list unit for its core. -/
def State.enginePut (s : State) (who : Writer) (a : Nat) (pg : Option Page) (bs : List Byte) : State :=
  match pg with
  | none => (s.writeLocal who (a % 2 ^ 22) bs).mapCore fun c => c.bump 16 1
  | some pg =>
    let pa := pg.pa a
    let s := ((s.claimAt (s.core.windowOf a)).recall (pa / 64)).mapCore fun c => (c.bump 38 1).bump 39 1
    (s.reachFor s.core.ctx pa).put who pa bs pg.key

/-- Write bytes at places found writable. -/
def State.putPlaces (s : State) (who : Writer) : List (Nat × Option Page) → List Byte → State
  | [], _ => s
  | p :: r, bs =>
    let k := 64 - p.1 % 64
    (s.enginePut who p.1 p.2 (bs.take k)).putPlaces who r (bs.drop k)

/-- Write bytes at an address: every page is translated before the first byte is written. -/
def Eng.write (q : EngineQ) (m : Cmd) (a : Word) (bs : List Byte) : Eng Unit := do
  let places ← Eng.writable q m a bs.length
  modify fun s => s.putPlaces (.engine s.core.num q m) places bs

/-- Poison the n bytes at a place, wherever they stand. -/
def State.spoil (s : State) (a n : Nat) (pg : Option Page) : State :=
  match pg with
  | none => s.mapCore fun c => c.scratchPoison (a % 2 ^ 22) n
  | some pg => s.putPoison (pg.pa a) n

/-! ### Running a part -/

/-- How a part of the head of a queue ends from a state. -/
inductive Part where
  | made (s : State)
  | waits (cond : BitVec 3) (s : State)
  | stops (t : Trap) (s : State)

def runPart (e : Eng Unit) (s : State) : Part :=
  match e s with
  | .ok _ t => .made t
  | .error (.wait c) t => .waits c t
  | .error (.stop r) t => .stops r t

/-- The state after a part that is made; another part leaves the state as it was. -/
def Part.after (p : Part) (s : State) : State :=
  match p with
  | .made t => t
  | _ => s

/-- Replace the progress of the running head. -/
def Eng.progress (q : EngineQ) (f : Cmd → Cmd) : Eng Unit :=
  modify fun s => match s.core.head q with
    | some m => s.mapCore fun c => c.setHead q (f m)
    | none => s

end Sys2Proof.Machine
end

