-- ==== Sys2Proof/Machine/Lz4.lean ====
section
/-! DEFINITION. Decoding of an LZ4 block (R316, R382; assumption 18): sequences of a token, literals and a match. The source
is read byte by byte, as the block needs it; `rd i` is none beyond the source's extent. -/

namespace Sys2Proof.Machine

/-- A length field: 15 in the token is continued by bytes, each added, until one below 255. -/
def lzLength {M : Type → Type} [Monad M] (rd : Nat → M (Option Byte)) (n i : Nat) : Nat → M (Option (Nat × Nat))
  | 0 => pure none
  | fuel + 1 => do
    match ← rd i with
    | none => pure none
    | some b => if b = 0xFF#8 then lzLength rd (n + 255) (i + 1) fuel else pure (some (n + b.toNat, i + 1))

def lzField {M : Type → Type} [Monad M] (rd : Nat → M (Option Byte)) (n i fuel : Nat) : M (Option (Nat × Nat)) :=
  if n < 15 then pure (some (n, i)) else lzLength rd 15 i fuel

/-- Append n literals read from i, as far as the source goes. -/
def lzLiterals {M : Type → Type} [Monad M] (rd : Nat → M (Option Byte)) : Nat → Nat → List Byte → M (List Byte)
  | 0, _, out => pure out
  | n + 1, i, out => do
    match ← rd i with
    | none => pure out
    | some b => lzLiterals rd n (i + 1) (out ++ [b])

/-- Append n bytes of the output from a distance back. -/
def lzMatch (off : Nat) : Nat → List Byte → List Byte
  | 0, out => out
  | n + 1, out => lzMatch off n (out ++ [out.getD (out.length - off) 0#8])

/-- Decode from source byte i until `want` bytes are out: the bytes decoded, and whether the block is well formed and
gives exactly that many. The fuel bounds the number of sequences. -/
def lzDecode {M : Type → Type} [Monad M] (rd : Nat → M (Option Byte)) (want : Nat) :
    Nat → Nat → List Byte → M (List Byte × Bool)
  | 0, _, out => pure (out, false)
  | fuel + 1, i, out => do
    match ← rd i with
    | none => pure (out, false)
    | some token =>
      match ← lzField rd (token.toNat / 16) (i + 1) want with
      | none => pure (out, false)
      | some (n, i) =>
        let lits ← lzLiterals rd (min n (want - out.length)) i []
        let full := out ++ lits
        if lits.length < n then pure (full, false)
        else if full.length = want then pure (full, true)
        else
          match ← rd (i + n), ← rd (i + n + 1) with
          | some lo, some hi =>
            let off := lo.toNat + 256 * hi.toNat
            match ← lzField rd (token.toNat % 16) (i + n + 2) want with
            | none => pure (full, false)
            | some (k, i) =>
              if off = 0 || full.length < off then pure (full, false)
              else
                let out := lzMatch off (min (k + 4) (want - full.length)) full
                if want - full.length < k + 4 then pure (out, false) else lzDecode rd want fuel i out
          | _, _ => pure (full, false)

end Sys2Proof.Machine
end

