-- ==== Sys2Proof/Machine/Demand.lean ====
section
/-! DEFINITION. Hardware service of a demand fault: the free-frame list and the fill of a page (R381 function 0, R382). -/

namespace Sys2Proof.Machine

/-- The header of a free-frame list. -/
structure FrameList where
  cap4 : Nat
  cap64 : Nat
  head4 : Nat
  tail4 : Nat
  head64 : Nat
  tail64 : Nat
  clear : Bool

def frameList (bs : List Byte) : FrameList :=
  let f := fun o => leNat ((bs.drop o).take 4)
  ⟨f 0, f 4, f 8, f 12, f 16, f 20, leNat (bs.drop 24) == 0⟩

/-- Bytes read, or written, by a hub at a physical address within one line. -/
def State.hubRead (s : State) (pa n : Nat) (key : BitVec 6) : State × List Byte × Bool :=
  let s := (s.recall (pa / 64)).reachFor s.core.ctx pa
  (s, s.look pa n key)

/-- A frame filled: the data of its source page, moved. -/
def State.fillWrite (s : State) (pa : Nat) (bs : List Byte) (key : BitVec 6) : State :=
  ((s.recall (pa / 64)).reachFor s.core.ctx pa).put .moved pa bs key

def State.hubWrite (s : State) (pa : Nat) (bs : List Byte) (key : BitVec 6) : State :=
  ((s.recall (pa / 64)).reachFor s.core.ctx pa).put .other pa bs key

/-- The ring of a page size: its capacity, head, tail, the offset of its head in the header, the offset of its entries. -/
def FrameList.ring (l : FrameList) (big : Bool) : Nat × Nat × Nat × Nat × Nat :=
  if big then (l.cap64, l.head64, l.tail64, 0x10, 0x40 + 8 * l.cap4) else (l.cap4, l.head4, l.tail4, 0x08, 0x40)

/-- Take a frame for a page of 2^bits bytes: none when the fill falls back, and then head stands. -/
def State.takeFrame (s : State) (bits : Nat) : State × Option Nat :=
  let x := s.pkg.ctx s.core.ctx
  let key := x.ptkey
  if x.frames = 0 then (s, none)
  else
    let (s, bs, bad) := s.hubRead x.frames 64 key
    let l := frameList bs
    let (cap, head, tail, at_, entries) := l.ring (bits = 16)
    if bad || !l.clear || cap = 0 || 2 ^ 20 < l.cap4 || 2 ^ 20 < l.cap64 || head = tail then (s, none)
    else
      let (s, fs, bad) := s.hubRead (x.frames + entries + 8 * (head % cap)) 8 key
      let frame := leNat fs
      if bad || frame % 2 ^ bits != 0 || 2 ^ 52 ≤ frame then (s, none)
      else (s.hubWrite (x.frames + at_) (natBytes 4 (head + 1)) key, some frame)

/-- The entry of a filled page: present, its frame in place of its source, every other field kept. -/
def presentEntry (e : Word) (frame : Nat) : Word :=
  (e &&& ~~~0xFFFFFFFFFF000#64 &&& ~~~0x900#64) ||| BitVec.ofNat 64 frame ||| 1#64

/-- Byte i of a source page. -/
def State.sourceByte (s : State) (pa size : Nat) (key : BitVec 6) (i : Nat) : Id (Option Byte) :=
  if size ≤ i then none else (s.look (pa + i) 1 key).1.head?

def State.sourcePoisoned (s : State) (pa size : Nat) (key : BitVec 6) : Bool :=
  (pieces 64 pa (size / 64 + 1) size).any fun p => (s.look p.1 p.2 key).2

/-- Copy a source page into a frame, decoding it if the entry says so; false when the block does not decode. -/
def State.copyPage (s : State) (e : Word) (src dst bits : Nat) : State × Bool :=
  let size := 2 ^ bits
  let key := pteKey e
  let s := (pieces 64 src (size / 64 + 1) size).foldl (fun s p => (s.recall (p.1 / 64)).reachFor s.core.ctx p.1) s
  let out : Option (List Byte) :=
    if pteLz e then
      let r := Id.run (lzDecode (s.sourceByte src size key) size (size + 1) 0 [])
      if r.2 && !s.sourcePoisoned src size key then some r.1 else none
    else some (((pieces 64 src (size / 64 + 1) size).map fun p => (s.look p.1 p.2 key).1).flatten)
  match out with
  | none => (s, false)
  | some bs =>
    let t := (pieces 64 dst (size / 64 + 1) size).foldl (fun t p => t.fillWrite p.1 ((bs.drop (p.1 - dst)).take p.2) key) s
    if pteLz e then (t, true)
    else
      ((pieces 64 src (size / 64 + 1) size).foldl (fun t p =>
        if (s.look p.1 p.2 key).2 then t.putPoison (dst + (p.1 - src)) p.2 else t) t, true)

/-- Fill the page of an address that the core's context maps for demand fill; false when host-assisted service remains. -/
def State.demandFill (s : State) (va : Word) : State × Bool :=
  let x := s.pkg.ctx s.core.ctx
  if !x.hardware 0 then (s, false)
  else
    match (s.walkFor s.core.ctx va.toNat).2 with
    | .demand e bits at_ =>
      if bits != 12 && bits != 16 then (s, false)
      else
        match s.takeFrame bits with
        | (s, none) => (s, false)
        | (s, some frame) =>
          let src := s.pkg.ptePa e / 2 ^ bits * 2 ^ bits
          let e' := presentEntry e frame
          let dst := s.pkg.ptePa e' / 2 ^ bits * 2 ^ bits
          match s.copyPage e src dst bits with
          | (s, false) => (s, false)
          | (s, true) =>
            let group := if bits = 16 then (List.range 16).map fun i => at_ / 128 * 128 + 8 * i else [at_]
            (group.foldl (fun s a => s.hubWrite a (natBytes 8 e'.toNat) x.ptkey) s, true)
    | _ => (s, false)

end Sys2Proof.Machine
end

