-- ==== Sys2Proof/Machine/EffectList.lean ====
section
/-! DEFINITION. The EL instructions (R346 to R350) and the steps of the effect-list unit (R341, R345, R347 to R349). -/

namespace Sys2Proof.Machine

/-! ### Issue -/

/-- The handle that a register holds: reserved bits are cause 2. -/
def elHandle (i : Instr) (h : Word) : Res Unit := if h.extractLsb' 16 48 = 0#48 then .ok () else .trap (trapW i 2#5 0#64)

/-- The slot of a live handle, or cause 15 with reason 4. -/
def elSlot (c : Core) (h : Word) : Res (BitVec 4) :=
  match c.liveSlot h with
  | some k => .ok k
  | none => .trap (.plain 15#5 4#64 h 0#64)

/-- Work of an EL instruction on the segments of its list. -/
def Core.elWork (c : Core) (i : Instr) (segs : List (Nat × Nat)) (b x h : Word) : ElWork where
  instr := i
  segs := segs
  b := b
  c := x
  handle := h.setWidth 16
  pc := c.pc
  order := c.issued
  done := 0
  live := 0
  malformed := 0
  stopped := false
  later := []

def Core.addWork (c : Core) (w : ElWork) : Core := { c with work := c.work ++ [w] }

/-- The checks that the EL instructions share, in the order of spec/17: the class, the handles, collecting mode, liveness. -/
def issueEl (i : Instr) (g : Bool) (regs handles : List Reg) (s : State) (k : List (BitVec 4) → Res State) : Out :=
  issue s fun s => do
    if g then s.core.roomG i else s.core.roomS i
    s.core.useX regs
    handles.forM fun r => elHandle i (s.core.getX r)
    notCollecting i s.core
    let slots ← handles.mapM fun r => elSlot s.core (s.core.getX r)
    k slots

/-- ELCAT: the segments of A followed by those of B under A's slot with its next generation; B's slot is free. -/
def execElcat (d a b : Reg) (s : State) : Out :=
  let i : Instr := .elcat d a b
  issueEl i true [a, b] [a, b] s fun slots => do
    let ka := slots.headD 0#4
    let kb := (slots.drop 1).headD 0#4
    let c := s.core
    let la := c.slot ka
    let lb := c.slot kb
    if c.getX a = c.getX b || 4096 < la.entries + lb.entries || 16 < la.segs.length + lb.segs.length then
      Res.trap (.plain 15#5 5#64 (c.getX a) (c.getX b))
    let l : ListSlot := ⟨nextGen la.gen, .live, la.segs ++ lb.segs⟩
    let q := (c.setSlot kb { lb with state := .free, segs := [] }).setSlot ka l
    .ok (s.mapCore fun _ => q.addWork (c.elWork i [] (slotHandle ka l) 0#64 (c.getX a)))

def execElflt (a b c : Reg) (s : State) : Out :=
  let i : Instr := .elflt a b c
  issueEl i false [a, b, c] [a] s fun slots =>
    let q := s.core
    .ok (s.mapCore fun _ => q.addWork (q.elWork i (q.slot (slots.headD 0#4)).segs (q.getX b) (q.getX c) (q.getX a)))

def execElrbs (a b c : Reg) (s : State) : Out :=
  let i : Instr := .elrbs a b c
  issueEl i false [a, b, c] [a] s fun slots =>
    let q := s.core
    .ok (s.mapCore fun _ => q.addWork (q.elWork i (q.slot (slots.headD 0#4)).segs (q.getX b) (q.getX c) (q.getX a)))

def execElapp (r : ElRelease) (a : Reg) (s : State) : Out :=
  let i : Instr := .elapp r a
  issueEl i false [a] [a] s fun slots =>
    let q := s.core
    .ok (s.mapCore fun _ => q.addWork (q.elWork i (q.slot (slots.headD 0#4)).segs 0#64 0#64 (q.getX a)))

/-- ELDROP: the slot is free. -/
def execEldrop (a : Reg) (s : State) : Out :=
  let i : Instr := .eldrop a
  issueEl i false [a] [a] s fun slots =>
    let q := s.core
    let k := slots.headD 0#4
    .ok (s.mapCore fun _ =>
      (q.setSlot k { q.slot k with state := .free, segs := [] }).addWork (q.elWork i [] 0#64 0#64 (q.getX a)))

def execEllen (d a : Reg) (s : State) : Out :=
  let i : Instr := .ellen d a
  issueEl i true [a] [a] s fun slots =>
    let q := s.core
    .ok (s.mapCore fun _ => q.addWork (q.elWork i (q.slot (slots.headD 0#4)).segs 0#64 0#64 (q.getX a)))

/-- ELGET: the local address of an entry, or 0 past the last. -/
def execElget (d a b : Reg) (s : State) : Out :=
  let i : Instr := .elget d a b
  issueEl i true [a, b] [a] s fun slots =>
    let q := s.core
    let es := segEntries (q.slot (slots.headD 0#4)).segs
    let v : Word := if (q.getX b).toNat < es.length then BitVec.ofNat 64 (2 ^ 63 + es.getD (q.getX b).toNat 0) else 0#64
    .ok (s.mapCore fun _ => q.addWork (q.elWork i [] v 0#64 (q.getX a)))

/-! ### The unit's next part -/

/-- How the next part of the unit's head ends. -/
inductive ElPart where
  | made (s : State)
  | waits
  | stops (t : Trap) (s : State)

/-- A trap of the unit: the address, then the handle and the index of the entry (R349). -/
def ElWork.trap (w : ElWork) (cause : BitVec 5) (a : Word) (index : Nat) (code : Word) : Trap :=
  .plain cause a (w.handle.setWidth 64 ||| BitVec.ofNat 64 index <<< 16) code

def Core.setWork (c : Core) (w : ElWork) : Core := { c with work := w :: c.work.tail }

/-- The head's work is done: it leaves its class, and a waiting WFE sees that (R409). -/
def Core.endWork (c : Core) : Core := ({ c with work := c.work.tail }.settleFences).see 4#5

/-- The local address of the first poisoned 8-byte word among n scratchpad bytes. -/
def Core.poisonedWord (c : Core) (o n : Nat) : Option Word :=
  ((List.range (n / 8 + 1)).find? fun i => c.scratchPoisoned (o / 8 * 8 + 8 * i) 8 && 8 * i + o / 8 * 8 < o + n).map fun i =>
    BitVec.ofNat 64 (2 ^ 63 + o / 8 * 8 + 8 * i)

/-- The storage of an entry is poisoned where the unit reads it: its fields, and the data of a live entry that it writes. -/
def Core.entryPoison (c : Core) (o : Nat) (withData : Bool) : Option Word :=
  (c.poisonedWord o 16).or (if withData && (c.entryAt o).live then c.poisonedWord (o + 16) (c.entryAt o).size else none)

/-- Translate for ELAPP, a demand page being filled where hardware mode does so. -/
def State.elTranslate (s : State) (a : Word) : State × Except Trap Page :=
  match s.translate s.core.ctx a .write with
  | (s, .error t) =>
    if t.cause = 10#5 && (s.pkg.ctx s.core.ctx).hardware 0 then
      match s.demandFill a with
      | (f, true) => f.translate f.core.ctx a .write
      | (f, false) => (f, .error t)
    else (s, .error t)
  | r => r

/-- Bytes of an entry at a place in one line, but for those that a later store of the core has written (R347). -/
def State.elWrite (s : State) (w : ElWork) (a : Nat) (pg : Option Page) (bs : List Byte) : State :=
  let who : Writer := .instr s.core.num w.order
  let loc := match pg with
    | none => s.core.locOf (a % 2 ^ 22)
    | some pg => pg.pa a
  let later := fun (i : Nat) => w.later.contains (loc + i) || pg.isNone && w.later.contains (scratchLoc (a % 2 ^ 22 + i))
  let write := fun (s : State) (a : Nat) (bs : List Byte) =>
    match pg with
    | none => s.writeLocal who (a % 2 ^ 22) bs
    | some _ => s.enginePut who a pg bs
  if (List.range bs.length).any later then
    bs.zipIdx.foldl (fun s e => if later e.2 then s else write s (a + e.2) [e.1]) s
  else write s a bs

/-- The operation that stands for a write of an entry's bytes in the order of R288. -/
def State.elOp (s : State) (w : ElWork) (pa size : Nat) (rel : Option Scope) : GOp :=
  { s.core.newOp 0 .store with pc := w.pc, order := w.order, pa := pa, size := size, release := rel }

/-- The places of an entry's bytes in the scratchpad, or the trap that stops the unit there. -/
def State.elLocal (s : State) (w : ElWork) (e : Entry) (index : Nat) : Except Trap (List (Nat × Option Page)) :=
  if Config.scratchBytes < e.addr + e.size then .error (w.trap 6#5 e.address index 0#64)
  else
    let cut := pieces 64 e.addr 2 e.size
    match cut.find? fun p => (s.core.windowAt p.1).any fun h => !s.core.lineWritable h.1 h.2 with
    | some p => .error (w.trap 11#5 (BitVec.ofNat 64 (2 ^ 63 + p.1)) index 2#64)
    | none => .ok (cut.map fun p => (p.1, none))

/-- The places of an entry's bytes in global memory, or the trap that stops the unit there. -/
def State.elGlobal (s : State) (w : ElWork) (e : Entry) (index : Nat) : State × Except Trap (List (Nat × Option Page)) :=
  (piecesOf e.address e.size).foldl (fun (acc : State × Except Trap (List (Nat × Option Page))) p =>
    match acc with
    | (s, .error t) => (s, .error t)
    | (s, .ok l) =>
      match s.elTranslate (BitVec.ofNat 64 p.1) with
      | (s, .error t) => (s, .error (w.trap t.cause t.info0 index t.info2))
      | (s, .ok pg) => (s, .ok (l ++ [(p.1, some pg)]))) (s, .ok [])

/-- A write at a place of memory, or at one of a window's line, must wait: for an earlier operation of the core, for a line that
another core keeps, or for the link to another package (R28, R281, R347, R428). -/
def State.elWaits (s : State) (w : ElWork) (rel : Option Scope) (a n : Nat) (pg : Option Page) : Bool :=
  let earlier := s.core.ops.filter fun o => o.order < w.order
  let pa := match pg with
    | some pg => some (pg.pa a)
    | none => (s.core.windowAt a).map fun (h : Nat × Nat) => s.core.windowPa h.1 a
  (pa.any fun pa => heldBack (s.elOp w pa n rel) earlier) || s.lineKept (s.core.meets a pg)
    || pg.any fun g => s.pkg.linkFull (g.pa a)

/-- Write one entry, whole. -/
def State.elApply (s : State) (w : ElWork) (index off : Nat) (rel : Option Scope) : ElPart :=
  let e := s.core.entryAt off
  let bs := s.core.scratch.bytes (off + 16) e.size
  let places := if e.isLocal then (s, s.elLocal w e index) else s.elGlobal w e index
  match places with
  | (s, .error t) => .stops t s
  | (s, .ok l) =>
    let part := fun (a : Nat) => min (64 - a % 64) (e.size - (a - (l.headD (0, none)).1))
    if l.any fun p => s.elWaits w rel p.1 (part p.1) p.2 then .waits
    else
      let t := l.foldl (fun (x : State × List Byte) p =>
        (x.1.elWrite w p.1 p.2 (x.2.take (64 - p.1 % 64)), x.2.drop (64 - p.1 % 64))) (s, bs)
      .made (t.1.mapCore fun c => c.bump 45 1)

/-- The last live global entry of a list, counted from 1; 0 for none. -/
def Core.lastGlobal (c : Core) (es : List Nat) : Nat :=
  es.zipIdx.foldl (fun n e => if (c.entryAt e.1).live && !(c.entryAt e.1).isLocal then e.2 + 1 else n) 0

/-- The next part of an ELAPP: the entries in list order, the one that carries a release last (R348). -/
def State.elAppPart (s : State) (w : ElWork) (r : ElRelease) (es : List Nat) : ElPart :=
  let scope := match r with
    | .plain => none
    | .rel sc => some sc
  if scope.isSome && w.malformed = 0 then
    .made (s.mapCore fun c => c.setWork { w with live := c.lastGlobal es, malformed := 1 })
  else if w.done < es.length then
    let off := es.getD w.done 0
    let next := fun (s : State) => s.mapCore fun c => c.setWork { w with done := w.done + 1 }
    if scope.isSome && w.live = w.done + 1 then .made (next s)
    else
      match s.core.entryPoison off true with
      | some a => .stops (w.trap 19#5 a w.done 0#64) s
      | none =>
        if !(s.core.entryAt off).live then .made (next s)
        else
          match s.elApply w w.done off none with
          | .made s => .made (next s)
          | p => p
  else if scope.isSome && w.live != 0 then
    let index := w.live - 1
    match s.core.entryPoison (es.getD index 0) true with
    | some a => .stops (w.trap 19#5 a index 0#64) s
    | none =>
      if !(s.core.entryAt (es.getD index 0)).live then .made (s.mapCore fun c => c.setWork { w with live := 0 })
      else
        match s.elApply w index (es.getD index 0) scope with
        | .made s => .made (s.mapCore fun c => c.setWork { w with live := 0 })
        | p => p
  else .made (s.mapCore Core.endWork)

/-- A part over one entry that reads and may change its fields. -/
def State.elEntryPart (s : State) (w : ElWork) (es : List Nat) (f : Entry → Entry) (g : Entry → ElWork → ElWork)
    (last : Core → Core) : ElPart :=
  if w.done < es.length then
    let off := es.getD w.done 0
    match s.core.entryPoison off false with
    | some a => .stops (w.trap 19#5 a w.done 0#64) s
    | none =>
      if (pieces 64 off 3 entrySize).any fun p => s.lineKept (s.core.windowAt p.1) then .waits
      else
        let e := s.core.entryAt off
        let s := if f e = e then s else s.writeLocal (.instr s.core.num w.order) off (f e).bytes
        .made (s.mapCore fun c => c.setWork (g e { w with done := w.done + 1 }))
  else .made (s.mapCore fun c => (last c).endWork)

/-- The counts of ELLEN. -/
def ElWork.counts (w : ElWork) (total : Nat) : Word := BitVec.ofNat 64 (w.live + total * 2 ^ 16 + w.malformed * 2 ^ 32)

/-- The next part of the unit's head. -/
def State.elPart (s : State) (w : ElWork) : ElPart :=
  let es := segEntries w.segs
  match w.instr with
  | .elcat d _ _ => .made (s.mapCore fun c => (c.lateX w.order d w.b).endWork)
  | .elget d _ _ => .made (s.mapCore fun c => (c.lateX w.order d w.b).endWork)
  | .elapp r _ => s.elAppPart w r es
  | .elflt .. => s.elEntryPart w es (fun e => e.filtered w.b w.c) (fun _ w => w) id
  | .elrbs .. => s.elEntryPart w es (fun e => e.rebased w.b w.c) (fun _ w => w) id
  | .ellen d _ =>
    s.elEntryPart w es id (fun e w =>
      if e.malformed then { w with malformed := w.malformed + 1 } else if e.void then w else { w with live := w.live + 1 })
      fun c => c.lateX w.order d (w.counts es.length)
  | _ => .made (s.mapCore Core.endWork)

/-- The unit's head with its next part, unless it is stopped or its die is halted. -/
def State.elNext (s : State) : Option (ElWork × ElPart) :=
  match s.core.work with
  | w :: _ => if w.stopped || !s.engineRuns then none else some (w, s.elPart w)
  | [] => none

def State.elUnit (s : State) : State :=
  match s.elNext with
  | some (_, .made t) => t
  | _ => s

def execElUnitWork (core : Nat) (s : State) : Out := .next (s.onCore core State.elUnit)

/-- The unit's head stops; its trap is a late completion of the instruction (R349, R388). -/
def State.elStopped (s : State) : State :=
  match s.elNext with
  | some (w, .stops t u) => u.mapCore fun c => (c.setWork { w with stopped := true }).pend ⟨6, w.order, t, .el⟩
  | _ => s

def execElStop (core : Nat) (s : State) : Out := .next (s.onCore core State.elStopped)

/-- The handle of a closed call reaches x5 (R345). -/
def State.writeHandle (s : State) : State :=
  match s.core.ops.findIdx? fun o => o.kind == .handle with
  | none => s
  | some k =>
    match s.ready k with
    | none => s
    | some o => s.mapCore fun c => (c.finishOp k).lateX o.order o.dst o.data

def execListHandleWrite (core : Nat) (s : State) : Out := .next (s.onCore core State.writeHandle)

end Sys2Proof.Machine
end

