-- ==== Sys2Proof/Machine/Launch.lean ====
section
/-! DEFINITION. Continuation records and queues (R240, R241, R247), launches (R249 to R252, R254), SPAWN and LAUNCH (R266 to
R268), and the steps in which pushes and packets are accepted (R424). -/

namespace Sys2Proof.Machine

/-! ### Records (R240, R241) -/

/-- The fields of a continuation record as its 32 bytes give them. -/
structure RecImage where
  code : Word
  frame : Word
  join : Word
  prio : Nat
  affinity : Nat
  flags : Nat
  index : BitVec 32

def recImage (r : BitVec 256) : RecImage where
  code := r.extractLsb' 0 64
  frame := r.extractLsb' 64 64
  join := r.extractLsb' 128 64
  prio := fieldNat r 192 8
  affinity := fieldNat r 200 8
  flags := fieldNat r 208 16
  index := r.extractLsb' 224 32

def RecImage.record (r : RecImage) : ContRec :=
  ⟨r.code, r.frame, r.join, BitVec.ofNat 2 r.prio, BitVec.ofNat 8 r.affinity, r.index⟩

/-- The affinity byte names a core or a die that can run the context's strands, or none. -/
def Package.affinityOk (p : Package) (ctx aff : Nat) : Bool :=
  if aff < 0x80 then p.serves aff && p.inPart (p.ctx ctx).part aff
  else if aff < 0x88 then (p.gangPartition ctx).any fun c => dieOf c == aff - 0x80
  else aff == 0xFF

/-- The code of R250 that refuses a record, alignment first, then priority and flags, then affinity (assumption 22). -/
def Package.recordCode (p : Package) (ctx : Nat) (r : RecImage) : Option Nat :=
  if r.code.toNat % 8 != 0 || r.join.toNat % 32 != 0 then some 0x13
  else if 3 < r.prio || r.flags != 0 then some 0x11
  else if !p.affinityOk ctx r.affinity then some 0x14
  else none

/-! ### Queues (R247, R248) -/

def Context.queue (c : Context) (l : BitVec 2) : List ContRec := c.queues[l.toNat]'l.isLt

def Context.setQueue (c : Context) (l : BitVec 2) (q : List ContRec) : Context :=
  { c with queues := c.queues.set l.toNat q l.isLt }

/-- Push records onto the queue of a priority as one step; none when it lacks the room. -/
def Package.pushRecords (p : Package) (ctx : Nat) (l : BitVec 2) (rs : List ContRec) : Option Package :=
  let c := p.ctx ctx
  if (c.queue l).length + rs.length ≤ c.cqcap then some (p.setCtx ctx fun c => c.setQueue l (c.queue l ++ rs)) else none

/-! ### Packets (R249, R250) -/

def pktKind (k : Line) : Nat := fieldNat k 0 8
def pktPrio (k : Line) : Nat := fieldNat k 8 8
def pktAffinity (k : Line) : Nat := fieldNat k 16 8
def pktN (k : Line) : Nat := fieldNat k 32 32
def pktCode (k : Line) : Word := k.extractLsb' 64 64
def pktFrame (k : Line) : Word := k.extractLsb' 128 64
def pktStride (k : Line) : Word := k.extractLsb' 192 64
def pktJoin (k : Line) : Word := k.extractLsb' 256 64
def pktGuard (k : Line) : Nat := fieldNat k 320 32
def pktStatus (k : Line) : Word := k.extractLsb' 384 64
def pktStamp (k : Line) : Nat := fieldNat k 448 64

/-- P, at least 1. -/
def pktPackages (k : Line) : Nat := max 1 (fieldNat k 24 8)

/-- The ranks that one package runs. -/
def pktPart (k : Line) : Nat := pktN k / pktPackages k

def pktFrameOf (k : Line) (i : Nat) : Word := pktFrame k + BitVec.ofNat 64 i * pktStride k

/-- The record that strand or rank i of a packet runs. -/
def pktRecord (k : Line) (i : Nat) : ContRec :=
  ⟨pktCode k, pktFrameOf k i, pktJoin k, BitVec.ofNat 2 (pktPrio k), BitVec.ofNat 8 (pktAffinity k), BitVec.ofNat 32 i⟩

/-- This package runs members of the gang (R254). -/
def Package.takesPart (p : Package) (k : Line) : Bool := pktPackages k == 1 || p.position < pktPackages k

def noRepeats : List Nat → Bool
  | [] => true
  | a :: r => !r.contains a && noRepeats r

/-- The cores of the package's m ranks: by coordinate order, or by the partition's placement table (R252). -/
def State.placement (s : State) (ctx m : Nat) : Option (List Nat) :=
  let serving := s.pkg.gangPartition ctx
  let x := s.pkg.ctx ctx
  let table := partTable (s.pkg.partition x.part)
  if serving.length < m then none
  else if x.hardware 1 || table = 0 then some (serving.take m)
  else
    let bytes := (pieces 64 table 4 m).map fun p => s.lookHome p.1 p.2 0#6
    let cores := ((bytes.map fun r => r.1).flatten).map BitVec.toNat
    if (bytes.any fun r => r.2) || (cores.any fun c => !serving.contains c) || !noRepeats cores then none else some cores

/-- The device reads the placement table of a gang: lines that the host holds modified come back, and an address that no decoder
covers brings its event (R298, R425). -/
def State.readPlacement (s : State) (ctx : Nat) (k : Line) : State :=
  let table := partTable (s.pkg.partition (s.pkg.ctx ctx).part)
  if pktKind k != 2 || !s.pkg.takesPart k || (s.pkg.ctx ctx).hardware 1 || table = 0
    || (s.pkg.gangPartition ctx).length < pktPart k then s
  else (pieces 64 table 4 (pktPart k)).foldl (fun s p => (s.recall (p.1 / 64)).mapPkg fun q => q.undecoded ctx p.1) s

/-- A package that runs members of a gang has too few serving cores for its part, as this package finds it (R250). -/
def State.partTooLarge (s : State) (ctx : Nat) (k : Line) : Bool :=
  (s.pkg.takesPart k && (s.placement ctx (pktPart k)).isNone)
    || (1 < pktPackages k && (List.range (pktPackages k)).any fun q =>
      q != s.pkg.position && Config.remoteServing q ctx s.pkg.now < pktPart k)

/-- The code that refuses a packet, but for a full queue, in the order of R250. -/
def State.packetCode (s : State) (ctx : Nat) (k : Line) (stampZero : Bool) : Option Nat :=
  let gang := pktKind k == 2
  if pktKind k != 1 && !gang then some 0x10
  else if 3 < pktPrio k || fieldNat k 352 32 != 0 || (stampZero && pktStamp k != 0) then some 0x11
  else if 64 < pktPackages k || (1 < pktPackages k && (!gang || s.pkg.packages < pktPackages k)) then some 0x16
  else if (pktCode k).toNat % 8 != 0 || (pktJoin k).toNat % 32 != 0 || (pktStatus k).toNat % 8 != 0 then some 0x13
  else if (if gang then pktAffinity k != 0xFF else !s.pkg.affinityOk ctx (pktAffinity k)) then some 0x14
  else if pktN k == 0 || (gang && (pktN k % pktPackages k != 0 || s.partTooLarge ctx k)) then some 0x12
  else none

/-! ### The launch status (R250) -/

/-- Translate an address of a context for a hub, which holds no translations. -/
def State.hubTranslate (s : State) (ctx : Nat) (va : Word) (acc : Acc) : State × Except Trap Page :=
  if 2 ^ 57 ≤ va.toNat then (s, .error (.plain 9#5 va 0#64 acc.code))
  else
    ((s.walkFor ctx va.toNat).1.foldl (fun t a => (t.recall (a / 64)).reachFor ctx a) s,
      match s.checkWalk ctx va acc with
      | .error t => .error t
      | .ok pg => checkPerm va acc pg)

/-- The word of a status: a code below the low 56 bits of a tick. -/
def statusWord (code tick : Nat) : Nat := code + 256 * (tick % 2 ^ 56)

/-- Write the launch status of a packet; event 0x17 when its address does not let it be written. -/
def State.writeStatus (s : State) (ctx : Nat) (k : Line) (code tick : Nat) : State :=
  let a := pktStatus k
  if a = 0#64 || a.toNat % 8 != 0 then s
  else
    match s.hubTranslate ctx a .write with
    | (s, .error _) => s.mapPkg fun p => p.raise 0x17 ctx
    | (s, .ok pg) =>
      let pa := pg.pa a.toNat
      ((s.recall (pa / 64)).reachFor ctx pa).put .other pa (natBytes 8 (statusWord code tick)) pg.key

/-! ### Acceptance (R250 to R254) -/

/-- The members of the package's part, by rank. -/
def Package.partMembers (p : Package) (k : Line) (cores : List Nat) : List Member :=
  let first := if pktPackages k = 1 then 0 else p.position * pktPart k
  cores.zipIdx.map fun c => ⟨first + c.2, c.1, .reserved⟩

/-- Reserve the cores of a gang's part, which starts at a tick (R253). -/
def State.reserveGang (s : State) (ctx : Nat) (k : Line) (start : Nat) (late : Bool) : State :=
  match s.placement ctx (pktPart k) with
  | none => s
  | some cores =>
    s.mapPkg fun p => { p with
      gangs := p.gangs ++ [⟨p.gangId, ctx, k, start, late, 0, p.partMembers k cores, []⟩]
      gangId := p.gangId + 1 }

/-- The packet with its acceptance tick, sent to the other packages (R254; assumption 23 for the port). -/
def Package.forward (p : Package) (ctx : Nat) (k : Line) : Package :=
  let stamped := setBytes k 56 (natBytes 8 (p.tick % 2 ^ 64))
  { p with slathen := p.slathen.map fun l => l.send (.launch ctx stamped) }

/-- A packet that passed its checks is accepted; false when the spread's queue is full. -/
def State.takePacket (s : State) (ctx : Nat) (k : Line) : State × Bool :=
  if pktKind k = 1 then
    match s.pkg.pushRecords ctx (BitVec.ofNat 2 (pktPrio k)) ((List.range (pktN k)).map (pktRecord k)) with
    | none => (s, false)
    | some p => ({ s with pkg := p }.writeStatus ctx k 1 s.pkg.tick, true)
  else
    let t := s.pkg.tick
    let s := if s.pkg.takesPart k then s.reserveGang ctx k (t + pktGuard k) false else s
    (if pktPackages k = 1 then s else s.mapPkg fun p => p.forward ctx k, true)

/-- A packet written to a launch window: accepted, or the code that refuses it, its status written in either case. -/
def State.launchWrite (s : State) (ctx : Nat) (k : Line) : State × Option Nat :=
  let s := s.readPlacement ctx k
  match s.packetCode ctx k true with
  | some code => (s.writeStatus ctx k code s.pkg.tick, some code)
  | none =>
    match s.takePacket ctx k with
    | (s, true) => (s, none)
    | (s, false) => (s.writeStatus ctx k 0x15 s.pkg.tick, some 0x15)

/-! ### SPAWN and LAUNCH (R266, R267) -/

/-- A launch error at a SPAWN or LAUNCH (R390). -/
def launchTrap (code : Nat) (pc : Word) : Trap := .plain 27#5 (BitVec.ofNat 64 code) pc 0#64

/-- The scope at which a packet is released (R251). -/
def launchScope (k : Line) : Scope := if pktKind k = 2 && 1 < pktPackages k then .fabric else .package

/-- LAUNCH's translation of a status address that is nonzero and aligned. -/
def launchStatusPage (k : Line) (s : State) : Res (Option Page × State) :=
  let a := pktStatus k
  if a = 0#64 || a.toNat % 8 != 0 then .ok (none, s)
  else if isLocal a then .error (.trapAt (.plain 9#5 a 0#64 2#64) s)
  else
    match s.translate s.core.ctx a .write with
    | (s, .error t) => .error (.trapAt t s)
    | (s, .ok pg) => .ok (some pg, s)

/-- LAUNCH writes the status of a packet that it refuses: a store of its core that releases its earlier writes. -/
def State.refuseStatus (s : State) (k : Line) (code : Nat) (page : Option Page) : State :=
  match page with
  | none => s
  | some pg =>
    let a := pktStatus k
    s.addOp { s.core.newOp s.pkg.serial .store with
      page := some pg, va := a, pa := pg.pa a.toNat, size := 8
      data := BitVec.ofNat 64 (statusWord code (Config.ticksOf s.core.time)), release := some .package }

/-! ### Steps -/

/-- A late launch error of the operation (R266, R268). -/
def Core.pendLaunch (c : Core) (o : GOp) (code : Nat) : Core := c.pend ⟨6, o.order, launchTrap code o.pc, .none⟩

/-- The record of a SPAWN is pushed, or refused by a full queue. -/
def State.spawnMade (s : State) (k : Nat) (o : GOp) : State :=
  match o.kind with
  | .spawn r =>
    let s := s.mapCore fun c => c.finishOp k
    let rec_ := (recImage r).record
    match s.pkg.pushRecords s.core.ctx rec_.prio [rec_] with
    | some p => { s with pkg := p }
    | none => s.mapCore fun c => c.pendLaunch o 0x15
  | _ => s

def State.spawnStep (s : State) (k : Nat) : State :=
  match s.ready k with
  | none => s
  | some o => s.spawnMade k o

def execSpawnPush (core k : Nat) (s : State) : Out := .next (s.onCore core fun t => t.spawnStep k)

/-- The packet of a LAUNCH reaches the window of its context; one of a context that is not valid is discarded (R424,
R447). -/
def State.launchMade (s : State) (k : Nat) (o : GOp) : State :=
  match o.kind with
  | .launch packet =>
    if !(s.pkg.ctx s.core.ctx).valid then
      (s.mapCore fun c => c.finishOp k).mapPkg fun p => p.raise 0x10 s.core.ctx
    else match (s.mapCore fun c => c.finishOp k).launchWrite s.core.ctx packet with
    | (s, none) => s
    | (s, some code) => s.mapCore fun c => c.pendLaunch o code
  | _ => s

def State.launchStep (s : State) (k : Nat) : State :=
  match s.ready k with
  | none => s
  | some o => s.launchMade k o

/-- A host write to the launch window of a context (R424). -/
def State.hostLaunch (s : State) (ctx offset : Nat) (data : List Byte) : State :=
  if !s.pkg.hostPort.up || s.pkg.recovery || 64 ≤ ctx || 4096 ≤ offset then s
  else if data.length != 64 || offset % 64 != 0 || !(s.pkg.ctx ctx).valid then s.mapPkg fun p => p.raise 0x10 ctx
  else
    match s.launchWrite ctx (BitVec.ofNat 512 (leNat data)) with
    | (s, none) => s
    | (s, some _) => s.mapPkg fun p => p.raise 0x10 ctx

def execLaunchWindowWrite (w : LaunchWrite) (s : State) : Out :=
  .next (match w with
    | .host ctx offset data => s.hostLaunch ctx offset data
    | .core core k => s.onCore core fun t => t.launchStep k)

/-- The port whose accepted flit carries the packet that arrives next. -/
def Package.carrier (p : Package) : Option Nat := p.slathen.toList.findIdx? fun l => l.carried != 0

def SlathenPort.deliver (l : SlathenPort) : SlathenPort := { l with carried := l.carried - 1 }

/-- A packet of a gang that another package accepted (R254). -/
def State.gangStart (s : State) (ctx : Nat) (k : Line) : State :=
  let start := pktStamp k + pktGuard k
  if !(s.pkg.ctx ctx).valid then s.mapPkg fun p => p.raise 0x10 ctx
  else if !s.pkg.takesPart k then s
  else
    let s := s.readPlacement ctx k
    if (s.placement ctx (pktPart k)).isNone then s.writeStatus ctx k 0x12 s.pkg.tick
    else s.reserveGang ctx k (max start s.pkg.tick) (start < s.pkg.tick)

/-- Its arrival: it comes in a flit that a Slathen port has accepted, once (R399, R428). -/
def State.gangArrive (s : State) (ctx : Nat) (k : Line) : State :=
  match s.pkg.carrier with
  | none => s
  | some n => (s.mapPkg fun p => { p with slathen := p.slathen.zipIdx.map fun l => if l.2 = n then l.1.deliver else l.1 }).gangStart ctx k

def execGangPacketArrival (ctx : Nat) (packet : Line) (s : State) : Out := .next (s.gangArrive ctx packet)

end Sys2Proof.Machine
end

