-- ==== Sys2Proof/Machine/Groups.lean ====
section
/-! DEFINITION. Groups of a gang (R255, R256): GJOIN, GLEAVE, GBAR, GSIZE, GRANK (R270 to R273) and the step at a group's
home. What the members of a gang on other packages do is a free value (assumption 24). -/

namespace Sys2Proof.Machine

/-! ### Issue -/

/-- The identifier that a group operand gives. -/
def groupId (c : Core) : GroupOperand → Word
  | .imm n => n.setWidth 64
  | .reg a => c.getX a

def groupRegs : GroupOperand → List Reg
  | .imm _ => []
  | .reg a => [a]

def groupTrap (code : Nat) (ident : Word) : Trap := .plain 18#5 (BitVec.ofNat 64 code) ident 0#64

/-- The strand is a member of a group, by its own earlier operations (R273). -/
def Core.inGroup (c : Core) (g : Word) : Bool := c.groups.getLsbD (g.toNat % 64)

def Core.gangOf (c : Core) : Option Nat := c.strand.bind fun t => t.gang

/-- Which membership an operation needs: none, not a member, or a member. -/
inductive Membership where
  | any | outside | inside
deriving DecidableEq, Repr

/-- The checks of R273, in the order of their codes. -/
def checkGroup (c : Core) (g : Word) (need : Membership) : Res Unit :=
  if c.gangOf.isNone then .trap (groupTrap 1 g)
  else if 63 < g.toNat then .trap (groupTrap 2 g)
  else
    match need with
    | .any => .ok ()
    | .outside => if c.inGroup g then .trap (groupTrap 3 g) else .ok ()
    | .inside => if c.inGroup g then .ok () else .trap (groupTrap 4 g)

/-- The scope of a gang's operations (R271). -/
def State.gangScope (s : State) : Scope :=
  match s.core.gangOf.bind fun id => s.pkg.gangs.find? fun g => g.id == id with
  | some g => launchScope g.packet
  | none => .package

def Core.setGroup (c : Core) (g : Nat) (b : Bool) : Core :=
  { c with groups := if b then c.groups ||| (1#64 <<< g) else c.groups &&& ~~~(1#64 <<< g) }

def execGjoin (g : GroupOperand) (s : State) : Out :=
  let i : Instr := .gjoin g
  issue s fun s => do
    s.core.roomS i
    s.core.useX (groupRegs g)
    notCollecting i s.core
    let n := groupId s.core g
    checkGroup s.core n .outside
    .ok ((s.addOp (s.core.newOp s.pkg.serial (.gjoin n.toNat))).mapCore fun c => c.setGroup n.toNat true)

def execGleave (g : GroupOperand) (s : State) : Out :=
  let i : Instr := .gleave g
  issue s fun s => do
    s.core.roomS i
    s.core.useX (groupRegs g)
    notCollecting i s.core
    let n := groupId s.core g
    checkGroup s.core n .inside
    .ok ((s.addOp { s.core.newOp s.pkg.serial (.gleave n.toNat) with release := some s.gangScope }).mapCore fun c =>
      c.setGroup n.toNat false)

/-- The GBAR at pc whose arrival is recorded (R272). -/
def Core.waitingBar (c : Core) : Option GbarRec := c.gbar.find? fun r => r.pc == some c.pc && r.super == c.super

/-- GBAR: the arrival is sent once, and then the instruction waits for its episode (R272). -/
def execGbar (g : GroupOperand) (s : State) : Out :=
  let i : Instr := .gbar g
  issue s fun s => do
    s.core.useX (groupRegs g)
    notCollecting i s.core
    match s.core.waitingBar with
    | some r => if r.finished then .ok (s.mapCore Core.observeShown) else .error (.wait .group s)
    | none => arrive s
where
  arrive (s : State) : Res State := do
    let n := groupId s.core g
    checkGroup s.core n .inside
    let t := s.addOp { s.core.newOp s.pkg.serial (.gbar n.toNat) with release := some s.gangScope }
    Except.error (Stop.wait .group (t.mapCore fun c => { c with gbar := c.gbar ++ [⟨some c.pc, n.toNat, c.super, false⟩] }))

def execGsize (d : Reg) (g : GroupOperand) (s : State) : Out :=
  let i : Instr := .gsize d g
  issue s fun s => do
    s.core.roomG i
    s.core.useX (groupRegs g)
    let n := groupId s.core g
    checkGroup s.core n .any
    .ok (s.addOp { s.core.newOp s.pkg.serial (.gsize n.toNat) with dst := d })

def execGrank (d : Reg) (g : GroupOperand) (s : State) : Out :=
  let i : Instr := .grank d g
  issue s fun s => do
    s.core.roomG i
    s.core.useX (groupRegs g)
    let n := groupId s.core g
    checkGroup s.core n .inside
    .ok (s.addOp { s.core.newOp s.pkg.serial (.grank n.toNat) with dst := d })

/-! ### The home (R255, R256, R270) -/

def insertRank (l : List Nat) (r : Nat) : List Nat := insertNat l r

/-- The group after the open episode has completed, if it has, with the ranks whose GBAR finishes; held arrivals then open
the next episode. -/
def Group.settleOnce (g : Group) : Group × List Nat :=
  match g.awaited with
  | some [] =>
    let done := { g with awaited := none, arrived := [], next := [] }
    if g.next.isEmpty then (done, g.arrived)
    else ({ done with awaited := some (g.members.filter fun r => !g.next.contains r), arrived := g.next }, g.arrived)
  | _ => (g, [])

/-- Two episodes may complete together: an open one, and the next when its members have all arrived. -/
def Group.settle (g : Group) : Group × List Nat :=
  let a := g.settleOnce
  let b := a.1.settleOnce
  (b.1, a.2 ++ b.2)

def Group.join (g : Group) (r : Nat) : Group := { g with members := insertRank g.members r }

/-- A leave counts as an arrival. -/
def Group.leave (g : Group) (r : Nat) : Group × List Nat :=
  Group.settle { g with
    members := g.members.filter fun x => x != r
    awaited := g.awaited.map fun l => l.filter fun x => x != r }

/-- An arrival opens an episode, counts in the open one, or is held for the next. -/
def Group.arrive (g : Group) (r : Nat) : Group × List Nat :=
  Group.settle (match g.awaited with
    | none => { g with awaited := some (g.members.filter fun x => x != r), arrived := [r] }
    | some l =>
      if l.contains r then { g with awaited := some (l.filter fun x => x != r), arrived := insertRank g.arrived r }
      else { g with next := insertRank g.next r })

def Gang.group (g : Gang) (n : Nat) : Group := (g.groups.find? fun x => x.id == n).getD ⟨n, [], none, [], []⟩

/-- Replace a group; one without members is dissolved. -/
def Gang.setGroup (g : Gang) (x : Group) : Gang :=
  let rest := g.groups.filter fun y => y.id != x.id
  { g with groups := if x.members.isEmpty then rest else rest ++ [x] }

def Package.gang (p : Package) (id : Nat) : Option Gang := p.gangs.find? fun g => g.id == id

def Package.setGang (p : Package) (g : Gang) : Package :=
  { p with gangs := p.gangs.map fun x => if x.id = g.id then g else x }

/-- The rank of a core's strand in its gang. -/
def Gang.rankOf (g : Gang) (core : Nat) : Nat :=
  ((g.members.find? fun m => m.core == core && m.state == .running).map fun m => m.rank).getD 0

/-- The first arrival of a group that still waits finishes; one that its strand left behind is gone. -/
def finishBar (group : Nat) : List GbarRec → List GbarRec
  | [] => []
  | r :: l =>
    if r.group = group && !r.finished then (if r.pc.isNone then l else { r with finished := true } :: l)
    else r :: finishBar group l

/-- The GBAR of a core's strand in a group finishes. -/
def Core.finishGbar (c : Core) (group : Nat) : Core := { c with gbar := finishBar group c.gbar }

/-- The GBARs of ranks in a group finish. -/
def State.finishBars (s : State) (g : Gang) (group : Nat) (ranks : List Nat) : State :=
  ranks.foldl (fun s r =>
    match g.members.find? fun m => m.state == .running && m.rank == r with
    | some m => s.onCore m.core fun t => t.mapCore fun c => c.finishGbar group
    | none => s) s

def State.applyGroup (s : State) (g : Gang) (x : Group × List Nat) : State :=
  (s.mapPkg fun p => p.setGang (g.setGroup x.1)).finishBars g x.1.id x.2

/-- An operation of a member on another package at the home of a gang: 0 joins, 1 leaves, 2 arrives (R255, R256). -/
def Gang.remoteOp (g : Gang) (o : Nat × Nat × Nat) : Option (Group × List Nat) :=
  let (r, n, kind) := o
  let x := g.group n
  if pktN g.packet ≤ r || 64 ≤ n || (g.members.any fun m => m.rank == r) then none
  else
    match kind, x.members.contains r with
    | 0, false => some (x.join r, [])
    | 1, true => some (x.leave r)
    | 2, true => some (x.arrive r)
    | _, _ => none

/-- What the members of a gang on other packages have done at its groups' homes meanwhile is a free value (assumption 24). -/
def State.othersAct (s : State) (id : Nat) : State :=
  match s.pkg.gang id with
  | none => s
  | some g =>
    if pktPackages g.packet = 1 then s
    else
      (Config.remoteGroupOps s.fresh).foldl (fun (s : State) o =>
        match (s.pkg.gang id).bind fun g => (g.remoteOp o).map fun x => (g, x) with
        | some (g, x) => s.applyGroup g x
        | none => s) { s with fresh := s.fresh + 1 }

/-- The home applies a group operation of rank r of a gang. -/
def State.groupApply (s : State) (g : Gang) (r : Nat) (o : GOp) : State :=
  match o.kind with
  | .gjoin n => s.applyGroup g ((g.group n).join r, [])
  | .gleave n => s.applyGroup g ((g.group n).leave r)
  | .gbar n => s.applyGroup g ((g.group n).arrive r)
  | .gsize n => s.mapCore fun c => c.lateX o.order o.dst (BitVec.ofNat 64 (g.group n).members.length)
  | .grank n => s.mapCore fun c =>
    c.lateX o.order o.dst (BitVec.ofNat 64 ((g.group n).members.filter fun x => x < r).length)
  | _ => s

/-- The home applies the operation at index k of the core in `core`. -/
def State.groupMade (s : State) (k : Nat) (o : GOp) : State :=
  match s.core.gangOf with
  | some id =>
    if o.kind.isGroup then
      let s := s.othersAct id
      match s.pkg.gang id with
      | none => s
      | some g => (s.mapCore fun c => c.finishOp k).groupApply g (g.rankOf s.core.num) o
    else s
  | none => s

def State.groupStep (s : State) (k : Nat) : State :=
  match s.ready k with
  | none => s
  | some o => s.groupMade k o

def execGroupOperationAtHome (core k : Nat) (s : State) : Out := .next (s.onCore core fun t => t.groupStep k)

/-- A strand leaves every group of its gang (R244 step 3). -/
def State.leaveGroups (s : State) : State :=
  match s.core.gangOf.bind s.pkg.gang with
  | none => s
  | some g =>
    let r := g.rankOf s.core.num
    let member := fun x : Group => x.members.contains r
    ((g.groups.filter member).foldl (fun (s : State) x =>
      match s.pkg.gang g.id with
      | some g => s.applyGroup g ((g.group x.id).leave r)
      | none => s) s).mapCore fun c => { c with groups := 0#64 }

end Sys2Proof.Machine
end

