-- ==== Sys2Proof/Machine/Invalidate.lean ====
section
/-! DEFINITION. TLBINV (R407), and the steps in which it and KEYSET (R411) complete. -/

namespace Sys2Proof.Machine

/-! ### TLBINV -/

/-- A held translation is one that a TLBINV drops. -/
def tlbMatches (kind : TlbKind) (ctx va : Nat) (pg : Page) : Bool :=
  match kind with
  | .page => pg.ctx == ctx && pg.covers va
  | .ctx => pg.ctx == ctx
  | .all => true

def execTlbinv (kind : TlbKind) (d a : Reg) (ctx : BitVec 6) (s : State) : Out :=
  let i : Instr := .tlbinv kind d a ctx
  superOnly i s (issue s fun s => do
    s.core.roomG i
    s.core.useX [a]
    .ok (s.addOp { s.core.newOp s.pkg.serial (.tlbinv kind ctx.toNat) with
      va := s.core.getX a, dst := d, release := some .package }))

/-- The held translations that a TLBINV drops are gone. -/
def Package.dropHeld (p : Package) (hit : Page → Bool) : Package := { p with held := p.held.filter fun pg => !hit pg }

/-- The pages whose in-flight counts the commands and windows of a core raise (R282, R310). -/
def Core.countedPages (c : Core) : List Page :=
  (c.commands.map fun m => m.pins ++ m.hold).flatten ++ ((c.wins.toList.filterMap id).map fun w => w.pages).flatten

/-- An access of a core used a dropped translation and has not been accepted. An access of the core itself that waits for
the register that a TLBINV writes is none of them. -/
def Core.usesDropped (c : Core) (hit : Page → Bool) (own : Option GOp) : Bool :=
  c.ops.any fun o => o.page.any hit && !(own.any fun t => sameTarget t o)

/-- A dropped translation is still used by a core that `who` names, or by a partial on its way. -/
def State.usesPages (s : State) (hit : Page → Bool) (own : GOp) (who : Core → Bool) : Bool :=
  (s.cores.any fun c => who c && (c.countedPages.any hit || c.usesDropped hit (if c.num = s.core.num then some own else none)))
    || s.pkg.partials.any fun q => hit q.page

/-- A TLBINV whose earlier operations are done drops its translations; it completes when nothing uses them any more. -/
def State.tlbStep (s : State) (k : Nat) : State :=
  match s.ready k with
  | none => s
  | some o =>
    match o.kind with
    | .tlbinv kind ctx =>
      let hit := tlbMatches kind ctx o.va.toNat
      let s := s.mapPkg fun p => p.dropHeld hit
      if s.usesPages hit o fun _ => true then s else s.mapCore fun c => (c.finishOp k).lateX o.order o.dst 1#64
    | _ => s

def execTlbinvComplete (core k : Nat) (s : State) : Out := .next (s.onCore core fun t => t.tlbStep k)

/-- A TLBINV of the core in `core` waits for a page that some cores use beside it (R407). -/
def State.tlbWaits (s : State) (who : Core → Bool) : Bool :=
  s.core.ops.any fun o => match o.kind with
    | .tlbinv kind c => s.usesPages (tlbMatches kind c o.va.toNat) o who
    | _ => false

/-- It waits for a page that another core uses, which no draining of this one releases. -/
def State.dropsShared (s : State) : Bool := s.tlbWaits fun c => c.num != s.core.num

/-- A TLBINV that is drained: its translations are gone (R391, R407). -/
def State.tlbMade (s : State) (k : Nat) (o : GOp) (kind : TlbKind) (ctx : Nat) : State :=
  (s.mapPkg fun p => p.dropHeld (tlbMatches kind ctx o.va.toNat)).mapCore fun c => (c.finishOp k).lateX o.order o.dst 1#64

/-! ### KEYSET -/

/-- From here on the identifier names the new pair. -/
def Package.setKey (p : Package) (key : BitVec 6) (pair : BitVec 512) : Package :=
  { p with keys := p.keys.set key.toNat pair key.isLt }

def State.keyMade (s : State) (k : Nat) (o : GOp) : State :=
  match o.kind with
  | .keyset key pair => { s with core := s.core.finishOp k, pkg := s.pkg.setKey key pair }
  | _ => s

def State.keyStep (s : State) (k : Nat) : State :=
  match s.ready k with
  | none => s
  | some o => s.keyMade k o

def execKeysetSwitchComplete (core k : Nat) (s : State) : Out := .next (s.onCore core fun t => t.keyStep k)

end Sys2Proof.Machine
end

