-- ==== Sys2Proof/Machine/Settle.lean ====
section
/-! DEFINITION. Outstanding operations that are made now, and the local accesses of a core to lines of its windows: such an
access cannot wait (R28), and what must precede it is made first (R125, R288, R347; assumption 13). -/

namespace Sys2Proof.Machine

/-! ### An operation made now -/

/-- The operation at index k is made, whatever would hold it. -/
def State.forceAt (s : State) (k : Nat) : State :=
  match s.core.ops[k]? with
  | none => s
  | some o =>
    let s := if o.size = 0 then s else s.recall (o.pa / 64)
    match o.kind with
    | .load _ | .amo .. | .cas .. | .barGen => s.completeLoad k o
    | .store | .writeback => s.acceptStore k o
    | .barInit | .barExp | .barArv => s.applyBarrier k o
    | .spawn _ => s.spawnMade k o
    | .launch _ => s.launchMade k o
    | .gjoin _ | .gleave _ | .gbar _ | .gsize _ | .grank _ => s.groupMade k o
    | .tlbinv kind ctx => s.tlbMade k o kind ctx
    | .keyset .. => s.keyMade k o
    | .handle => s.mapCore fun c => (c.finishOp k).lateX o.order o.dst o.data
    | .fence _ => s.mapCore fun c => c.finishOp k

/-- Parts that the draining of a core can take. -/
def Core.drainFuel (c : Core) : Nat :=
  2 * c.ops.length + (c.work.map fun w => (segEntries w.segs).length + 4).foldl (· + ·) 0 + 4

/-! ### What precedes an access -/

/-- The operations, in issue order, that must be done before a later one, by themselves or for another of them. -/
def chainTo (b : GOp) : List GOp → List GOp
  | [] => []
  | a :: r =>
    let n := chainTo b r
    if mustPrecede a b r || n.any fun c => mustPrecede a c (r.takeWhile fun x => x.order != c.order) then a :: n else n

/-- Operations that can be made at any moment: a TLBINV completes when nothing uses its pages (R407). -/
def GKind.makeable : GKind → Bool
  | .tlbinv .. => false
  | _ => true

/-- Some ELAPP must have written before an operation, or before one of those that precede it. -/
def State.elFirst (s : State) (b : GOp) (chain : List GOp) : Bool :=
  s.core.work.any fun w => s.elPrecedes b s.core.ops w
    || chain.any fun c => s.elPrecedes c (s.core.ops.takeWhile fun x => x.order != c.order) w

/-- What must precede an operation is made, in order. A unit that stands stopped is passed by (R349; assumption 32). -/
def State.settleFor (b : GOp) : Nat → State → State
  | 0, s => s
  | n + 1, s =>
    let chain := (chainTo b s.core.ops).filter fun o => o.kind.makeable
    let force := fun (l : List GOp) =>
      match l.head?.bind fun o => s.core.ops.findIdx? fun x => x.order == o.order with
      | some k => State.settleFor b n (s.forceAt k)
      | none => s
    if !s.core.elStands && s.elFirst b chain then
      match s.elNext with
      | some (_, .made t) => State.settleFor b n t
      | some (_, .stops _ _) => State.settleFor b n s.elStopped
      | _ => force (s.core.ops.filter fun o => o.kind.makeable)
    else force chain

/-! ### Local accesses -/

/-- Before an access of the core to n bytes at a scratchpad offset: where they lie in a window, what must precede it is made. -/
def State.settleAt (s : State) (kind : GKind) (o n : Nat) : State :=
  match s.core.windowAt o with
  | some (w, _) =>
    s.settleFor { s.core.newOp s.pkg.serial kind with pa := s.core.windowPa w o, size := n } s.core.drainFuel
  | none => s

def State.settleRead (s : State) (o n : Nat) : State := s.settleAt (.load .d) o n

def State.settleWrite (s : State) (o n : Nat) : State := s.settleAt .store o n

/-- Scratchpad bytes as the control core reads them: after what precedes the read, with what it may find of its engines' writes,
and a free value for each byte of the open list's storage (R125, R320, R341). -/
def State.readLocal (s : State) (o n : Nat) : List Byte × State :=
  let s := s.settleRead o n
  let (bs, s) := s.findLoad (s.core.locOf o) (s.core.scratch.bytes o n)
  let s := s.pinFound s.core.issued (s.core.locOf o) (foundCells bs (s.core.scratchCells o n))
  if s.core.inOpenStorage o n then
    let r := s.takeFree n
    ((bs.zip r.1).zipIdx.map fun b => if s.core.inOpenStorage (o + b.2) 1 then b.1.2 else b.1.1, r.2)
  else (bs, s)

/-- The n bytes at a scratchpad offset written by the control core, a stashed line becoming dirty. -/
def State.storeLocal (s : State) (o : Nat) (bs : List Byte) : State :=
  (s.settleWrite o bs.length).writeLocal (.instr s.core.num s.core.issued) o bs

end Sys2Proof.Machine
end

