-- ==== Sys2Proof/Machine/Access.lean ====
section
/-! DEFINITION. Scalar accesses of the control core to the scratchpad and to global memory (spec/06 LD, ST; spec/15): stash windows
met at issue (R43, R311), collected stores (R340, R341), loads, stores and atomic operations. -/

namespace Sys2Proof.Machine

/-- A global operation of the core on one of its own stashed lines is made at its issue, unless something earlier holds it
back: then it waits in its class like any other (R28, R125, R306; assumption 13). -/
def State.addOwn (s : State) (hit : Option (Nat × Nat)) (o : GOp) : State :=
  let t := s.addOp o
  if hit.isSome && !s.holds o s.core.ops then t.makeOwn s.core.ops.length { o with serial := s.pkg.serial } else t

/-! ### Entries of collected stores (R340, R341) -/

/-- Write an entry into the region: lines of an open window there are filled, and become dirty (R43, R341). -/
def State.putEntry (s : State) (a : Word) (data : List Byte) : State :=
  match s.core.opened with
  | none => s
  | some l =>
    let o := l.start + entrySize * l.count
    let bs := entryBytes a data
    let t := (pieces 64 o 3 entrySize).foldl (fun t p =>
      t.storeLocal p.1 ((bs.drop (p.1 - o)).take p.2)) s
    t.mapCore fun c => ({ c with opened := some { l with count := l.count + 1 } } : Core).bump 44 1

/-- The first line that n entries more would fill while another core keeps it stashed (R281). -/
def State.entryAwaits (s : State) (l : OpenList) (n : Nat) : Option (Nat × Nat) :=
  let o := l.start + entrySize * l.count
  ((pieces 64 o (2 * n + 2) (entrySize * n)).filterMap fun p => s.core.windowAt p.1).find? fun h => s.lineKept (some h)

/-- A collected store becomes its entries, made in a state from s, or raises the capacity fault in s (R340, R350). -/
def collect (items : List (Word × List Byte)) (s t : State) : Res State :=
  match s.core.opened with
  | none => .ok t
  | some l =>
    if s.core.capacity l < l.count + items.length then
      .error (.trapAt (.plain 15#5 1#64 (BitVec.ofNat 64 l.count) (BitVec.ofNat 64 items.length)) s)
    else
      match s.entryAwaits l items.length with
      | some h => .error (.wait (.stash h.1 h.2) s)
      | none => .ok (items.foldl (fun t e => t.putEntry e.1 e.2) t)

/-! ### Loads -/

/-- A local load of poisoned bytes that no collected store covers, or of poisoned bytes of one (R126, R342). -/
def checkUncovered (s : State) (a : Word) (o : Nat) (known : List (Option Byte)) (tainted : Bool) : Res Unit :=
  if tainted || known.zipIdx.any fun b => b.1.isNone && s.core.scratchPoisoned (o + b.2) 1 then
    .trap (.plain 19#5 a s.core.pc 0#64)
  else .ok ()

/-- What supplies the bytes of a global load that hits the core's own window: merged stores, and a free value for each byte of
the open list's storage (R341). -/
def State.coverOpen (s : State) (hit : Option (Nat × Nat)) (a : Word) (known : List (Option Byte)) :
    List (Option Byte) × State :=
  let o := (hit.map fun h => s.core.stashOffset h.1 h.2 a.toNat).getD 0
  if hit.isSome && s.core.inOpenStorage o known.length then
    let r := s.takeFree known.length
    ((known.zip r.1).zipIdx.map fun b =>
      if b.1.1.isNone && s.core.inOpenStorage (o + b.2) 1 then some b.1.2 else b.1.1, r.2)
  else (known, s)

/-- A load of the control core: LD, or LDACQ with its scope. -/
def loadAccess (i : Instr) (k : LoadKind) (acq : Option Scope) (d a : Reg) (disp : BitVec 24) (s : State) : Res State := do
  let addr := s.core.effective a disp
  if !isLocal addr then s.core.roomG i
  s.core.useX [a]
  let (s, place) ← locate addr (loadSize k) .read s
  let known := s.core.merged addr (loadSize k)
  let tainted := s.core.mergedPoison addr (loadSize k)
  let look := if s.core.collecting then s.mapCore fun c => c.bump 46 1 else s
  match place with
  | .scratch o =>
    touchWindow s (s.core.windowAt o)
    checkUncovered (s.settleRead o (loadSize k)) addr o known tainted
    let (bs, t) := look.readLocal o (loadSize k)
    .ok (t.mapCore fun c => (c.putX d (c.loadCycles 5) (extendLoad k (overlaid known bs))).bump 13 1)
  | .global pg pa =>
    let op : GOp := { s.core.newOp s.pkg.serial (.load k) with
      page := some pg, va := addr, pa := pa, size := loadSize k, dst := d, acquire := acq, overlay := known
      tainted := tainted }
    let hit := s.core.windowOf addr.toNat
    touchWindow s hit
    let (supplied, look) := look.coverOpen hit addr known
    .ok (look.addOwn hit { op with overlay := supplied })

/-! ### Stores -/

/-- A store of the control core: ST, or STREL with its scope. -/
def storeAccess (i : Instr) (k : StoreSize) (rel : Option Scope) (b a : Reg) (disp : BitVec 24) (s : State) : Res State := do
  let addr := s.core.effective a disp
  let n := storeSize k
  let bs := natBytes n (s.core.getX b).toNat
  if !isLocal addr && (rel.isSome || !s.core.collecting) then s.core.roomS i
  s.core.useX [a, b]
  let (s, place) ← locate addr n .write s
  match place with
  | .scratch o =>
    let hit := s.core.windowAt o
    mayWrite s hit addr
    refuseRelease s
    if s.core.collecting then collect [(addr, bs)] s s
    else do
      touchWindow s hit
      .ok ((s.storeLocal o bs).mapCore fun c => c.bump 14 1)
  | .global pg pa =>
    refuseRelease s
    if s.core.collecting then collect [(addr, bs)] s s
    else do
      let op : GOp := { s.core.newOp s.pkg.serial .store with
        page := some pg, va := addr, pa := pa, size := n, data := s.core.getX b, release := rel }
      let hit := s.core.windowOf addr.toNat
      touchWindow s hit
      .ok (s.addOwn hit op)
where
  /-- STREL is refused in collecting mode, after the traps of its address. -/
  refuseRelease (s : State) : Res Unit :=
    if s.core.collecting && rel.isSome then .error (.trapAt (trapW i 16#5 0#64) s) else .ok ()

/-! ### Atomics -/

/-- The acquire and release parts that ORD gives. -/
def acquirePart (o : MemOrder) (sc : Scope) : Option Scope :=
  match o with
  | .acquire | .acqRel => some sc
  | _ => none

def releasePart (o : MemOrder) (sc : Scope) : Option Scope :=
  match o with
  | .release | .acqRel => some sc
  | _ => none

/-- An AMO or CAS of the control core (R300, R304, R305). -/
def atomicAccess (i : Instr) (kind : GKind) (w : AmoSize) (o : MemOrder) (sc : Scope) (d a b : Reg) (disp : BitVec 24)
    (s : State) : Res State := do
  let addr := s.core.effective a disp
  let n := amoSize w
  if !isLocal addr then s.core.roomG i
  s.core.useX (match kind with | .cas .. => [a, b, d] | _ => [a, b])
  let (s, place) ← locate addr n .rmw s
  let refused : Res Unit := if s.core.collecting then .error (.trapAt (trapW i 16#5 0#64) s) else .ok ()
  match place with
  | .scratch off =>
    let hit := s.core.windowAt off
    mayWrite s hit addr
    refused
    touchWindow s hit
    let s := (s.settleWrite off n).mapCore fun c => c.pass (c.locOf off) n
    checkScratch s addr off n
    let v := s.core.scratch.bytes off n
    let s := s.pinFound s.core.issued (s.core.locOf off) (s.core.scratchCells off n)
    let s := match kind.newBytes (s.core.getX b) v with
      | some bs => s.storeLocal off bs
      | none => s
    .ok (s.mapCore fun c => ((c.putX d 5 (kind.result v)).bump 13 1).bump 14 1)
  | .global pg pa =>
    refused
    let op : GOp := { s.core.newOp s.pkg.serial kind with
      page := some pg, va := addr, pa := pa, size := n, data := s.core.getX b, dst := d
      acquire := acquirePart o sc, release := releasePart o sc }
    let hit := s.core.windowOf addr.toNat
    touchWindow s hit
    .ok (s.addOwn hit op)

/-! ### Loads and stores -/

def execLd (k : LoadKind) (d a : Reg) (disp : BitVec 24) (s : State) : Out :=
  issue s (loadAccess (.ld k d a disp) k none d a disp)

def execLdacq (k : LoadKind) (sc : Scope) (d a : Reg) (disp : BitVec 24) (s : State) : Out :=
  issue s (loadAccess (.ldacq k sc d a disp) k (some sc) d a disp)

def execSt (k : StoreSize) (b a : Reg) (disp : BitVec 24) (s : State) : Out :=
  issue s (storeAccess (.st k b a disp) k none b a disp)

def execStrel (k : StoreSize) (sc : Scope) (b a : Reg) (disp : BitVec 24) (s : State) : Out :=
  issue s (storeAccess (.strel k sc b a disp) k (some sc) b a disp)

/-! ### AMO and CAS -/

def execAmoAdd (w : AmoSize) (o : MemOrder) (sc : Scope) (d a b : Reg) (disp : BitVec 24) (s : State) : Out :=
  issue s (atomicAccess (.amoAdd w o sc d a b disp) (.amo .add w) w o sc d a b disp)

def execAmoAnd (w : AmoSize) (o : MemOrder) (sc : Scope) (d a b : Reg) (disp : BitVec 24) (s : State) : Out :=
  issue s (atomicAccess (.amoAnd w o sc d a b disp) (.amo .and w) w o sc d a b disp)

def execAmoOr (w : AmoSize) (o : MemOrder) (sc : Scope) (d a b : Reg) (disp : BitVec 24) (s : State) : Out :=
  issue s (atomicAccess (.amoOr w o sc d a b disp) (.amo .or w) w o sc d a b disp)

def execAmoXor (w : AmoSize) (o : MemOrder) (sc : Scope) (d a b : Reg) (disp : BitVec 24) (s : State) : Out :=
  issue s (atomicAccess (.amoXor w o sc d a b disp) (.amo .xor w) w o sc d a b disp)

def execAmoMin (w : AmoSize) (o : MemOrder) (sc : Scope) (d a b : Reg) (disp : BitVec 24) (s : State) : Out :=
  issue s (atomicAccess (.amoMin w o sc d a b disp) (.amo .min w) w o sc d a b disp)

def execAmoMax (w : AmoSize) (o : MemOrder) (sc : Scope) (d a b : Reg) (disp : BitVec 24) (s : State) : Out :=
  issue s (atomicAccess (.amoMax w o sc d a b disp) (.amo .max w) w o sc d a b disp)

def execAmoMinu (w : AmoSize) (o : MemOrder) (sc : Scope) (d a b : Reg) (disp : BitVec 24) (s : State) : Out :=
  issue s (atomicAccess (.amoMinu w o sc d a b disp) (.amo .minu w) w o sc d a b disp)

def execAmoMaxu (w : AmoSize) (o : MemOrder) (sc : Scope) (d a b : Reg) (disp : BitVec 24) (s : State) : Out :=
  issue s (atomicAccess (.amoMaxu w o sc d a b disp) (.amo .maxu w) w o sc d a b disp)

def execAmoSwap (w : AmoSize) (o : MemOrder) (sc : Scope) (d a b : Reg) (disp : BitVec 24) (s : State) : Out :=
  issue s (atomicAccess (.amoSwap w o sc d a b disp) (.amo .swap w) w o sc d a b disp)

/-- CAS: the destination register holds the expected value. -/
def execCas (w : AmoSize) (o : MemOrder) (sc : Scope) (d a b : Reg) (disp : BitVec 24) (s : State) : Out :=
  issue s (atomicAccess (.cas w o sc d a b disp) (.cas w (s.core.getX d)) w o sc d a b disp)

end Sys2Proof.Machine
end

