-- ==== Sys2Proof/Machine/Blocks.lean ====
section
/-! DEFINITION. The instructions that read a block of local memory through slot A: SPAWN and LAUNCH (R266, R267), KEYSET (R411). -/

namespace Sys2Proof.Machine

/-- Bytes that SPAWN, LAUNCH or KEYSET reads through slot A at an aligned local address. -/
def readBlock (a : Word) (n : Nat) (writes : Bool) (s : State) : Res (List Byte × Nat × State) := do
  checkAligned a n
  let o ← checkLocal a n
  if writes then mayWrite s (s.core.windowAt o) a
  touchWindow s (s.core.windowAt o)
  checkScratch (s.settleRead o n) a o n
  let (bs, s) := s.readLocal o n
  .ok (bs, o, s.mapCore fun c => c.bump 13 1)

def execSpawn (a : Reg) (s : State) : Out :=
  let i : Instr := .spawn a
  issue s fun s => do
    s.core.roomS i
    s.core.useX [a]
    notCollecting i s.core
    let (bs, _, s) ← readBlock (s.core.getX a) 32 false s
    let r : BitVec 256 := BitVec.ofNat 256 (leNat bs)
    match s.pkg.recordCode s.core.ctx (recImage r) with
    | some code => .error (.trapAt (launchTrap code s.core.pc) s)
    | none => .ok (s.addOp { s.core.newOp s.pkg.serial (.spawn r) with release := some .package })

def execLaunch (a : Reg) (s : State) : Out :=
  let i : Instr := .launch a
  issue s fun s => do
    s.core.roomS i
    s.core.useX [a]
    notCollecting i s.core
    let (bs, _, s) ← readBlock (s.core.getX a) 64 false s
    let k : Line := BitVec.ofNat 512 (leNat bs)
    let (page, s) ← launchStatusPage k s
    let s := s.readPlacement s.core.ctx k
    match s.packetCode s.core.ctx k true with
    | some code => .error (.trapAt (launchTrap code s.core.pc) (s.refuseStatus k code page))
    | none => .ok (s.addOp { s.core.newOp s.pkg.serial (.launch k) with release := some (launchScope k) })

/-- KEYSET: the word is read, and written as zero, at issue. Cause 19, of x[A] as of the word, comes last. -/
def execKeyset (a : Reg) (key : BitVec 6) (s : State) : Out :=
  let i : Instr := .keyset a key
  superOnly i s (issue s fun s => do
    s.core.roomS i
    let addr := s.core.getX a
    if key = 0#6 || !usableKey (s.pkg.ctx s.core.ctx) key then Res.trap (.plain 9#5 addr 0#64 0#64)
    checkAligned addr 64
    let _ ← checkLocal addr 64
    s.core.useX [a]
    let (bs, o, s) ← readBlock addr 64 true s
    let s := (s.storeLocal o (List.replicate 64 0#8)).mapCore fun c => c.bump 14 1
    .ok (s.addOp (s.core.newOp s.pkg.serial (.keyset key (BitVec.ofNat 512 (leNat bs))))))

end Sys2Proof.Machine
end

