-- ==== Sys2Proof/Machine/Fetch.lean ====
section
/-! DEFINITION. Fetching and decoding the word at the program counter (R47, R48, R129), and placing a word there. -/

namespace Sys2Proof.Machine

/-- The 8 bytes at a code address that stores of cores have changed: an old word, when the part still returns it. -/
def State.fetchWord (s : State) (pa : Nat) (w : Word) : State × Word :=
  (s.pkg.stale.filter fun e => e.pa == pa).foldl (fun r e =>
    ({ r.1 with fresh := r.1.fresh + 1 }, if Config.fetchesOld r.1.fresh then e.old else r.2)) (s, w)

/-- Read the word at a global address through a page. -/
def State.fetchAt (s : State) (pg : Page) (pc : Word) : State × Except Trap Word :=
  let pa := pg.pa pc.toNat
  let s := (s.recall (pa / 64)).reachFor s.core.ctx pa
  let r := s.look pa 8 pg.key
  if r.2 then (s, .error (.plain 19#5 pc pc 0#64))
  else
    let t := s.fetchWord pa (BitVec.ofNat 64 (leNat r.1))
    (t.1, .ok t.2)

/-- Fetch the word at pc: the traps of R48, or the word. -/
def State.fetch (s : State) : State × Except Trap Word :=
  let pc := s.core.pc
  if pc.extractLsb' 0 3 ≠ 0#3 then (s, .error (.plain 5#5 pc 0#64 0#64))
  else if pc.getLsbD 63 then (s, .error (.plain 6#5 pc 0#64 0#64))
  else
    match s.translate s.core.ctx pc .fetch with
    | (s, .error t) => (s, .error t)
    | (s, .ok pg) => s.fetchAt pg pc

/-- The trap that a word which does not decode raises (R58, R60). -/
def decodeTrap (w : Word) : DecodeError → Trap
  | .illegal => .plain 1#5 w 0#64 0#64
  | .reserved => .plain 2#5 w 0#64 0#64

/-- Fetch and decode: the instruction at pc, or the trap that stands for it. -/
def State.fetchInstr (s : State) : State × Except Trap Instr :=
  match s.fetch with
  | (s, .error t) => (s, .error t)
  | (s, .ok w) =>
    match decode w with
    | .error e => (s, .error (decodeTrap w e))
    | .ok i => (s, .ok i)

end Sys2Proof.Machine
end

