-- ==== Sys2Proof/Machine/Elements.lean ====
section
/-! DEFINITION. Arrays of elements in memory: packing (R89), grouped formats (R93 to R95). -/

namespace Sys2Proof.Machine

/-- Element i of an array of a format, in a lane; bits [7:6] of a 6-bit element's byte are ignored. -/
def elemAt (f : Nat) (bs : List Byte) (i : Nat) : Lane :=
  match memBits f with
  | 4 => BitVec.ofNat 32 ((bs.getD (i / 2) 0#8).toNat / (if i % 2 = 0 then 1 else 16) % 16)
  | 8 => BitVec.ofNat 32 ((bs.getD i 0#8).toNat % (if f = 5 || f = 6 then 64 else 256))
  | w => BitVec.ofNat 32 (leNat ((bs.drop (w / 8 * i)).take (w / 8)))

/-- Elements of n bytes of a format. -/
def elemCount (f n : Nat) : Nat := n * 8 / memBits f

/-- Pack lanes as elements of a format. -/
def packElems (f : Nat) : List Lane → List Byte
  | [] => []
  | l :: r =>
    match memBits f, r with
    | 4, [] => [BitVec.ofNat 8 (l.toNat % 16)]
    | 4, h :: r => BitVec.ofNat 8 (l.toNat % 16 + h.toNat % 16 * 16) :: packElems f r
    | 8, r => BitVec.ofNat 8 (l.toNat % (if f = 5 || f = 6 then 64 else 256)) :: packElems f r
    | w, r => natBytes (w / 8) l.toNat ++ packElems f r

/-- The bytes of an array converted element by element (R316). -/
def convertArray (src dst : Nat) (mode : Rnd) (sat : Bool) (bs : List Byte) : List Byte :=
  packElems dst ((List.range (elemCount src bs.length)).map fun i => cvtLane src dst mode sat (elemAt src bs i))

/-! ### Groups (R93) -/

/-- Elements of a group of a grouped format, and whether they are I4. -/
def groupShape (f : Nat) : Nat × Bool :=
  match f with
  | 13 => (32, false) | 14 => (64, false) | 15 => (128, false)
  | 16 => (32, true) | 17 => (64, true) | _ => (128, true)

def groupSize (f : Nat) : Nat := (groupShape f).1

/-- Bytes of a group's elements, before its header. -/
def groupData (f : Nat) : Nat := if (groupShape f).2 then groupSize f / 2 else groupSize f

/-- Bytes of a group. -/
def groupBytes (f : Nat) : Nat := groupData f + 4

/-- The header of a group. -/
def groupHeader (f : Nat) (bs : List Byte) : Lane := BitVec.ofNat 32 (leNat ((bs.drop (groupData f)).take 4))

/-- The integer q − z of element i of a group (R94, R183). -/
def groupElem (f : Nat) (bs : List Byte) (i : Nat) : Int :=
  lowInt (elemAt (if (groupShape f).2 then 11 else 9) bs i) (if (groupShape f).2 then 4 else 8) true - hdrZero (groupHeader f bs)

/-- The header as the operand fetch path passes it to q3 (R95). -/
def groupPass (f : Nat) (h : Lane) : Lane := if (groupShape f).2 && hdrI4Error h then h ||| 0x80000000#32 else h

end Sys2Proof.Machine
end

