-- ==== Sys2Proof/Machine/Copy.lean ====
section
/-! DEFINITION. The copy engines: CPSET and CPGO (R314 to R319), the copies of a command (R316, R319, R320), and the steps
that begin, stream, stop and complete them (R318, R321). -/

namespace Sys2Proof.Machine

def CopyEng.queue : Sys2Proof.CopyEng → EngineQ
  | .ce0 => .c0
  | .ce1 => .c1

/-! ### The control word (R315) -/

inductive Transform where
  | none | lz4 | conv | fp | cmp | addw | zero
deriving DecidableEq, Repr

structure Control where
  sat : Bool
  rnd : Rnd
  sq : Nat
  dq : Nat
  arrive : Bool
  dbl : Bool
  tag : Nat
  fb : Nat
  fa : Nat
  xf : Option Transform
  len : Nat

def transformOf : Nat → Option Transform
  | 0 => some .none | 1 => some .lz4 | 2 => some .conv | 3 => some .fp | 4 => some .cmp | 5 => some .addw | 6 => some .zero
  | _ => Option.none

def controlOf (w : Word) : Control where
  sat := w.getLsbD 48
  rnd := Rnd.ofCode (w.extractLsb' 46 2)
  sq := fieldNat w 44 2
  dq := fieldNat w 42 2
  arrive := w.getLsbD 41
  dbl := w.getLsbD 40
  tag := fieldNat w 34 6
  fb := fieldNat w 29 5
  fa := fieldNat w 24 5
  xf := transformOf (fieldNat w 21 3)
  len := fieldNat w 0 21

def Control.isA (k : Control) (t : Transform) : Bool := k.xf == some t

def Control.streams (k : Control) : Bool := k.sq != 0 || k.dq != 0

/-- The queue that an endpoint field names. -/
def endpoint (n : Nat) : QNum := BitVec.ofNat 3 (n + 4)

/-- Destination bytes that a copy writes or pushes. -/
def Control.written (k : Control) : Nat :=
  match k.xf with
  | some .conv => k.len * memBits k.fb / memBits k.fa
  | some .fp => 8
  | some .cmp => 0
  | _ => k.len

/-- Destination bytes that a copy reads or writes. -/
def Control.dstLen (k : Control) : Nat := if k.isA .cmp then k.len else k.written

/-- Source bytes that a copy may read (R317). -/
def Control.srcLen (k : Control) : Nat :=
  match k.xf with
  | some .lz4 => k.len + (k.len + 254) / 255 + 16
  | some .zero => 0
  | _ => k.len

/-- The length breaks its transform's rule (R316). -/
def Control.badLen (k : Control) : Bool :=
  k.len == 0 || 1048576 < k.len
    || match k.xf with
      | some .lz4 => 65536 < k.len
      | some .conv => !isReserved k.fa && !isReserved k.fb && (k.len * 8 % memBits k.fa != 0 || elemCount k.fa k.len * memBits k.fb % 8 != 0)
      | some .fp => k.len % 8 != 0
      | some .addw => k.len % 4 != 0
      | _ => false

/-- A field that the transform does not use is not zero. -/
def Control.badFields (w : Word) (k : Control) : Bool :=
  (!k.isA .conv && (fieldNat w 46 3 != 0 || k.fb != 0)) || (!k.isA .conv && !k.isA .addw && k.fa != 0) || (!k.isA .addw && k.dbl)

/-- A queue endpoint breaks R319. -/
def Control.badStream (k : Control) (d a : Word) (nest : List NestLevel) : Bool :=
  (k.streams && !k.isA .none && !k.isA .conv)
    || (k.sq != 0 && (k.sq == k.dq || a != 0#64 || (nest.any fun l => l.src != 0#64) || k.len % 512 != 0))
    || (k.dq != 0 && (d != 0#64 || (nest.any fun l => l.dst != 0#64)
      || (!(k.isA .conv && (isReserved k.fa || isReserved k.fb)) && k.written % 512 != 0)))

/-- The operand values raise cause 2. -/
def Control.reserved (w : Word) (k : Control) (d a : Word) (nest : List NestLevel) : Bool :=
  fieldNat w 49 15 != 0 || k.xf.isNone || k.badLen || k.badFields w || (k.isA .zero && a != 0#64) || k.badStream d a nest

/-- The formats raise cause 14. -/
def Control.badFormat (k : Control) : Bool :=
  (k.isA .conv && badPair k.fa k.fb) || (k.isA .addw && k.fa != 0 && k.fa != 21)

/-! ### Nests (R316, R317) -/

def copiesOf (nest : List NestLevel) : Nat := nest.foldl (fun n l => n * l.count.toNat) 1

/-- The offsets of copy k, innermost level fastest. -/
def offsetsAt : List NestLevel → Nat → Word × Word
  | [], _ => (0#64, 0#64)
  | l :: r, k =>
    let i := BitVec.ofNat 64 (k % l.count.toNat)
    let o := offsetsAt r (k / l.count.toNat)
    (o.1 + i * l.src, o.2 + i * l.dst)

/-- The lowest and highest offset of a side. -/
def spanOf (stride : NestLevel → Word) (nest : List NestLevel) : Int × Int :=
  nest.foldl (fun e l =>
    let t := (stride l).toInt * ((l.count.toNat : Int) - 1)
    (e.1 + min t 0, e.2 + max t 0)) (0, 0)

/-- A side of a command in memory: its base, its span, the bytes of a copy, its alignment and the access it makes. -/
structure Side where
  base : Word
  lo : Int
  hi : Int
  len : Nat
  skewed : Bool
  acc : Acc

/-- Some copy of a side is not at a multiple of a size. -/
def skewedBy (size : Nat) (base : Word) (stride : NestLevel → Word) (nest : List NestLevel) : Bool :=
  base.toNat % size != 0 || nest.any fun l => 1 < l.count.toNat && (stride l).toNat % size != 0

def elemBytes (f : Nat) : Nat := max 1 (memBits f / 8)

/-- The alignments of source and destination (R316). -/
def Control.aligns (k : Control) : Nat × Nat :=
  match k.xf with
  | some .conv => (elemBytes k.fa, elemBytes k.fb)
  | some .fp => (8, 8)
  | some .addw => (4, 4)
  | _ => (1, 1)

/-- The sides in memory: the source, then the destination. -/
def Control.sides (k : Control) (d a : Word) (nest : List NestLevel) : List Side :=
  let s := spanOf (fun l => l.src) nest
  let t := spanOf (fun l => l.dst) nest
  let src : Side := ⟨a, s.1, s.2, k.srcLen, skewedBy k.aligns.1 a (fun l => l.src) nest, .read⟩
  let dst : Side := ⟨d, t.1, t.2, k.dstLen, skewedBy k.aligns.2 d (fun l => l.dst) nest, if k.isA .cmp then .read else .write⟩
  if copiesOf nest = 0 then []
  else (if k.sq != 0 || k.isA .zero then [] else [src]) ++ (if k.dq != 0 then [] else [dst])

def Side.start (e : Side) : Word := BitVec.ofInt 64 (e.base.toNat + e.lo)

def Side.bytes (e : Side) : Nat := (e.hi - e.lo).toNat + e.len

/-- A local side leaves the scratchpad (R35). -/
def Side.outside (e : Side) : Bool :=
  isLocal e.base
    && match localOffset e.base with
      | none => true
      | some o => (o : Int) + e.lo < 0 || (Config.scratchBytes : Int) < o + e.hi + e.len

/-! ### CPSET and CPGO -/

def Core.nest (c : Core) : Sys2Proof.CopyEng → List NestLevel
  | .ce0 => c.nest0
  | .ce1 => c.nest1

def Core.setNest (c : Core) (e : Sys2Proof.CopyEng) (l : List NestLevel) : Core :=
  match e with
  | .ce0 => { c with nest0 := l }
  | .ce1 => { c with nest1 := l }

def execCpset (e : CopyEng) (level : BitVec 3) (a b c : Reg) (s : State) : Out :=
  issue s fun s => do
    let i : Instr := .cpset e level a b c
    s.core.useX [a, b, c]
    if (s.core.getX a).extractLsb' 32 32 ≠ 0#32 then Res.trap (trapW i 2#5 0#64)
    notCollecting i s.core
    let n : NestLevel := ⟨(s.core.getX a).setWidth 32, s.core.getX b, s.core.getX c⟩
    .ok (s.mapCore fun q => q.setNest e ((q.nest e).set level.toNat n))

/-- The first page of an extent whose key or owner is not that of its first page (R284). -/
def foreignPage : List Page → Option Page
  | [] => none
  | pg :: r => r.find? fun x => x.key != pg.key || x.owner != pg.owner

/-- The pages of the sides of a pinned copy, ascending within each (R282, R284, R317). -/
def pinSides (demand : Bool) (sides : List Side) (s : State) : Res (List Page × State) := do
  if demand then .ok ([], s)
  else
    let (groups, s) ← sides.foldlM (fun (acc : List (Word × List Page) × State) e => do
      let (ps, s) ← pinRange e.start e.bytes e.acc acc.2
      .ok (acc.1 ++ [(e.start, ps)], s)) ([], s)
    match groups.findSome? fun g => foreignPage g.2 with
    | some pg => .error (.trapAt (.plain 12#5 (BitVec.ofNat 64 pg.vbase) 0#64 0#64) s)
    | none => .ok (groups.foldr (fun g acc => g.2 ++ acc) [], s)

/-- The checks of CPGO on its operand values, in order (R315 to R319). -/
def copyChecks (i : Instr) (k : Control) (d a w c : Word) (nest : List NestLevel) (core : Core) : Res Unit := do
  if k.reserved w d a nest then Res.trap (trapW i 2#5 0#64)
  notCollecting i core
  if k.badFormat then Res.trap (trapW i 14#5 0#64)
  match (k.sides d a nest).find? fun e => e.skewed with
  | some e => Res.trap (.plain 5#5 e.base 0#64 0#64)
  | none => .ok ()
  if k.arrive && c.toNat % 32 != 0 then Res.trap (.plain 5#5 c 0#64 0#64)
  match (k.sides d a nest).find? fun e => e.outside with
  | some e => Res.trap (.plain 6#5 e.base 0#64 0#64)
  | none => .ok ()
  if k.isA .addw && !isLocal d then Res.trap (.plain 6#5 d 0#64 0#64)
  if k.arrive && isLocal c then Res.trap (.plain 6#5 c 0#64 0#64)

/-- Writes noted for no enqueued copy command, and for no command of a save image, are forgotten. -/
def State.forgetWrites (s : State) : State :=
  let s := if s.core.copies then s else s.mapCore fun c => { c with wrote := [] }
  if s.cores.any Core.copies || s.pkg.rests.any (fun r => !r.cmds.isEmpty) then s else s.mapPkg fun p => { p with written := [] }

def execCpgo (e : CopyEng) (demand : Bool) (bound : BitVec 20) (d a b c : Reg) (s : State) : Out :=
  let i : Instr := .cpgo e demand bound d a b c
  boundOk i bound s (issue s fun s => do
    s.core.useX [d, a, b, c]
    let x := s.core.getX
    let k := controlOf (x b)
    let nest := s.core.nest e
    copyChecks i k (x d) (x a) (x b) (x c) nest s.core
    let (pins, s) ← pinSides demand (k.sides (x d) (x a) nest) s
    let s := s.forgetWrites
    let m := { s.core.command i (CopyEng.queue e) (x d) (x a) (x b) (x c) pins with
      nest := nest, noted := (s.pkg.written.length, s.core.wrote.length) }
    let s ← enqueue (CopyEng.queue e) m s
    .ok (s.mapCore fun q => q.clearTags (1#64 <<< k.tag)))

/-! ### One copy -/

/-- What a copy puts at its destination: bytes, undefined bytes after them, poisoned parts, and its status. -/
structure CopyOut where
  bytes : List Byte
  undef : Nat
  poisoned : List (Nat × Nat)
  status : Nat

/-- FNV-1a over 64-bit words (R316). -/
def fingerprint : List Byte → Nat → Word → Word
  | _, 0, h => h
  | bs, n + 1, h =>
    fingerprint (bs.drop 8) n ((h ^^^ BitVec.ofNat 64 (leNat (bs.take 8))) * 0x00000100000001B3#64)

/-- ADDW over 4-byte elements (R316). -/
def addWords (int : Bool) : List Byte → List Byte → Nat → List Byte
  | _, _, 0 => []
  | x, y, n + 1 =>
    let a : Lane := BitVec.ofNat 32 (leNat (x.take 4))
    let b : Lane := BitVec.ofNat 32 (leNat (y.take 4))
    let r := if int then a + b else rnF32 (XVal.add .rne (ofF32 a) (ofF32 b))
    natBytes 4 r.toNat ++ addWords int (x.drop 4) (y.drop 4) n

/-- The bytes at an address, with the parts of 8-byte granules among them that are poisoned. -/
def Eng.readFine (q : EngineQ) (m : Cmd) (a : Word) (n : Nat) : Eng (List Byte × List (Nat × Nat)) := do
  let ps ← Eng.readPieces q m (piecesOf a n)
  let cells := (ps.map fun p => p.cells).flatten
  let bad := fun (p : Nat × Nat) => ((cells.drop (p.1 - a.toNat)).take p.2).any fun e => e.2
  pure (cells.map fun e => e.1, ((pieces 8 a.toNat (n / 8 + 2) n).filter bad).map fun p => (p.1 - a.toNat, p.2))

/-- The lowest byte of a side over all copies. -/
def lowestOf (base : Word) (stride : NestLevel → Word) (nest : List NestLevel) : Word :=
  BitVec.ofInt 64 (base.toNat + (spanOf stride nest).1)

/-- The first page that n bytes of a demand copy meet, if its key or owner differs from those of the page of the extent's
lowest byte (R284, R317). -/
def State.foreignAt (s : State) (low a n : Nat) : Option Word :=
  let walk := fun va : Nat => match s.checkWalk s.core.ctx (BitVec.ofNat 64 va) .probe with
    | .ok pg => some pg
    | .error _ => none
  let differs := fun (f pg : Page) => pg.key != f.key || pg.owner != f.owner
  (walk low).bind fun f =>
    (((pieces 4096 a (n / 4096 + 2) n).map fun p => walk p.1).find? fun pg => pg.all (differs f)).bind fun pg =>
      pg.map fun pg => BitVec.ofNat 64 pg.vbase

/-- A demand copy that would leave the key or owner of the first page of a side stops (R284). -/
def Eng.sameOwner (q : EngineQ) (m : Cmd) (low a : Word) (n : Nat) : Eng Unit := do
  let s ← get
  if (Fld.qE m.word).getLsbD 8 && !isLocal a then
    match s.foreignAt low.toNat a.toNat n with
    | some va => Eng.stop (blame q m (.plain 12#5 va 0#64 0#64))
    | none => pure ()

/-- Byte i of an LZ4 source, within its extent. The command keeps how far its source has been read, which is word by word. -/
def Eng.lzByte (q : EngineQ) (m : Cmd) (a : Word) (limit i : Nat) : Eng (Option Byte) :=
  if limit ≤ i then pure none else do
    let at_ := a + BitVec.ofNat 64 i
    Eng.sameOwner q m (lowestOf m.a (fun l => l.src) m.nest) at_ 1
    let pg ← Eng.place q m at_.toNat .read
    let s ← get
    Eng.awaitLine q (s.core.meets at_.toNat pg) pg at_.toNat
    let p ← Eng.readPiece q pg at_.toNat 1 (i = 0 || at_.toNat % 64 = 0)
    if p.poisoned then Eng.stop (poisonTrap q m at_)
    Eng.progress q fun x => { x with sweep := { x.sweep with inPass := max x.sweep.inPass (i + 1) } }
    pure p.bytes.head?

/-- The output of a copy whose source and destination are in memory (R316). -/
def Eng.copyOut (q : EngineQ) (m : Cmd) (k : Control) (s d : Word) : Eng CopyOut :=
  match k.xf with
  | some .lz4 => do
    let r ← lzDecode (Eng.lzByte q m s k.srcLen) k.len (k.srcLen + 1) 0 []
    pure ⟨r.1, k.len - r.1.length, [], if r.2 then 0 else 2⟩
  | some .conv => do
    let bs ← Eng.read q m s k.len
    pure ⟨convertArray k.fa k.fb k.rnd k.sat bs, 0, [], 0⟩
  | some .fp => do
    let bs ← Eng.read q m s k.len
    pure ⟨natBytes 8 (fingerprint bs (k.len / 8) 0xCBF29CE484222325#64).toNat, 0, [], 0⟩
  | some .cmp => do
    let x ← Eng.read q m s k.len
    let y ← Eng.read q m d k.len
    pure ⟨[], 0, [], if x == y then 0 else 1⟩
  | some .addw => do
    let x ← Eng.read q m s k.len
    let y ← Eng.read q m d k.len
    pure ⟨addWords (k.fa = 21) y x (k.len / 4), 0, [], 0⟩
  | some .zero => pure ⟨List.replicate k.len 0#8, 0, [], 0⟩
  | _ => do
    let r ← Eng.readFine q m s k.len
    pure ⟨r.1, 0, r.2, 0⟩

/-- Put a copy's output at its destination. -/
def Eng.deliver (q : EngineQ) (m : Cmd) (d : Word) (o : CopyOut) : Eng Unit := do
  let s ← get
  let (free, s) := s.takeFree o.undef
  set s
  let places ← Eng.writable q m d (o.bytes.length + o.undef)
  modify fun s => s.putPlaces (.engine s.core.num q m) places (o.bytes ++ free)
  let spoil := fun (s : State) (p : Nat × Nat) =>
    (pieces 8 (d.toNat + p.1) (p.2 / 8 + 2) p.2).foldl (fun s g =>
      s.spoil g.1 g.2 ((places.find? fun x => x.1 / 64 == g.1 / 64).bind fun x => x.2)) s
  modify fun s => o.poisoned.foldl spoil s

/-- Rows of the scratchpad that an extent touches (R39); none of a global one. -/
def rowsOf (a : Word) (n : Nat) : Nat :=
  if isLocal a && n != 0 then (fieldNat a 0 22 + n - 1) / Config.stripe - fieldNat a 0 22 / Config.stripe + 1 else 0

/-- The activity of a copy (R441). -/
def Core.countCopy (c : Core) (q : EngineQ) (k : Control) (rows : Nat) : Core :=
  let c := c.bump (if q = .c0 then 30 else 31) rows
  match k.xf with
  | some .lz4 => c.bump 34 ((k.len + 15) / 16)
  | some .none | some .zero => c.bump 32 ((k.len + 63) / 64)
  | _ => c.bump 33 ((k.len + 63) / 64)

/-- Copy k of a command between memories; it answers its status. -/
def Eng.copyOne (q : EngineQ) (m : Cmd) (k : Control) (n : Nat) : Eng Nat := do
  let o := offsetsAt m.nest n
  let src := m.a + o.1
  let dst := m.d + o.2
  if !k.isA .zero && !k.isA .lz4 then Eng.sameOwner q m (lowestOf m.a (fun l => l.src) m.nest) src k.srcLen
  Eng.sameOwner q m (lowestOf m.d (fun l => l.dst) m.nest) dst k.dstLen
  let out ← Eng.copyOut q m k src dst
  Eng.deliver q m dst out
  modify fun s => s.mapCore fun c => c.countCopy q k (rowsOf src k.srcLen + rowsOf dst k.dstLen)
  if k.isA .lz4 then
    Eng.progress q fun x =>
      { x with sweep := { x.sweep with inPass := 0, out := x.sweep.out ++ [BitVec.ofNat 32 x.sweep.inPass] } }
  pure out.status

def orStatus (a b : Nat) : Nat := (a / 2 ||| b / 2) * 2 + (a % 2 ||| b % 2)

/-- All copies of a command from copy n on, in nest order. -/
def Eng.copyAll (q : EngineQ) (m : Cmd) (k : Control) : Nat → Nat → Nat → Eng Nat
  | 0, _, st => pure st
  | left + 1, n, st => do
    let r ← Eng.copyOne q m k n
    Eng.copyAll q m k left (n + 1) (orStatus st r)

/-! ### Undefined destinations (R2, R316, R321) -/

/-- The command translates its pages on demand. -/
def copyDemand (m : Cmd) : Bool := (Fld.qE m.word).getLsbD 8

/-- The stretches of source bytes in memory, over all copies, as locations. -/
def State.sources (s : State) (m : Cmd) (k : Control) : List (Nat × Nat) :=
  if k.sq != 0 || k.isA .zero then []
  else
    (List.range (copiesOf m.nest)).foldr (fun n acc =>
      let len := if k.isA .lz4 then (m.sweep.out.getD n 0#32).toNat else k.len
      s.stretches m (m.a + (offsetsAt m.nest n).1) len ++ acc) []

/-- The stretches of destination bytes in memory, over all copies, as locations. -/
def State.sinks (s : State) (m : Cmd) (k : Control) : List (Nat × Nat) :=
  if k.dq != 0 then []
  else
    (List.range (copiesOf m.nest)).foldr (fun n acc =>
      s.stretches m (m.d + (offsetsAt m.nest n).2) k.written ++ acc) []

/-- A byte of the source of a demand command has been written since it was enqueued (R283): by another party, by another command,
or by an instruction that its core issued later. What the core issued before its enqueue it sees (R295). -/
def State.sourceWritten (s : State) (m : Cmd) (k : Control) : Bool :=
  let earlier := fun (w : NotedWrite) => w.own.any fun o => o.1 == s.core.num && o.2 < m.order
  let writes := (s.pkg.written.drop m.noted.1 ++ s.core.wrote.drop m.noted.2).filter fun w => !earlier w
  copyDemand m && (m.spoilt || stretchesMeet (s.sources m k) (writes.map fun w => (w.loc, w.n)))

/-- What a command makes of its destination is undefined: a byte of its source is one of its destination (R316), or the source of
a demand command has been written (R283). -/
def State.madeUndefined (s : State) (m : Cmd) (k : Control) : Bool :=
  stretchesMeet (s.sources m k) (s.sinks m k) || s.sourceWritten m k

/-- The page and the physical address of a byte of a command's destination, where it can be written; none for a scratchpad byte
outside every window. -/
def State.destination (s : State) (m : Cmd) (a : Nat) : Option (Option (Page × Nat)) :=
  if isLocal (BitVec.ofNat 64 a) then
    let o := a % 2 ^ 22
    match s.core.windowAt o with
    | none => some none
    | some (w, l) =>
      ((s.core.linePa w l).filter fun e => e.2.w).map fun e => some (e.2, s.core.windowPa w o)
  else
    match pageFor m.pins a, s.checkWalk s.core.ctx (BitVec.ofNat 64 a) .probe with
    | some pg, _ | none, .ok pg => if pg.w then some (some (pg, pg.pa a)) else none
    | none, .error _ => none

/-- Bytes of one piece of a command's destination as they stand, wherever that is. -/
def State.standing (s : State) (m : Cmd) (p : Nat × Nat) : List Byte × Bool :=
  match s.destination m p.1 with
  | some (some (pg, pa)) => s.lookHome pa p.2 pg.key
  | _ => (s.core.scratch.bytes (p.1 % 2 ^ 22) p.2, s.core.scratchPoisoned (p.1 % 2 ^ 22) p.2)

/-- Bytes of one piece of a command's destination set where they stand, as the making of the command leaves them: no line moves to
the core for it (R281). -/
def State.setStanding (s : State) (q : EngineQ) (m : Cmd) (p : Nat × Nat) (bs : List Byte) : State :=
  let who : Writer := .engine s.core.num q m
  match s.destination m p.1 with
  | some (some (pg, pa)) => ((s.recall (pa / 64)).reachFor s.core.ctx pa).put who pa bs pg.key
  | some none => s.writeLocal who (p.1 % 2 ^ 22) bs
  | none => s

/-- Free values over the bytes of one piece of a destination, where it can be written. -/
def State.undefine (s : State) (q : EngineQ) (m : Cmd) (p : Nat × Nat) : State :=
  let r := s.takeFree p.2
  if (s.destination m p.1).isSome then r.2.setStanding q m p r.1 else s

/-- The pieces of a command's destination, over all copies. -/
def Cmd.sinkPieces (m : Cmd) (k : Control) : List (Nat × Nat) :=
  ((List.range (copiesOf m.nest)).map fun n => piecesOf (m.d + (offsetsAt m.nest n).2) k.written).flatten

/-- The whole destination of a command becomes undefined. -/
def State.undefineDst (s : State) (q : EngineQ) (m : Cmd) (k : Control) : State :=
  if k.dq != 0 then s else (m.sinkPieces k).foldl (fun s p => s.undefine q m p) s

/-- The words of an ADDW command's destination, over all copies. -/
def State.sums (s : State) (m : Cmd) (k : Control) : List Lane :=
  let bs := ((m.sinkPieces k).map fun p => (s.standing m p).1).flatten
  (List.range (bs.length / 4)).map fun i => BitVec.ofNat 32 (leNat ((bs.drop (4 * i)).take 4))

/-- The destination of an ADDW command as it stood when the command began. -/
def State.restoreSums (s : State) (q : EngineQ) (m : Cmd) (k : Control) : State :=
  let bs := (m.sweep.out.map fun w => natBytes 4 w.toNat).flatten
  ((m.sinkPieces k).foldl (fun (x : State × List Byte) p => (x.1.setStanding q m p (x.2.take p.2), x.2.drop p.2)) (s, bs)).1

/-- The destination of a demand command is undefined from its beginning (R283). An ADDW command keeps the words that it adds
to; one that is to stop for poison among them leaves them. -/
def State.openDst (s : State) (q : EngineQ) (m : Cmd) (k : Control) : State :=
  if k.isA .addw then
    if (m.sinkPieces k).any fun p => (s.standing m p).2 then s
    else
      let sums := s.sums m k
      ((s.mapCore fun c => match c.head q with
        | some x => c.setHead q { x with sweep := { x.sweep with out := sums } }
        | none => c).undefineDst q m k)
  else s.undefineDst q m k

/-- The links that the requests of a part take let it through, unless one of them holds all the flits that it may hold (R428): then
the part waits. What a part sends beyond that waits at the port. -/
def Eng.grant (q : EngineQ) (m : Cmd) (k : Control) : Eng Unit := do
  let s ← get
  if (s.sources m k ++ s.sinks m k).any fun e => s.pkg.linkFull e.1 then Eng.wait 4#3
  Eng.progress q fun x => { x with sweep := { x.sweep with granted := true } }

def Sweep.settled (w : Sweep) : Sweep := { w with granted := false }

/-- The copies of a command that does not stream, as one part; the status is kept as the command's `skipped`. -/
def Eng.transfer (q : EngineQ) (m : Cmd) : Eng Unit := do
  let k := controlOf m.b
  Eng.grant q m k
  if k.isA .addw && !m.sweep.out.isEmpty then modify fun s => s.restoreSums q m k
  if k.isA .lz4 then Eng.progress q fun x => { x with sweep := { x.sweep with inPass := 0, out := [] } }
  let st ← Eng.copyAll q m k (copiesOf m.nest) 0 0
  modify fun s => if s.madeUndefined ((s.core.head q).getD m) k then s.undefineDst q m k else s
  Eng.progress q fun x => { x with sweep := ({ x.sweep with done := copiesOf m.nest, skipped := st } : Sweep).settled }

/-! ### Streaming (R319) -/

/-- The entries that a copy pops, when they are all present. -/
def Core.popped (c : Core) (q : QNum) (n : Nat) : Option (List (QEntry × VecImg)) :=
  let es := (c.entries q).take n
  if es.length < n then none else es.mapM fun e => e.img.map fun v => (e, v)

def imageBytes (v : VecImg) : List Byte := natBytes 512 v.toNat

def imageOfBytes (bs : List Byte) : VecImg := BitVec.ofNat 4096 (leNat bs)

/-- The poisoned parts of popped entries, as offsets into their bytes. -/
def poisonedParts (es : List (QEntry × VecImg)) : List (Nat × Nat) :=
  let parts := fun (i : Nat) (e : QEntry × VecImg) =>
    ((List.range 64).filter fun g => e.1.poison.getLsbD g).map fun g => (512 * i + 8 * g, 8)
  (es.zipIdx.map fun x => parts x.2 x.1).flatten

/-- The poison mask of entry i of pushed bytes. -/
def poisonMask (parts : List (Nat × Nat)) (i : Nat) : BitVec 64 :=
  (List.range 64).foldl (fun m g =>
    if parts.any fun p => p.1 < 512 * i + 8 * g + 8 && 512 * i + 8 * g < p.1 + p.2 then m ||| (1#64 <<< g) else m) 0#64

/-- Push bytes as whole entries. -/
def Core.pushBytes (c : Core) (q : QNum) (bs : List Byte) (parts : List (Nat × Nat)) : Core :=
  (List.range (bs.length / 512)).foldl (fun d i =>
    let e : QEntry := ⟨d.ticket, some (imageOfBytes ((bs.drop (512 * i)).take 512)), poisonMask parts i⟩
    ({ d.setEntries q (d.entries q ++ [e]) with ticket := d.ticket + 1 }).bump 17 1) c

/-- The source bytes of a streaming copy with their poisoned parts, before its pops. -/
def Eng.streamSource (q : EngineQ) (m : Cmd) (k : Control) (a : Word) : Eng (List Byte × List (Nat × Nat)) := do
  let s ← get
  if k.sq = 0 then
    if k.isA .conv then do
      let bs ← Eng.read q m a k.len
      pure (bs, [])
    else Eng.readFine q m a k.len
  else
    let es := (s.core.popped (endpoint k.sq) (k.len / 512)).getD []
    let bad := poisonedParts es
    if k.isA .conv && !bad.isEmpty then Eng.stop (poisonTrap q m 0#64)
    pure ((es.map fun e => imageBytes (deliverAs m.qfmt e.2)).flatten, bad)

/-- One copy of a streaming command: it waits for its entries and places, translates its memory side, and is made whole. -/
def Eng.streamOne (q : EngineQ) (m : Cmd) : Eng Unit := do
  let k := controlOf m.b
  let s ← get
  let o := offsetsAt m.nest m.sweep.done
  let dst := m.d + o.2
  if k.sq != 0 && (s.core.popped (endpoint k.sq) (k.len / 512)).isNone then Eng.wait 2#3
  if k.dq != 0 && Config.queueDepth < (s.core.entries (endpoint k.dq)).length + k.written / 512 then Eng.wait 1#3
  Eng.grant q m k
  if k.sq = 0 then Eng.sameOwner q m (lowestOf m.a (fun l => l.src) m.nest) (m.a + o.1) k.srcLen
  if k.dq = 0 then Eng.sameOwner q m (lowestOf m.d (fun l => l.dst) m.nest) dst k.dstLen
  let (bs, bad) ← Eng.streamSource q m k (m.a + o.1)
  let s ← get
  let (made, s) := if s.madeUndefined m k then s.takeFree k.written
    else (if k.isA .conv then convertArray k.fa k.fb k.rnd k.sat bs else bs, s)
  set s
  let out : CopyOut := ⟨made, 0, bad, 0⟩
  if k.dq = 0 then Eng.deliver q m dst out
  let first := s.core.ticket
  modify fun s => s.mapCore fun c =>
    let c := c.countCopy q k (rowsOf (m.a + o.1) k.srcLen + rowsOf dst k.dstLen)
    let n := k.len / 512
    let c := if k.sq = 0 then c else
      ((c.setEntries (endpoint k.sq) ((c.entries (endpoint k.sq)).drop n)).bump 18 n).bump 19 (if converts m.qfmt then n else 0)
    if k.dq = 0 then c else c.pushBytes (endpoint k.dq) out.bytes out.poisoned
  let pushed := if k.dq = 0 then [] else (List.range (out.bytes.length / 512)).map (first + ·)
  Eng.progress q fun x =>
    { x with sweep := ({ x.sweep with done := x.sweep.done + 1, tickets := x.sweep.tickets ++ pushed } : Sweep).settled }

/-! ### Completion (R296, R318) -/

/-- A barrier object has counted the bytes of a command into a generation (R296). -/
def Core.countedInto (c : Core) (q : EngineQ) (m : Cmd) (pa : Nat) (gen : BitVec 32) : Core :=
  { c with unseen := c.unseen.map fun u =>
      if u.queue = q && u.nth = m.nth then { u with counted := (pa, gen) :: u.counted } else u }

/-- The bytes written arrive at the barrier object, whose home applies the arrival to the object as it stands there. -/
def Eng.arrive (q : EngineQ) (m : Cmd) (n : Nat) : Eng Unit := do
  let pg ← Eng.page q { m with pins := [] } m.c .rmw
  let pa := pg.pa m.c.toNat
  Eng.awaitLine q none (some pg) m.c.toNat
  modify fun s => (s.recall (pa / 64)).reachFor s.core.ctx pa
  let s ← get
  let r := s.look pa 32 pg.key
  if r.2 then Eng.stop (poisonTrap q m m.c)
  let was := barRead r.1
  let x := was.arrive (BitVec.ofNat 64 n)
  modify fun s => (s.put (.home [(s.core.num, m.order)]) pa x.bytes pg.key).mapCore fun c => c.countedInto q m pa was.gen
  modify fun s => s.observe pa x.gen false

/-- A tag's bit is set once no issued copy names it; a waiting WFE sees it (R318, R409). -/
def Core.settleTag (c : Core) (t : Nat) : Core :=
  if c.pendingTags.getLsbD t then c else { c with tags := bitSet c.tags t }.see 2#5

/-- The command leaves its queue. -/
def Core.completeCopy (c : Core) (q : EngineQ) (t status : Nat) : Core :=
  let c := c.dropHead q
  let c := { c with
    tagDiffers := if status % 2 = 1 then bitSet c.tagDiffers t else c.tagDiffers
    tagMalformed := if status / 2 = 1 then bitSet c.tagMalformed t else c.tagMalformed }
  c.settleTag t

/-- The entries of a streaming demand command that still stand in its queue are undefined, where its source has been written
(R283). -/
def State.undefineEntries (s : State) (m : Cmd) (k : Control) : State :=
  if k.dq != 0 && s.sourceWritten m k then
    ((s.core.entries (endpoint k.dq)).filter fun e => m.sweep.tickets.contains e.ticket).foldl (fun s e =>
      let r := s.takeFree 512
      r.2.mapCore fun c => c.fillEntry (endpoint k.dq) e.ticket (imageOfBytes r.1)) s
  else s

/-- What completes a command: its copies are made where it does not stream, the arrival counted, the tag set. -/
def Eng.finishCopy (q : EngineQ) (m : Cmd) : Eng Unit := do
  let k := controlOf m.b
  if k.streams then modify fun s => s.undefineEntries m k
  else if m.sweep.done < copiesOf m.nest then Eng.transfer q m
  if k.arrive then Eng.arrive q m (k.written * copiesOf m.nest)
  modify fun s => match s.core.head q with
    | some x => s.mapCore fun c => c.completeCopy q k.tag x.sweep.skipped
    | none => s

/-! ### Steps -/

/-- The value of QFMT that governs a streaming source (R104, R319). -/
def Core.streamQfmt (c : Core) (k : Control) : Word :=
  if k.sq = 0 then 0#64 else c.qfmt[(endpoint k.sq).toNat]'(endpoint k.sq).isLt

/-- The beginning of a copy command: the destination of a demand one that does not stream is undefined from here on (R283). One
that streams and resumes keeps the QFMT value of its beginning (R104). -/
def Eng.beginCopy (q : EngineQ) (m : Cmd) : Eng Unit := do
  let k := controlOf m.b
  modify fun s => s.mapCore fun c => c.begin q { m with qfmt := if m.begun then m.qfmt else c.streamQfmt k }
  if !k.streams && copyDemand m then modify fun s => s.openDst q m k

/-- The next part of a copy command that is not a beginning. -/
def Eng.copyPart (q : EngineQ) (m : Cmd) : Eng Unit :=
  if (controlOf m.b).streams && m.sweep.done < copiesOf m.nest then Eng.streamOne q m else Eng.finishCopy q m

/-- The copy is abandoned: its destination is undefined, and it stands at the head as not begun, with its full bound
(R41, R321). -/
def State.abandonCopy (s : State) (q : EngineQ) (m : Cmd) (status : CmdStatus) : State :=
  let m' := { m with left := fullBound m.word, since := none, sweep := Sweep.start, begun := false }
  (s.undefineDst q m (controlOf m.b)).mapCore fun c => c.standHead q m' status

/-- A copy command stops: one that streams keeps its progress, another is abandoned (R319, R321). -/
def State.stopCopy (s : State) (q : EngineQ) (m : Cmd) (t : Trap) : State :=
  if (controlOf m.b).streams then s.mapCore fun c => c.stopHead q m t
  else (s.abandonCopy q m .stopped).mapCore fun c => c.pend ⟨stopRank q, 0, t, .engine q⟩

end Sys2Proof.Machine
end

