-- ==== Sys2Proof/Machine/Lattice.lean ====
section
/-! DEFINITION. Lattice commands as they issue (R192, R193, R196, R208 to R212): operand checks in their order, declared
extents, enqueueing in L. -/

namespace Sys2Proof.Machine

/-! ### The checks of R193 -/

/-- What a command checks of its operand values: reserved bits, formats and shapes, alignments, local extents, and the
declared extent. -/
structure LatticeForm where
  reserved : Bool
  format : Bool
  aligned : List (Word × Nat)
  locals : List (Word × Nat)
  mustBeLocal : List Word
  extent : List (Word × Nat × Acc)

def LatticeForm.empty : LatticeForm := ⟨false, false, [], [], [], []⟩

/-- Issue a lattice command with a format code in its qualifier, which is refused first (R60 step 6). An empty extent has no place,
so that its local address is not checked (assumption 104). -/
def issueLatticeCode (i : Instr) (refused : Bool) (bound : BitVec 20) (demand : Bool) (d a b c : Reg)
    (form : (Reg → Word) → LatticeForm) (s : State) : Out :=
  boundOk i bound s (issue s fun s => do
    if refused then Res.trap (trapW i 14#5 0#64)
    s.core.useX [d, a, b, c]
    let x := s.core.getX
    let f := form x
    notCollecting i s.core
    if f.reserved then Res.trap (trapW i 2#5 0#64)
    if f.format then Res.trap (trapW i 14#5 0#64)
    match f.aligned.find? fun e => e.1.toNat % e.2 != 0 with
    | some e => Res.trap (.plain 5#5 e.1 0#64 0#64)
    | none => .ok ()
    match f.mustBeLocal.find? fun w => !isLocal w with
    | some w => Res.trap (.plain 6#5 w 0#64 0#64)
    | none => .ok ()
    match f.locals.find? fun e => isLocal e.1 && e.2 != 0 && (localExtent e.1 e.2).isNone with
    | some e => Res.trap (.plain 6#5 e.1 0#64 0#64)
    | none => .ok ()
    let (pins, s) ← pinAll demand f.extent s
    enqueue .l (s.core.command i .l (x d) (x a) (x b) (x c) pins) s)

/-- Issue a lattice command. -/
def issueLattice (i : Instr) (bound : BitVec 20) (demand : Bool) (d a b c : Reg) (form : (Reg → Word) → LatticeForm)
    (s : State) : Out := issueLatticeCode i false bound demand d a b c form s

/-- A read or write of n bytes at an address, local or global. -/
def LatticeForm.area (f : LatticeForm) (w : Word) (n : Nat) (acc : Acc) : LatticeForm :=
  { f with locals := f.locals ++ [(w, n)], extent := f.extent ++ [(w, n, acc)] }

def LatticeForm.align (f : LatticeForm) (w : Word) (n : Nat) : LatticeForm := { f with aligned := f.aligned ++ [(w, n)] }

/-! ### AMAP, AANG, ACFG (R208) -/

def execAmap (demand : Bool) (bound : BitVec 20) (a b : Reg) (s : State) : Out :=
  issueLattice (.amap demand bound a b) bound demand 0#6 a b 0#6 (fun x =>
    (({ LatticeForm.empty with format := (x b).toNat < 9 || 63 < (x b).toNat } : LatticeForm).align (x a) 64).area
      (x a) 128 .read) s

def execAang (demand : Bool) (bound : BitVec 20) (a b : Reg) (s : State) : Out :=
  issueLattice (.aang demand bound a b) bound demand 0#6 a b 0#6 (fun x =>
    (LatticeForm.empty.align (x a) 64).area (x a) 64 .read) s

/-- The fields of the configuration word. -/
def configMask : Word := 0x3FF03#64

def execAcfg (bound : BitVec 20) (a b : Reg) (s : State) : Out :=
  issueLattice (.acfg bound a b) bound true 0#6 a b 0#6 (fun x =>
    { LatticeForm.empty with reserved := x a &&& ~~~configMask ≠ 0#64 }) s

/-! ### ARUN, ARUNV, AGRAD (R196, R209) -/

/-- QFMT0 does not deliver F32. -/
def sinkRefused (qfmt : Word) : Bool := fieldNat qfmt 8 5 != 0

def Core.qfmt0 (c : Core) : Word := c.qfmt[0]

def execArun (bound : BitVec 20) (a : Reg) (s : State) : Out :=
  issueLattice (.arun bound a) bound true 0#6 a 0#6 0#6 (fun _ =>
    { LatticeForm.empty with format := sinkRefused s.core.qfmt0 }) s

def execAgrad (bound : BitVec 20) (a : Reg) (s : State) : Out :=
  issueLattice (.agrad bound a) bound true 0#6 a 0#6 0#6 (fun _ =>
    { LatticeForm.empty with format := sinkRefused s.core.qfmt0 }) s

/-- The source formats of ARUNV. -/
def runvAccepts (f : Nat) : Bool := f ≤ 12 || f == 15 || f == 18

/-- Bytes of a source vector of ARUNV. -/
def runvBytes (f : Nat) : Nat := if isGrouped f then groupBytes f else 16 * memBits f

def execArunv (demand : Bool) (bound : BitVec 20) (fmt : FmtCode) (a b c : Reg) (s : State) : Out :=
  issueLatticeCode (.arunv demand bound fmt a b c) (!runvAccepts fmt.toNat) bound demand 0#6 a b c (fun x =>
    let n := (x c).toNat
    (((LatticeForm.empty.align (x a) 64).align (x b) 64).area
      (x a) (n * runvBytes fmt.toNat) .read).area (x b) (512 * n) .write) s

/-! ### AVEC (R210) -/

def vecRows (b : Word) : Nat := fieldNat b 0 8
def vecCols (b : Word) : Nat := fieldNat b 8 8

/-- E, the number of eliminations. -/
def vecCount (m n : Nat) : Nat := (List.range (min n (m - 1))).foldl (fun t j => t + (m - 1 - j)) 0

def execAvec (demand : Bool) (bound : BitVec 20) (a b c : Reg) (s : State) : Out :=
  issueLattice (.avec demand bound a b c) bound demand 0#6 a b c (fun x =>
    let m := vecRows (x b)
    let n := vecCols (x b)
    let f : LatticeForm := { LatticeForm.empty with
      reserved := fieldNat (x b) 16 48 != 0
      format := m == 0 || 128 < m || n == 0 || 128 < n
      mustBeLocal := [x a]
      locals := [(x a, 512 * (m - 1) + 4 * n)] }
    let f := (f.align (x a) 64).align (x c) 4
    if x c = 0#64 then f else f.area (x c) (4 * vecCount m n) .write) s

/-! ### APROD (R182, R183, R211) -/

structure Shape where
  m : Nat
  n : Nat
  k : Nat
  fa : Nat
  fb : Nat
  c0 : Bool
  gi : Nat
  gn : Nat

def shapeOf (w : Word) : Shape where
  m := fieldNat w 0 7 + 1
  n := fieldNat w 7 7 + 1
  k := fieldNat w 14 14 + 1
  fa := fieldNat w 28 5
  fb := fieldNat w 33 5
  c0 := w.getLsbD 38
  gi := fieldNat w 39 10
  gn := fieldNat w 49 10 + 1

def isFloatFmt (f : Nat) : Bool := f ≤ 7
def isIntFmt (f : Nat) : Bool := 8 ≤ f && f ≤ 12

/-- The pairings of R182 and R183. -/
def pairingOk (fa fb : Nat) : Bool :=
  (isFloatFmt fa && isFloatFmt fb) || (isIntFmt fa && isIntFmt fb) || (isGrouped fa && isIntFmt fb)
    || (isIntFmt fa && isGrouped fb)

def Shape.grouped (h : Shape) : Bool := isGrouped h.fa || isGrouped h.fb

/-- Elements of a K-group: the whole of K when no operand is grouped. -/
def Shape.groupLen (h : Shape) : Nat :=
  if isGrouped h.fa then groupSize h.fa else if isGrouped h.fb then groupSize h.fb else h.k

def roundLine (n : Nat) : Nat := (n + 63) / 64 * 64

/-- Bytes from one row, or grouped column, of n elements to the next. -/
def pitchOf (f n : Nat) : Nat :=
  roundLine (if isGrouped f then n / groupSize f * groupBytes f else (n * memBits f + 7) / 8)

/-- The shape is refused with cause 14. -/
def Shape.refused (h : Shape) (toQ1 localC : Bool) : Bool :=
  !pairingOk h.fa h.fb
    || (h.grouped && (!toQ1 || h.c0 || h.k % h.groupLen != 0))
    || h.gn ≤ h.gi
    || ((toQ1 || localC) && (h.gi != 0 || h.gn != 1))
    || (h.c0 && (toQ1 || !localC))

/-- Bytes of operand B. -/
def Shape.bytesB (h : Shape) : Nat := if isGrouped h.fb then h.n * pitchOf h.fb h.k else h.k * pitchOf h.fb h.n

/-- APROD. No alignment is asked of x[C] (assumption 119). -/
def execAprod (demand : Bool) (bound : BitVec 20) (toQ1 : Bool) (d a b c : Reg) (s : State) : Out :=
  issueLattice (.aprod demand bound toQ1 d a b c) bound demand d a b c (fun x =>
    let h := shapeOf (x d)
    let f : LatticeForm := { LatticeForm.empty with
      reserved := fieldNat (x d) 59 5 != 0
      format := h.refused toQ1 (isLocal (x c))
      mustBeLocal := [x a, x b]
      locals := [(x a, h.m * pitchOf h.fa h.k), (x b, h.bytesB)] }
    let f := (f.align (x a) 64).align (x b) 64
    if toQ1 then f
    else if isLocal (x c) then { f with locals := f.locals ++ [(x c, 512 * h.m)] }
    else f.area (x c) (512 * (h.m - 1) + 4 * h.n) .rmw) s

/-! ### ANORM, ASAVE, ARES, ASTAT (R212) -/

def execAnorm (demand : Bool) (bound : BitVec 20) (a : Reg) (s : State) : Out :=
  issueLattice (.anorm demand bound a) bound demand 0#6 a 0#6 0#6 (fun x =>
    (LatticeForm.empty.align (x a) 8).area (x a) 16 .write) s

def execAstat (demand : Bool) (bound : BitVec 20) (clr : Bool) (a : Reg) (s : State) : Out :=
  issueLattice (.astat demand bound clr a) bound demand 0#6 a 0#6 0#6 (fun x =>
    (LatticeForm.empty.align (x a) 8).area (x a) 8 .write) s

/-- ASAVE: the 128 bytes of the record are the extent that is checked at issue (R212; assumption 69). -/
def execAsave (demand : Bool) (bound : BitVec 20) (a : Reg) (s : State) : Out :=
  issueLattice (.asave demand bound a) bound true 0#6 a 0#6 0#6 (fun x =>
    { LatticeForm.empty.align (x a) 128 with locals := [(x a, 128)] }) s

/-- ARES: the 128 bytes of the record are the extent that is checked at issue; its images are met when they are read (R212;
assumption 108). -/
def execAres (demand : Bool) (bound : BitVec 20) (a : Reg) (s : State) : Out :=
  issueLattice (.ares demand bound a) bound demand 0#6 a 0#6 0#6 (fun x =>
    (LatticeForm.empty.align (x a) 128).area (x a) 128 .read) s

end Sys2Proof.Machine
end

