-- ==== Sys2Proof/Machine/Arith.lean ====
section
/-! DEFINITION. Functions with an irrational value, correctly rounded: powers of two and base-2 logarithms (R139, R152),
cosine and sine (R166), the angle and the length of a pair (R171, R172). Each value is formed with many more bits than any
rounding keeps, and is then rounded once; exact values are exact. The specification's rule is the exact value (assumption 12). -/

namespace Sys2Proof.Machine

/-! ### Powers of two -/

/-- ln 2 in units of 2^-256. -/
def ln2Bits : Nat := 0xb17217f7d1cf79abc9e3b39803f2f6af40f343267298b62d8a0d175b8baafa2b

/-- 1 + z/1 (1 + z/2 (1 + … z/k (acc))), in units of 2^-256. -/
def expHorner (z : Nat) : Nat → Nat → Nat
  | 0, acc => acc
  | k + 1, acc => expHorner z k (2 ^ 256 + z * acc / 2 ^ 256 / (k + 1))

/-- Square n times, in units of 2^-256. -/
def squarings : Nat → Nat → Nat
  | 0, v => v
  | n + 1, v => squarings n (v * v / 2 ^ 256)

/-- 2^f for the fraction f = n / 2^k below one, in units of 2^-216. -/
def exp2Frac (n k : Nat) : Nat := squarings 16 (expHorner (n * ln2Bits / 2 ^ k / 2 ^ 16) 24 (2 ^ 256)) / 2 ^ 40

/-- A whole exponent kept within the range that any conversion tells apart. -/
def clampExp (n : Int) : Int := max (-4000) (min 4000 n)

/-- 2^a (R139). -/
def XVal.exp2 : XVal → XVal
  | .nan => .nan
  | .inf n => if n then .zero false else .inf false
  | .fin neg m e _ =>
    if 12 < e && m != 0 then .fin false 1 (if neg then -4000 else 4000) false
    else
      let k := (-e).toNat
      let n := signed neg m * 2 ^ e.toNat
      let whole := clampExp (n / 2 ^ k)
      let frac := (n % 2 ^ k).toNat
      if frac = 0 then .fin false 1 whole false else .fin false (exp2Frac frac k) (whole - 216) true

/-- e × 2^d, the power taken exactly (R152). -/
def XVal.timesExp2 (e d : XVal) : XVal :=
  match e, d.exp2 with
  | .fin n m x _, .fin _ m' x' k => .fin n (m * m') (x + x') k
  | a, b => a.mul b

/-! ### Base-2 logarithms -/

/-- Bits of log2 of v in [1, 2), given in units of 2^-400: square, and keep a bit when the square reaches 2. -/
def log2Bits : Nat → Nat → Nat → Nat
  | 0, _, acc => acc
  | n + 1, v, acc =>
    let q := v * v / 2 ^ 400
    if 2 ^ 401 ≤ q then log2Bits n (q / 2) (2 * acc + 1) else log2Bits n q (2 * acc)

/-- log₂ a (R139). -/
def XVal.log2 : XVal → XVal
  | .nan => .nan
  | .inf n => if n then .nan else .inf false
  | .fin neg m e _ =>
    if m = 0 then .inf true
    else if neg then .nan
    else
      let w := e + m.log2
      if m = 2 ^ m.log2 then .ofInt w 0
      else
        let t := w * 2 ^ 160 + log2Bits 160 (m * 2 ^ (400 - m.log2)) 0
        if t < 0 then .fin true (t.natAbs - 1) (-160) true else .fin false t.toNat (-160) true

/-! ### Coefficients (R166) -/

/-- π in units of 2^-160. -/
def piBits : Nat := 0x3243f6a8885a308d313198a2e03707344a4093822

/-- 1 − z²/((j)(j+1)) (1 − …), the nested series of cosine (j = 1) or sine over z (j = 2), in units of 2^-160; n terms. -/
def trigHorner (zz j : Nat) : Nat → Nat → Nat
  | 0, acc => acc
  | n + 1, acc => trigHorner zz j n (2 ^ 160 - zz * acc / 2 ^ 160 / ((2 * n + j) * (2 * n + j + 1)))

/-- rne(2^30 × v) of a number in units of 2^-160 that is no tie. -/
def coefRound (v : Nat) : Nat := (v + 2 ^ 129) / 2 ^ 130

/-- 2^30 times cosine and sine of r / 2^32 of a turn below a quarter, rounded. -/
def quarterCoef (r : Nat) : Int × Int :=
  let z := 2 * piBits * r / 2 ^ 32
  let zz := z * z / 2 ^ 160
  (coefRound (trigHorner zz 1 24 (2 ^ 160)), coefRound (z * trigHorner zz 2 24 (2 ^ 160) / 2 ^ 160))

/-- coef(a): the pair (c, s) (R166). -/
def coef (a : Lane) : Int × Int :=
  let q := quarterCoef (a.toNat % 2 ^ 30)
  match a.toNat / 2 ^ 30 with
  | 0 => q
  | 1 => (-q.2, q.1)
  | 2 => (-q.1, -q.2)
  | _ => (q.2, -q.1)

/-! ### Angle and length of a pair (R171, R172) -/

/-- Shift a pair down to 200 bits, each part toward zero. -/
def shrink (x y : Int) : Int × Int :=
  let d := (max x.natAbs y.natAbs).log2 - 200
  (x.tdiv (2 ^ d), y.tdiv (2 ^ d))

/-- The next n bits of the angle of (x, y) as a fraction of a turn: the half it lies in, then the doubled angle. -/
def angleBits : Nat → Int → Int → Nat → Nat
  | 0, _, _, acc => acc
  | n + 1, x, y, acc =>
    let bit := if y < 0 || (y == 0 && x < 0) then 1 else 0
    let p := shrink (x * x - y * y) (2 * x * y)
    angleBits n p.1 p.2 (2 * acc + bit)

/-- rne(2^32 × atan2(y, x) / 2π) mod 2^32 of a finite pair that is not both zero. -/
def pairAngle (x y : XVal) : Lane :=
  match x, y with
  | .fin nx mx ex _, .fin ny my ey _ =>
    let e := min ex ey
    let p := shrink (signed nx mx * 2 ^ (ex - e).toNat) (signed ny my * 2 ^ (ey - e).toNat)
    BitVec.ofNat 32 ((angleBits 33 p.1 p.2 0 + 1) / 2)
  | _, _ => 0#32

/-- √(x² + y²) of a finite pair. -/
def XVal.hyp (x y : XVal) : XVal := XVal.sqrt (XVal.add .rne (x.mul x) (y.mul y))

end Sys2Proof.Machine
end

