-- ==== Sys2Proof/Machine/Scalar.lean ====
section
/-! DEFINITION. The scalar families: SALU, SALUI, SMUL, SIMM, SADDR (R106, R115 to R120), the system-register moves (R121,
R122) and TICK (R276). -/

namespace Sys2Proof.Machine

/-! ### Bits of a word -/

/-- 1 or 0. -/
def flag (b : Bool) : Word := if b then 1#64 else 0#64

/-- Leading zero bits; w for zero. -/
def leadingZeros {w : Nat} (v : BitVec w) : Nat := if v = 0#w then w else w - 1 - v.toNat.log2

/-- Trailing zero bits; w for zero. -/
def trailingZeros {w : Nat} (v : BitVec w) : Nat := if v = 0#w then w else (v &&& (0#w - v)).toNat.log2

/-- Number of one bits. -/
def popCount {w : Nat} (v : BitVec w) : Nat := (List.range w).foldl (fun n k => n + (v.getLsbD k).toNat) 0

def swapBytes (v : Word) : Word := BitVec.ofNat 64 (leNat (natBytes 8 v.toNat).reverse)

/-! ### Issue -/

/-- Issue a scalar instruction: sources rs, destination d written after lat cycles, event e of R441. -/
def scalar (e : Nat) (rs : List Reg) (d : Reg) (lat : Nat) (v : Core → Word) (s : State) : Out :=
  issue s fun s => do
    s.core.useX rs
    .ok (s.mapCore fun c => (c.putX d lat (v c)).bump e 1)

/-- A register operation of SALU (R115). -/
def alu2 (f : Word → Word → Word) (d a b : Reg) (s : State) : Out := scalar 3 [a, b] d 1 (fun c => f (c.getX a) (c.getX b)) s

def alu1 (f : Word → Word) (d a : Reg) (s : State) : Out := scalar 3 [a] d 1 (fun c => f (c.getX a)) s

/-- Low six bits of a shift count. -/
def shiftOf (b : Word) : Nat := b.toNat % 64

/-! ### SALU (R115) -/

def execAdd (d a b : Reg) (s : State) : Out := alu2 (fun x y => x + y) d a b s

def execSub (d a b : Reg) (s : State) : Out := alu2 (fun x y => x - y) d a b s

def execAnd (d a b : Reg) (s : State) : Out := alu2 (fun x y => x &&& y) d a b s

def execOr (d a b : Reg) (s : State) : Out := alu2 (fun x y => x ||| y) d a b s

def execXor (d a b : Reg) (s : State) : Out := alu2 (fun x y => x ^^^ y) d a b s

def execAndn (d a b : Reg) (s : State) : Out := alu2 (fun x y => x &&& ~~~y) d a b s

def execShl (d a b : Reg) (s : State) : Out := alu2 (fun x y => x <<< shiftOf y) d a b s

def execShr (d a b : Reg) (s : State) : Out := alu2 (fun x y => x >>> shiftOf y) d a b s

def execSar (d a b : Reg) (s : State) : Out := alu2 (fun x y => x.sshiftRight (shiftOf y)) d a b s

def execRotl (d a b : Reg) (s : State) : Out := alu2 (fun x y => x.rotateLeft (shiftOf y)) d a b s

def execSlt (d a b : Reg) (s : State) : Out := alu2 (fun x y => flag (x.slt y)) d a b s

def execSltu (d a b : Reg) (s : State) : Out := alu2 (fun x y => flag (x.ult y)) d a b s

def execMin (d a b : Reg) (s : State) : Out := alu2 (fun x y => if y.slt x then y else x) d a b s

def execMax (d a b : Reg) (s : State) : Out := alu2 (fun x y => if x.slt y then y else x) d a b s

def execMinu (d a b : Reg) (s : State) : Out := alu2 (fun x y => if y.ult x then y else x) d a b s

def execMaxu (d a b : Reg) (s : State) : Out := alu2 (fun x y => if x.ult y then y else x) d a b s

def execSel (d a b c : Reg) (s : State) : Out := scalar 3 [a, b, c] d 1 (fun k => if k.getX c ≠ 0#64 then k.getX a else k.getX b) s

def execClz (d a : Reg) (s : State) : Out := alu1 (fun x => BitVec.ofNat 64 (leadingZeros x)) d a s

def execCtz (d a : Reg) (s : State) : Out := alu1 (fun x => BitVec.ofNat 64 (trailingZeros x)) d a s

def execPopc (d a : Reg) (s : State) : Out := alu1 (fun x => BitVec.ofNat 64 (popCount x)) d a s

def execBswap (d a : Reg) (s : State) : Out := alu1 swapBytes d a s

/-! ### SALUI (R116) -/

def execAddi (d a : Reg) (imm : BitVec 32) (s : State) : Out := alu1 (fun x => x + imm.signExtend 64) d a s

def execAndi (d a : Reg) (imm : BitVec 32) (s : State) : Out := alu1 (fun x => x &&& imm.signExtend 64) d a s

def execOri (d a : Reg) (imm : BitVec 32) (s : State) : Out := alu1 (fun x => x ||| imm.setWidth 64) d a s

def execXori (d a : Reg) (imm : BitVec 32) (s : State) : Out := alu1 (fun x => x ^^^ imm.setWidth 64) d a s

def execSlti (d a : Reg) (imm : BitVec 32) (s : State) : Out := alu1 (fun x => flag (x.slt (imm.signExtend 64))) d a s

def execSltiu (d a : Reg) (imm : BitVec 32) (s : State) : Out := alu1 (fun x => flag (x.ult (imm.signExtend 64))) d a s

def execShli (d a : Reg) (n : BitVec 6) (s : State) : Out := alu1 (fun x => x <<< n.toNat) d a s

def execShri (d a : Reg) (n : BitVec 6) (s : State) : Out := alu1 (fun x => x >>> n.toNat) d a s

def execSari (d a : Reg) (n : BitVec 6) (s : State) : Out := alu1 (fun x => x.sshiftRight n.toNat) d a s

/-! ### SMUL (R117, R118) -/

/-- Signed quotient toward zero; all ones for a zero divisor. -/
def quotS (x y : Word) : Word := if y = 0#64 then BitVec.allOnes 64 else x.sdiv y

def quotU (x y : Word) : Word := if y = 0#64 then BitVec.allOnes 64 else x / y

/-- Signed remainder with the sign of the dividend; the dividend for a zero divisor. -/
def remS (x y : Word) : Word := if y = 0#64 then x else x.srem y

def remU (x y : Word) : Word := if y = 0#64 then x else x % y

def execMul (d a b : Reg) (s : State) : Out := scalar 4 [a, b] d 3 (fun c => c.getX a * c.getX b) s

def execMulh (d a b : Reg) (s : State) : Out :=
  scalar 4 [a, b] d 3 (fun c => ((c.getX a).signExtend 128 * (c.getX b).signExtend 128).extractLsb' 64 64) s

def execMulhu (d a b : Reg) (s : State) : Out :=
  scalar 4 [a, b] d 3 (fun c => ((c.getX a).setWidth 128 * (c.getX b).setWidth 128).extractLsb' 64 64) s

def execDiv (d a b : Reg) (s : State) : Out := scalar 5 [a, b] d 12 (fun c => quotS (c.getX a) (c.getX b)) s

def execDivu (d a b : Reg) (s : State) : Out := scalar 5 [a, b] d 12 (fun c => quotU (c.getX a) (c.getX b)) s

def execRem (d a b : Reg) (s : State) : Out := scalar 5 [a, b] d 12 (fun c => remS (c.getX a) (c.getX b)) s

def execRemu (d a b : Reg) (s : State) : Out := scalar 5 [a, b] d 12 (fun c => remU (c.getX a) (c.getX b)) s

/-! ### SIMM (R119) and SADDR (R120) -/

def execLimm (d : Reg) (imm : BitVec 32) (s : State) : Out := scalar 3 [] d 1 (fun _ => imm.signExtend 64) s

def execLimmh (d a : Reg) (imm : BitVec 32) (s : State) : Out := scalar 3 [a] d 1 (fun c => imm ++ (c.getX a).extractLsb' 0 32) s

/-- The word number that a scratchpad offset selects (R36). -/
def wordNumber (x : Word) : Nat := fieldNat x 6 16

def execBank (d a : Reg) (s : State) : Out := scalar 3 [a] d 2 (fun c => BitVec.ofNat 64 (bankOf (wordNumber (c.getX a)))) s

def execRowof (d a : Reg) (s : State) : Out := scalar 3 [a] d 2 (fun c => BitVec.ofNat 64 (rowOf (wordNumber (c.getX a)))) s

def execLword (d a : Reg) (s : State) : Out := scalar 3 [a] d 2 (fun c => BitVec.ofNat 64 (wordNumber (c.getX a))) s

/-! ### SRM (R121, R122) and TICK (R276) -/

/-- A system register that the supervisor alone may name (R44): cause 3 with its number. -/
def checkSysPrivilege (i : Instr) (r : SysReg) (c : Core) : Res Unit :=
  if SysReg.privileged r && !c.super then .trap (trapW i 3#5 (r.code.setWidth 64)) else .ok ()

/-- A value that a QFMT register refuses (R102). -/
def qfmtRefused (v : Word) : Bool := badPair (fieldNat v 0 5) (fieldNat v 8 5)

/-- The value that a MOVRS writes: a step bit while debug is not enabled is 0 (R384). -/
def sysValue (r : SysReg) (debug : Bool) (v : Word) : Word :=
  match r with
  | .dbgctl => if debug then v else 0#64
  | _ => v

def execMovsr (d : Reg) (r : SysReg) (s : State) : Out :=
  match checkSysPrivilege (.movsr d r) r s.core with
  | .error e => s.settle (.error e)
  | .ok _ => issue s fun s => .ok (s.mapCore fun c => c.putX d 2 (s.readSys r))

/-- The QFMT check of MOVRS (R102). -/
def checkQfmt (i : Instr) (r : SysReg) (v : Word) : Res Unit :=
  match r with
  | .qfmt _ => if qfmtRefused v then .trap (trapW i 14#5 0#64) else .ok ()
  | _ => .ok ()

/-- MOVRS. A register that is read-only in the current mode keeps its value. -/
def execMovrs (r : SysReg) (a : Reg) (s : State) : Out :=
  match checkSysPrivilege (.movrs r a) r s.core with
  | .error e => s.settle (.error e)
  | .ok _ => issue s fun s => do
    s.core.useX [a]
    let v := s.core.getX a
    checkQfmt (.movrs r a) r v
    let debug := (s.pkg.ctx s.core.ctx).debug
    .ok (if s.core.super || SysReg.userWrites r then s.mapCore fun c => c.send 2 (.sys r (sysValue r debug v)) else s)

def execTickRead (d : Reg) (s : State) : Out :=
  issue s fun s => .ok (s.mapCore fun c => c.putX d 2 (s.readSys .tick))

end Sys2Proof.Machine
end

