-- ==== Sys2Proof/Machine/Vector.lean ====
section
/-! DEFINITION. The vector families VF, VFS, VI, VP, VX, VR, VC (R131 to R151). -/

namespace Sys2Proof.Machine

/-! ### VF (R137, R138) -/

/-- A lane rounded to F32 under the word's qualifiers. -/
def rounded (r : Rnd) (sat : Bool) (v : XVal) : Lane := toF32 r sat v

def addLane (r : Rnd) (sat : Bool) (a b : Lane) : Lane := rounded r sat (XVal.add r (ofF32 a) (ofF32 b))
def subLane (r : Rnd) (sat : Bool) (a b : Lane) : Lane := rounded r sat (XVal.add r (ofF32 a) (ofF32 b).neg)
def mulLane (r : Rnd) (sat : Bool) (a b : Lane) : Lane := rounded r sat ((ofF32 a).mul (ofF32 b))
def fmaLane (r : Rnd) (sat : Bool) (a b c : Lane) : Lane := rounded r sat (XVal.add r ((ofF32 a).mul (ofF32 b)) (ofF32 c))
def fmsLane (r : Rnd) (sat : Bool) (a b c : Lane) : Lane :=
  rounded r sat (XVal.add r ((ofF32 a).mul (ofF32 b)) (ofF32 c).neg)

def execVadd (r : Rnd) (sat : Bool) (d : VDst) (a b : VSrc) (s : State) : Out :=
  vector (.vadd r sat d a b) [a, b] d 4 6 (lanes2 (addLane r sat)) s

def execVsub (r : Rnd) (sat : Bool) (d : VDst) (a b : VSrc) (s : State) : Out :=
  vector (.vsub r sat d a b) [a, b] d 4 6 (lanes2 (subLane r sat)) s

def execVmul (r : Rnd) (sat : Bool) (d : VDst) (a b : VSrc) (s : State) : Out :=
  vector (.vmul r sat d a b) [a, b] d 4 6 (lanes2 (mulLane r sat)) s

def execVfma (r : Rnd) (sat : Bool) (d : VDst) (a b c : VSrc) (s : State) : Out :=
  vector (.vfma r sat d a b c) [a, b, c] d 4 6 (lanes3 (fmaLane r sat)) s

def execVfms (r : Rnd) (sat : Bool) (d : VDst) (a b c : VSrc) (s : State) : Out :=
  vector (.vfms r sat d a b c) [a, b, c] d 4 6 (lanes3 (fmsLane r sat)) s

def execVmin (d : VDst) (a b : VSrc) (s : State) : Out := vector (.vmin d a b) [a, b] d 4 6 (lanes2 min32) s

def execVmax (d : VDst) (a b : VSrc) (s : State) : Out := vector (.vmax d a b) [a, b] d 4 6 (lanes2 max32) s

def execVabs (d : VDst) (a : VSrc) (s : State) : Out :=
  vector (.vabs d a) [a] d 4 6 (lanes1 fun x => x &&& 0x7FFFFFFF#32) s

def execVneg (d : VDst) (a : VSrc) (s : State) : Out :=
  vector (.vneg d a) [a] d 4 6 (lanes1 fun x => x ^^^ 0x80000000#32) s

def execVcps (d : VDst) (a b : VSrc) (s : State) : Out :=
  vector (.vcps d a b) [a, b] d 4 6 (lanes2 fun x y => (x &&& 0x7FFFFFFF#32) ||| (y &&& 0x80000000#32)) s

def execVmov (d : VDst) (a : VSrc) (s : State) : Out := vector (.vmov d a) [a] d 4 6 (lanes1 id) s

/-- Lanes of a where a predicate bit is 1, lanes of b elsewhere. -/
def selectLanes (m : PredImg) : List VecImg → VecImg
  | [a, b] => ofLanes fun k => if m.getLsbD k then laneOf a k else laneOf b k
  | _ => 0#4096

def execVsel (d : VDst) (a b : VSrc) (c : PReg) (s : State) : Out :=
  vector (.vsel d a b c) [a, b] d 4 6 (selectLanes (s.core.getP c)) s (use := usePoison (s.core.predPoisoned c))

/-! ### VFS (R139, R140) -/

def execVrcp (r : Rnd) (sat : Bool) (d : VDst) (a : VSrc) (s : State) : Out :=
  vector (.vrcp r sat d a) [a] d 8 7 (lanes1 fun x => rounded r sat (ofF32 x).recip) s

def execVrsq (r : Rnd) (sat : Bool) (d : VDst) (a : VSrc) (s : State) : Out :=
  vector (.vrsq r sat d a) [a] d 8 7 (lanes1 fun x => rounded r sat (ofF32 x).rsqrt) s

def execVsqrt (r : Rnd) (sat : Bool) (d : VDst) (a : VSrc) (s : State) : Out :=
  vector (.vsqrt r sat d a) [a] d 12 7 (lanes1 fun x => rounded r sat (ofF32 x).sqrt) s

def execVdiv (r : Rnd) (sat : Bool) (d : VDst) (a b : VSrc) (s : State) : Out :=
  vector (.vdiv r sat d a b) [a, b] d 12 7 (lanes2 fun x y => rounded r sat ((ofF32 x).div (ofF32 y))) s

def execVexp2 (r : Rnd) (sat : Bool) (d : VDst) (a : VSrc) (s : State) : Out :=
  vector (.vexp2 r sat d a) [a] d 10 7 (lanes1 fun x => rounded r sat (ofF32 x).exp2) s

def execVlog2 (r : Rnd) (sat : Bool) (d : VDst) (a : VSrc) (s : State) : Out :=
  vector (.vlog2 r sat d a) [a] d 10 7 (lanes1 fun x => rounded r sat (ofF32 x).log2) s

/-! ### VI (R141 to R143) -/

/-- An exact integer result modulo 2^32, or clamped to the I32 range (R142). -/
def intLane (sat : Bool) (n : Int) : Lane := BitVec.ofInt 32 (if sat then max (-2147483648) (min 2147483647 n) else n)

def execViadd (sat : Bool) (d : VDst) (a b : VSrc) (s : State) : Out :=
  vector (.viadd sat d a b) [a, b] d 2 8 (lanes2 fun x y => intLane sat (x.toInt + y.toInt)) s

def execVisub (sat : Bool) (d : VDst) (a b : VSrc) (s : State) : Out :=
  vector (.visub sat d a b) [a, b] d 2 8 (lanes2 fun x y => intLane sat (x.toInt - y.toInt)) s

def execVimul (sat : Bool) (d : VDst) (a b : VSrc) (s : State) : Out :=
  vector (.vimul sat d a b) [a, b] d 4 8 (lanes2 fun x y => intLane sat (x.toInt * y.toInt)) s

def execVimin (d : VDst) (a b : VSrc) (s : State) : Out :=
  vector (.vimin d a b) [a, b] d 2 8 (lanes2 fun x y => if y.slt x then y else x) s

def execVimax (d : VDst) (a b : VSrc) (s : State) : Out :=
  vector (.vimax d a b) [a, b] d 2 8 (lanes2 fun x y => if x.slt y then y else x) s

/-- A shift of each lane by its count: a lane of the count source, or the immediate (R141). -/
def shiftSrcs (a : List VSrc) (n : ShiftCount) : List VSrc :=
  match n with
  | .lanes c => a ++ [c]
  | .imm _ => a

def shiftLanes (f : Lane → Nat → Lane) (n : ShiftCount) : List VecImg → VecImg :=
  match n with
  | .lanes _ => lanes2 fun x y => f x (y.toNat % 32)
  | .imm k => lanes1 fun x => f x k.toNat

def execVshl (d : VDst) (a : VSrc) (n : ShiftCount) (s : State) : Out :=
  vector (.vshl d a n) (shiftSrcs [a] n) d 2 8 (shiftLanes (fun x k => x <<< k) n) s

def execVshr (d : VDst) (a : VSrc) (n : ShiftCount) (s : State) : Out :=
  vector (.vshr d a n) (shiftSrcs [a] n) d 2 8 (shiftLanes (fun x k => x >>> k) n) s

def execVsar (d : VDst) (a : VSrc) (n : ShiftCount) (s : State) : Out :=
  vector (.vsar d a n) (shiftSrcs [a] n) d 2 8 (shiftLanes (fun x k => x.sshiftRight k) n) s

/-- The funnel shift (R143). -/
def funnel (a b : Lane) (k : Nat) : Lane := if k = 0 then a else (a <<< k) ||| (b >>> (32 - k))

def funnelLanes (n : ShiftCount) : List VecImg → VecImg :=
  match n with
  | .lanes _ => lanes3 fun x y z => funnel x y (z.toNat % 32)
  | .imm k => lanes2 fun x y => funnel x y k.toNat

def execVfsh (d : VDst) (a b : VSrc) (n : ShiftCount) (s : State) : Out :=
  vector (.vfsh d a b n) (shiftSrcs [a, b] n) d 2 8 (funnelLanes n) s

/-- Bit j of the result is bit 4a + 2b + c of the table (R143, R144). -/
def lut3 {w : Nat} (t : BitVec 8) (a b c : BitVec w) : BitVec w :=
  let term := fun (i : Nat) =>
    if t.getLsbD i then
      (if i / 4 % 2 = 1 then a else ~~~a) &&& (if i / 2 % 2 = 1 then b else ~~~b) &&& (if i % 2 = 1 then c else ~~~c)
    else 0#w
  (List.range 8).foldl (fun r i => r ||| term i) 0#w

def execVlut3 (d : VDst) (a b c : VSrc) (t : BitVec 8) (s : State) : Out :=
  vector (.vlut3 d a b c t) [a, b, c] d 2 8 (lanes3 (lut3 t)) s

def execVpopc (d : VDst) (a : VSrc) (s : State) : Out :=
  vector (.vpopc d a) [a] d 2 8 (lanes1 fun x => BitVec.ofNat 32 (popCount x)) s

def execVclz (d : VDst) (a : VSrc) (s : State) : Out :=
  vector (.vclz d a) [a] d 2 8 (lanes1 fun x => BitVec.ofNat 32 (leadingZeros x)) s

/-! ### VP (R144) -/

/-- Naming the block's own predicate as destination (R63). -/
def coveredPred (i : Instr) (d : PReg) (c : Core) : Res Unit :=
  if c.block.any fun b => b.pred == d then .trap (trapW i 4#5 0#64) else .ok ()

/-- Write a predicate destination, in the bits that pass the block. -/
def Core.putP (c : Core) (d : PReg) (n : Nat) (img : PredImg) : Core := c.send n (.p (c.pslot d) c.passMask img)

/-- The bits of a comparison of two images. -/
def compareLanes (f : Lane → Lane → Bool) : List VecImg → PredImg
  | [a, b] => ofBits fun k => f (laneOf a k) (laneOf b k)
  | _ => 0#128

/-- Issue a comparison. -/
def compare (i : Instr) (d : PReg) (a b : VSrc) (f : Lane → Lane → Bool) (s : State) : Out :=
  s.settle do
    coveredPred i d s.core
    let (imgs, t) ← takeSrcs i [a, b] s
    .ok (t.mapCore fun c => (c.putP d 2 (compareLanes f imgs)).bump 8 1)

def execVfcmp (cc : FCond) (d : PReg) (a b : VSrc) (s : State) : Out :=
  compare (.vfcmp cc d a b) d a b (FCond.holds cc) s

def execVicmp (cc : ICond) (d : PReg) (a b : VSrc) (s : State) : Out :=
  compare (.vicmp cc d a b) d a b (ICond.holds cc) s

def execPlut3 (d a b c : PReg) (t : BitVec 8) (s : State) : Out :=
  s.settle do
    coveredPred (.plut3 d a b c t) d s.core
    usePoison ([a, b, c].any s.core.predPoisoned)
    .ok (s.mapCore fun k => (k.putP d 2 (lut3 t (k.getP a) (k.getP b) (k.getP c))).bump 8 1)

/-- A predicate read into a scalar register: lane 0 decides in a block (R134). -/
def predToX (d : Reg) (a : PReg) (f : PredImg → Nat) (s : State) : Out :=
  issue s fun s => do
    usePoison (s.core.predPoisoned a)
    .ok (s.mapCore fun c => (c.putX d 2 (BitVec.ofNat 64 (f (c.getP a)))).bump 8 1)

def execPcnt (d : Reg) (a : PReg) (s : State) : Out := predToX d a popCount s

def execPfirst (d : Reg) (a : PReg) (s : State) : Out := predToX d a trailingZeros s

/-! ### VX (R145) -/

def execVbcast (d : VDst) (a b : Reg) (s : State) : Out :=
  vector (.vbcast d a b) [] d 3 9
    (fun _ => ofLanes fun k => (s.core.getX a + BitVec.ofNat 64 k * s.core.getX b).setWidth 32) s (use := s.core.useX [a, b])

/-- VEXTR: lane 0 decides whether it executes; its source's queue traffic is made either way (R62, R134). -/
def execVextr (d : Reg) (a : VSrc) (b : Reg) (s : State) : Out :=
  s.settle do
    checkSides (.vextr d a b) [a] []
    waitEntries s [a]
    if s.core.lane0 then
      s.core.useX [b]
      let (imgs, t) ← takeSrcs (.vextr d a b) [a] s
      let v := laneOf (imgs.headD 0#4096) ((s.core.getX b).toNat % 128)
      .ok (t.mapCore fun c => (c.putX d 3 (v.setWidth 64)).bump 9 1)
    else .ok (s.mapCore fun c => c.popSrc a)

/-- One lane replaced. -/
def insertLane (k : Nat) (v : Lane) : List VecImg → VecImg
  | [a] => ofLanes fun j => if j = k then v else laneOf a j
  | _ => 0#4096

def execVins (d : VDst) (a : VSrc) (b c : Reg) (s : State) : Out :=
  vector (.vins d a b c) [a] d 3 9
    (insertLane ((s.core.getX c).toNat % 128) ((s.core.getX b).setWidth 32)) s (use := s.core.useX [b, c])

def permLanes : List VecImg → VecImg
  | [a, b, c] => ofLanes fun k =>
    let i := (laneOf c k).toNat % 256
    if i < 128 then laneOf a i else laneOf b (i - 128)
  | _ => 0#4096

def execVperm (d : VDst) (a b c : VSrc) (s : State) : Out := vector (.vperm d a b c) [a, b, c] d 4 9 permLanes s

def rotateLanes (n : Nat) : List VecImg → VecImg
  | [a] => ofLanes fun k => laneOf a ((k + n) % 128)
  | _ => 0#4096

/-- The count of VROTL and the register it reads. -/
def rotateOf (c : Core) : RotateCount → Nat
  | .reg b => (c.getX b).toNat % 128
  | .imm n => n.toNat

def rotateRegs : RotateCount → List Reg
  | .reg b => [b]
  | .imm _ => []

def execVrotl (d : VDst) (a : VSrc) (n : RotateCount) (s : State) : Out :=
  vector (.vrotl d a n) [a] d 3 9 (rotateLanes (rotateOf s.core n)) s
    (use := s.core.useX (rotateRegs n))

def zipLanes (h : Bool) : List VecImg → VecImg
  | [a, b] => ofLanes fun k => laneOf (if k % 2 = 0 then a else b) ((if h then 64 else 0) + k / 2)
  | _ => 0#4096

def execVzip (d : VDst) (a b : VSrc) (h : Bool) (s : State) : Out :=
  vector (.vzip d a b h) [a, b] d 3 9 (zipLanes h) s

/-! ### VR (R146, R147) -/

/-- One level of the tree: neighbours joined. -/
def joinPairs {α : Type} (f : α → α → α) : List α → List α
  | a :: b :: r => f a b :: joinPairs f r
  | l => l

/-- The pairwise tree over 128 values. -/
def tree {α : Type} (f : α → α → α) (l : List α) : List α :=
  (List.range 7).foldl (fun l _ => joinPairs f l) l

def treeSum (r : Rnd) (l : List Lane) : Lane := (tree (addLane r false) l).headD 0#32

/-- One value in every lane. -/
def splat (v : Lane) : VecImg := ofLanes fun _ => v

/-- A reduction written to every lane. -/
def reduce (f : List Lane → Lane) : List VecImg → VecImg
  | [a] => splat (f (lanesOf a))
  | _ => 0#4096

def execVrsum (r : Rnd) (d : VDst) (a : VSrc) (s : State) : Out :=
  vector (.vrsum r d a) [a] d 8 10 (reduce (treeSum r)) s

def execVrmax (d : VDst) (a : VSrc) (s : State) : Out :=
  vector (.vrmax d a) [a] d 8 10 (reduce fun l => (tree max32 l).headD 0#32) s

def execVrmin (d : VDst) (a : VSrc) (s : State) : Out :=
  vector (.vrmin d a) [a] d 8 10 (reduce fun l => (tree min32 l).headD 0#32) s

def execVrisum (sat : Bool) (d : VDst) (a : VSrc) (s : State) : Out :=
  vector (.vrisum sat d a) [a] d 8 10 (reduce fun l => intLane sat (l.foldl (fun n v => n + v.toInt) 0)) s

/-! ### VC (R148 to R151) -/

/-- A format code that an instruction refuses (R60 step 6). -/
def checkFormat (i : Instr) (bad : Bool) : Res Unit := if bad then .trap (trapW i 14#5 0#64) else .ok ()

def execVcvt (r : Rnd) (sat : Bool) (dst src : FmtCode) (d : VDst) (a : VSrc) (s : State) : Out :=
  vector (.vcvt r sat dst src d a) [a] d 4 11 (lanes1 (cvtLane src.toNat dst.toNat r sat)) s
    (fmt := checkFormat (.vcvt r sat dst src d a) (badPair src.toNat dst.toNat))

/-- The integer range of a format. -/
def intRange (width : Nat) (isSigned : Bool) : Int × Int :=
  if isSigned then (-(2 ^ (width - 1) : Int), 2 ^ (width - 1) - 1) else (0, 2 ^ width - 1)

/-- One lane of VQNT (R149). -/
def quantLane (r : Rnd) (width : Nat) (isSigned i4 : Bool) (a h : Lane) : Lane :=
  let (lo, hi) := intRange width isSigned
  let clamp := fun n : Int => BitVec.ofInt 32 (max lo (min hi n))
  if hdrError h || hdrInvalid h || (i4 && hdrI4Error h) then 0#32
  else
    match ofF32 a, hdrScale h with
    | .nan, _ => clamp (hdrZero h)
    | x, .fin n 0 e k => let _ := (x, n, e, k); clamp (hdrZero h)
    | .inf n, _ => clamp (if n then lo else hi)
    | x, scale => clamp (roundInt r (x.div scale) + hdrZero h)

/-- A destination that VQNT accepts. -/
def quantFmt (f : Nat) : Option (Nat × Bool) := if 8 ≤ f && f ≤ 12 then intFmt f else none

def execVqnt (r : Rnd) (dst : FmtCode) (d : VDst) (a b : VSrc) (s : State) : Out :=
  let f := (quantFmt dst.toNat).getD (16, true)
  vector (.vqnt r dst d a b) [a, b] d 4 11 (lanes2 (quantLane r f.1 f.2 (dst.toNat == 11))) s
    (fmt := checkFormat (.vqnt r dst d a b) (quantFmt dst.toNat).isNone)

/-- One lane of VSCACC (R150). -/
def scaccLane (r : Rnd) (sat : Bool) (src : Nat) (a h c : Lane) : Lane :=
  if hdrError h || hdrInvalid h then QNaN
  else rounded r sat (XVal.add r ((hdrScale h).mul (readFmt src a)) (ofF32 c))

/-- VSCACC: no QFMT converts the headers of vB. -/
def execVscacc (r : Rnd) (sat : Bool) (src : FmtCode) (d : VDst) (a b c : VSrc) (s : State) : Out :=
  let i : Instr := .vscacc r sat src d a b c
  s.settle do
    coveredPush i d s.core
    checkFormat i (src.toNat != 0 && src.toNat != 21)
    let _ ← takeFor i [a, b, c] d (.ok ()) s
    let q := s.core
    let img := lanes3 (scaccLane r sat src.toNat) [q.readSrc a, q.rawSrc b, q.readSrc c]
    .ok (s.mapCore fun q => ((((q.popSrc a).popRaw b).popSrc c).putDst d 6 img).bump 11 1)

/-- A value times 2^n; a magnitude beyond any format's is kept so (R151). -/
def scaleLane (r : Rnd) (sat : Bool) (a n : Lane) : Lane :=
  match ofF32 a with
  | .fin neg m e k => rounded r sat (.fin neg m (e + clampExp n.toInt) k)
  | v => rounded r sat v

def execVldexp (r : Rnd) (sat : Bool) (d : VDst) (a b : VSrc) (s : State) : Out :=
  vector (.vldexp r sat d a b) [a, b] d 4 11 (lanes2 (scaleLane r sat)) s

end Sys2Proof.Machine
end

