-- ==== Sys2Proof/Machine/Rotation.lean ====
section
/-! DEFINITION. Rotation arithmetic: cells in apply mode (R168 to R170), vectoring (R171, R172), scaling (R174), the norm monitor
and renormalisation (R176, R177), reverse passes (R178 to R180), products (R182, R183). -/

namespace Sys2Proof.Machine

/-! ### Apply mode -/

/-- c × x as an exact value, for a coefficient in units of 2^-30. -/
def coefTimes (c : Int) (x : Lane) : XVal := (XVal.ofInt c (-30)).mul (ofF32 x)

def flipSign (x : Lane) : Lane := x ^^^ 0x80000000#32

/-- A cell in apply mode: (x′, y′) (R168 to R170). -/
def applyCell (a x y : Lane) : Lane × Lane :=
  if a = 0#32 then (x, y)
  else if a = 0x40000000#32 then (y, flipSign x)
  else if a = 0x80000000#32 then (flipSign x, flipSign y)
  else if a = 0xC0000000#32 then (flipSign y, x)
  else
    let k := coef a
    (rnF32 (XVal.add .rne (coefTimes k.1 x) (coefTimes k.2 y)),
      rnF32 (XVal.add .rne (coefTimes k.1 y) (coefTimes k.2 x).neg))

/-! ### Pairing maps (R187, R188) -/

def partner (m : BitVec 1024) (k : Nat) : Nat := fieldNat m (8 * k) 8

def mapValid (m : BitVec 1024) : Bool :=
  (List.range 128).all fun k => partner m k < 128 && partner m (partner m k) == k

/-- The lower lanes of the pairs, ascending: cell j serves the j-th. -/
def mapCells (m : BitVec 1024) : List Nat := (List.range 128).filter fun k => k < partner m k

def mapOf (f : Nat → Nat) : BitVec 1024 := (List.range 128).foldl (fun m k => m ||| (BitVec.ofNat 1024 (f k) <<< (8 * k))) 0#1024

/-- The standard maps, entries 0 to 8. -/
def standardMap (e : Nat) : BitVec 1024 :=
  match e with
  | 0 => mapOf fun k => k ^^^ 1
  | 1 => mapOf fun k => if k = 0 || k = 127 then k else if k % 2 = 1 then k + 1 else k - 1
  | j => mapOf fun k => k ^^^ 2 ^ (j - 2)

/-! ### Stages -/

/-- The pairs of a rotation stage: lower lane, upper lane, angle. -/
def Stage.pairs (t : Sys2Proof.Machine.Stage) : List (Nat × Nat × Lane) :=
  ((mapCells t.map).zip t.par).map fun e => (e.1, partner t.map e.1, e.2)

/-- Replace lanes of an image. -/
def putLanes (v : VecImg) (l : List (Nat × Lane)) : VecImg :=
  ofLanes fun k => ((l.find? fun e => e.1 == k).map fun e => e.2).getD (laneOf v k)

/-- Two lanes for each pair. -/
def onPairs (t : Stage) (v : VecImg) (f : Lane → Lane → Lane → Lane × Lane) : VecImg :=
  putLanes v (t.pairs.foldr (fun e acc =>
    let r := f e.2.2 (laneOf v e.1) (laneOf v e.2.1)
    (e.1, r.1) :: (e.2.1, r.2) :: acc) [])

/-- A stage on its way forward (R168, R174). -/
def Stage.forward (t : Stage) (v : VecImg) : VecImg :=
  if t.scale then ofLanes fun k => mulLane .rne false (t.par.getD k 0#32) (laneOf v k) else onPairs t v applyCell

/-- A vector through the stages of a pass. -/
def forwardPass (stages : List Stage) (v : VecImg) : VecImg := stages.foldl (fun v t => Stage.forward t v) v

/-! ### Reverse mode (R178 to R180) -/

/-- 2π in F32. -/
def twoPi : Lane := 0x40C90FDB#32

/-- The gradient of a pair's angle (R178). -/
def angleGrad (x y gx gy : Lane) : Lane :=
  mulLane .rne false twoPi (rnF32 (XVal.add .rne ((ofF32 gx).mul (ofF32 y)) ((ofF32 gy).mul (ofF32 x)).neg))

/-- A vector, its gradient and the accumulator of one stage after the reverse of the stage. -/
def Stage.reverse (t : Stage) (v g acc : VecImg) : VecImg × VecImg × VecImg :=
  if t.scale then
    let x := ofLanes fun k => rnF32 (XVal.div (ofF32 (laneOf v k)) (ofF32 (t.par.getD k 0#32)))
    (x, ofLanes fun k => mulLane .rne false (t.par.getD k 0#32) (laneOf g k),
      ofLanes fun k => addLane .rne false (laneOf acc k) (mulLane .rne false (laneOf g k) (laneOf x k)))
  else
    let back := fun a x y => applyCell (0#32 - a) x y
    let grads := t.pairs.zipIdx.map fun e =>
      (e.2, addLane .rne false (laneOf acc e.2)
        (angleGrad (laneOf v e.1.1) (laneOf v e.1.2.1) (laneOf g e.1.1) (laneOf g e.1.2.1)))
    (onPairs t v back, onPairs t g back, putLanes acc grads)

/-- A pair of vectors through the stages of a pass, last stage first; the accumulators stand in the order of the stages. -/
def reversePass : List Stage → List VecImg → VecImg × VecImg → (VecImg × VecImg) × List VecImg
  | t :: ts, a :: as, p =>
    let r := reversePass ts as p
    let q := Stage.reverse t r.1.1 r.1.2 a
    ((q.1, q.2.1), q.2.2 :: r.2)
  | _, accs, p => (p, accs)

/-- The pairs that a stage emits, cells or lanes ascending (R179, R180). -/
def Stage.emits (t : Stage) (acc : VecImg) : List (Word × Lane) :=
  (List.range (if t.scale then 128 else (mapCells t.map).length)).map fun j => (t.first + BitVec.ofNat 64 j, laneOf acc j)

/-- The pairs of a pass in the order in which the reverse pass takes its stages. -/
def passEmits (stages : List Stage) (accs : List VecImg) : List (Word × Lane) :=
  ((stages.zip accs).reverse.map fun e => Stage.emits e.1 e.2).flatten

/-! ### The norm monitor (R176, R177) -/

def of64 (w : Word) : XVal := fF64.decode w.toNat

def to64 (v : XVal) : Word := BitVec.ofNat 64 (fF64.cvt .rne false v)

/-- A sum with the squares of the lanes of a vector added. -/
def normAdd (sum : Word) (v : VecImg) : Word :=
  (lanesOf v).foldl (fun n l =>
    let x := ofF32 l
    to64 (XVal.add .rne (of64 n) (x.mul x))) sum

def finiteNonzero : XVal → Bool
  | .fin _ m _ _ => m != 0
  | _ => false

/-- A vector renormalised as it leaves a pass (R177). -/
def renormed (stages : List Stage) (entered left : VecImg) : VecImg :=
  let a := of64 (normAdd 0#64 entered)
  let b := of64 (normAdd 0#64 left)
  if finiteNonzero a && finiteNonzero b && !(stages.any fun t => t.scale) then
    let f := to64 (of64 (to64 (XVal.div a b))).sqrt
    ofLanes fun k => rnF32 ((ofF32 (laneOf left k)).mul (of64 f))
  else left

/-! ### Vectoring (R171, R172) -/

/-- The angle and the forced pivot of a pair, and whether it is a zero pair. -/
def vectorPair (x y : Lane) : Lane × Lane × Lane × Bool :=
  let inf : Lane := 0x7F800000#32
  match ofF32 x, ofF32 y with
  | .nan, _ | _, .nan => (0#32, QNaN, QNaN, false)
  | .inf n, .fin .. => (if n then 0x80000000#32 else 0#32, inf, 0#32, false)
  | .fin .., .inf n => (if n then 0xC0000000#32 else 0x40000000#32, inf, 0#32, false)
  | .inf n, .inf k =>
    (match n, k with
      | false, false => 0x20000000#32 | false, true => 0xE0000000#32
      | true, false => 0x60000000#32 | true, true => 0xA0000000#32, inf, 0#32, false)
  | .fin n m e k, .fin n' m' e' k' =>
    if m = 0 && m' = 0 then (0#32, 0#32, 0#32, true)
    else
      let v : XVal := .fin n m e k
      let w : XVal := .fin n' m' e' k'
      (pairAngle v w, rnF32 (XVal.hyp v w), 0#32, false)

/-! ### Products (R182, R183) -/

/-- t of a chunk of float operands: the exact sum (R182). -/
def chunkSum (l : List (XVal × XVal)) : XVal :=
  match l.map fun e => e.1.mul e.2 with
  | [] => .zero false
  | x :: r => r.foldl (XVal.add .rne) x

/-- acc after a chunk of float operands. -/
def floatChunk (acc : Lane) (l : List (XVal × XVal)) : Lane :=
  rnF32 (XVal.add .rne (ofF32 acc) (ofF32 (rnF32 (chunkSum l))))

/-- acc after a chunk of integer operands. -/
def intChunk (acc : Lane) (l : List (Int × Int)) : Lane :=
  acc + BitVec.ofInt 32 (l.foldl (fun n e => n + e.1 * e.2) 0)

end Sys2Proof.Machine
end

