-- ==== Sys2Proof/Machine/Sketch.lean ====
section
/-! DEFINITION. Count sketches: headers and layout (R213 to R215), counter pairs (R216, R226), hashing (R217, R218), updates
(R219 to R221) and queries (R222, R223). -/

namespace Sys2Proof.Machine

/-! ### Headers (R213 to R215) -/

/-- A sketch as a command holds it: its address and the fields of its header. -/
structure SketchHdr where
  addr : Nat
  kind : Nat
  rows : Nat
  lw : Nat
  version : Nat
  seed : Word
  e : Int
  ibase : Word
  icount : Word
  clear : Bool

def sketchHdr (a : Word) (bs : List Byte) : SketchHdr :=
  let f := fun o n => leNat ((bs.drop o).take n)
  { addr := a.toNat
    kind := f 0 1
    rows := f 1 1
    lw := f 2 1
    version := f 3 1
    seed := BitVec.ofNat 64 (f 4 4)
    e := (BitVec.ofNat 16 (f 8 2)).toInt
    ibase := BitVec.ofNat 64 (f 0x10 8)
    icount := BitVec.ofNat 64 (f 0x18 8)
    clear := f 0x0A 6 == 0 && f 0x30 16 == 0 }

def SketchHdr.valid (h : SketchHdr) : Bool :=
  1 ≤ h.kind && h.kind ≤ 4 && (h.rows == 3 || h.rows == 5 || h.rows == 7) && 10 ≤ h.lw && h.lw ≤ 26 && h.version == 1
    && -255 ≤ h.e && h.e ≤ 255 && h.icount != 0#64 && h.clear

def SketchHdr.width (h : SketchHdr) : Nat := 2 ^ h.lw
def SketchHdr.pairs (h : SketchHdr) : Nat := h.rows * h.width

/-- Virtual address of a counter, by its position t in the bitmap (R214). -/
def SketchHdr.counterVa (h : SketchHdr) (t : Nat) : Nat := h.addr + 64 + 4 * t

def SketchHdr.bitmapVa (h : SketchHdr) : Nat := h.addr + 64 + 4 * h.pairs

def SketchHdr.clipVa (h : SketchHdr) (t : Nat) : Nat := h.bitmapVa + t / 8

/-- Bytes of a sketch (R214). -/
def SketchHdr.extent (h : SketchHdr) : Nat := 64 + 4 * h.pairs + (h.pairs + 7) / 8

def SketchHdr.covers (h : SketchHdr) (i : Word) : Bool := (i - h.ibase).ult h.icount

/-! ### Hashing (R217, R218) -/

def mix64 (z : Word) (k : Nat) : Word :=
  let z := z + BitVec.ofNat 64 k * 0x9E3779B97F4A7C15#64
  let z := (z ^^^ (z >>> 30)) * 0xBF58476D1CE4E5B9#64
  let z := (z ^^^ (z >>> 27)) * 0x94D049BB133111EB#64
  z ^^^ (z >>> 31)

def SketchHdr.bucket (h : SketchHdr) (j : Nat) (i : Word) : Nat :=
  ((i * (mix64 h.seed (2 * j + 1) ||| 1#64)) >>> (64 - h.lw)).toNat

def SketchHdr.negative (h : SketchHdr) (j : Nat) (i : Word) : Bool := (i * (mix64 h.seed (2 * j + 2) ||| 1#64)).getLsbD 63

/-- Position of the counter of an index in a row. -/
def SketchHdr.place (h : SketchHdr) (j : Nat) (i : Word) : Nat := j * h.width + h.bucket j i

/-! ### Memory of a sketch -/

/-- What later accesses of the core have met of what the running head of a queue reads (R288 row 3). -/
def State.headOlds (s : State) (q : EngineQ) : List OldByte := ((s.core.head q).map fun m => m.olds).getD []

/-- Bytes of a sketch within one line as a mortar reads them for the running head of a queue, at their home. -/
def State.sketchRead (s : State) (q : EngineQ) (pages : List Page) (va n : Nat) : State × List Byte × Bool :=
  match pageFor pages va with
  | none => (s, List.replicate n 0#8, true)
  | some pg =>
    let pa := pg.pa va
    let s := (s.recall (pa / 64)).reachFor s.core.ctx pa
    let cells := withOlds (s.headOlds q) pa (s.cells pa n pg.key)
    (s.showTo (some s.core.num) pa n, cells.map fun e => e.1, cells.any fun e => e.2)

/-- What commands of a queue keep of bytes follows a write that a mortar makes for its head (R227). -/
def Core.rewriteOlds (c : Core) (q : EngineQ) (loc : Nat) (bs : List Byte) : Core :=
  let new := fun (e : OldByte) =>
    if loc ≤ e.loc && e.loc < loc + bs.length then { e with byte := bs.getD (e.loc - loc) e.byte, poisoned := false } else e
  c.setQueue q ((c.queue q).mapCmds fun m => { m with olds := m.olds.map new })

/-- Bytes of a sketch that a mortar writes for the running head of a queue (R286). Where a later access of the core has written,
that write stands after this one in the order of the home. -/
def State.sketchWrite (s : State) (q : EngineQ) (pages : List Page) (va : Nat) (bs : List Byte) : State :=
  match pageFor pages va, s.core.head q with
  | some pg, some m =>
    let pa := pg.pa va
    let under := fun (i : Nat) => m.olds.any fun e => e.loc == pa + i && e.written
    let who : Writer := .engine s.core.num q m
    let s := (s.recall (pa / 64)).reachFor s.core.ctx pa
    let s := if (List.range bs.length).any under then
        bs.zipIdx.foldl (fun s e => if under e.2 then s else s.put who (pa + e.2) [e.1] pg.key) s
      else s.put who pa bs pg.key
    s.mapCore fun c => c.rewriteOlds q pa bs
  | _, _ => s

/-- A counter with its clip bit (R216). -/
structure Pair where
  value : Int
  clip : Bool
  poisoned : Bool

/-- Read a pair: 0x8000_0000 is −2³¹ (R219), and poison of either part poisons both (R226). -/
def State.readPair (s : State) (q : EngineQ) (pages : List Page) (h : SketchHdr) (t : Nat) : State × Pair :=
  let (s, bs, bad) := s.sketchRead q pages (h.counterVa t) 4
  let (s, cs, bad') := s.sketchRead q pages (h.clipVa t) 1
  (s, ⟨(BitVec.ofNat 32 (leNat bs)).toInt, (cs.headD 0#8).getLsbD (t % 8), bad || bad'⟩)

def State.writeClip (s : State) (q : EngineQ) (pages : List Page) (h : SketchHdr) (t : Nat) (clip : Bool) : State :=
  let (s, cs, _) := s.sketchRead q pages (h.clipVa t) 1
  let m : Byte := 1#8 <<< (t % 8)
  let b := if clip then cs.headD 0#8 ||| m else cs.headD 0#8 &&& ~~~m
  s.sketchWrite q pages (h.clipVa t) [b]

/-- Write a pair's counter, and its clip bit where it changes. -/
def State.writePair (s : State) (q : EngineQ) (pages : List Page) (h : SketchHdr) (t : Nat) (v : Int) (clip changed : Bool) :
    State :=
  let s := s.sketchWrite q pages (h.counterVa t) (natBytes 4 (BitVec.ofInt 32 v).toNat)
  if changed then s.writeClip q pages h t clip else s

/-- An 8-byte count of the header raised by one, saturating: strays as R213 says, and clips alike (assumption 106). -/
def State.raiseField (s : State) (q : EngineQ) (pages : List Page) (h : SketchHdr) (off : Nat) : State :=
  let (s, bs, _) := s.sketchRead q pages (h.addr + off) 8
  s.sketchWrite q pages (h.addr + off) (natBytes 8 (min (leNat bs + 1) (2 ^ 64 - 1)))

/-- The home of a pair logs that a mortar met it poisoned (R226, R396). -/
def State.logCounter (s : State) (pages : List Page) (h : SketchHdr) (t : Nat) : State :=
  let pa := ((pageFor pages (h.counterVa t)).map fun pg => pg.pa (h.counterVa t)).getD 0
  s.mapPkg fun p => p.logError 6 (homeHub pa) s.core.ctx pa

/-! ### Updates (R219 to R221) -/

def counterLimit : Int := 2 ^ 31 - 1

/-- One row of an update with the quantised value; zero changes no counter and no clip bit. -/
def State.updateRow (s : State) (q : EngineQ) (pages : List Page) (h : SketchHdr) (i : Word) (x : Int) (j : Nat) : State :=
  let t := h.place j i
  let (s, p) := s.readPair q pages h t
  if p.poisoned then s.logCounter pages h t
  else if x = 0 then s
  else
    let v := p.value + (if h.negative j i then -x else x)
    if counterLimit < v || v < -counterLimit then
      let s := s.writePair q pages h t (max (-counterLimit) (min counterLimit v)) true (!p.clip)
      if p.clip then s else s.raiseField q pages h 0x28
    else s.writePair q pages h t v p.clip false

/-- Apply an update of index i with an exact quantity, already divided by the scale's power (R219, R221). -/
def State.sketchUpdate (s : State) (q : EngineQ) (pages : List Page) (h : SketchHdr) (i : Word) (x : XVal) : State :=
  let s := s.mapCore fun c => c.bump 42 1
  match h.covers i, x with
  | true, .fin n m e k =>
    let z := roundInt .rne (.fin n m (e - h.e) k)
    (List.range h.rows).foldl (fun s j => s.updateRow q pages h i z j) s
  | _, _ => s.raiseField q pages h 0x20

/-! ### Queries (R222, R223) -/

/-- Insert an integer into a rising list. -/
def insertInt : List Int → Int → List Int
  | [], n => [n]
  | k :: r, n => if k ≤ n then k :: insertInt r n else n :: k :: r

def medianLow (l : List Int) : Option Int := (l.foldl insertInt [])[(l.length - 1) / 2]?

/-- What the rows of a query gave. -/
structure Answer where
  values : List Int
  clipped : Bool
  poisoned : Bool

def State.queryRow (pages : List Page) (h : SketchHdr) (i : Word) (acc : State × Answer) (j : Nat) : State × Answer :=
  let t := h.place j i
  let (s, p) := acc.1.readPair .k pages h t
  if p.poisoned then (s.logCounter pages h t, { acc.2 with poisoned := true })
  else if p.clip then (s, { acc.2 with clipped := true })
  else (s, { acc.2 with values := acc.2.values ++ [if h.negative j i then -p.value else p.value] })

/-- The record of a query. -/
def State.sketchQuery (s : State) (pages : List Page) (h : SketchHdr) (i : Word) : State × Word :=
  if !h.covers i then (s, bitAt true 43 ||| bitAt true 40 ||| QNaN.setWidth 64)
  else
    let (s, a) := (List.range h.rows).foldl (State.queryRow pages h i) (s, ⟨[], false, false⟩)
    let flags := bitAt a.poisoned 42 ||| bitAt a.clipped 41
    match medianLow a.values with
    | none => (s, flags ||| bitAt true 40 ||| QNaN.setWidth 64)
    | some m => (s, flags ||| BitVec.ofNat 64 a.values.length <<< 32 ||| (rnF32 (.ofInt m h.e)).setWidth 64)

def answerNone (r : Word) : Bool := r.getLsbD 40

/-! ### Opening a sketch (R215, R232) -/

def headerTrap (q : EngineQ) (m : Cmd) (a : Word) : Trap := engineTrap q m 24#5 a

/-- Bytes that a header's rows and lw give its sketch; the header alone where they give no shape (R214, R215). -/
def SketchHdr.spanned (h : SketchHdr) : Nat :=
  if (h.rows == 3 || h.rows == 5 || h.rows == 7) && 10 ≤ h.lw && h.lw ≤ 26 then h.extent else 64

/-- Translate the whole extent of a sketch for an access, and hold its pages (R232). An address that is null, local or misaligned
names no sketch: cause 24 (R238; assumption 110). -/
def Eng.holdSketch (q : EngineQ) (m : Cmd) (a : Word) (acc : Acc) : Eng (List Page) := do
  if a = 0#64 || isLocal a || a.toNat % 64 ≠ 0 then Eng.stop (headerTrap q m a)
  let ps ← Eng.readPieces q { m with pins := [], hold := [] } [(a.toNat, 64)]
  let s ← get
  match s.translateExtent s.core.ctx a.toNat (sketchHdr a (pieceBytes ps)).spanned acc with
  | (s, .error t) => do
    set s
    Eng.stop (blame q m t)
  | (s, .ok pages) => do
    set s
    pure pages

/-- Read the header of a sketch and check it with the kinds that its command takes (R215, R232). -/
def Eng.checkSketch (q : EngineQ) (m : Cmd) (a : Word) (kinds : List Nat) : Eng (SketchHdr × List Byte) := do
  let bs ← Eng.fetch q m a 64
  let h := sketchHdr a bs
  if !h.valid || !kinds.contains h.kind then Eng.stop (headerTrap q m a)
  pure (h, bs)

/-- A sketch translated, read and checked. -/
def Eng.openSketch (q : EngineQ) (m : Cmd) (a : Word) (kinds : List Nat) (acc : Acc) : Eng (SketchHdr × List Page) := do
  let pages ← Eng.holdSketch q m a acc
  let (h, _) ← Eng.checkSketch q m a kinds
  pure (h, pages)

end Sys2Proof.Machine
end

