-- ==== Sys2Proof/Machine/VectorMem.lean ====
section
/-! DEFINITION. The statistics buffer VS (R152 to R154), vector loads and stores VM (R155, R156, R340), conditional streams VQ
(R157 to R159). -/

namespace Sys2Proof.Machine

/-! ### VS -/

def Core.stat (c : Core) (k : Nat) : StatEntry := c.stats.getD k StatEntry.zero

/-- The entry that a register selects. -/
def Core.statIndex (c : Core) (a : Reg) : Nat := (c.getX a).toNat % 1024

/-- Poisoned granules of an entry: n and s1, s2 and m, e and μ, ρ and λ. -/
def Core.statPoisoned (c : Core) (k : Nat) (gs : List Nat) : Bool := gs.any fun g => c.poison.contains (.stat k g)

/-- Replace an entry; the granules written whole lose their poison. -/
def Core.setStat (c : Core) (k : Nat) (e : StatEntry) (whole : List Nat) : Core :=
  { c with
    stats := c.stats.setIfInBounds k e
    poison := c.poison.filter fun p => match p with
      | .stat j g => !(j == k && whole.contains g)
      | _ => true }

/-- The eight fields of an entry as bytes, and back. -/
def StatEntry.bytes (e : StatEntry) : List Byte :=
  natBytes 4 e.n.toNat ++ natBytes 4 e.s1.toNat ++ natBytes 4 e.s2.toNat ++ natBytes 4 e.m.toNat ++ natBytes 4 e.e.toNat
    ++ natBytes 4 e.mu.toNat ++ natBytes 4 e.rho.toNat ++ natBytes 4 e.lam.toNat

def statOf (bs : List Byte) : StatEntry :=
  let f := fun k => BitVec.ofNat 32 (leNat ((bs.drop (4 * k)).take 4))
  ⟨f 0, f 1, f 2, f 3, f 4, f 5, f 6, f 7⟩

/-- A number that stands for a byte of the statistics buffer among the locations of memory and of the scratchpad. -/
def statLoc (k o : Nat) : Nat := scratchLoc (2 ^ 24 + 32 * k + o)

/-- An entry as a VS instruction finds it: what the lattice has written to it and no WAITC covers is found field by field, old or
new (R154). -/
def State.statFound (s : State) (k : Nat) : StatEntry × State :=
  if s.core.unseenAt (statLoc k 0) 32 then
    let r := s.findLoad (statLoc k 0) (s.core.stat k).bytes
    (statOf r.1, r.2)
  else (s.core.stat k, s)

/-- A VS instruction replaces an entry: nothing older of it is found. -/
def Core.putStat (c : Core) (k : Nat) (e : StatEntry) (whole : List Nat) : Core :=
  ((c.pass (statLoc k 0) 32).setStat k e whole).bump 12 1

def execVstatClr (a : Reg) (s : State) : Out :=
  issue s fun s => do
    s.core.useX [a]
    .ok (s.mapCore fun c => c.putStat (c.statIndex a) StatEntry.clear [0, 1, 2, 3])

/-- u of a lane: 2^(v − m) rounded, exactly 1 at the maximum itself (R152). -/
def statTerm (m v : Lane) : Lane :=
  match ofF32 v, ofF32 m with
  | .inf false, .inf false => 0x3F800000#32
  | _, .inf false => 0#32
  | .inf _, _ => 0#32
  | x, y => rnF32 (XVal.exp2 (XVal.add .rne x y.neg))

/-- The sum e after its maximum moves from m to m2 (R152). -/
def scaleStat (e m m2 : Lane) : Lane :=
  match ofF32 m, ofF32 m2 with
  | .inf false, .inf false => e
  | _, .inf false => 0#32
  | .inf _, _ => rnF32 ((ofF32 e).mul (.zero false))
  | x, y => if x.numEq y then e else rnF32 (XVal.timesExp2 (ofF32 e) (XVal.add .rne x y.neg))

/-- VSTAT.acc over the lanes that a mask selects (R152). -/
def StatEntry.accumulate (t : StatEntry) (mask : PredImg) (v : VecImg) : StatEntry :=
  let lanes := (List.range 128).map fun k => if mask.getLsbD k then some (laneOf v k) else none
  let total := fun (f : Lane → Lane) => treeSum .rne (lanes.map fun l => (l.map f).getD 0#32)
  let m2 := lanes.foldl (fun m l => (l.map (max32 m)).getD m) t.m
  { t with
    n := BitVec.ofNat 32 (min (t.n.toNat + popCount mask) (2 ^ 32 - 1))
    s1 := addLane .rne false t.s1 (total id)
    s2 := addLane .rne false t.s2 (total fun x => mulLane .rne false x x)
    e :=
      if isNaN32 m2 then QNaN
      else if m2 = MinusInf then t.e
      else addLane .rne false (scaleStat t.e t.m m2) (total (statTerm m2))
    m := m2 }

def execVstatAcc (a : Reg) (b : VSrc) (s : State) : Out :=
  s.settle do
    let (imgs, t) ← takeSrcs (.vstatAcc a b) [b] s
    s.core.useX [a]
    let k := s.core.statIndex a
    usePoison (s.core.statPoisoned k [0, 1, 2])
    let (e, t) := t.statFound k
    .ok (t.mapCore fun c => c.putStat k (e.accumulate c.passMask (imgs.headD 0#4096)) [])

/-- VSTAT.fin (R153). A NaN wins the maximum with +0, and rho is a NaN (assumption 112). -/
def StatEntry.finish (t : StatEntry) (eps : Lane) : StatEntry :=
  if t.n = 0#32 then { t with mu := QNaN, rho := QNaN, lam := QNaN }
  else
    let n := XVal.ofInt t.n.toNat 0
    let mu := rnF32 ((ofF32 t.s1).div n)
    let d := subLane .rne false (rnF32 ((ofF32 t.s2).div n)) (mulLane .rne false mu mu)
    let r := addLane .rne false (max32 d 0#32) eps
    { t with
      mu := mu
      rho := rnF32 (ofF32 r).rsqrt
      lam := addLane .rne false t.m (rnF32 (ofF32 t.e).log2) }

def execVstatFin (a c : Reg) (s : State) : Out :=
  issue s fun s => do
    s.core.useX [a, c]
    let k := s.core.statIndex a
    usePoison (s.core.statPoisoned k [0, 1, 2])
    let (e, s) := s.statFound k
    .ok (s.mapCore fun q => q.putStat k (e.finish ((q.getX c).setWidth 32)) [3])

/-- A field of an entry and the granule that holds it. -/
def StatEntry.get (e : StatEntry) : StatField → Lane × Nat
  | .mean => (e.mu, 2)
  | .rdev => (e.rho, 3)
  | .lse => (e.lam, 3)
  | .count => (e.n, 0)

def execVstld (f : StatField) (d : VDst) (a : Reg) (s : State) : Out :=
  let i : Instr := .vstld f d a
  let k := s.core.statIndex a
  s.settle do
    coveredPush i d s.core
    let (_, t) ← takeFor i [] d (do s.core.useX [a]; usePoison (s.core.statPoisoned k [((s.core.stat k).get f).2])) s
    let (e, t) := t.statFound k
    .ok (t.mapCore fun c => (c.putDst d 12 (splat (e.get f).1)).bump 12 1)

/-! ### VM (R155, R156) -/

/-- Base address, word stride and the registers of a strided form. -/
def strideOf (c : Core) (a : Reg) : StrideForm → Word × Int × List Reg
  | .reg disp r => (c.effective a disp, (c.getX r).toInt, [a, r])
  | .imm t => (c.getX a, t.toInt, [a])

/-- The lanes of word i that a mask selects. -/
def wordMask (m : PredImg) (i : Nat) : BitVec 16 := m.extractLsb' (16 * i) 16

/-- The accessed words: index in the access, word number of the scratchpad. -/
def accessedWords (m : PredImg) (base : Word) (stride : Int) : List (Nat × Int) :=
  ((List.range 8).filter fun i => wordMask m i != 0#16).map fun i => (i, (fieldNat base 6 16 : Int) + i * stride)

/-- The first bank that two accessed words share. -/
def sharedBank : List (Nat × Int) → List Nat → Option Nat
  | [], _ => none
  | w :: r, seen => if seen.contains (bankOf w.2.toNat) then some (bankOf w.2.toNat) else sharedBank r (bankOf w.2.toNat :: seen)

/-- The address checks of R155, with the words as index and scratchpad offset. A strided word outside the scratchpad raises
cause 6 with the base address (assumption 35). -/
def vectorWords (i : Instr) (c : Core) (base : Word) (stride : Int) : Res (List (Nat × Nat)) := do
  if base.toNat % 64 ≠ 0 then Res.trap (.plain 5#5 base 0#64 0#64)
  let words := accessedWords c.passMask base stride
  if (localOffset base).isNone || words.any fun w => w.2 < 0 || 63487 < w.2 then Res.trap (.plain 6#5 base 0#64 0#64)
  match sharedBank words [] with
  | some b => .trap (trapW i 7#5 (BitVec.ofNat 64 b))
  | none => .ok (words.map fun w => (w.1, 64 * w.2.toNat))

def localAddr (o : Nat) : Word := BitVec.ofNat 64 (2 ^ 63 + o)

/-- Every accessed word that lies in a stash window may be touched: written first (R311), then stashed (R43). -/
def touchWords (s : State) (writes : Bool) : List (Nat × Nat) → Res Unit
  | [] => .ok ()
  | w :: r => do
    let hit := s.core.windowAt w.2
    if writes then mayWrite s hit (localAddr w.2)
    touchWindow s hit
    touchWords s writes r

/-- The first word of a load with poisoned bytes that no collected store covers, or with poisoned bytes of one. A collecting
load may so take every byte that it needs from entries and raise nothing (R156, R342; assumption 33). Words are read whole, so
that poison in the failing lanes of an accessed word counts (R155; assumption 107). -/
def poisonedWordOf (c : Core) (words : List (Nat × Nat)) : Option (Nat × Nat) :=
  words.find? fun w => c.mergedPoison (localAddr w.2) 64
    || (c.merged (localAddr w.2) 64).zipIdx.any fun b => b.1.isNone && c.scratchPoisoned (w.2 + b.2) 1

/-- The 64 bytes of one word as the control core reads them, merged in collecting mode. -/
def readWords (s : State) : List (Nat × Nat) → List (Nat × List Byte) × State
  | [] => ([], s)
  | w :: r =>
    let known := s.core.merged (localAddr w.2) 64
    let (bs, s) := s.readLocal w.2 64
    let (rest, s) := readWords s r
    ((w.1, overlaid known bs) :: rest, s)

/-- The image whose words are given by their indexes; a word not accessed is zero and is masked when it lands. -/
def imageOf (words : List (Nat × List Byte)) : VecImg :=
  BitVec.ofNat 4096 (words.foldl (fun n w => n + leNat w.2 * 2 ^ (512 * w.1)) 0)

/-- A vector load. Of several poisoned words the first accessed one gives cause 19 its address (assumption 115). -/
def vectorLoad (i : Instr) (d : VDst) (base : Word) (stride : Int) (rs : List Reg) (s : State) : Out :=
  s.settle do
    coveredPush i d s.core
    let (_, t) ← takeFor i [] d (.ok ()) s
    let words ← vectorWords i s.core base stride
    s.core.useX rs
    touchWords s false words
    match poisonedWordOf (words.foldl (fun t w => t.settleRead w.2 64) s).core words with
    | some w => .trap (.plain 19#5 (localAddr w.2) s.core.pc 0#64)
    | none =>
      let (bs, t) := readWords t words
      .ok (t.mapCore fun c => (c.putDst d (c.loadCycles 7) (imageOf bs)).bump 13 words.length)

/-- Maximal runs of one bits: first lane and length, from lane k on, within 16 lanes. -/
def runs (m : BitVec 16) : Nat → Nat → List (Nat × Nat)
  | 0, _ => []
  | fuel + 1, k =>
    if 16 ≤ k then []
    else if m.getLsbD k then
      let n := trailingZeros (~~~(m >>> k))
      (k, n) :: runs m fuel (k + n)
    else runs m fuel (k + 1)

/-- What a vector store writes: scratchpad offset and bytes of every run, in word order and then lane order (R340). -/
def storeRuns (m : PredImg) (v : VecImg) (words : List (Nat × Nat)) : List (Nat × List Byte) :=
  words.flatMap fun w =>
    (runs (wordMask m w.1) 17 0).map fun r =>
      (w.2 + 4 * r.1, natBytes (4 * r.2) (v.extractLsb' (512 * w.1 + 32 * r.1) (32 * r.2)).toNat)

/-- A vector store. -/
def vectorStore (i : Instr) (b : VSrc) (base : Word) (stride : Int) (rs : List Reg) (s : State) : Out :=
  s.settle do
    checkSides i [b] []
    waitEntries s [b]
    let words ← vectorWords i s.core base stride
    s.core.useX rs
    let (imgs, t) ← takeSrcs i [b] s
    let writes := storeRuns s.core.passMask (imgs.headD 0#4096) words
    if s.core.collecting then do
      words.forM fun w => mayWrite s (s.core.windowAt w.2) (localAddr w.2)
      collect (writes.map fun w => (localAddr w.1, w.2)) s t
    else do
      touchWords s true words
      .ok ((writes.foldl (fun t w => t.storeLocal w.1 w.2) t).mapCore fun c => c.bump 14 words.length)

def execVld (d : VDst) (a : Reg) (disp : BitVec 24) (s : State) : Out :=
  vectorLoad (.vld d a disp) d (s.core.effective a disp) 1 [a] s

def execVst (b : VSrc) (a : Reg) (disp : BitVec 24) (s : State) : Out :=
  vectorStore (.vst b a disp) b (s.core.effective a disp) 1 [a] s

def execVlds (d : VDst) (a : Reg) (f : StrideForm) (s : State) : Out :=
  let p := strideOf s.core a f
  vectorLoad (.vlds d a f) d p.1 p.2.1 p.2.2 s

def execVsts (b : VSrc) (a : Reg) (f : StrideForm) (s : State) : Out :=
  let p := strideOf s.core a f
  vectorStore (.vsts b a f) b p.1 p.2.1 p.2.2 s

/-! ### VQ (R157 to R159) -/

/-- Split records into full entries and what remains. -/
def packRecords : Nat → List Lane → List VecImg × List Lane
  | 0, l => ([], l)
  | n + 1, l =>
    let r := packRecords n (l.drop 128)
    (ofLaneList (l.take 128) :: r.1, r.2)

/-- Poisoned granules of the assembly buffer as bits of an entry's poison (R395). -/
def Core.bufferPoison (c : Core) : BitVec 64 :=
  c.poison.foldl (fun m g => match g with
    | .buffer k => m ||| (1#64 <<< k)
    | _ => m) 0#64

/-- The buffer's poison moves with its records into the entry of a ticket. -/
def Core.poisonEntry (c : Core) (q : QNum) (ticket : Nat) (bits : BitVec 64) : Core :=
  let mark := fun e : QEntry => if e.ticket = ticket then { e with poison := e.poison ||| bits } else e
  { c.setEntries q ((c.entries q).map mark) with
    poison := c.poison.filter fun g => match g with
      | .buffer _ => false
      | _ => true }

/-- The full entries that n records more would form do not fit q4 (R157, R158). -/
def roomFor (i : Instr) (n : Nat) (c : Core) : Res Unit :=
  if Config.queueDepth < (c.entries 4#3).length + (c.buffer.length + n) / 128 then .trap (trapQ i 4#3) else .ok ()

/-- Append records to the stream of q4. -/
def Core.appendRecords (c : Core) (records : List Lane) : Core :=
  let all := c.buffer ++ records
  let n := all.length / 128
  let p := packRecords n all
  let d := { c.pushFull 4#3 p.1 with buffer := p.2 }
  if n = 0 then d else d.poisonEntry 4#3 c.ticket c.bufferPoison

def execVpush (a : VSrc) (b : PReg) (s : State) : Out :=
  let i : Instr := .vpush a b
  s.settle do
    let m := s.core.getP b &&& s.core.passMask
    let lanes := (List.range 128).filter fun k => m.getLsbD k
    checkSides i [a] []
    waitEntries s [a]
    roomFor i lanes.length s.core
    usePoison (s.core.predPoisoned b)
    let (imgs, t) ← takeSrcs i [a] s
    .ok (t.mapCore fun c => c.appendRecords (lanes.map (laneOf (imgs.headD 0#4096))))

def execVpop (d : VDst) (s : State) : Out :=
  s.settle do
    coveredPush (.vpop d) d s.core
    checkPushSide (.vpop d) d
    match s.core.visible 4#3 with
    | none => .error (.wait (.entry 4#3) s)
    | some e => do
      checkRoom (.vpop d) d s.core
      usePoison (e.1.poison != 0#64)
      .ok (s.mapCore fun c => (c.popSrc (.pop 4#3)).putDst d 2 (c.deliver 4#3 e.2))

/-- VSTRC: with an empty buffer it does nothing, and consumes no poisoned x[A] (R158; assumption 34). -/
def execVstrc (a : Reg) (s : State) : Out :=
  issue s fun s =>
    let n := s.core.buffer.length
    if n = 0 then .ok s
    else do
      roomFor (.vstrc a) (128 - n) s.core
      s.core.useX [a]
      .ok (s.mapCore fun c => c.appendRecords (List.replicate (128 - n) ((s.core.getX a).setWidth 32)))

end Sys2Proof.Machine
end

