-- ==== Sys2Proof/Machine/LatticeRun.lean ====
section
/-! DEFINITION. What the lattice does with a command: schedules and passes (R187 to R191), the parts between the boundaries
of each command (R195, R200, R208 to R212), the end of each. A part is one vector, vector pair, elimination, K-chunk, or one
entry of an output. -/

namespace Sys2Proof.Machine

/-! ### Commands that an ARES resumes (R212) -/

/-- The command that runs: the one issued, or the one whose record an ARES read. -/
def Cmd.target (m : Cmd) : Cmd :=
  match m.sweep.resumed with
  | some (w, [d, a, b, c]) =>
    match decode w with
    | .ok i => { m with word := w, instr := i, d := d, a := a, b := b, c := c }
    | .error _ => m
  | _ => m

def invalidTrap (m : Cmd) (code : Nat) : Trap := engineTrap .l m 14#5 (BitVec.ofNat 64 code)

/-- Invalid content (R205). -/
def Eng.invalid {α : Type} (m : Cmd) (code : Nat) : Eng α := Eng.stop (invalidTrap m code)

/-- Replace the progress of the running lattice command. -/
def Eng.sweep (f : Sweep → Sweep) : Eng Unit := Eng.progress .l fun x => { x with sweep := f x.sweep }

/-! ### Headers, ranges, stages (R189 to R191) -/

def headerBad (bs : List Byte) : Bool :=
  let f := fun o n => leNat ((bs.drop o).take n)
  let a16 := f 4 1 == 20
  f 0 4 == 0 || 2 ^ 31 < f 0 4 || (f 4 1 != 19 && f 4 1 != 20) || f 5 3 != 0 || f 8 8 % 8 != 0
    || f 0x10 8 % (if a16 then 2 else 4) != 0 || f 0x18 8 % 4 != 0 || f 0x28 24 != 0

def headerOf (a : Word) (bs : List Byte) : Binding :=
  let f := fun o n => leNat ((bs.drop o).take n)
  { addr := a
    stages := f 0 4
    a16 := f 4 1 == 20
    list := BitVec.ofNat 64 (f 8 8)
    abase := BitVec.ofNat 64 (f 0x10 8)
    sbase := BitVec.ofNat 64 (f 0x18 8)
    ibase := BitVec.ofNat 64 (f 0x20 8) }

/-- The first stage and the count of a range word; none beyond the schedule's stages (R208). -/
def rangeOf (stages : Nat) (range : Word) : Option (Nat × Nat) :=
  let f := fieldNat range 0 32
  let c := fieldNat range 32 32
  if stages < f + c then none else some (f, if c = 0 then stages - f else c)

def Lattice.map (l : Lattice) (e : Nat) : BitVec 1024 := if e < 9 then standardMap e else l.maps.getD e identityMap

/-- Elements of an array read one by one. -/
def Eng.elements (m : Cmd) (base : Word) (size first : Nat) (n : Nat) : Eng (List Nat) :=
  (List.range n).mapM fun j => Eng.fetchNat .l m (base + BitVec.ofNat 64 (size * (first + j))) size

/-- Fetch and check the entry of a stage, and its parameters (R190). -/
def Eng.fetchStage (m : Cmd) (b : Binding) (t : Nat) : Eng Stage := do
  let bs ← Eng.fetch .l m (b.list + BitVec.ofNat 64 (8 * t)) 8
  let kind := (bs.getD 0 0#8).toNat
  let entry := (bs.getD 1 0#8).toNat
  let pairs := leNat ((bs.drop 2).take 2)
  let off := leNat ((bs.drop 4).take 4)
  let s ← get
  let map := s.core.lat.map entry
  if 1 < kind || (kind = 1 && (entry ≠ 0 || pairs ≠ 0 || b.sbase = 0#64)) || (kind = 0 && 63 < entry) then Eng.invalid m 3
  if kind = 0 && (s.core.poison.any fun g => match g with
      | .map e _ => e == entry
      | _ => false) then Eng.stop (poisonTrap .l m 0#64)
  if kind = 0 && (mapCells map).length ≠ pairs then Eng.invalid m 3
  let first := b.ibase + BitVec.ofNat 64 off
  modify fun s => s.mapCore fun c => c.bump 28 (1 + (if kind = 0 then pairs else 128))
  if kind = 1 then do
    let f ← Eng.elements m b.sbase 4 off 128
    pure ⟨true, 0#1024, f.map (BitVec.ofNat 32), first⟩
  else do
    let f ← Eng.elements m b.abase (if b.a16 then 2 else 4) off pairs
    modify fun s => s.mapCore fun c => c.bump 22 pairs
    pure ⟨false, map, f.map fun a => BitVec.ofNat 32 (if b.a16 then a * 65536 else a), first⟩

/-- What a run needs before its vectors: a binding, a range, F32 from QFMT0 (codes 4 and 5). -/
def Eng.schedule (m : Cmd) : Eng (Binding × Nat × Nat) := do
  let s ← get
  match s.core.lat.binding with
  | none => Eng.invalid m 4
  | some b =>
    match rangeOf b.stages s.core.lat.range with
    | none => Eng.invalid m 4
    | some (f, c) => pure (b, f, c)

/-- Passes of a range of c stages (R191). A range of no stages takes one pass of none (assumption 36). -/
def passesOf (c : Nat) : Nat := max 1 ((c + 15) / 16)

/-- The stages of pass p of a range, fetched and checked where they have not been. -/
def Eng.stages (m : Cmd) (p : Nat) : Eng (List Stage) := do
  match m.sweep.stages with
  | some l => pure l
  | none =>
    let (b, f, c) ← Eng.schedule m
    let l ← (List.range (min 16 (c - 16 * p))).mapM fun i => Eng.fetchStage m b (f + 16 * p + i)
    Eng.sweep fun w => { w with stages := some l }
    pure l

/-- The stages of a pass fetched while the pass before it runs; none where that fails, and then the pass's first vector
meets the stop (R191). -/
def Eng.ahead (m : Cmd) (p : Nat) : Eng (Option (List Stage)) := fun s =>
  match Eng.stages { m with sweep := { m.sweep with stages := none } } p s with
  | .ok l t => .ok (some l) t
  | .error _ _ => .ok none s

/-! ### Inputs and outputs of a run (R195, R209) -/

/-- The run is a reverse one. -/
def Cmd.grad (m : Cmd) : Bool :=
  match m.instr with
  | .agrad .. => true
  | _ => false

/-- Vectors, or pairs, of a run. -/
def Cmd.runCount (m : Cmd) : Nat :=
  match m.instr with
  | .arun .. | .agrad .. => m.a.toNat
  | .arunv .. => m.c.toNat
  | _ => 0

/-- The source format of an ARUNV. -/
def Cmd.runFmt (m : Cmd) : Option Nat :=
  match m.instr with
  | .arunv _ _ fmt .. => some fmt.toNat
  | _ => none

/-- The source and destination of an ARUNV overlap, by whatever addresses: its results are undefined (R209). -/
def State.runOverlap (s : State) (m : Cmd) : Bool :=
  m.runFmt.any fun f =>
    stretchesMeet (s.stretches m m.a (runvBytes f * m.runCount)) (s.stretches m m.b (512 * m.runCount))

/-- Free values in the place of n bytes. -/
def Eng.free (n : Nat) : Eng (List Byte) := fun s => .ok (s.takeFree n).1 (s.takeFree n).2

/-- The entries that a run takes next from q0, converted; it waits for them, and stops on poison. -/
def Eng.peekQ0 (m : Cmd) (n : Nat) : Eng (List VecImg) := do
  let s ← get
  match (((s.core.entries 0#3).take n).mapM fun e => e.img.map fun v => (e, v) : Option (List (QEntry × VecImg))) with
  | none => Eng.wait 2#3
  | some l =>
    if l.length < n then Eng.wait 2#3
    if l.any fun e => e.1.poison != 0#64 then Eng.stop (poisonTrap .l m 0#64)
    pure (l.map fun e => deliverAs m.qfmt e.2)

/-- A place for n entries in a queue. -/
def Eng.room (q : QNum) (n : Nat) : Eng Unit := do
  let s ← get
  if Config.queueDepth < (s.core.entries q).length + n then Eng.wait 1#3

/-- An element of a float or integer format as an F32 lane: its exact value, or its bits where the format is F32 (R91). -/
def exactF32 (f : Nat) (l : Lane) : Lane := if f = 0 then l else rnF32 (readFmt f l)

/-- Source vector v of an ARUNV: its lanes, and the header that goes to q3. -/
def Eng.readVector (m : Cmd) (f v : Nat) : Eng (VecImg × Option Lane) := do
  let bs ← Eng.read .l m (m.a + BitVec.ofNat 64 (v * runvBytes f)) (runvBytes f)
  let s ← get
  let bs ← if s.runOverlap m then Eng.free bs.length else pure bs
  if isGrouped f then
    pure (ofLanes fun k => rnF32 (.ofInt (groupElem f bs k) 0), some (groupPass f (groupHeader f bs)))
  else pure (ofLanes fun k => exactF32 f (elemAt f bs k), none)

/-- The next input of a run: one vector, or a vector and its gradient; and the header for q3. -/
def Eng.runInput (m : Cmd) (v : Nat) : Eng (List VecImg × Option Lane) :=
  match m.runFmt with
  | some f => do
    if isGrouped f then Eng.room 3#3 1
    let r ← Eng.readVector m f v
    pure ([r.1], r.2)
  | none => do
    let l ← Eng.peekQ0 m (if m.grad then 2 else 1)
    pure (l, none)

/-- The input is taken: popped from q0, or its header pushed to q3. -/
def Eng.takeInput (m : Cmd) (header : Option Lane) : Eng Unit :=
  modify fun s => s.mapCore fun c =>
    match m.runFmt, header with
    | some _, some h => c.pushFull 3#3 [ofLanes fun _ => h]
    | some _, none => c
    | none, _ =>
      let n := if m.grad then 2 else 1
      ((c.setEntries 0#3 ((c.entries 0#3).drop n)).bump 18 n).bump 19 (if converts m.qfmt then n else 0)

def statEnabled (config : Word) : Bool := config.getLsbD 1
def renormEnabled (config : Word) : Bool := config.getLsbD 0
def statBase (config : Word) : Nat := fieldNat config 8 10

/-- Output v of a run accumulated into the statistics buffer (R208); VS instructions may still find the fields as they stood
(R154). -/
def Core.statOutput (c : Core) (m : Cmd) (v : Nat) (img : VecImg) : Core :=
  let k := (statBase c.lat.config + v) % 1024
  let old := (c.stat k).bytes
  let c := c.unsee .l m ((List.range 5).map fun f => (statLoc k (4 * f), (old.drop (4 * f)).take 4))
  (c.setStat k ((c.stat k).accumulate allTrue img) []).bump 12 1

/-- The output can be put: a place in q1, two for the recovered input and the gradient of a pair, which go together (assumption
116), a writable range, a clean statistics entry. -/
def Eng.outputReady (m : Cmd) (v : Nat) : Eng (List (Nat × Option Page)) := do
  let s ← get
  if statEnabled s.core.lat.config && !m.grad
      && s.core.statPoisoned ((statBase s.core.lat.config + v) % 1024) [0, 1, 2] then Eng.stop (poisonTrap .l m 0#64)
  match m.runFmt with
  | some _ => Eng.writable .l m (m.b + BitVec.ofNat 64 (512 * v)) 512
  | none => do
    Eng.room 1#3 (if m.grad then 2 else 1)
    pure []

/-- Put output v of a run. -/
def Eng.putOutput (m : Cmd) (v : Nat) (places : List (Nat × Option Page)) (imgs : List VecImg) : Eng Unit := do
  let s ← get
  let imgs ← if s.runOverlap m then do
      let bs ← Eng.free 512
      pure [(BitVec.ofNat 4096 (leNat bs) : VecImg)]
    else pure imgs
  modify fun s =>
    let s := match m.runFmt with
      | some _ => s.putPlaces (.engine s.core.num .l m) places (natBytes 512 (imgs.headD 0#4096).toNat)
      | none => s.mapCore fun c => c.pushFull 1#3 imgs
    if statEnabled s.core.lat.config && !m.grad then s.mapCore fun c => c.statOutput m v (imgs.headD 0#4096) else s

/-! ### One vector through a pass -/

/-- A vector, or a pair, through the stages of a pass: the result, the accumulators, the norm sums. -/
def passOne (grad renorm : Bool) (stages : List Stage) (w : Sweep) (imgs : List VecImg) : List VecImg × Sweep :=
  let x := imgs.headD 0#4096
  if grad then
    let r := reversePass stages w.acc (x, (imgs.drop 1).headD 0#4096)
    ([r.1.1, r.1.2], { w with acc := r.2, nin := normAdd w.nin x, nout := normAdd w.nout r.1.1 })
  else
    let y := forwardPass stages x
    ([if renorm then renormed stages x y else y], { w with nin := normAdd w.nin x, nout := normAdd w.nout y })

/-- What a pass starts with. -/
def Sweep.openPass (w : Sweep) (grad : Bool) (stages : List Stage) : Sweep :=
  { w with
    nin := 0#64
    nout := 0#64
    acc := if grad then stages.map fun _ => 0#4096 else [] }

/-- The words that a pass emits to q2, in whole entries (R209). -/
def emitWords (l : List (Word × Lane)) : List Lane :=
  let ws := (l.map fun e => [e.1.setWidth 32, e.2]).flatten
  let pad := (128 - ws.length % 128) % 128
  ws ++ (List.replicate (pad / 2) [0xFFFFFFFF#32, 0#32]).flatten

/-- Words as images of 128 lanes. -/
def wordImages (ws : List Lane) : List VecImg :=
  (List.range ((ws.length + 127) / 128)).map fun k => ofLaneList ((ws.drop (128 * k)).take 128)

/-- The next of n entries of an output goes to a queue, once it is not full (R195); whether the output has gone whole. -/
def Eng.pushNext (q : QNum) (n : Nat) (img : Nat → VecImg) : Eng Bool := do
  let s ← get
  let k := ((s.core.head .l).map fun m => m.sweep.pushed).getD 0
  if n ≤ k then do
    Eng.sweep fun w => { w with pushed := 0 }
    pure true
  else do
    Eng.room q 1
    modify fun s => s.mapCore fun c => c.pushFull q [img k]
    Eng.sweep fun w => { w with pushed := if k + 1 = n then 0 else k + 1 }
    pure (k + 1 = n)

/-- The gradients of a finished pass: updates of the configured sketch, or entries of q2, each as a place becomes free; whether
they have all gone. -/
def Eng.emit (m : Cmd) (stages : List Stage) : Eng Bool := do
  let s ← get
  let l := passEmits stages m.sweep.acc
  if s.core.lat.sketch ≠ 0#64 then do
    let (h, pages) ← Eng.openSketch .l m s.core.lat.sketch [1, 4] .rmw
    modify fun s => l.foldl (fun s e => s.sketchUpdate .l pages h e.1 (ofF32 e.2)) s
    pure true
  else do
    let imgs := wordImages (emitWords l)
    Eng.pushNext 2#3 imgs.length fun k => imgs.getD k 0#4096

/-! ### Runs (R191, R195) -/

/-- A part of a run in one pass. -/
def Eng.onePass (m : Cmd) : Eng Unit := do
  let w := m.sweep
  if w.done < m.runCount then do
    let stages ← Eng.stages m 0
    let (imgs, header) ← Eng.runInput m w.done
    let places ← Eng.outputReady m w.done
    let s ← get
    let w := if w.done = 0 then w.openPass m.grad stages else w
    let (out, w') := passOne m.grad (renormEnabled s.core.lat.config) stages w imgs
    Eng.takeInput m header
    Eng.putOutput m w.done places out
    modify fun s => s.mapCore fun c => (c.bump 20 stages.length).bump 27 2
    Eng.sweep fun x => { w' with done := w.done + 1, stages := x.stages }
  else if m.grad && !w.acc.isEmpty then do
    let stages ← Eng.stages m 0
    if ← Eng.emit m stages then Eng.sweep fun w => { w with acc := [] }

/-- Vectors, or pairs, of a whole block. -/
def blockSize (grad : Bool) : Nat := if grad then 16 else 32

/-- The first vector of the open block. -/
def Sweep.blockStart (w : Sweep) (passes : Nat) : Nat := w.done - (if w.panel = passes then w.inPass else 0)

/-- The images of vector v of the open block. -/
def Sweep.heldAt (w : Sweep) (grad : Bool) (v : Nat) : List VecImg :=
  if grad then (w.held.drop (2 * v)).take 2 else (w.held.drop v).take 1

/-- The open block with vector v replaced, or appended. -/
def Sweep.hold (w : Sweep) (grad : Bool) (v : Nat) (imgs : List VecImg) : Sweep :=
  let k := if grad then 2 else 1
  { w with held := w.held.take (k * v) ++ imgs ++ w.held.drop (k * v + k) }

/-- The open pass of a block ends; the stages of the pass after it are those fetched ahead. -/
def Sweep.closePass (next : Option (List Stage)) (w : Sweep) : Sweep :=
  { w with panel := w.panel + 1, inPass := 0, stages := next, acc := [] }

/-- The number of the pass that a block takes after k others: a reverse run takes them from last to first (R178). -/
def passAt (grad : Bool) (passes k : Nat) : Nat := if grad then passes - 1 - k else k

/-- The stages of the pass that follows the open one: the next pass of the block, or the first one of a further block. -/
def Eng.nextStages (m : Cmd) (passes : Nat) (further : Bool) : Eng (Option (List Stage)) :=
  if m.sweep.panel + 1 < passes then Eng.ahead m (passAt m.grad passes (m.sweep.panel + 1))
  else if further then Eng.ahead m (passAt m.grad passes 0)
  else pure none

/-- A part of a run in several passes: an output of a finished block, a vector of the open pass, or the end of a pass. -/
def Eng.severalPasses (m : Cmd) (passes : Nat) : Eng Unit := do
  let w := m.sweep
  let start := w.blockStart passes
  let size := min (blockSize m.grad) (m.runCount - start)
  let further := start + size < m.runCount
  if m.runCount ≤ w.done then pure ()
  else if w.panel = passes then do
    let places ← Eng.outputReady m w.done
    Eng.putOutput m w.done places (w.heldAt m.grad w.inPass)
    Eng.sweep fun w =>
      if w.inPass + 1 = size then { w with done := w.done + 1, panel := 0, inPass := 0, held := [] }
      else { w with done := w.done + 1, inPass := w.inPass + 1 }
  else if w.inPass < size then do
    let stages ← Eng.stages m (passAt m.grad passes w.panel)
    let fresh := w.panel = 0
    let (imgs, header) ← if fresh then Eng.runInput m (start + w.inPass) else pure (w.heldAt m.grad w.inPass, none)
    let s ← get
    let w := if w.inPass = 0 then w.openPass m.grad stages else w
    let (out, w') := passOne m.grad (renormEnabled s.core.lat.config) stages w imgs
    if fresh then Eng.takeInput m header
    modify fun s => s.mapCore fun c => (c.bump 20 stages.length).bump 27 2
    let w' := w'.hold m.grad w.inPass out
    if w.inPass + 1 = size && !m.grad then do
      let next ← Eng.nextStages m passes further
      Eng.sweep fun _ => ({ w' with inPass := w.inPass + 1 } : Sweep).closePass next
    else Eng.sweep fun x => { w' with inPass := w.inPass + 1, stages := x.stages }
  else do
    let stages ← Eng.stages m (passAt m.grad passes w.panel)
    if ← Eng.emit m stages then do
      let next ← Eng.nextStages m passes further
      Eng.sweep (Sweep.closePass next)

/-- A part of ARUN, ARUNV or AGRAD. -/
def Eng.runPart (m : Cmd) : Eng Unit :=
  if m.runCount = 0 then pure () else do
    if m.runFmt.isNone && sinkRefused m.qfmt then Eng.invalid m 5
    let (_, _, c) ← Eng.schedule m
    if passesOf c ≤ 1 then Eng.onePass m else Eng.severalPasses m (passesOf c)

/-- What a run checks and fetches as it begins: the first pass, and the sketch of a reverse run. -/
def Eng.beginRun (m : Cmd) : Eng Unit :=
  if m.runCount = 0 then pure () else do
    if m.runFmt.isNone && sinkRefused m.qfmt then Eng.invalid m 5
    let (_, _, c) ← Eng.schedule m
    let s ← get
    if m.grad && s.core.lat.sketch ≠ 0#64 then do
      let _ ← Eng.openSketch .l m s.core.lat.sketch [1, 4] .rmw
    let _ ← Eng.stages m (passAt m.grad (passesOf c) 0)

/-! ### AVEC (R210) -/

/-- Column and row of elimination e of a tile of m rows, columns from j on. -/
def elimAt (m : Nat) : Nat → Nat → Nat → Nat × Nat
  | 0, j, _ => (j, m - 1)
  | fuel + 1, j, e => if e < m - 1 - j then (j, m - 1 - e) else elimAt m fuel (j + 1) (e - (m - 1 - j))

/-- Lanes of an array of F32. -/
def wordsOf (bs : List Byte) : List Lane := (List.range (bs.length / 4)).map fun i => elemAt 21 bs i

def bytesOfWords (l : List Lane) : List Byte := (l.map fun x => natBytes 4 x.toNat).flatten

/-- Two rows from the pivot column on, after an elimination; the angle; whether the pivot is a zero pair. -/
def eliminate (x y : List Lane) : List Lane × List Lane × Lane × Bool :=
  let (a, px, py, null) := vectorPair (x.headD 0#32) (y.headD 0#32)
  let rest := List.zipWith (applyCell a) x.tail y.tail
  (px :: rest.map fun e => e.1, py :: rest.map fun e => e.2, a, null)

def Core.countNull (c : Core) : Core :=
  { c with lat := { c.lat with nullPairs := if c.lat.nullPairs = 0xFFFF#16 then 0xFFFF#16 else c.lat.nullPairs + 1#16 } }

def Cmd.vecTotal (m : Cmd) : Nat := vecCount (vecRows m.b) (vecCols m.b)

/-- One elimination of an AVEC; the one whose angle completes an entry of q2 pushes it. -/
def Eng.eliminatePart (m : Cmd) : Eng Unit := do
  let n := vecCols m.b
  let (j, i) := elimAt (vecRows m.b) 128 0 m.sweep.done
  let row := fun r : Nat => m.a + BitVec.ofNat 64 (512 * r + 4 * j)
  let xs ← Eng.read .l m (row (i - 1)) (4 * (n - j))
  let ys ← Eng.read .l m (row i) (4 * (n - j))
  let (xs', ys', a, null) := eliminate (wordsOf xs) (wordsOf ys)
  let px ← Eng.writable .l m (row (i - 1)) (4 * (n - j))
  let py ← Eng.writable .l m (row i) (4 * (n - j))
  let pa ← if m.c = 0#64 then pure [] else Eng.writable .l m (m.c + BitVec.ofNat 64 (4 * m.sweep.done)) 4
  let out := if m.c = 0#64 then m.sweep.out ++ [a] else []
  let full := out.length = 128 || (m.sweep.done + 1 = m.vecTotal && !out.isEmpty)
  if full then Eng.room 2#3 1
  modify fun s =>
    let s := (s.putPlaces (.engine s.core.num .l m) px (bytesOfWords xs')).putPlaces (.engine s.core.num .l m) py (bytesOfWords ys')
    let s := if m.c = 0#64 then s else s.putPlaces (.engine s.core.num .l m) pa (natBytes 4 a.toNat)
    let s := if full then s.mapCore fun c => c.pushFull 2#3 (wordImages out) else s
    let s := s.mapCore fun c => c.bump 21 1
    if null then s.mapCore Core.countNull else s
  Eng.sweep fun w => { w with done := w.done + 1, out := if full then [] else out }

def Eng.vecPart (m : Cmd) : Eng Unit := if m.sweep.done < m.vecTotal then Eng.eliminatePart m else pure ()

/-! ### APROD (R182, R183, R211) -/

def Cmd.toQ1 (m : Cmd) : Bool :=
  match m.instr with
  | .aprod _ _ t .. => t
  | _ => false

/-- An operand element as an exact value, or as an integer. -/
def operandFloat (f : Nat) (bs : List Byte) (i : Nat) : XVal := readFmt f (elemAt f bs i)

def operandInt (f : Nat) (bs : List Byte) (i : Nat) : Int := match intFmt f with
  | some (w, sg) => lowInt (elemAt f bs i) w sg
  | none => 0

/-- Element k of a grouped array. -/
def groupedAt (f : Nat) (bs : List Byte) (k : Nat) : Int :=
  groupElem f (bs.drop (k / groupSize f * groupBytes f)) (k % groupSize f)

/-- Rows of a panel. -/
def Shape.panelRows (h : Shape) (panel : Nat) : Nat := min 16 (h.m - 16 * panel)

def Shape.panels (h : Shape) : Nat := (h.m + 15) / 16

def Shape.groups (h : Shape) : Nat := h.k / h.groupLen

/-- Chunks of a K-group. -/
def Shape.chunks (h : Shape) : Nat := (h.groupLen + 7) / 8

/-- The rows of C₀ that a panel starts from. -/
def Eng.panelStart (m : Cmd) (h : Shape) : Eng (List VecImg) :=
  (List.range (h.panelRows m.sweep.panel)).mapM fun i =>
    if h.c0 then do
      let bs ← Eng.read .l m (m.c + BitVec.ofNat 64 (512 * (16 * m.sweep.panel + i))) 512
      pure (BitVec.ofNat 4096 (leNat bs))
    else pure 0#4096

/-- Bytes of one row of A, or of one grouped column of B. -/
def rowBytes (f n : Nat) : Nat := if isGrouped f then n / groupSize f * groupBytes f else (n * memBits f + 7) / 8

/-- The words of an operand that a K-chunk consumes: whole rows of A, whole grouped columns of B, rows of another B (assumption
119). -/
def Eng.operandA (m : Cmd) (h : Shape) : Eng (List (List Byte)) :=
  (List.range (h.panelRows m.sweep.panel)).mapM fun i =>
    Eng.read .l m (m.a + BitVec.ofNat 64 ((16 * m.sweep.panel + i) * pitchOf h.fa h.k)) (rowBytes h.fa h.k)

def Eng.operandB (m : Cmd) (h : Shape) (k0 n : Nat) : Eng (List (List Byte)) :=
  if isGrouped h.fb then
    (List.range h.n).mapM fun c => Eng.read .l m (m.b + BitVec.ofNat 64 (c * pitchOf h.fb h.k)) (rowBytes h.fb h.k)
  else
    (List.range n).mapM fun k => Eng.read .l m (m.b + BitVec.ofNat 64 ((k0 + k) * pitchOf h.fb h.n)) (rowBytes h.fb h.n)

/-- acc of row a, lane c, after the chunk of n elements from k0 on. -/
def chunkLane (h : Shape) (a : List Byte) (b : List (List Byte)) (k0 n c : Nat) (acc : Lane) : Lane :=
  if isFloatFmt h.fa then
    floatChunk acc ((List.range n).map fun k => (operandFloat h.fa a (k0 + k), operandFloat h.fb (b.getD k []) c))
  else
    let ea := fun k => if isGrouped h.fa then groupedAt h.fa a k else operandInt h.fa a k
    let eb := fun k => if isGrouped h.fb then groupedAt h.fb (b.getD c []) (k0 + k) else operandInt h.fb (b.getD k []) c
    intChunk acc ((List.range n).map fun k => (ea (k0 + k), eb k))

/-- The event of R441 that a K-chunk counts as. -/
def Shape.event (h : Shape) : Nat :=
  let w := max (memBits h.fa) (memBits h.fb)
  if w = 32 then 23 else if w = 16 then 24 else if w = 8 then 25 else 26

/-- K-chunks made in the open K-group of a panel, or in the panel; `done` counts them over the panel, and `skipped` counts
the K-groups that are complete (R202). -/
def Sweep.chunk (w : Sweep) (h : Shape) : Nat := w.done - w.skipped * h.chunks

/-- One K-chunk of the open panel, or of its open K-group. -/
def Eng.chunkPart (m : Cmd) (h : Shape) : Eng Unit := do
  let w := m.sweep
  let rows ← if w.chunk h = 0 then Eng.panelStart m h else pure w.acc
  let k0 := w.skipped * h.groupLen + 8 * w.chunk h
  let n := min 8 (min h.k ((w.skipped + 1) * h.groupLen) - k0)
  let a ← Eng.operandA m h
  let b ← Eng.operandB m h k0 n
  let rows := List.zipWith (fun r ab => ofLanes fun c =>
    if c < h.n then chunkLane h ab b k0 n c (laneOf r c) else 0#32) rows a
  modify fun s => s.mapCore fun c => c.bump h.event 1
  Eng.sweep fun w => { w with done := w.done + 1, acc := rows }

/-- Partials of a row on their way to the mortars (R184, R211). -/
def State.sendPartials (s : State) (order : Nat) (h : Shape) (row : VecImg) (pages : List Page) (va : Nat) : State :=
  s.mapPkg fun p => { p with partials := p.partials ++ (List.range h.n).filterMap fun c =>
    (pageFor pages (va + 4 * c)).map fun pg =>
      { ctx := s.core.ctx, core := s.core.num, order := order, pa := pg.pa (va + 4 * c), key := pg.key, index := h.gi, n := h.gn
        int := !isFloatFmt h.fa, value := laneOf row c, page := pg : Partial } }

/-- The pages of a row of a global C. -/
def Eng.rowPages (m : Cmd) (a : Word) (n : Nat) : Eng (List Page) :=
  (piecesOf a n).mapM fun p => Eng.page .l m (BitVec.ofNat 64 p.1) .rmw

/-- The headers of a row's K-group, for q3. -/
def Eng.groupHeaders (m : Cmd) (h : Shape) (r : Nat) : Eng VecImg := do
  let w := m.sweep
  let header := fun (f : Nat) (bs : List Byte) => groupPass f (groupHeader f (bs.drop (w.skipped * groupBytes f)))
  if isGrouped h.fa then do
    let bs ← Eng.read .l m (m.a + BitVec.ofNat 64 ((16 * w.panel + r) * pitchOf h.fa h.k)) (rowBytes h.fa h.k)
    pure (ofLanes fun _ => header h.fa bs)
  else do
    let cols ← Eng.operandB m h 0 0
    pure (ofLaneList (cols.map (header h.fb)))

/-- The address of row r of the open panel. -/
def Cmd.rowAt (m : Cmd) (r : Nat) : Word := m.c + BitVec.ofNat 64 (512 * (16 * m.sweep.panel + r))

/-- A panel, or its open K-group, has gone out. -/
def Sweep.closePanel (h : Shape) (w : Sweep) : Sweep :=
  if w.skipped + 1 < h.groups then { w with acc := [], out := [], skipped := w.skipped + 1 }
  else { w with done := 0, acc := [], out := [], skipped := 0, panel := w.panel + 1 }

/-- The headers of row r of the open panel as they go to q3. The headers of every row are read before the first row goes: poison
among them stops the command at the boundary before its output (R200, R203). -/
def Eng.rowHeaders (m : Cmd) (h : Shape) (rows r : Nat) : Eng VecImg := do
  let all ← if m.sweep.pushed = 0 then (List.range rows).mapM (Eng.groupHeaders m h) else pure []
  let lanes := if m.sweep.pushed = 0 then (all.map fun v => (List.range 128).map (laneOf v)).flatten else m.sweep.out
  Eng.sweep fun w => { w with out := lanes }
  pure (ofLaneList ((lanes.drop (128 * r)).take 128))

/-- The rows of a complete panel, or of a panel's complete K-group, go where the command sends them: to q1 one by one, each as a
place becomes free, with its headers to q3 (R195, R203, R211). -/
def Eng.panelOut (m : Cmd) (h : Shape) : Eng Unit := do
  let rows := m.sweep.acc
  let numbers := List.range rows.length
  if m.toQ1 then do
    if h.grouped && m.sweep.pushed < rows.length then do
      Eng.room 1#3 1
      Eng.room 3#3 1
      let hs ← Eng.rowHeaders m h rows.length m.sweep.pushed
      modify fun s => s.mapCore fun c => c.pushFull 3#3 [hs]
    if ← Eng.pushNext 1#3 rows.length fun k => rows.getD k 0#4096 then Eng.sweep (Sweep.closePanel h)
  else if isLocal m.c then do
    let places ← numbers.mapM fun r => Eng.writable .l m (m.rowAt r) 512
    modify fun s => (places.zip rows).foldl (fun s e => s.putPlaces (.engine s.core.num .l m) e.1 (natBytes 512 e.2.toNat)) s
    Eng.sweep (Sweep.closePanel h)
  else do
    let pages ← numbers.mapM fun r => Eng.rowPages m (m.rowAt r) (4 * h.n)
    modify fun s => ((pages.zip rows).zip numbers).foldl (fun s e =>
      s.sendPartials m.order h e.1.2 e.1.1 (m.rowAt e.2).toNat) s
    Eng.sweep (Sweep.closePanel h)

/-- A part of an APROD. -/
def Eng.prodPart (m : Cmd) : Eng Unit :=
  let h := shapeOf m.d
  if h.panels ≤ m.sweep.panel then pure ()
  else if m.sweep.chunk h < h.chunks then Eng.chunkPart m h
  else Eng.panelOut m h

/-! ### The short commands (R208, R212) -/

def Core.setLat (c : Core) (f : Lattice → Lattice) : Core := { c with lat := f c.lat }

/-- LSTAT as the previous command left it (R212): nothing executes or stands stopped, and `queued` counts what follows the
reader itself (assumption 109). -/
def Core.lstatBefore (c : Core) : Word := c.lstat &&& ~~~0x300#64

/-- The whole of a command that has no boundary inside. -/
def Eng.shortPart (m : Cmd) : Eng Unit := do
  match m.instr with
  | .amap .. =>
    let bs ← Eng.read .l m m.a 128
    let v : BitVec 1024 := BitVec.ofNat 1024 (leNat bs)
    if !mapValid v then Eng.invalid m 1
    modify fun s => s.mapCore fun c =>
      { c.setLat (fun l => { l with maps := l.maps.setIfInBounds m.b.toNat v }) with
        poison := c.poison.filter fun g => match g with
          | .map e _ => e != m.b.toNat
          | _ => true }
  | .aang .. =>
    let bs ← Eng.read .l m m.a 64
    if headerBad bs then Eng.invalid m 2
    let h := headerOf m.a bs
    if (rangeOf h.stages m.b).isNone then Eng.invalid m 4
    modify fun s => s.mapCore fun c => c.setLat fun l => { l with binding := some h, range := m.b }
  | .acfg .. => modify fun s => s.mapCore fun c => c.setLat fun l => { l with config := m.a, sketch := m.b }
  | .anorm .. =>
    let s ← get
    Eng.write .l m m.a (natBytes 8 s.core.lat.normin.toNat ++ natBytes 8 s.core.lat.normout.toNat)
  | .astat _ _ clr _ =>
    let s ← get
    Eng.write .l m m.a (natBytes 8 s.core.lstatBefore.toNat)
    if clr then modify fun s => s.mapCore fun c => c.setLat fun l => { l with nullPairs := 0#16 }
  | .asave .. => modify fun s => s.mapCore fun c => c.setLat fun l => { l with save := m.a }
  | _ => pure ()
  Eng.sweep fun w => { w with done := 1 }

/-! ### Kinds of commands -/

inductive LatticeKind where
  | short | run | vec | prod | resume
deriving DecidableEq, Repr

def latticeKind (i : Instr) : LatticeKind :=
  match i with
  | .arun .. | .arunv .. | .agrad .. => .run
  | .avec .. => .vec
  | .aprod .. => .prod
  | .ares .. => .resume
  | _ => .short

/-- All the parts of a command have been made. -/
def Cmd.latticeDone (m : Cmd) : Bool :=
  let t := m.target
  match latticeKind t.instr with
  | .short => t.sweep.done == 1
  | .run => t.runCount ≤ t.sweep.done && (t.sweep.acc.isEmpty || !t.grad)
  | .vec => t.vecTotal ≤ t.sweep.done
  | .prod => (shapeOf t.d).panels ≤ t.sweep.panel
  | .resume => false

end Sys2Proof.Machine
end

