-- ==== Sys2Proof/Machine/LatticeStop.lean ====
section
/-! DEFINITION. Stops of the lattice (R200 to R205): the sweep save area and its record, where it is written, and ARES,
which reads one back (R212). -/

namespace Sys2Proof.Machine

/-! ### The save area (R392, R393) -/

/-- SAVEAREA.base of a context. -/
def Context.saveBase (c : Context) : Nat := c.save / 4096 * 4096

/-- The image of a core position in a context's save area. -/
def Context.imageAt (c : Context) (core : Nat) : Nat := c.saveBase + Config.imageBytes * core

/-- Bytes written at a physical address by a hub, a line at a time. -/
def State.writePhys (s : State) (pa : Nat) (bs : List Byte) (key : BitVec 6) : State :=
  (pieces 64 pa (bs.length / 64 + 2) bs.length).foldl (fun s p => s.hubWrite p.1 ((bs.drop (p.1 - pa)).take p.2) key) s

/-! ### The record (R202; the places of progress that the record leaves open are assumption 19) -/

def stopReason (cause : BitVec 5) : Nat :=
  match cause.toNat with
  | 10 => 1
  | 9 | 11 => 2
  | 19 => 3
  | 14 => 4
  | 24 => 5
  | 13 => 6
  | _ => 7

def Lattice.passes (l : Lattice) : Nat :=
  ((l.binding.bind fun b => rangeOf b.stages l.range).map fun r => passesOf r.2).getD 1

/-- The panel field of the record. -/
def Cmd.panelField (m : Cmd) (passes : Nat) : Nat :=
  let w := m.sweep
  match latticeKind m.target.instr with
  | .run => if passes ≤ 1 then 0 else w.inPass % 2 ^ 16 * 2 ^ 16 + w.panel % 2 ^ 16
  | .prod => if (shapeOf m.target.d).grouped then w.skipped % 2 ^ 16 * 2 ^ 16 + w.panel % 2 ^ 16 else w.panel % 2 ^ 32
  | _ => 0

def imgBytes (l : List VecImg) : List Byte := (l.map fun v => natBytes 512 v.toNat).flatten

def padTo (n : Nat) (bs : List Byte) : List Byte := bs ++ List.replicate (n - bs.length) 0#8

/-- The accumulator image of a reverse pass: the cells of each stage, then what scaling stages hold in lanes 64 to 127. -/
def reverseImage (acc : List VecImg) : List Byte :=
  let low := (acc.map fun v => natBytes 256 v.toNat).flatten
  let high := (acc.map fun v => natBytes 256 (v.toNat / 2 ^ 2048)).flatten
  padTo 4096 low ++ padTo 4096 high

/-- The accumulator image that follows the record, if there is one. -/
def Cmd.accImage (m : Cmd) : Option (List Byte) :=
  let t := m.target
  match latticeKind t.instr with
  | .run => if t.grad && !m.sweep.acc.isEmpty then some (reverseImage m.sweep.acc) else none
  | .prod => if m.sweep.acc.isEmpty then none else some (padTo 8192 (imgBytes m.sweep.acc))
  | _ => none

/-- The angles of an AVEC that wait for their entry of q2 to be complete; the record leaves their place open, and they stand
where an accumulator image would (assumption 19). -/
def Cmd.angleImage (m : Cmd) : Option (List Byte) :=
  match latticeKind m.target.instr with
  | .vec => if m.sweep.out.isEmpty then none else some (padTo 512 (bytesOfWords m.sweep.out))
  | _ => none

/-- The remaining bound in units of 16 cycles, rounded up. -/
def Cmd.boundUnits (m : Cmd) : Nat := ((m.left.getD 0) + 15) / 16

/-- The 128 bytes of the record of a command whose count stands. nin and nout are zero where no pass is open (assumption 117);
sched is zero where no schedule is bound (assumption 118). -/
def Core.recordBytes (c : Core) (m : Cmd) (reason : Nat) (faddr : Word) : List Byte :=
  let t := m.target
  let l := c.lat
  let flag := fun (b : Bool) (k : Nat) => if b then 2 ^ k else 0
  natBytes 8 t.word.toNat ++ natBytes 8 t.d.toNat ++ natBytes 8 t.a.toNat ++ natBytes 8 t.b.toNat ++ natBytes 8 t.c.toNat
    ++ natBytes 2 m.seq.toNat ++ natBytes 2 1 ++ natBytes 4 m.boundUnits ++ natBytes 4 m.sweep.done
    ++ natBytes 4 (m.panelField l.passes) ++ natBytes 1 reason
    ++ natBytes 1 (flag m.accImage.isSome 0 + flag m.left.isNone 1 + flag (!m.sweep.held.isEmpty) 2) ++ natBytes 6 0
    ++ natBytes 8 ((l.binding.map fun b => b.addr.toNat).getD 0) ++ natBytes 8 l.range.toNat ++ natBytes 8 l.config.toNat
    ++ natBytes 8 l.sketch.toNat ++ natBytes 8 m.sweep.nin.toNat ++ natBytes 8 m.sweep.nout.toNat
    ++ natBytes 8 faddr.toNat ++ natBytes 8 0

/-- The parts of a sweep save area as offsets and bytes; `block` is where the block image lies. -/
def Core.recordParts (c : Core) (m : Cmd) (reason : Nat) (faddr : Word) (block : Nat) : List (Nat × List Byte) :=
  [(0, c.recordBytes m reason faddr)] ++ ((m.accImage.toList ++ m.angleImage.toList).map fun b => (0x80, b))
    ++ (if m.sweep.held.isEmpty then [] else [(block, imgBytes m.sweep.held)])

/-- The block image of an area named by ASAVE. -/
def asaveBlock : Nat := 0x2080

/-- The block image of a core image, from its sweep save area on. -/
def imageBlock : Nat := 0x41C000 - 0x1800

/-! ### Where the record is written (R201) -/

/-- The record goes to the supervisor's save area, under the key of the context's tables (assumption 20). -/
def State.recordToSave (s : State) (m : Cmd) (reason : Nat) (faddr : Word) : State :=
  let x := s.pkg.ctx s.core.ctx
  (s.core.recordParts m reason faddr imageBlock).foldl (fun s p =>
    s.writePhys (x.imageAt s.core.num + 0x1800 + p.1) p.2 x.ptkey) s

/-- The parts written at the ASAVE address, all of them or none (`some none`); the fuel bounds the pages that hardware mode fills.
Nothing is answered while a line of a stash window, or a link, keeps the write waiting. -/
def State.recordToAsave (s : State) (m : Cmd) (parts : List (Nat × List Byte)) : Nat → Option (Option State)
  | 0 => some none
  | fuel + 1 =>
    let a := s.core.lat.save
    let bare := { m with pins := [], hold := [] }
    let find : Eng (List (List (Nat × Option Page) × List Byte)) := parts.mapM fun p => do
      let places ← Eng.writable .l bare (a + BitVec.ofNat 64 p.1) p.2.length
      pure (places, p.2)
    if isLocal a && (parts.any fun p => (localExtent (a + BitVec.ofNat 64 p.1) p.2.length).isNone) then some none
    else
      match find s with
      | .ok l t => some (some (l.foldl (fun t e => t.putPlaces (.engine s.core.num .l m) e.1 e.2) t))
      | .error (.stop r) t =>
        if r.cause = 10#5 then
          let f := t.demandFill r.info0
          if f.2 then f.1.recordToAsave m parts fuel else some none
        else some none
      | .error (.wait _) _ => none

def State.setRecAlt (s : State) (b : Bool) : State := s.mapCore fun c => c.setLat fun l => { l with recAlt := b }

/-- Write the record of a stop that is not a pre-emption; none while that waits. -/
def State.writeRecord (s : State) (m : Cmd) (reason : Nat) (faddr : Word) : Option State :=
  if s.core.lat.save = 0#64 then some ((s.recordToSave m reason faddr).setRecAlt false)
  else
    (s.recordToAsave m (s.core.recordParts m reason faddr asaveBlock) 16).map fun w =>
      match w with
      | some t => t.setRecAlt false
      | none => (s.recordToSave m reason faddr).setRecAlt true

/-- The address that the record of a stop names. -/
def faultAddress (t : Trap) : Word := if stopReason t.cause ≤ 3 then t.info0 else 0#64

/-- The command with its count standing and its stage entries to be fetched again. -/
def Cmd.atBoundary (m : Cmd) (now : Nat) : Cmd :=
  { m.freeze now with sweep := { m.sweep with stages := none } }

/-- A stopped command that had begun reads its record when it goes on (R203). -/
def Cmd.toReload (m : Cmd) : Cmd := { m with sweep := { m.sweep with reload := m.begun } }

/-- The running lattice command stops with a trap; none while its record waits for a line or a link. -/
def State.stopLattice (s : State) (m : Cmd) (t : Trap) : Option State :=
  let reason := stopReason t.cause
  (s.writeRecord (m.freeze s.core.meter) reason (faultAddress t)).map fun s =>
  let s := if t.cause = 14#5 then s.mapCore fun c => c.setLat fun l => { l with fault := t.info1.setWidth 8 } else s
  s.mapCore fun c => c.stopHead .l (({ m.atBoundary c.meter with stop := some (reason, faultAddress t) } : Cmd).toReload) t

/-! ### ARES (R205, R212) -/

def isLattice (i : Instr) : Bool :=
  match i with
  | .amap .. | .aang .. | .acfg .. | .arun .. | .arunv .. | .agrad .. | .avec .. | .aprod .. | .anorm .. | .asave ..
  | .astat .. => true
  | _ => false

/-- Little-endian field of a record. -/
def fieldAt (bs : List Byte) (o n : Nat) : Nat := leNat ((bs.drop o).take n)

/-- The record is not valid by itself (code 6): version, word, reserved bytes. -/
def recordBad (bs : List Byte) : Bool :=
  let word := match decode (BitVec.ofNat 64 (fieldAt bs 0 8)) with
    | .ok i => isLattice i
    | .error _ => false
  fieldAt bs 0x2A 2 != 1 || !word || 2 ^ 20 ≤ fieldAt bs 0x2C 4 || 8 ≤ fieldAt bs 0x39 1 || fieldAt bs 0x3A 6 != 0
    || fieldAt bs 0x78 8 != 0

/-- The progress that the fields of a record give a command. -/
def recordSweep (kind : LatticeKind) (bs : List Byte) : Sweep :=
  let p := fieldAt bs 0x34 4
  let w := { Sweep.start with
    done := fieldAt bs 0x30 4
    nin := BitVec.ofNat 64 (fieldAt bs 0x60 8)
    nout := BitVec.ofNat 64 (fieldAt bs 0x68 8)
    resumed := some (BitVec.ofNat 64 (fieldAt bs 0 8),
      (List.range 4).map fun k => BitVec.ofNat 64 (fieldAt bs (8 + 8 * k) 8)) }
  match kind with
  | .run => { w with panel := p % 2 ^ 16, inPass := p / 2 ^ 16 }
  | .prod =>
    if (shapeOf (BitVec.ofNat 64 (fieldAt bs 8 8))).grouped then { w with panel := p % 2 ^ 16, skipped := p / 2 ^ 16 }
    else { w with panel := p }
  | _ => w

/-- The remaining bound of a record, in cycles (R202, R445). -/
def recordLeft (bs : List Byte) : Option Nat :=
  if fieldAt bs 0x39 1 / 2 % 2 = 1 then none else some (16 * fieldAt bs 0x2C 4)

/-- Vectors of the open block that the block image holds. -/
def Cmd.heldCount (m : Cmd) (passes : Nat) : Nat :=
  let w := m.sweep
  let size := min (blockSize m.grad) (m.runCount - w.blockStart passes)
  if passes ≤ 1 then 0 else (if w.panel = 0 then w.inPass else size) * if m.grad then 2 else 1

/-- Bytes of the image at 0x80 that a command needs to go on; none, when the record does not hold what it needs. A reverse
run whose pairs are all done needs it only to emit its gradients. -/
def Cmd.accNeeded (m : Cmd) (flagged : Bool) (passes : Nat) : Option Nat :=
  let w := m.sweep
  match latticeKind m.instr with
  | .run =>
    if !m.grad then some 0
    else if if passes ≤ 1 then 0 < w.done else 0 < w.inPass && w.panel < passes then
      if flagged then some 8192 else if passes ≤ 1 && m.runCount ≤ w.done then some 0 else none
    else some 0
  | .prod =>
    let h := shapeOf m.d
    if w.chunk h = 0 then some 0 else if flagged then some (512 * h.panelRows w.panel) else none
  | .vec => some (if m.c = 0#64 && w.done < m.vecTotal then 4 * (w.done % 128) else 0)
  | _ => some 0

def imagesOf (bs : List Byte) (n : Nat) : List VecImg :=
  (List.range n).map fun k => BitVec.ofNat 4096 (leNat ((bs.drop (512 * k)).take 512))

/-- The accumulators of a reverse pass of n stages. -/
def reverseAcc (bs : List Byte) (n : Nat) : List VecImg :=
  (List.range n).map fun k => BitVec.ofNat 4096
    (leNat ((bs.drop (256 * k)).take 256) + leNat ((bs.drop (4096 + 256 * k)).take 256) * 2 ^ 2048)

/-- The progress of a command with the image at 0x80 and the block image in it. -/
def Cmd.filled (m : Cmd) (acc held : List Byte) (count passes : Nat) : Sweep :=
  let w := m.sweep
  let w := if held.isEmpty then w else { w with held := imagesOf held (held.length / 512) }
  if acc.isEmpty then w
  else
    match latticeKind m.instr with
    | .run => { w with acc := reverseAcc acc (min 16 (count - 16 * (if passes ≤ 1 then 0 else passes - 1 - w.panel))) }
    | .prod => { w with acc := imagesOf acc (acc.length / 512) }
    | .vec => { w with out := wordsOf acc }
    | _ => w

/-- The binding of a record: its header read and checked again; none where sched is zero (assumption 118). -/
def Eng.rebind (m : Cmd) (addr : Word) : Eng (Option Binding) := do
  if addr = 0#64 then pure none
  else do
    let bs ← Eng.read .l { m with pins := [] } addr 64
    if headerBad bs then Eng.invalid m 2
    pure (some (headerOf addr bs))

/-- The progress of a record in a command of the queue: the word and the operands that the record names where they are not the
command's own. -/
def Cmd.named (m : Cmd) (w : Sweep) : Sweep :=
  if w.resumed = some (m.word, [m.d, m.a, m.b, m.c]) then { w with resumed := none } else w

/-- The lattice takes a command up from its record, which `read` gives at an offset (R202, R205): the record is checked, the
lattice state that it holds is restored, and the progress is the record's. The header is read again unless it is bound. -/
def Eng.takeUp (m : Cmd) (read : Nat → Nat → Eng (List Byte)) (blockAt : Nat) (again : Bool) : Eng Unit := do
  let bs ← read 0 128
  if recordBad bs then Eng.invalid m 6
  let f := fun o => BitVec.ofNat 64 (fieldAt bs o 8)
  let flags := fieldAt bs 0x39 1
  match decode (f 0) with
  | .error _ => Eng.invalid m 6
  | .ok i =>
    let s ← get
    let own := s.core.lat.binding
    let b ← if !again && own.map (fun b => b.addr) = some (f 0x40) then pure own else Eng.rebind m (f 0x40)
    let t := ({ m with sweep := recordSweep (latticeKind i) bs } : Cmd).target
    let range := (b.bind fun b => rangeOf b.stages (f 0x48)).map fun r => r.2
    let passes := (range.map passesOf).getD 1
    let held := if latticeKind i = .run then t.heldCount passes else 0
    if 0 < held && flags / 4 % 2 = 0 then Eng.invalid m 6
    match t.accNeeded (flags % 2 = 1) passes with
    | none => Eng.invalid m 6
    | some n =>
      let acc ← read 0x80 n
      let block ← read blockAt (512 * held)
      modify fun s => s.mapCore fun c => c.setLat fun l =>
        { l with binding := b, range := f 0x48, config := f 0x50, sketch := f 0x58 }
      Eng.sweep fun _ => m.named (t.filled acc block (range.getD 0) passes)
      if !again && fieldAt bs 0x38 1 != 6 then Eng.progress .l fun x => { x with left := recordLeft bs }

/-- ARES reads a record and goes on with its command (R212). -/
def Eng.loadRecord (m : Cmd) : Eng Unit :=
  Eng.takeUp m (fun o n => Eng.read .l (if o = 0 then m else { m with pins := [] }) (m.a + BitVec.ofNat 64 o) n) asaveBlock true

/-- Bytes of the sweep save area of the core's image; poison among them stops the command, with no address (R395). -/
def Eng.readSaved (m : Cmd) (o n : Nat) : Eng (List Byte) := do
  let s ← get
  let x := s.pkg.ctx s.core.ctx
  let pa := x.imageAt s.core.num + 0x1800 + o
  let ps ← (pieces 64 pa (n / 64 + 2) n).mapM fun p => (fun s =>
    let r := s.hubRead p.1 p.2 x.ptkey
    .ok r.2 r.1 : Eng (List Byte × Bool))
  if ps.any fun p => p.2 then Eng.stop (poisonTrap .l m 0#64) else pure ((ps.map fun p => p.1).flatten)

/-- A TRET has resumed a command that had begun: it goes on from its record, wherever its stop wrote it (R203; assumption 44). -/
def Cmd.reloads (m : Cmd) : Bool := m.sweep.reload && m.sweep.stages.isNone

def Eng.reload (m : Cmd) : Eng Unit := do
  let s ← get
  let l := s.core.lat
  if l.save = 0#64 || l.recAlt then Eng.takeUp m (Eng.readSaved m) imageBlock false
  else
    Eng.takeUp m (fun o n => Eng.read .l { m with pins := [], hold := [] } (l.save + BitVec.ofNat 64 o) n) asaveBlock false

/-! ### The next part of a lattice command -/

/-- A run that has made nothing yet: its first part is the fetch of its first pass. -/
def Cmd.unopened (m : Cmd) : Bool := m.sweep.stages.isNone && m.sweep.done == 0 && m.sweep.panel == 0 && m.sweep.inPass == 0

def Eng.latticePart (m : Cmd) : Eng Unit :=
  match m.instr, m.sweep.resumed with
  | .ares .., none => Eng.loadRecord m
  | _, _ =>
    let t := m.target
    if m.reloads then Eng.reload m
    else match latticeKind t.instr with
    | .short => if t.sweep.done = 0 then Eng.shortPart t else pure ()
    | .run => if t.unopened then Eng.beginRun t else Eng.runPart t
    | .vec => Eng.vecPart t
    | .prod => Eng.prodPart t
    | .resume => pure ()

end Sys2Proof.Machine
end

