-- ==== Sys2Proof/Machine/SketchCmd.lean ====
section
/-! DEFINITION. The sketch commands (R230 to R238): their checks at issue (R231), and the parts that the K engine makes of
each: a beginning, its elements one by one, its retirement (R232, R233). -/

namespace Sys2Proof.Machine

/-! ### Issue (R231) -/

/-- An array that a command names: address, bytes, size of an element, access. -/
structure SketchArray where
  addr : Word
  bytes : Nat
  elem : Nat
  acc : Acc

/-- A local array leaves the scratchpad; one of no bytes has no place to leave it by (assumption 104). -/
def SketchArray.outside (r : SketchArray) : Bool := isLocal r.addr && r.bytes != 0 && (localExtent r.addr r.bytes).isNone

/-- A cause 24 at issue names the command that would have been enqueued. -/
def refuseSketch (m : Cmd) (a : Word) : Trap := headerTrap .k m a

/-- Issue a sketch command: count operands, coefficients, sketch addresses and arrays are checked in the order of R231. -/
def issueSketch (i : Instr) (bound : BitVec 20) (demand : Bool) (d a b c : Reg) (reserved : (Reg → Word) → Bool)
    (badCoef : (Reg → Word) → Bool) (sketches : (Reg → Word) → List Word) (arrays : (Reg → Word) → List SketchArray)
    (s : State) : Out :=
  boundOk i bound s (issue s fun s => do
    s.core.useX [d, a, b, c]
    let x := s.core.getX
    let m := s.core.command i .k (x d) (x a) (x b) (x c) []
    notCollecting i s.core
    if reserved x then Res.trap (trapW i 2#5 0#64)
    if badCoef x then Res.trap (trapW i 14#5 0#64)
    match (sketches x).find? fun w => w.toNat % 64 != 0 with
    | some w => Res.trap (.plain 5#5 w 0#64 0#64)
    | none => .ok ()
    match (arrays x).find? fun r => r.addr.toNat % r.elem != 0 with
    | some r => Res.trap (.plain 5#5 r.addr 0#64 0#64)
    | none => .ok ()
    match (sketches x).find? fun w => w == 0#64 || isLocal w with
    | some w => Res.trap (refuseSketch m w)
    | none => .ok ()
    match (arrays x).find? fun r => r.outside with
    | some r => Res.trap (.plain 6#5 r.addr 0#64 0#64)
    | none => .ok ()
    let (pins, s) ← pinAll demand ((arrays x).map fun r => (r.addr, r.bytes, r.acc)) s
    enqueue .k { m with pins := pins } s)

def highHalf (w : Word) : Word := w >>> 32

def lowLane (w : Word) : Lane := w.setWidth 32

def finite32 (l : Lane) : Bool :=
  match ofF32 l with
  | .fin .. => true
  | _ => false

def isZero32 (l : Lane) : Bool := (ofF32 l).numEq (.zero false)

def execSkinit (bound : BitVec 20) (d : Reg) (s : State) : Out :=
  issueSketch (.skinit bound d) bound true d 0#6 0#6 0#6 (fun _ => false) (fun _ => false) (fun x => [x d]) (fun _ => []) s

def execSkupd (demand : Bool) (bound : BitVec 20) (d a b : Reg) (s : State) : Out :=
  issueSketch (.skupd demand bound d a b) bound demand d a b 0#6 (fun x => highHalf (x b) != 0#64) (fun _ => false)
    (fun x => [x d]) (fun x => [⟨x a, 16 * (x b).toNat, 16, .read⟩]) s

def execSkqry (demand : Bool) (bound : BitVec 20) (d a b c : Reg) (s : State) : Out :=
  issueSketch (.skqry demand bound d a b c) bound demand d a b c (fun x => highHalf (x c) != 0#64) (fun _ => false)
    (fun x => [x d]) (fun x => [⟨x a, 8 * (x c).toNat, 8, .read⟩, ⟨x b, 8 * (x c).toNat, 8, .write⟩]) s

def execSkadd (bound : BitVec 20) (d a b c : Reg) (s : State) : Out :=
  issueSketch (.skadd bound d a b c) bound true d a b c (fun _ => false)
    (fun x => !finite32 (lowLane (x c)) || !finite32 (lowLane (highHalf (x c)))
      || (x b == 0#64 && !isZero32 (lowLane (highHalf (x c)))))
    (fun x => [x d, x a] ++ (if x b = 0#64 then [] else [x b])) (fun _ => []) s

def execSksq (demand : Bool) (bound : BitVec 20) (d a b c : Reg) (s : State) : Out :=
  issueSketch (.sksq demand bound d a b c) bound demand d a b c
    (fun x => highHalf (x b) != 0#64 || highHalf (x c) != 0#64) (fun x => !finite32 (lowLane (x c)))
    (fun x => [x d]) (fun x => [⟨x a, 16 * (x b).toNat, 16, .read⟩]) s

def execSkopt (demand : Bool) (bound : BitVec 20) (a b c : Reg) (s : State) : Out :=
  issueSketch (.skopt demand bound a b c) bound demand 0#6 a b c (fun x => highHalf (x b) != 0#64) (fun _ => false)
    (fun _ => []) (fun x => ⟨x a, if x b = 0#64 then 0 else 64, 64, .read⟩ :: (if x c = 0#64 then [] else [⟨x c, 8, 8, .write⟩])) s

/-! ### What a command holds while it runs -/

/-- The bytes of a line read when the command began, kept as 16 lanes at a place of `out`. -/
def Cmd.kept (m : Cmd) (k : Nat) : List Byte :=
  ((m.sweep.out.drop (16 * k)).take 16).foldr (fun l acc => natBytes 4 l.toNat ++ acc) []

def laneLine (bs : List Byte) : List Lane := (List.range 16).map fun i => BitVec.ofNat 32 (leNat ((bs.drop (4 * i)).take 4))

/-- The header of sketch k of the command, as it stood when the command began. -/
def Cmd.sketch (m : Cmd) (k : Nat) (a : Word) : SketchHdr := sketchHdr a (m.kept k)

/-- Open the sketches that a command names: the extents of all of them first, then their headers; the headers, the pages, and
the lines that the command keeps (R232). -/
def Eng.openAll (m : Cmd) (sketches : List (Word × List Nat × Acc)) : Eng (List SketchHdr × List Page × List Lane) := do
  let pages ← sketches.mapM fun k => Eng.holdSketch .k m k.1 k.2.2
  let checked ← sketches.mapM fun k => Eng.checkSketch .k m k.1 k.2.1
  pure (checked.map fun r => r.1, pages.flatten, (checked.map fun r => laneLine r.2).flatten)

/-! ### SKOPT's parameter block (R238) -/

structure OptBlock where
  gsk : Word
  msk : Word
  vsk : Word
  ang : Word
  first : Word
  lr : Lane
  eps : Lane
  nu : Lane
  clear : Bool

def optBlock (bs : List Byte) : OptBlock :=
  let f := fun o n => leNat ((bs.drop o).take n)
  { gsk := BitVec.ofNat 64 (f 0 8)
    msk := BitVec.ofNat 64 (f 8 8)
    vsk := BitVec.ofNat 64 (f 16 8)
    ang := BitVec.ofNat 64 (f 24 8)
    first := BitVec.ofNat 64 (f 32 8)
    lr := BitVec.ofNat 32 (f 0x28 4)
    eps := BitVec.ofNat 32 (f 0x2C 4)
    nu := BitVec.ofNat 32 (f 0x30 4)
    clear := f 0x34 12 == 0 }

/-- rne(2³² × t), which one step takes from an angle, or none when it is skipped (R238). -/
def optStep (p : OptBlock) (g mo v : Lane) : Option Int :=
  let me := addLane .rne false mo (mulLane .rne false p.nu g)
  let root := rnF32 (ofF32 (max32 v 0#32)).sqrt
  let den := addLane .rne false root p.eps
  let t := mulLane .rne false p.lr (rnF32 (XVal.div (ofF32 me) (ofF32 den)))
  match ofF32 t with
  | .fin n m e k => some (roundInt .rne (.fin n m (e + 32) k))
  | _ => none

/-! ### Elements -/

/-- Elements of a command (R232). -/
def Cmd.elements (m : Cmd) : Nat :=
  match m.instr with
  | .skinit .. => 1
  | .skupd .. | .sksq .. | .skopt .. => m.b.toNat
  | .skqry .. => m.c.toNat
  | .skadd .. => (m.sketch 0 m.d).pairs
  | _ => 0

/-- The command has a count operand of zero: it retires as soon as it begins. -/
def Cmd.emptyCount (m : Cmd) : Bool :=
  match m.instr with
  | .skupd .. | .sksq .. | .skopt .. => m.b == 0#64
  | .skqry .. => m.c == 0#64
  | _ => false

def anyKind : List Nat := [1, 2, 3, 4]

/-- What a command reads and holds when it begins: the lines kept and the pages. -/
def Eng.openCommand (m : Cmd) : Eng (List Lane × List Page) :=
  match m.instr with
  | .skadd .. => do
    let named := [(m.d, .rmw), (m.a, .read)] ++ if m.b = 0#64 then [] else [(m.b, .read)]
    let (hs, pages, lines) ← Eng.openAll m (named.map fun k => (k.1, anyKind, k.2))
    let d := hs.headD (sketchHdr m.d [])
    match (hs.zip named).find? fun h =>
        h.1.seed != d.seed || h.1.rows != d.rows || h.1.lw != d.lw || h.1.e != d.e with
    | some h => Eng.stop (headerTrap .k m h.2.1)
    | none => pure (lines, pages)
  | .skopt .. => do
    let bs ← if m.begun then pure (m.kept 0) else Eng.read .k m m.a 64
    let p := optBlock bs
    if p.msk = 0#64 || p.vsk = 0#64 then Eng.stop (headerTrap .k m 0#64)
    let (_, pages, lines) ← Eng.openAll m ([(p.msk, [2, 4], .read), (p.vsk, [3, 4], .read)]
      ++ if p.gsk = 0#64 then [] else [(p.gsk, [1, 4], .read)])
    if !finite32 p.lr || !finite32 p.eps || !finite32 p.nu || !p.clear then Eng.stop (engineTrap .k m 14#5 0#64)
    if p.ang.toNat % 4 ≠ 0 then Eng.stop (blame .k m (.plain 5#5 p.ang 0#64 0#64))
    if isLocal p.ang && (localExtent p.ang (4 * m.b.toNat)).isNone then Eng.stop (blame .k m (.plain 6#5 p.ang 0#64 0#64))
    pure (laneLine bs ++ lines, pages)
  | .sksq .. => do
    let (_, pages, lines) ← Eng.openAll m [(m.d, [3, 4], .rmw)]
    pure (lines, pages)
  | .skqry .. => do
    let (_, pages, lines) ← Eng.openAll m [(m.d, anyKind, .read)]
    pure (lines, pages)
  | _ => do
    let (_, pages, lines) ← Eng.openAll m [(m.d, anyKind, .rmw)]
    pure (lines, pages)

/-- A K command begins: its sketches are translated and checked before any effect (R232). -/
def Eng.beginSketch (m : Cmd) : Eng Unit := do
  let (lines, pages) ← if m.emptyCount then pure ([], []) else Eng.openCommand m
  modify fun s => s.mapCore fun c =>
    ((c.begin .k { m with sweep := { m.sweep with out := lines } }).bump 41 1)
  Eng.progress .k fun x => { x with hold := pages }

/-! ### SKINIT and SKADD on pairs (R224, R226, R234) -/

/-- Physical bytes of a sketch's counters and bitmap that a predicate on addresses selects. -/
def State.coversPa (pages : List Page) (h : SketchHdr) (n : Nat) (pa : Nat) : Bool :=
  (pieces 64 (h.addr + 64) (h.extent / 64 + 2) (h.extent - 64)).any fun p =>
    match pageFor pages p.1 with
    | some pg => pg.pa p.1 < pa + n && pa < pg.pa p.1 + p.2
    | none => false

/-- Every pair zero, every clip bit clear, every poison of a pair gone, strays and clips zero. -/
def State.initSketch (s : State) (pages : List Page) (h : SketchHdr) : State :=
  let s := s.mapPkg fun p => { p with
    counterPoison := p.counterPoison.filter fun a => !State.coversPa pages h 4 a
    poison := p.poison.filter fun l => !State.coversPa pages h 64 (64 * l) }
  let s := s.mapCores fun c => { c with poison := c.poison.filter fun g => match g with
    | .pair o => !State.coversPa pages h 4 (c.locOf o)
    | .scratch g => !(State.coversPa pages h 8 (c.locOf (8 * g)))
    | _ => true }
  let s := (pieces 64 (h.addr + 64) (h.extent / 64 + 2) (h.extent - 64)).foldl (fun s p =>
    s.sketchWrite .k pages p.1 (List.replicate p.2 0#8)) s
  s.sketchWrite .k pages (h.addr + 0x20) (List.replicate 16 0#8)

/-- Physical address of a pair's counter. -/
def counterPa (pages : List Page) (h : SketchHdr) (t : Nat) : Nat :=
  ((pageFor pages (h.counterVa t)).map fun pg => pg.pa (h.counterVa t)).getD 0

def clipPa (pages : List Page) (h : SketchHdr) (t : Nat) : Nat :=
  ((pageFor pages (h.clipVa t)).map fun pg => pg.pa (h.clipVa t)).getD 0

/-- A pair poisoned or cured by itself: the poison of a whole line, or of a granule of a stashed one, that holds its counter or its
clip bit is first laid on each pair that it reaches. -/
def State.markPair (s : State) (pages : List Page) (h : SketchHdr) (t : Nat) (bad : Bool) : State :=
  let counter := s.poisonAround (counterPa pages h t)
  let clip := s.poisonAround (clipPa pages h t)
  let within := fun (r : Option (Nat × Nat)) (pa : Nat) => r.any fun e => e.1 ≤ pa && pa < e.1 + e.2
  let others := (List.range h.pairs).filter fun u => within counter (counterPa pages h u) || within clip (clipPa pages h u)
  let s := (s.liftPoison (counterPa pages h t)).liftPoison (clipPa pages h t)
  (others.foldl (fun s u => s.setPair (counterPa pages h u) true) s).setPair (counterPa pages h t) bad

/-- α × v of a coefficient and an integer, exact. -/
def scaledInt (c : Lane) (v : Int) : XVal := (ofF32 c).mul (.ofInt v 0)

/-- One pair of SKADD. -/
def State.addPair (s : State) (pages : List Page) (hd ha : SketchHdr) (hb : Option SketchHdr) (α β : Lane) (t : Nat) : State :=
  let (s, a) := if isZero32 α then (s, (⟨0, false, false⟩ : Pair)) else s.readPair .k pages ha t
  let (s, b) := match hb with
    | some h => if isZero32 β then (s, (⟨0, false, false⟩ : Pair)) else s.readPair .k pages h t
    | none => (s, ⟨0, false, false⟩)
  if a.poisoned || b.poisoned then (s.writeClip .k pages hd t false).markPair pages hd t true
  else
    let v := roundInt .rne (XVal.add .rne (scaledInt α a.value) (scaledInt β b.value))
    let beyond := counterLimit < v || v < -counterLimit
    let s := s.markPair pages hd t false
    s.writePair .k pages hd t (max (-counterLimit) (min counterLimit v)) (a.clip || b.clip || beyond) true

/-- The clip bits set in a sketch. -/
def State.countClips (s : State) (pages : List Page) (h : SketchHdr) : Nat :=
  (List.range ((h.pairs + 7) / 8)).foldl (fun n k =>
    n + (List.range 8).countP fun b => ((s.sketchRead .k pages (h.bitmapVa + k) 1).2.1.headD 0#8).getLsbD b) 0

/-! ### One element (R219, R223, R224, R235, R238) -/

/-- The quantity of an update record (R220, R235). -/
def Cmd.quantity (m : Cmd) (g : Lane) : XVal :=
  match m.instr with
  | .sksq .. =>
    let x := ofF32 g
    match x with
    | .fin .. => (XVal.add .rne (.fin false 1 0 false) (ofF32 (lowLane m.c)).neg).mul (x.mul x)
    | _ => .nan
  | _ => ofF32 g

/-- The index and result arrays of an SKQRY overlap, by whatever addresses: its results are undefined (R236). -/
def State.queryOverlap (s : State) (m : Cmd) : Bool :=
  stretchesMeet (s.stretches m m.a (8 * m.c.toNat)) (s.stretches m m.b (8 * m.c.toNat))

/-- The answers to the queries of angle n of an SKOPT: of M, of V, and of G, which gives +0 where there is none (R238). -/
def Cmd.optQueries (m : Cmd) (p : OptBlock) (n : Word) (s : State) : State × Word × Word × Word :=
  let i := p.first + n
  let (s, mr) := s.sketchQuery m.hold (m.sketch 1 p.msk) i
  let (s, vr) := s.sketchQuery m.hold (m.sketch 2 p.vsk) i
  let (s, gr) := if p.gsk = 0#64 then (s, 0#64) else s.sketchQuery m.hold (m.sketch 3 p.gsk) i
  (s, mr, vr, gr)

def Eng.element (m : Cmd) : Eng Unit :=
  let n := BitVec.ofNat 64 m.sweep.done
  match m.instr with
  | .skinit .. => modify fun s => s.initSketch m.hold (m.sketch 0 m.d)
  | .skupd .. | .sksq .. => do
    let bs ← Eng.read .k { m with hold := [] } (m.a + 16#64 * n) 16
    let i : Word := BitVec.ofNat 64 (leNat (bs.take 8))
    let g : Lane := BitVec.ofNat 32 (leNat ((bs.drop 8).take 4))
    modify fun s => s.sketchUpdate .k m.hold (m.sketch 0 m.d) i (m.quantity g)
  | .skqry .. => do
    let bs ← Eng.read .k { m with hold := [] } (m.a + 8#64 * n) 8
    let places ← Eng.writable .k { m with hold := [] } (m.b + 8#64 * n) 8
    modify fun s =>
      let r := s.sketchQuery m.hold (m.sketch 0 m.d) (BitVec.ofNat 64 (leNat bs))
      let free := r.1.takeFree 8
      let who : Writer := .engine s.core.num .k m
      if s.queryOverlap m then free.2.putPlaces who places free.1
      else r.1.putPlaces who places (natBytes 8 r.2.toNat)
  | .skadd .. => modify fun s =>
    s.addPair m.hold (m.sketch 0 m.d) (m.sketch 1 m.a) (if m.b = 0#64 then none else some (m.sketch 2 m.b))
      (lowLane m.c) (lowLane (highHalf m.c)) m.sweep.done
  | .skopt .. => do
    let p := optBlock (m.kept 0)
    let here := p.ang + 4#64 * n
    let s ← get
    let (_, mr, vr, gr) := m.optQueries p n s
    let step :=
      if answerNone mr || answerNone vr || answerNone gr then none
      else optStep p (lowLane gr) (lowLane mr) (lowLane vr)
    match step with
    | some t => do
      let old ← Eng.read .k { m with hold := [] } here 4
      let places ← Eng.writable .k { m with hold := [] } here 4
      modify fun s => (m.optQueries p n s).1.putPlaces (.engine s.core.num .k m) places
        (natBytes 4 (BitVec.ofInt 32 ((leNat old : Int) - t)).toNat)
    | none => do
      modify fun s => (m.optQueries p n s).1
      Eng.progress .k fun x => { x with sweep := { x.sweep with skipped := x.sweep.skipped + 1 } }
  | _ => pure ()

/-- The next element of the running command, counted. -/
def Eng.sketchPart (m : Cmd) : Eng Unit := do
  Eng.element m
  Eng.progress .k fun x => { x with sweep := { x.sweep with done := x.sweep.done + 1 } }

/-- The retirement of a K command (R233, R237, R238): the clips of SKADD's destination are written here alone (assumption 120). -/
def Eng.retireSketch (m : Cmd) : Eng Unit := do
  match m.instr with
  | .skadd .. => modify fun s =>
    let h := m.sketch 0 m.d
    s.sketchWrite .k m.hold (h.addr + 0x28) (natBytes 8 (s.countClips m.hold h))
  | .skopt .. =>
    let stepped := m.b.toNat - m.sweep.skipped
    if m.c ≠ 0#64 then
      Eng.write .k { m with hold := [] } m.c (natBytes 4 stepped ++ natBytes 4 m.sweep.skipped)
  | _ => pure ()
  modify fun s => s.mapCore fun c => c.dropHead .k

/-- The next part of a K command that runs: an element, or its retirement. -/
def Eng.sketchNext (m : Cmd) : Eng Unit := if m.sweep.done < m.elements then Eng.sketchPart m else Eng.retireSketch m

end Sys2Proof.Machine
end

