-- ==== Sys2Proof/Machine/EngineSteps.lean ====
section
/-! DEFINITION. The steps of the engines of a core: a command begins, makes its next part, stops, retires (R194, R200, R201,
R232, R233, R258 to R260, R318 to R321, R382). -/

namespace Sys2Proof.Machine

/-! ### The next part of a queue's head -/

/-- The head of a queue with its next part, made from the state on trial: of a running command, of a copy or sketch command
that may begin, or the stop of a command whose pages failed at a restore (R448). -/
def State.nextPart (s : State) (q : EngineQ) : Option (Cmd × Part) :=
  match s.runner q with
  | some m =>
    some (m, runPart (match q with
      | .l => Eng.latticePart m
      | .c0 | .c1 => Eng.copyPart q m
      | .k => Eng.sketchNext m) s)
  | none =>
    (s.beginner q).bind fun m =>
      match m.refused, q with
      | some t, _ => some (m, .stops t s)
      | none, .l => none
      | none, .c0 | none, .c1 => some (m, runPart (Eng.beginCopy q m) s)
      | none, .k => some (m, runPart (Eng.beginSketch m) s)

/-- The trap that stops the head of a queue at its next part, and the state that its attempt left. -/
def State.nextStop (s : State) (q : EngineQ) : Option (Cmd × Trap × State) :=
  match s.nextPart q with
  | some (m, .stops t u) => some (m, t, u)
  | _ => none

/-- A short command of the lattice that has made its effect: no boundary remains (R200). -/
def Cmd.afterEffect (m : Cmd) : Bool := latticeKind m.target.instr == .short && m.target.sweep.done == 1

/-- A command stands at a boundary: no output of several entries is open (R195, R200). -/
def Cmd.atStop (q : EngineQ) (m : Cmd) : Bool := m.sweep.pushed == 0 && !(q == .l && m.afterEffect)

/-- The bound of the running head has run out, and it stands at a boundary (R197). -/
def State.overrun (s : State) (q : EngineQ) : Option Cmd :=
  (s.runner q).bind fun m => if m.leftAt s.core.meter = some 0 && m.atStop q then some m else none

/-- The head of a queue runs and its bound has not run out. -/
def State.runs (s : State) (q : EngineQ) (f : Cmd → State) : State :=
  match s.runner q with
  | some m => if (s.overrun q).isSome then s else f m
  | none => s

/-- The trap of a stop is one that hardware mode may serve (R381 function 0). -/
def State.servedByHub (s : State) (t : Trap) : Bool := t.cause == 10#5 && (s.pkg.ctx s.core.ctx).hardware 0

/-! ### The lattice -/

def execLatticeCommandBegin (core : Nat) (s : State) : Out :=
  .next (s.onCore core fun s =>
    match (s.beginner .l).filter fun m => m.refused.isNone with
    | none => s
    | some m =>
      let s := s.mapCore fun c => (c.begin .l { m with qfmt := if m.begun then m.qfmt else c.qfmt0 }).bump 29 1
      match s.runner .l with
      | none => s
      | some m =>
        match latticeKind m.target.instr with
        | .vec | .prod => s
        | _ => (runPart (Eng.latticePart m) s).after s)

def execLatticeQueueTransfer (core : Nat) (s : State) : Out :=
  .next (s.onCore core fun s => s.runs .l fun m => (runPart (Eng.latticePart m) s).after s)

/-- The lattice stops at the boundary that it stands at. -/
def State.latticeStop (s : State) : State :=
  match s.nextStop .l with
  | some (m, t, u) => if m.refused.isNone && s.servedByHub t then s else (u.stopLattice m t).getD s
  | none => s

def execLatticeStop (core : Nat) (s : State) : Out := .next (s.onCore core State.latticeStop)

/-- A lattice command has made all its effects: none of its partials is still on its way (R194). -/
def State.latticeFinished (s : State) (m : Cmd) : Bool :=
  m.latticeDone && !(s.pkg.partials.any fun p => p.core == s.core.num)

/-- The norms that a retiring run leaves (R207). Until then NORMIN and NORMOUT keep their values (assumption 43). -/
def Lattice.norms (l : Lattice) (m : Cmd) : Lattice :=
  let t := m.target
  if latticeKind t.instr = .run && 0 < t.runCount then { l with normin := m.sweep.nin, normout := m.sweep.nout } else l

def Core.retireLattice (c : Core) (m : Cmd) : Core :=
  (c.setLat fun l => { l.norms m with lastSeq := m.seq }).dropHead .l

/-! ### Copies -/

/-- The stretches that a lattice command has still to write, by address and length. -/
def Cmd.writesLeft (m : Cmd) : List (Word × Nat) :=
  let t := m.target
  let w := t.sweep
  let at_ := fun (a : Word) (n : Nat) => a + BitVec.ofNat 64 n
  match t.instr with
  | .arunv .. => [(at_ t.b (512 * w.done), 512 * (t.c.toNat - w.done))]
  | .avec .. =>
    let n := vecCols t.b
    let rows := (List.range (t.vecTotal - w.done)).map fun k =>
      let (j, i) := elimAt (vecRows t.b) 128 0 (w.done + k)
      [(at_ t.a (512 * (i - 1) + 4 * j), 4 * (n - j)), (at_ t.a (512 * i + 4 * j), 4 * (n - j))]
    rows.flatten ++ if t.c = 0#64 then [] else [(at_ t.c (4 * w.done), 4 * (t.vecTotal - w.done))]
  | .aprod _ _ toQ1 .. =>
    let rows := 16 * w.panel
    if toQ1 then [] else [(at_ t.c (512 * rows), 512 * ((shapeOf t.d).m - rows))]
  | .anorm .. => [(t.a, 16)]
  | .astat .. => [(t.a, 8)]
  | _ => []

/-- The stretches that a copy command writes. -/
def Cmd.copyWrites (m : Cmd) : List (Word × Nat) :=
  let k := controlOf m.b
  if k.dq != 0 then [] else (List.range (copiesOf m.nest)).map fun n => (m.d + (offsetsAt m.nest n).2, k.written)

/-- The banks of the scratchpad words of some stretches (R36). -/
def banksOf (l : List (Word × Nat)) : List Nat :=
  ((l.filter fun e => isLocal e.1 && e.2 != 0).map fun e =>
    let o := fieldNat e.1 0 22
    (List.range (min 31 ((o + e.2 - 1) / 64 - o / 64 + 1))).map fun i => bankOf (o / 64 + i)).flatten

/-- The lattice command whose writes a copy that asks for lattice phases may meet: both have a bank to write (R41). -/
def State.rival (s : State) (m : Cmd) : Option Cmd :=
  if (controlOf m.b).dbl then
    (s.runner .l).filter fun l =>
      !l.latticeDone && l.sweep.pushed = 0 && (banksOf l.writesLeft).any fun b => (banksOf m.copyWrites).contains b
  else none

/-- A copy that asks for lattice phases meets a lattice write, as the part chooses (R41). -/
def State.collide (s : State) (q : EngineQ) (m : Cmd) : Option State :=
  match s.rival m with
  | none => none
  | some l =>
    if Config.collides s.fresh then
      let t := ({ s with fresh := s.fresh + 1 } : State).abandonCopy q m .queued
      some ((t.stopLattice l ⟨8#5, true, attribution .l l 0#3, attribution q m 0#3, 0#64, 0#64⟩).getD s)
    else none

/-- A part of a copy command that makes its copies: it may meet a lattice write (R41). -/
def State.copying (s : State) (q : EngineQ) (m : Cmd) (part : Eng Unit) : State :=
  match s.collide q m with
  | some t => t
  | none =>
    let s := if (s.rival m).isSome then { s with fresh := s.fresh + 1 } else s
    (runPart part s).after s

def State.copyBegin (s : State) (q : EngineQ) : State :=
  match (s.beginner q).filter fun m => m.refused.isNone with
  | none => s
  | some m => (runPart (Eng.beginCopy q m) s).after s

def execCopyCommandBegin (core : Nat) (e : CopyEng) (s : State) : Out :=
  .next (s.onCore core fun s => s.copyBegin (CopyEng.queue e))

/-- The running copy streams, and copies of it remain. -/
def Cmd.streaming (m : Cmd) : Bool := (controlOf m.b).streams && m.sweep.done < copiesOf m.nest

def execStreamCopyStart (core : Nat) (e : CopyEng) (s : State) : Out :=
  let q := CopyEng.queue e
  .next (s.onCore core fun s => s.runs q fun m =>
    if m.streaming then (runPart (Eng.streamOne q m) s).after s else s)

/-- The copies, the arrival and the tag of a running command that has nothing left to stream. -/
def State.copyComplete (s : State) (q : EngineQ) : State :=
  s.runs q fun m =>
    if m.streaming then s
    else if !(controlOf m.b).streams && m.sweep.done < copiesOf m.nest then s.copying q m (Eng.finishCopy q m)
    else (runPart (Eng.finishCopy q m) s).after s

def execCopyComplete (core : Nat) (e : CopyEng) (s : State) : Out :=
  .next (s.onCore core fun s => s.copyComplete (CopyEng.queue e))

def State.copyStopped (s : State) (q : EngineQ) : State :=
  match s.nextStop q with
  | some (m, t, u) =>
    if m.refused.isSome then s.mapCore fun c => c.stopHead q m t
    else if s.servedByHub t then s
    else u.stopCopy q m t
  | none => s

def execCopyStop (core : Nat) (e : CopyEng) (s : State) : Out :=
  .next (s.onCore core fun s => s.copyStopped (CopyEng.queue e))

/-! ### The K engine -/

def execSketchCommandBegin (core : Nat) (s : State) : Out :=
  .next (s.onCore core fun s =>
    match (s.beginner .k).filter fun m => m.refused.isNone with
    | none => s
    | some m => (runPart (Eng.beginSketch m) s).after s)

def execMortarUpdate (core : Nat) (s : State) : Out :=
  .next (s.onCore core fun s => s.runs .k fun m =>
    if m.sweep.done < m.elements then (runPart (Eng.sketchPart m) s).after s else s)

def State.sketchStop (s : State) : State :=
  match s.nextStop .k with
  | some (m, t, u) => if m.refused.isNone && s.servedByHub t then s else u.mapCore fun c => c.stopHead .k m t
  | none => s

def execSketchStop (core : Nat) (s : State) : Out := .next (s.onCore core State.sketchStop)

/-! ### Retirement, bounds, fills -/

def State.retireHead (s : State) (q : EngineQ) : State :=
  match q with
  | .l => s.runs .l fun m => if s.latticeFinished m then s.mapCore fun c => c.retireLattice m else s
  | .c0 | .c1 => s.copyComplete q
  | .k => s.runs .k fun m => if m.sweep.done < m.elements then s else (runPart (Eng.retireSketch m) s).after s

def execEngineCommandRetire (core : Nat) (q : EngineQ) (s : State) : Out := .next (s.onCore core fun s => s.retireHead q)

/-- The condition that the head of a queue awaits (R259). -/
def State.awaited (s : State) (q : EngineQ) : BitVec 3 :=
  match s.nextPart q with
  | some (_, .waits c _) => c
  | some (m, .made _) => if q = .l && m.latticeDone && !s.latticeFinished m then 4#3 else 0#3
  | some (_, .stops t _) => if t.cause = 9#5 || t.cause = 10#5 || t.cause = 11#5 then 3#3 else 0#3
  | _ => 0#3

/-- The head stops with a trap, as its engine stops. -/
def State.stopWith (s : State) (q : EngineQ) (m : Cmd) (t : Trap) : Option State :=
  match q with
  | .l => s.stopLattice m t
  | .c0 | .c1 => some (s.stopCopy q m t)
  | .k => some (s.mapCore fun c => c.stopHead .k m t)

def State.boundStop (s : State) (q : EngineQ) : State :=
  match s.overrun q with
  | none => s
  | some m =>
    (s.stopWith q { m with stop := some (6, 0#64) } ⟨13#5, true, attribution q m (s.awaited q), 0#64, 0#64, 0#64⟩).getD s

def execBoundOverrun (core : Nat) (q : EngineQ) (s : State) : Out := .next (s.onCore core fun s => s.boundStop q)

/-- What a filled page leaves of the command that needed it: the lattice has written its record, a copy that does not
stream restarts with its full bound, another command goes on (R201, R321). -/
def State.afterFill (s : State) (q : EngineQ) (m : Cmd) (t : Trap) : Option State :=
  match q with
  | .l => s.writeRecord (m.freeze s.core.meter) 1 t.info0
  | .c0 | .c1 => some (if (controlOf m.b).streams then s else s.abandonCopy q m .queued)
  | .k => some s

/-- A demand fault of a command served by the hub; what the hub cannot fill stops the command (R381, R382). -/
def State.fillFor (s : State) (q : EngineQ) : State :=
  match s.nextStop q with
  | some (m, t, u) =>
    if m.refused.isNone && s.servedByHub t then
      match u.demandFill t.info0 with
      | (f, true) => (f.afterFill q m t).getD s
      | (f, false) => (f.stopWith q m t).getD s
    else s
  | none => s

def execDemandFill (core : Nat) (q : EngineQ) (s : State) : Out := .next (s.onCore core fun s => s.fillFor q)

end Sys2Proof.Machine
end

