-- ==== Sys2Proof/Machine/Drain.lean ====
section
/-! DEFINITION. The step of any outstanding operation, and the draining of a core before its state is saved (R391 steps 1 to
7). -/

namespace Sys2Proof.Machine

/-! ### Outstanding operations -/

/-- The step of the operation at index k, whatever its kind. -/
def State.opStep (s : State) (k : Nat) : State :=
  match s.core.ops[k]? with
  | none => s
  | some o =>
    match o.kind with
    | .load _ | .store | .amo .. | .cas .. | .writeback => s.performAccess k true true (s.remoteStash s.core.num o)
    | .barInit | .barExp | .barArv | .barGen => s.barrierStep k
    | .spawn _ => s.spawnStep k
    | .launch _ => s.launchStep k
    | .gjoin _ | .gleave _ | .gbar _ | .gsize _ | .grank _ => s.groupStep k
    | .tlbinv .. => s.tlbStep k
    | .keyset .. => s.keyStep k
    | .fence _ => s
    | .handle => s.writeHandle

/-- One part of the draining of classes G and S: the first operation, or the effect-list unit, which may hold it. -/
def State.drainPart (s : State) : State :=
  let s := match s.core.ops.head? with
    | some o => if o.size = 0 then s else s.recall (o.pa / 64)
    | none => s
  let t := s.opStep 0
  if t.core.ops.length < s.core.ops.length then t
  else
    match s.elNext with
    | some (_, .made u) => u
    | some (_, .stops _ _) => s.elStopped
    | _ => s.forceAt 0

def State.drainOps : Nat → State → State
  | 0, s => s
  | n + 1, s => if s.core.ops.isEmpty && s.elNext.isNone then s else State.drainOps n s.drainPart

/-! ### Engines (R391 steps 2 to 5, R445) -/

/-- A sketch command that executes drains to completion, or until it stops or its bound runs out, which is saved as
exhausted (R445). The fuel bounds its elements. -/
def State.drainSketch : Nat → State → State
  | 0, s => s
  | n + 1, s =>
    match s.runner .k with
    | none => s
    | some m =>
      let ends := m.left.isSome && Config.boundEnds s.fresh
      let s := { s with fresh := s.fresh + 1 }
      if ends then s.mapCore fun c => c.setHead .k { (m.freeze c.meter) with left := some 0 }
      else
        match runPart (Eng.sketchNext m) s with
        | .made t => State.drainSketch n t
        | .waits _ _ => s
        | .stops t u =>
          if s.servedByHub t then
            match u.demandFill t.info0 with
            | (f, true) => State.drainSketch n f
            | (f, false) => f.mapCore fun c => c.stopHead .k m t
          else u.mapCore fun c => c.stopHead .k m t

/-- The executing head of a copy engine: abandoned, unless it streams (R319, R391 step 4). -/
def State.drainCopy (s : State) (q : EngineQ) : State :=
  match s.core.head q with
  | some m =>
    if m.status == .running then
      if (controlOf m.b).streams then s.mapCore fun c => c.standHead q m .queued else s.abandonCopy q m .queued
    else s
  | none => s

/-- The open output of the lattice goes out, as far as its queues have places: no boundary lies inside it (R195, R200). The fuel
bounds its entries. -/
def State.drainOutput : Nat → State → State
  | 0, s => s
  | n + 1, s =>
    match s.runner .l with
    | none => s
    | some m =>
      if m.sweep.pushed = 0 then s
      else
        match runPart (Eng.latticePart m) s with
        | .made t => State.drainOutput n t
        | _ => s

/-- The executing lattice command stops at its next boundary; its record carries reason 8 (R391 step 3). A short command that has
made its effect has none left, and retires (R200). -/
def State.drainLattice (s : State) : State :=
  let s := s.drainOutput (outputFuel s)
  match s.core.head .l with
  | some m =>
    if m.status != .running || m.sweep.pushed != 0 then s
    else if m.afterEffect then s.retireHead .l
    else s.mapCore fun c => c.setHead .l { (m.freeze c.meter) with stop := some (8, 0#64) }
  | none => s
where
  /-- Entries of the widest output: the rows of a panel, or the gradients of a pass. -/
  outputFuel (s : State) : Nat :=
    ((s.core.head .l).map fun m => m.sweep.acc.length + ((m.sweep.stages.getD []).map fun t => t.par.length).foldl (· + ·) 0).getD 0 + 4

def State.sketchFuel (s : State) : Nat := 2 * ((s.core.head .k).map fun m => m.elements + 2).getD 0 + 4

/-- What the drain of a core may have to leave undone: work of the effect-list unit or an operation that waits for a line or a link,
a sketch command that waits, an output of the lattice whose queue is full. -/
def State.undrained (t : State) : Bool :=
  let runs := fun (q : EngineQ) (left : Cmd → Bool) => (t.core.head q).any fun m => m.status == .running && left m
  !t.core.ops.isEmpty || t.core.work.any (fun _ => !t.core.elStands) || runs .l (fun m => m.sweep.pushed != 0)
    || runs .k fun m => m.left != some 0

/-- A core as R391 leaves it before its state is written: nothing in flight, nothing outstanding, windows written back. -/
def State.drain (s : State) : State :=
  let s := s.advance (s.core.lastLanding - s.core.cycle)
  let s := State.drainOps s.core.drainFuel s
  let s := (s.drainLattice.drainCopy .c0).drainCopy .c1
  let s := State.drainSketch s.sketchFuel s
  let s := State.drainOps s.core.drainFuel s
  (List.range 8).foldl State.emptyWindow s

/-- The drain of the core comes to its end now (R391): nothing that must complete waits. -/
def State.drains (s : State) : Bool := !s.drain.undrained

end Sys2Proof.Machine
end

