-- ==== Sys2Proof/Machine/Image.lean ====
section
/-! DEFINITION. The save image of a core (R392 to R394, R446, R449): what it holds and where, writing it and loading it. The
places of the header and of an engine-queue slot that R393 leaves open are assumption 25. -/

namespace Sys2Proof.Machine

/-! ### Reading and writing a physical area -/

/-- The n bytes at a physical address. -/
def State.physBytes (s : State) (pa n : Nat) (key : BitVec 6) : List Byte :=
  ((pieces 64 pa (n / 64 + 2) n).map fun p => (s.look p.1 p.2 key).1).flatten

def State.physBad (s : State) (pa n : Nat) (key : BitVec 6) : Bool :=
  (pieces 64 pa (n / 64 + 2) n).any fun p => (s.look p.1 p.2 key).2

def State.physNat (s : State) (pa n : Nat) (key : BitVec 6) : Nat := leNat (s.physBytes pa n key)

/-- An area is about to be read by a hub for a context: lines that the host holds modified come back, and the context touches
the homes (R298, R378). -/
def State.recallArea (s : State) (ctx pa n : Nat) : State :=
  (pieces 64 pa (n / 64 + 2) n).foldl (fun s p => (s.recall (p.1 / 64)).reachFor ctx p.1) s

/-- The lost hubs that home a line of an area, or its port. -/
def State.areaLoss (s : State) (pa n : Nat) : List (BitVec 4) :=
  [8#4, 9#4].filter fun h => (pieces 64 pa (n / 64 + 2) n).any fun p => s.pkg.reach p.1 == .hubLost h.toNat

/-- Lines written from a function of their number. -/
def State.writeLines (s : State) (pa n : Nat) (key : BitVec 6) (f : Nat → List Byte) : State :=
  (List.range n).foldl (fun s i => s.hubWrite (pa + 64 * i) (f i) key) s

/-! ### Places (R393) -/

def imgX : Nat := 0x400
def imgP : Nat := 0x600
def imgNests : Nat := 0x700
def imgWins : Nat := 0x880
def imgLists : Nat := 0x1000
def imgSweep : Nat := 0x1800
def imgMaps : Nat := 0x4000
def imgStats : Nat := 0x6000
def imgEngines : Nat := 0xE000
def imgV : Nat := 0x14000
def imgQueues : Nat := 0x1A000
def imgBuffer : Nat := 0x3A000
def imgScratch : Nat := 0x3C000
def imgBlock : Nat := 0x41C000

/-- The place of a poisoned granule in the image. -/
def Granule.place : Granule → Nat
  | .x r => imgX + 8 * r.toNat
  | .p slot g => imgP + 16 * slot + 8 * g
  | .v slot g => imgV + 512 * slot + 8 * g
  | .buffer g => imgBuffer + 8 * g
  | .scratch g => imgScratch + 8 * g
  | .pair o => imgScratch + o / 8 * 8
  | .map e g => imgMaps + 128 * e + 8 * g
  | .stat e g => imgStats + 32 * e + 8 * g

/-- The granule at a place of the data regions, but for queues. -/
def granuleAt (o : Nat) : Option Granule :=
  if o < imgX then none
  else if o < imgP then some (.x (BitVec.ofNat 6 ((o - imgX) / 8)))
  else if o < imgNests then some (.p ((o - imgP) / 16) ((o - imgP) / 8 % 2))
  else if o < imgMaps then none
  else if o < imgStats then some (.map ((o - imgMaps) / 128) ((o - imgMaps) / 8 % 16))
  else if o < imgEngines then some (.stat ((o - imgStats) / 32) ((o - imgStats) / 8 % 4))
  else if o < imgV then none
  else if o < imgQueues then some (.v ((o - imgV) / 512) ((o - imgV) / 8 % 64))
  else if o < imgBuffer then none
  else if o < imgBuffer + 512 then some (.buffer ((o - imgBuffer) / 8))
  else if o < imgScratch then none
  else if o < imgBlock then some (.scratch ((o - imgScratch) / 8))
  else none

/-- Regions whose poison makes the image unusable, as offset and length (R449). -/
def vitalRegions : List (Nat × Nat) :=
  [(0, 0x400), (imgNests, 0x180), (imgWins, 0x100), (imgLists, 0x800), (imgSweep, 0x2080), (imgEngines, 0x6000),
    (imgBlock, 0x4000)]

/-! ### Engine-queue slots -/

def nestBytes (l : List NestLevel) : List Byte :=
  (l.map fun n => natBytes 4 n.count.toNat ++ natBytes 8 n.src.toNat ++ natBytes 8 n.dst.toNat).flatten

def flagNat (b : Bool) (k : Nat) : Nat := if b then 2 ^ k else 0

def Cmd.slotBytes (m : Cmd) : List Byte :=
  natBytes 8 m.word.toNat ++ natBytes 8 m.d.toNat ++ natBytes 8 m.a.toNat ++ natBytes 8 m.b.toNat ++ natBytes 8 m.c.toNat
    ++ natBytes 2 m.seq.toNat
    ++ natBytes 2 (flagNat m.left.isNone 0 + flagNat (m.status == .stopped) 1 + flagNat m.begun 2
      + flagNat ((m.stop.map fun e => e.1) == some 6) 3)
    ++ natBytes 4 m.boundUnits ++ natBytes 4 m.sweep.done ++ natBytes 4 m.sweep.skipped
    ++ padTo 120 (nestBytes m.nest) ++ natBytes 8 m.qfmt.toNat ++ natBytes 8 m.order

def nestOf (bs : List Byte) (n : Nat) : List NestLevel :=
  (List.range n).map fun i => ⟨BitVec.ofNat 32 (fieldAt bs (20 * i) 4), BitVec.ofNat 64 (fieldAt bs (20 * i + 4) 8),
    BitVec.ofNat 64 (fieldAt bs (20 * i + 12) 8)⟩

/-- The instruction of a slot's word; an image that the machine wrote holds a command's word in every filled slot. -/
def slotInstr (w : Word) : Instr :=
  match decode w with
  | .ok i => i
  | .error _ => .nop

/-- What was kept of a command of a queue when it was saved; nothing, for a slot of an image that was altered. -/
def Rest.cmd (r : Rest) (q : EngineQ) (seq : BitVec 16) : SavedCmd :=
  (r.cmds.find? fun e => e.queue == q && e.seq == seq).getD ⟨q, seq, 0, false, [], [], []⟩

def cmdOfSlot (kept : SavedCmd) (nth : Nat) (bs : List Byte) : Cmd :=
  let f := fun o => BitVec.ofNat 64 (fieldAt bs o 8)
  let flags := fieldAt bs 42 2
  { word := f 0
    instr := slotInstr (f 0)
    d := f 8
    a := f 16
    b := f 24
    c := f 32
    seq := BitVec.ofNat 16 (fieldAt bs 40 2)
    order := fieldAt bs 184 8
    left := if flags % 2 = 1 then none else some (16 * fieldAt bs 44 4)
    since := none
    pins := []
    hold := []
    nest := match slotInstr (f 0) with
      | .cpgo .. => nestOf (bs.drop 56) 6
      | _ => []
    qfmt := f 176
    noted := (kept.noted, 0)
    spoilt := kept.spoilt
    olds := kept.olds
    nth := nth
    status := if flags / 2 % 2 = 1 then .stopped else .queued
    sweep := { Sweep.start with
      done := fieldAt bs 48 4
      skipped := fieldAt bs 52 4
      out := kept.out
      tickets := kept.entries }
    begun := flags / 4 % 2 = 1
    refused := none
    stop := if flags / 8 % 2 = 1 then some (6, 0#64) else none }

/-! ### The header (R393; assumption 25) -/

/-- What a save is made for: the image's address, the program counter and STATUS to record, the pre-empted flag, the
checkpoint's number. -/
structure SaveFor where
  at_ : Nat
  pc : Word
  status : Word
  preempted : Bool
  checkpoint : Nat

def engineIndex : EngineQ → Nat
  | .l => 0 | .c0 => 1 | .c1 => 2 | .k => 3

def allEngines : List EngineQ := [.l, .c0, .c1, .k]

def stoppedCode : Stopped → Nat
  | .none => 0
  | .engine q => 1 + engineIndex q
  | .el => 5

def stoppedOf : Nat → Stopped
  | 1 => .engine .l | 2 => .engine .c0 | 3 => .engine .c1 | 4 => .engine .k | 5 => .el | _ => .none

/-- Fields of the lattice in the header, which a switch between strands writes too. -/
def Core.latticeFields (c : Core) : List (Nat × Nat × Nat) :=
  let l := c.lat
  let b := l.binding
  let g := fun (f : Binding → Nat) => (b.map f).getD 0
  [(0xE0, 8, c.trapvec.toNat), (0xE8, 8, c.lstat.toNat), (0xF0, 8, l.normin.toNat), (0xF8, 8, l.normout.toNat),
    (0x100, 8, g fun b => b.addr.toNat), (0x108, 4, g fun b => b.stages),
    (0x10C, 4, flagNat b.isSome 0 + flagNat (b.any fun b => b.a16) 1), (0x110, 8, g fun b => b.list.toNat),
    (0x118, 8, g fun b => b.abase.toNat), (0x120, 8, g fun b => b.sbase.toNat), (0x128, 8, g fun b => b.ibase.toNat),
    (0x130, 8, l.range.toNat), (0x138, 8, l.config.toNat), (0x140, 8, l.sketch.toNat), (0x148, 8, l.save.toNat)]

def Core.openFields (c : Core) : List (Nat × Nat × Nat) :=
  match c.opened with
  | none => []
  | some l => [(0xC8, 4, l.start), (0xCC, 2, l.count), (0xCE, 1, l.depth), (0xCF, 1, l.slot.toNat)]

def Core.blockFields (c : Core) : List (Nat × Nat × Nat) :=
  match c.block with
  | none => []
  | some b => [(0x1B0, 1, b.pred.toNat), (0x1B1, 1, b.left), (0x1B2, 1, b.pat.toNat), (0x1B3, 1, 1), (0x1E8, 16, b.value.toNat)]

/-- The stopped EL instruction: its word, operands and handle, its entry index and counts, its word's address and segments
(R349). -/
def ElWork.bytes (w : ElWork) : List Byte :=
  padTo 128 (natBytes 8 (wordOf w.instr).toNat ++ natBytes 8 w.b.toNat ++ natBytes 8 w.c.toNat ++ natBytes 2 w.handle.toNat
    ++ natBytes 2 w.done ++ natBytes 2 w.live ++ natBytes 2 w.malformed ++ natBytes 1 0 ++ natBytes 1 w.segs.length
    ++ natBytes 8 w.pc.toNat ++ (w.segs.map fun g => natBytes 3 g.1 ++ natBytes 2 g.2).flatten)

def Core.elFields (c : Core) : List (Nat × Nat × Nat) :=
  match c.work with
  | w :: _ => if w.stopped then [(0x200, 128, leNat w.bytes)] else []
  | [] => []

def Core.takenBits (c : Core) : Nat := c.taken.foldl (fun n t => n ||| 2 ^ stoppedCode t) 0

/-- The header's fields as offset, size and value. -/
def State.headerFields (s : State) (o : SaveFor) : List (Nat × Nat × Nat) :=
  let c := s.core
  let gangFlag := c.gangOf.isSome
  [(0, 2, 1), (2, 1, 1 + flagNat o.preempted 1),
    (3, 1, flagNat gangFlag 0 + flagNat c.opened.isSome 1 + flagNat (c.joinDue == some o.pc) 5 + flagNat c.elStands 6),
    (4, 1, c.ctx), (5, 1, c.num), (8, 8, o.checkpoint), (0x10, 8, Config.ticksOf c.time), (0x18, 8, o.pc.toNat),
    (0x20, 8, o.status.toNat), (0x28, 8, c.rrb.toNat), (0x30, 8, c.livedepth.toNat), (0x38, 8, c.tags.toNat),
    (0x40, 8, c.tagdrop.toNat), (0x48, 8, c.tagDiffers.toNat), (0x50, 8, c.tagMalformed.toNat),
    (0xB8, 8, c.elbase.toNat), (0xC0, 8, c.elcap.toNat), (0xD0, 8, c.frame.toNat), (0xD8, 8, c.strandReg.toNat),
    (0x168, 8, (c.strand.map fun t => t.join.toNat).getD 0), (0x170, 8, c.groups.toNat), (0x178, 8, c.gangOf.getD 0),
    (0x1A8, 8, s.pkg.rests.length), (0x1B4, 1, c.takenBits), (0x1B5, 1, flagNat c.step 0),
    (0x1B8, 8, c.trapcause.toNat), (0x1C0, 8, c.trappc.toNat), (0x1F8, 8, c.issued),
    (0x158, 1, c.buffer.length)]
    ++ (List.range 8).map (fun q => (0x58 + 8 * q, 8, (c.qfmt.getD q 0#64).toNat))
    ++ (List.range 4).map (fun q => (0x98 + 8 * q, 8, (c.pace.getD q 0#20).toNat))
    ++ (List.range 8).map (fun q => (0x150 + q, 1, (c.queues.getD q []).length))
    ++ allEngines.map (fun q => (0x15C + engineIndex q, 1, (c.queue q).cmds.length))
    ++ allEngines.map (fun q => (0x160 + 2 * engineIndex q, 2, (c.queue q).next.toNat))
    ++ (List.range 32).map (fun k => (0x180 + k, 1, (c.vage.getD k 0#6).toNat))
    ++ (List.range 8).map (fun k => (0x1A0 + k, 1, (c.page.getD k 0#6).toNat))
    ++ (List.range 4).map (fun k => (0x1C8 + 8 * k, 8, (c.trapinfo.getD k 0#64).toNat))
    ++ c.latticeFields ++ c.openFields ++ c.blockFields ++ c.elFields

/-- Fields placed in an area of n bytes, the rest zero. -/
def placeFields (n : Nat) (l : List (Nat × Nat × Nat)) : List Byte :=
  (l.foldl (fun (m : Memory) f => m.writeNat f.1 f.2.1 f.2.2) Memory.empty).bytes 0 n

/-! ### Other parts -/

/-- What is kept of a command beside its slot. The lines that a sketch command read when it began are kept, those of a lattice
command stand in its record. -/
def State.savedCmd (s : State) (q : EngineQ) (m : Cmd) : SavedCmd where
  queue := q
  seq := m.seq
  noted := s.pkg.written.length
  spoilt := s.sourceWritten m (controlOf m.b)
  olds := m.olds
  out := if q = .k then m.sweep.out else []
  entries := ((List.range 8).map fun n =>
    ((s.core.queues.toList.getD n []).zipIdx.filter fun e => m.sweep.tickets.contains e.1.ticket).map fun e => 32 * n + e.2).flatten

/-- What a core's image holds beyond its bytes; a loss of a die stays with the core that is to be told of it. -/
def State.rest (s : State) : Rest :=
  let c := s.core
  { pending := c.pending.filter fun t => t.rank != 0
    work := c.work
    gbar := c.gbar
    barwt := c.barwt
    cmds := (allEngines.map fun q => (c.queue q).cmds.map (s.savedCmd q)).flatten
    paced := allEngines.filterMap fun q => (c.queue q).began.bind fun b => (c.queue q).last.map fun n => (q, c.cycle - b, n)
    lastLoad := c.lastLoad }

/-- The rest that an image names by its number. -/
def Package.restOf (p : Package) (n : Nat) : Rest := p.rests.getD n ⟨[], [], [], [], [], [], none⟩

/-- A stopped EL instruction of a header; what the header has no place for is taken from `w`. -/
def workOf (bs : List Byte) (w : ElWork) : ElWork :=
  let f := fun o => BitVec.ofNat 64 (fieldAt bs o 8)
  { w with
    instr := slotInstr (f 0)
    segs := (List.range (fieldAt bs 33 1)).map fun k => (fieldAt bs (42 + 5 * k) 3, fieldAt bs (45 + 5 * k) 2)
    b := f 8
    c := f 16
    handle := BitVec.ofNat 16 (fieldAt bs 24 2)
    pc := f 34
    done := fieldAt bs 26 2
    live := fieldAt bs 28 2
    malformed := fieldAt bs 30 2
    stopped := true }

def slotStateCode : SlotState → Nat
  | .free => 0 | .opened => 1 | .live => 2

def slotStateOf : Nat → SlotState
  | 1 => .opened | 2 => .live | _ => .free

def ListSlot.bytes (l : ListSlot) : List Byte :=
  padTo 128 (natBytes 2 l.gen.toNat ++ natBytes 1 (slotStateCode l.state) ++ natBytes 1 l.segs.length
    ++ (l.segs.map fun g => natBytes 3 g.1 ++ natBytes 2 g.2).flatten)

def listSlotOf (bs : List Byte) : ListSlot :=
  ⟨BitVec.ofNat 12 (fieldAt bs 0 2), slotStateOf (fieldAt bs 2 1),
    (List.range (fieldAt bs 3 1)).map fun k => (fieldAt bs (4 + 5 * k) 3, fieldAt bs (7 + 5 * k) 2)⟩

def winBytes (w : Option StashWin) : List Byte :=
  match w with
  | none => natBytes 32 0
  | some w => natBytes 8 (2 ^ 63 + w.loc) ++ natBytes 8 w.glob.toNat ++ natBytes 8 w.len ++ natBytes 8 1

def nestLevelBytes (n : NestLevel) : List Byte :=
  natBytes 8 n.count.toNat ++ natBytes 8 n.src.toNat ++ natBytes 8 n.dst.toNat ++ natBytes 8 0

/-- The resident parts of the image but for its header: list table, map store, statistics buffer, scratchpad (R374, R394). -/
def State.writeResident (s : State) (a : Nat) (key : BitVec 6) : State :=
  let c := s.core
  let s := s.writeLines (a + imgScratch) (Config.scratchBytes / 64) key fun i => c.scratch.bytes (64 * i) 64
  let s := s.writeLines (a + imgStats) 512 key fun i =>
    StatEntry.bytes (c.stats.getD (2 * i) StatEntry.zero) ++ StatEntry.bytes (c.stats.getD (2 * i + 1) StatEntry.zero)
  let s := (List.range 64).foldl (fun s e => s.writePhys (a + imgMaps + 128 * e) (natBytes 128 (c.lat.map e).toNat) key) s
  (List.range 16).foldl (fun s k => s.writePhys (a + imgLists + 128 * k) (c.slots.getD k ⟨0#12, .free, []⟩).bytes key) s

/-- The sweep save area of the image: the record of a lattice command that stands at the head with progress. -/
def State.writeSweep (s : State) (a : Nat) (key : BitVec 6) : State :=
  match s.core.head .l with
  | some m =>
    if m.begun || m.status == .stopped then
      let stop := m.stop.getD (8, 0#64)
      (s.core.recordParts m stop.1 stop.2 imageBlock).foldl (fun s p => s.writePhys (a + imgSweep + p.1) p.2 key) s
    else s
  | none => s

/-- The poison of state carried to the image's lines (R449). -/
def State.writePoison (s : State) (a : Nat) (which : Granule → Bool) : State :=
  (s.core.poison.filter which).foldl (fun s g => s.putPoison (a + g.place) 8) s

def isResident (g : Granule) : Bool :=
  match g with
  | .scratch _ | .map .. | .stat .. => true
  | _ => false

/-- The granule is in state that the image holds: not in a dead slot (R394). -/
def Core.imaged (c : Core) (g : Granule) : Bool :=
  match g with
  | .v slot _ => !c.vdead slot
  | .p slot _ => !c.pdead slot
  | _ => true

/-- Entries of the queues, with the poison of each. -/
def State.writeQueues (s : State) (a : Nat) (key : BitVec 6) : State :=
  (List.range 8).foldl (fun s q =>
    (s.core.queues.getD q []).zipIdx.foldl (fun s e =>
      let place := a + imgQueues + 0x4000 * q + 512 * e.2
      let s := s.writePhys place (natBytes 512 (e.1.img.getD 0#4096).toNat) key
      (List.range 64).foldl (fun s g => if e.1.poison.getLsbD g then s.putPoison (place + 8 * g) 8 else s) s) s) s

/-- Lines with fields replaced and their other bytes kept. -/
def State.patchLines (s : State) (pa n : Nat) (key : BitVec 6) (fields : List (Nat × Nat × Nat)) : State :=
  let old := s.physBytes pa (64 * n) key
  let new := (fields.foldl (fun (m : Memory) f => m.writeNat f.1 f.2.1 f.2.2) (Memory.empty.writeBytes 0 old)).bytes 0 (64 * n)
  s.writeLines pa n key fun i => (new.drop (64 * i)).take 64

/-- Write the whole image of the core in `core`, its header last (R391 step 8, R405). -/
def State.saveImage (s : State) (o : SaveFor) : State :=
  let c := s.core
  let rest := s.rest
  let a := o.at_
  let key := (s.pkg.ctx c.ctx).ptkey
  let s := s.writeResident a key
  let s := s.writePhys (a + imgX) ((c.x.toList.map fun v => natBytes 8 v.toNat).flatten) key
  let s := s.patchLines (a + imgP) 4 key ((List.range 16).filterMap fun k =>
    if c.pdead k then none else some (16 * k, 16, (if k = 0 then allTrue else c.p.getD k 0#128).toNat))
  let s := s.writePhys (a + imgNests) (((c.nest0 ++ c.nest1).map nestLevelBytes).flatten) key
  let s := s.writePhys (a + imgWins) ((c.wins.toList.map winBytes).flatten) key
  let s := s.writeSweep a key
  let s := allEngines.foldl (fun s q =>
    (c.queue q).cmds.zipIdx.foldl (fun s m =>
      s.writePhys (a + imgEngines + 0x1800 * engineIndex q + 192 * m.2) m.1.slotBytes key) s) s
  let s := (List.range 48).foldl (fun s k =>
    if c.vdead k then s else s.writePhys (a + imgV + 512 * k) (natBytes 512 (c.v.getD k 0#4096).toNat) key) s
  let s := s.writeQueues a key
  let s := s.writePhys (a + imgBuffer) (padTo 512 (bytesOfWords c.buffer)) key
  let s := s.writePoison a c.imaged
  let s := s.writePhys a (placeFields 0x400 (s.headerFields o)) key
  s.mapPkg fun p => { p with rests := p.rests ++ [rest] }

/-! ### Switches between strands (R374) -/

/-- Write the resident state to the image of this core: its parts and its fields of the header. -/
def State.saveResident (s : State) : State :=
  let x := s.pkg.ctx s.core.ctx
  let a := x.imageAt s.core.num
  let s := (s.writeResident a x.ptkey).writePoison a isResident
  let fields := [(0, 2, 1), (4, 1, s.core.ctx), (5, 1, s.core.num)] ++ s.core.latticeFields
  let s := s.patchLines a 6 x.ptkey fields
  s.mapPkg fun p => p.setCtx s.core.ctx fun c => { c with saved := insertNat c.saved s.core.num }

/-- The resident state as R242 and R187 give it to the first strand of a context on a core. -/
def Core.clearResident (c : Core) : Core :=
  { c with
    lat := Lattice.reset
    stats := Vector.replicate 1024 StatEntry.zero
    scratch := Memory.empty
    slots := Vector.replicate 16 ⟨0#12, .free, []⟩
    resident := none
    poison := c.poison.filter fun g => !isResident g }

/-! ### Loading -/

/-- The granules loaded from poisoned lines of an image. -/
def State.loadPoison (s : State) (a : Nat) (key : BitVec 6) (which : Granule → Bool) : List Granule :=
  let bad := (List.range (imgBlock / 64)).filter fun l => (granuleAt (64 * l)).any (fun g => which g) && s.physBad (a + 64 * l) 64 key
  (bad.map fun l => (List.range 8).filterMap fun k => granuleAt (64 * l + 8 * k)).flatten

def latticeOf (h : Nat → Nat → Nat) (maps : Vector (BitVec 1024) 64) : Lattice :=
  let w := fun o => BitVec.ofNat 64 (h o 8)
  { maps := maps
    binding := if h 0x10C 4 % 2 = 1 then
        some ⟨w 0x100, h 0x108 4, h 0x10C 4 / 2 % 2 = 1, w 0x110, w 0x118, w 0x120, w 0x128⟩
      else none
    range := w 0x130
    config := w 0x138
    sketch := w 0x140
    save := w 0x148
    lastSeq := (w 0xE8).extractLsb' 48 16
    fault := (w 0xE8).extractLsb' 32 8
    nullPairs := (w 0xE8).extractLsb' 16 16
    recAlt := (w 0xE8).getLsbD 10
    normin := w 0xF0
    normout := w 0xF8 }

/-- The resident state of an image. -/
def State.loadResident (s : State) (a : Nat) (key : BitVec 6) : Core → Core := fun c =>
  let h := fun o n => s.physNat (a + o) n key
  let read := fun o n => s.physBytes (a + o) n key
  { c with
    lat := latticeOf h (Vector.ofFn fun e => BitVec.ofNat 1024 (h (imgMaps + 128 * e.val) 128))
    stats := Vector.ofFn fun e => statOf (read (imgStats + 32 * e.val) 32)
    scratch := (List.range (Config.scratchBytes / 64)).foldl (fun m i =>
      m.writeBytes (64 * i) (read (imgScratch + 64 * i) 64)) Memory.empty
    slots := Vector.ofFn fun k => listSlotOf (read (imgLists + 128 * k.val) 128)
    trapvec := BitVec.ofNat 64 (h 0xE0 8)
    poison := s.loadPoison a key isResident ++ c.poison.filter fun g => !isResident g }

/-- A poisoned line in a region that the image needs whole; its offset. -/
def State.spoiledImage (s : State) (a : Nat) (key : BitVec 6) : Option Nat :=
  vitalRegions.findSome? fun r => ((List.range (r.2 / 64 + 1)).map fun k => r.1 / 64 * 64 + 64 * k).find? fun o =>
    o < r.1 + r.2 && s.physBad (a + o) 64 key

/-! ### Commands of a loaded image (R445, R448) -/

/-- The declared extent of a command (R282). -/
def Cmd.extent (m : Cmd) : List (Word × Nat × Acc) :=
  match m.instr with
  | .amap .. => [(m.a, 128, .read)]
  | .aang .. => [(m.a, 64, .read)]
  | .arunv _ _ fmt .. => [(m.a, m.c.toNat * runvBytes fmt.toNat, .read), (m.b, 512 * m.c.toNat, .write)]
  | .avec .. => if m.c = 0#64 then [] else [(m.c, 4 * m.vecTotal, .write)]
  | .aprod _ _ toQ1 .. =>
    let h := shapeOf m.d
    if toQ1 then [] else [(m.c, 512 * (h.m - 1) + 4 * h.n, .rmw)]
  | .anorm .. => [(m.a, 16, .write)]
  | .astat .. => [(m.a, 8, .write)]
  | .ares .. => [(m.a, 128, .read)]
  | .cpgo .. => ((controlOf m.b).sides m.d m.a m.nest).map fun e => (e.start, e.bytes, e.acc)
  | .skupd .. | .sksq .. => [(m.a, 16 * m.b.toNat, .read)]
  | .skqry .. => [(m.a, 8 * m.c.toNat, .read), (m.b, 8 * m.c.toNat, .write)]
  | .skopt .. => (m.a, if m.b = 0#64 then 0 else 64, .read) :: if m.c = 0#64 then [] else [(m.c, 8, .write)]
  | _ => []

/-- The command translates on demand. -/
def Cmd.onDemand (m : Cmd) : Bool := (Fld.qE m.word).getLsbD 8

/-- A command that has not begun and is pinned has its pages translated again; a page that fails stops it at its beginning
(R448). -/
def repin (q : EngineQ) (m : Cmd) (s : State) : Cmd × State :=
  if m.begun || m.onDemand then (m, s)
  else
    let pages := match m.instr with
      | .cpgo .. => pinSides false ((controlOf m.b).sides m.d m.a m.nest) s
      | _ => pinAll false m.extent s
    match pages with
    | .ok (pages, s) => ({ m with pins := pages }, s)
    | .error (.trapAt t s) => ({ m with refused := some (blame q m t) }, s)
    | .error _ => (m, s)

/-- A write since it was saved has met the source of a demand copy (R283); it runs on with what it has noted. -/
def State.renote (s : State) (m : Cmd) : Cmd :=
  let met := stretchesMeet (s.sources m (controlOf m.b)) ((s.pkg.written.drop m.noted.1).map fun w => (w.loc, w.n))
  { m with spoilt := m.spoilt || met, noted := (s.pkg.written.length, 0) }

/-- The commands of a queue translated again, in sequence order. -/
def repinQueue (q : EngineQ) (s : State) : State :=
  let r := (s.core.queue q).cmds.foldl (fun (acc : List Cmd × State) m =>
    let r := repin q m acc.2
    (acc.1 ++ [r.2.renote r.1], r.2)) ([], s)
  r.2.mapCore fun c => c.setQueue q { c.queue q with cmds := r.1 }

/-- The head of L with the progress and the bound of its record (R392); it runs on from there unless it is stopped. -/
def State.loadSweep (s : State) (a : Nat) (key : BitVec 6) (m : Cmd) : Cmd :=
  if !m.begun then
    if m.status = .stopped then
      { m with stop := some (s.physNat (a + imgSweep + 0x38) 1 key, BitVec.ofNat 64 (s.physNat (a + imgSweep + 0x70) 8 key)) }
    else m
  else
    let read := fun o n => s.physBytes (a + imgSweep + o) n key
    let bs := read 0 128
    let i := slotInstr (BitVec.ofNat 64 (fieldAt bs 0 8))
    let sweep := recordSweep (latticeKind i) bs
    let t := ({ m with sweep := sweep } : Cmd)
    let whole := t.target
    let range := (s.core.lat.binding.bind fun b => rangeOf b.stages s.core.lat.range).map fun r => r.2
    let passes := (range.map passesOf).getD 1
    let held := if latticeKind i = .run then whole.heldCount passes else 0
    let flags := fieldAt bs 0x39 1
    let acc := (whole.accNeeded (flags % 2 = 1) passes).getD 0
    let filled := whole.filled (read 0x80 acc) (s.physBytes (a + imgBlock) (512 * held) key) (range.getD 0) passes
    { m with
      left := recordLeft bs
      status := if m.status = .stopped then .stopped else .running
      since := if m.status = .stopped then none else some s.core.meter
      stop := if m.status = .stopped then some (fieldAt bs 0x38 1, BitVec.ofNat 64 (fieldAt bs 0x70 8)) else none
      sweep :=
        if latticeKind i = .resume then Sweep.start
        else m.named filled }

/-- A command whose bound was exhausted at the save stands stopped with a bound-overrun trap (R445). -/
def State.exhaust (s : State) (a : Nat) (key : BitVec 6) (q : EngineQ) : State :=
  match s.core.head q with
  | some m =>
    if m.left = some 0 && m.status != .stopped then
      let t : Trap := ⟨13#5, true, attribution q m 0#3, 0#64, 0#64, 0#64⟩
      let s := if q = .l then s.hubWrite (a + imgSweep + 0x38) [6#8] key else s
      s.mapCore fun c => (c.setHead q { m with status := .stopped, since := none, stop := some (6, 0#64) }).pend
        ⟨stopRank q, 0, t, .engine q⟩
    else s
  | none => s

/-! ### Stash windows of a loaded image (R450) -/

def State.reopen (s : State) (n : Nat) (loc glob : Word) (len : Nat) : State :=
  match s.openWindow n loc glob len with
  | (_, .ok t) => t
  | (s, .error t) => s.mapCore fun c => c.pend ⟨6, 0, { t with info3 := BitVec.ofNat 64 (n + 1) }, .none⟩

def State.reopenAll (s : State) (a : Nat) (key : BitVec 6) : State :=
  (List.range 8).foldl (fun (s : State) n =>
    let o := a + imgWins + 32 * n
    if s.physNat (o + 24) 8 key % 2 = 1 then
      s.reopen n (BitVec.ofNat 64 (s.physNat o 8 key)) (BitVec.ofNat 64 (s.physNat (o + 8) 8 key)) (s.physNat (o + 16) 8 key)
    else s) s

/-! ### The whole image -/

/-- Every state of an image but the program counter, STATUS and the trap registers. Traps that stay pending on the core in
supervisor mode stay pending (R387, R392, R394, R406); an engine's, whose queues are empty, is none of them. The core's cycle is
at least as far as the last beginning of a command of the image reaches back (R260). Reserved bits of QFMT0 to QFMT7 read as
zero (R101); no rule checks their format codes in an image (assumption 25). -/
def State.imageCore (s : State) (a : Nat) (key : BitVec 6) (c : Core) : Core :=
  let h := fun o n => s.physNat (a + o) n key
  let read := fun o n => s.physBytes (a + o) n key
  let w := fun o => BitVec.ofNat 64 (h o 8)
  let flags := h 3 1
  let depth := w 0x30
  let queue := fun (q : Nat) => (List.range (h (0x150 + q) 1)).map fun i =>
    let place := imgQueues + 0x4000 * q + 512 * i
    let bad := (List.range 8).foldl (fun (m : BitVec 64) l =>
      if s.physBad (a + place + 64 * l) 64 key then m ||| (0xFF#64 <<< (8 * l)) else m) 0#64
    (⟨c.ticket + 32 * q + i, some (imageOfBytes (read place 512)), bad⟩ : QEntry)
  let nest := fun (o : Nat) => (List.range 6).map fun i =>
    (⟨BitVec.ofNat 32 (h (o + 32 * i) 4), w (o + 32 * i + 8), w (o + 32 * i + 16)⟩ : NestLevel)
  let rest := s.pkg.restOf (h 0x1A8 8)
  let cycle := rest.paced.foldl (fun n e => max n e.2.1) c.cycle
  let engine := fun (q : EngineQ) =>
    let paced := rest.paced.find? fun e => e.1 == q
    { cmds := (List.range (h (0x15C + engineIndex q) 1)).map fun i =>
        let bs := read (imgEngines + 0x1800 * engineIndex q + 192 * i) 192
        let kept := rest.cmd q (BitVec.ofNat 16 (fieldAt bs 40 2))
        cmdOfSlot { kept with entries := kept.entries.map (c.ticket + ·) } i bs
      next := BitVec.ofNat 16 (h (0x160 + 2 * engineIndex q) 2)
      began := paced.map fun e => cycle - e.2.1
      last := paced.map fun e => e.2.2
      count := h (0x15C + engineIndex q) 1 : EngQueue }
  let d := s.loadResident a key { c with
    cycle := cycle
    x := Vector.ofFn fun k => w (imgX + 8 * k.val)
    vbase := (w 0x28).extractLsb' 0 5
    pbase := (w 0x28).extractLsb' 8 3
    vdepth := depth.extractLsb' 0 6
    pdepth := depth.extractLsb' 8 4
    vage := Vector.ofFn fun k => BitVec.ofNat 6 (h (0x180 + k.val) 1)
    page := Vector.ofFn fun k => BitVec.ofNat 6 (h (0x1A0 + k.val) 1)
    tags := w 0x38
    tagdrop := w 0x40
    tagDiffers := w 0x48
    tagMalformed := w 0x50
    qfmt := Vector.ofFn fun q => w (0x58 + 8 * q.val) &&& qfmtMask
    pace := Vector.ofFn fun q => (w (0x98 + 8 * q.val)).setWidth 20
    elbase := (w 0xB8).setWidth 22
    elcap := (w 0xC0).setWidth 22
    opened := if flags / 2 % 2 = 1 then some ⟨BitVec.ofNat 4 (h 0xCF 1), h 0xC8 4, h 0xCC 2, h 0xCE 1⟩ else none
    collect := (w 0x20).getLsbD 1
    frame := w 0xD0
    strandReg := w 0xD8
    strand := some ⟨w 0x168, (w 0xD8).extractLsb' 40 8, if flags % 2 = 1 then some (h 0x178 8) else none,
      (w 0xD8).extractLsb' 32 2, (w 0xD8).extractLsb' 0 32⟩
    groups := w 0x170
    joinDue := if flags / 32 % 2 = 1 then some (w 0x18) else none
    gbar := rest.gbar
    barwt := rest.barwt
    issued := max c.issued (h 0x1F8 8)
    queues := Vector.ofFn fun q => queue q.val
    ticket := c.ticket + 256
    buffer := wordsOf (read imgBuffer (4 * h 0x158 1))
    l := engine .l
    c0 := engine .c0
    c1 := engine .c1
    k := engine .k
    nest0 := nest imgNests
    nest1 := nest (imgNests + 192)
    work := match rest.work with
      | e :: r => (if flags / 64 % 2 = 1 then workOf (read 0x200 128) e else e) :: r
      | [] => []
    taken := (List.range 6).filterMap fun k => if h 0x1B4 1 / 2 ^ k % 2 = 1 then some (stoppedOf k) else none
    step := h 0x1B5 1 % 2 = 1
    flight := []
    landed := []
    wrote := []
    unseen := []
    filled := []
    ops := []
    wins := Vector.replicate 8 none
    wait := none
    wfe := none
    lastLoad := rest.lastLoad
    block := none
    pending := c.pending.filter fun t => t.stopped == .none }
  let d := { d with
    v := Vector.ofFn fun k => if d.vdead k.val then 0#4096 else imageOfBytes (read (imgV + 512 * k.val) 512)
    p := Vector.ofFn fun k => if d.pdead k.val then 0#128 else BitVec.ofNat 128 (h (imgP + 16 * k.val) 16) }
  { d with poison := d.poison.filter isResident
      ++ (s.loadPoison a key fun g => !isResident g).filter fun g => d.imaged g }

/-- The traps that a loaded image leaves pending: pre-emption, then those saved. -/
def State.imagePending (s : State) (a : Nat) (key : BitVec 6) : List Pending :=
  let h := fun o n => s.physNat (a + o) n key
  let back : Pending := ⟨1, 0, .plain 21#5 (BitVec.ofNat 64 (h 0x10 8)) (BitVec.ofNat 64 (Config.ticksOf s.core.time))
    (BitVec.ofNat 64 (h 8 8)), .none⟩
  (if h 2 1 / 2 % 2 = 1 then [back] else []) ++ (s.pkg.restOf (h 0x1A8 8)).pending

/-- Arrivals of a rank that stand at a group's home. -/
def Gang.standing (g : Gang) (group rank : Nat) : Nat :=
  ((g.groups.filter fun x => x.id == group).map fun x =>
    (x.arrived.filter fun r => r == rank).length + (x.next.filter fun r => r == rank).length).foldl (· + ·) 0

/-- The oldest GBARs of a loaded strand have finished, where fewer of its arrivals stand at the home. -/
def State.settleGbar (s : State) : State :=
  match s.core.gangOf.bind s.pkg.gang with
  | some g =>
    s.core.gbar.foldl (fun (s : State) b =>
      let open_ := (s.core.gbar.filter fun x => x.group == b.group && !x.finished).length
      if g.standing b.group (g.rankOf s.core.num) < open_ then s.mapCore fun c => c.finishGbar b.group else s) s
  | none => s

/-- Load an image into the core in `core` (R392, R394, R445, R448 to R450). -/
def State.loadImage (s : State) (a : Nat) (key : BitVec 6) : State :=
  let s := s.recallArea s.core.ctx a Config.imageBytes
  let pend := s.imagePending a key
  let s := s.mapCore (s.imageCore a key)
  let s := s.mapCore fun c => match c.head .l with
    | some m => c.setHead .l (s.loadSweep a key m)
    | none => c
  let s := s.settleGbar
  let s := s.reopenAll a key
  let s := s.mapCore fun c => pend.foldl Core.pend c
  let s := allEngines.foldl (fun s q => repinQueue q s) s
  allEngines.foldl (fun s q => s.exhaust a key q) s

end Sys2Proof.Machine
end

