-- ==== Sys2Proof/Machine/Merge.lean ====
section
/-! DEFINITION. The mortars' split-K merges (R184 to R186): partials arrive, are held or applied in ascending index, and
merges that cannot complete are closed. -/

namespace Sys2Proof.Machine

/-- The open merge of an element, whatever count it declares. -/
def Package.mergeAt (p : Package) (ctx pa : Nat) : Option Merge := p.merges.find? fun m => m.ctx == ctx && m.pa == pa

def Package.dropMerge (p : Package) (m : Merge) : Package :=
  { p with merges := p.merges.filter fun x => !(x.ctx == m.ctx && x.pa == m.pa) }

def Package.setMerge (p : Package) (m : Merge) : Package := { p.dropMerge m with merges := (p.dropMerge m).merges ++ [m] }

/-- A merge as its first partial opens it; its open time runs while its context is not pre-empted. -/
def Partial.opens (q : Partial) (since : Option Nat) : Merge where
  ctx := q.ctx
  pa := q.pa
  key := q.key
  n := q.n
  received := []
  held := []
  next := 0
  acc := 0#32
  age := 0
  since := since
  poisoned := false
  senders := []

/-- The commands whose partials have reached the merge. -/
def Merge.sentBy (m : Merge) (q : Partial) : List (Nat × Nat) :=
  if m.senders.contains (q.core, q.order) then m.senders else m.senders ++ [(q.core, q.order)]

/-- One application of R184, of the partial's own kind: splits may be mixed (assumption 100). -/
def mergeStep (int : Bool) (acc p : Lane) : Lane := if int then acc + p else rnF32 (XVal.add .rne (ofF32 acc) (ofF32 p))

/-- Apply every held partial that is next in order. The fuel bounds the partials held. -/
def Merge.apply (m : Merge) : Nat → Merge
  | 0 => m
  | fuel + 1 =>
    match m.held.find? fun h => h.index == m.next with
    | none => m
    | some h => Merge.apply { m with
        acc := mergeStep h.int m.acc h.value
        next := m.next + 1
        held := m.held.filter fun x => x.index != h.index } fuel

/-- The element as its home holds it when partial 0 is applied, under the key of that partial's page; poison of it poisons the
merge. -/
def State.mergeRead (s : State) (m : Merge) : State × Merge :=
  match if m.next = 0 then m.held.find? fun h => h.index == 0 else none with
  | some h =>
    let s := (s.recall (m.pa / 64)).reachFor m.ctx m.pa
    let r := s.look m.pa 4 h.key
    (s, { m with acc := BitVec.ofNat 32 (leNat r.1), key := h.key, poisoned := r.2 })
  | none => (s, m)

/-- The target is written as poisoned data, where its home serves. -/
def State.poisonTarget (s : State) (m : Merge) : State :=
  let t := (s.recall (m.pa / 64)).reachFor m.ctx m.pa
  if t.lands m.pa then
    ((((t.foresee (.home m.senders) m.pa 4 m.key).putPoison m.pa 4).mapCores fun c => c.sawWrite .other (m.pa / 64)).mapPkg fun p => p.restsSaw (m.pa / 64)).noteWrite .other
      m.pa 4
  else t

/-- A merge that every index has reached is closed; an open one is kept (R185). -/
def State.keepMerge (s : State) (m : Merge) : State :=
  if m.n ≤ m.received.length then s.mapPkg fun p => p.dropMerge m else s.mapPkg fun p => p.setMerge m

/-- A partial of a merge that is not poisoned, with an index that it still lacks (R184). -/
def State.mergeAdd (s : State) (m : Merge) (q : Partial) : State :=
  let m := { m with
    received := insertNat m.received q.index
    held := m.held ++ [⟨q.index, q.int, q.key, q.value⟩]
    senders := m.sentBy q }
  let (s, m) := s.mergeRead m
  if m.poisoned then (s.poisonTarget m).keepMerge m
  else
    let m := m.apply (m.held.length + 1)
    if m.n ≤ m.next then
      (((s.recall (m.pa / 64)).reachFor m.ctx m.pa).put (.home m.senders) m.pa (natBytes 4 m.acc.toNat) m.key).mapPkg fun p => p.dropMerge m
    else s.mapPkg fun p => p.setMerge m

/-- A partial at its mortar (R184 to R186; assumption 21 for the partials that a poisoned merge counts: one that declares
another n is none of them). -/
def State.mergeMade (s : State) (q : Partial) : State :=
  match s.pkg.mergeAt q.ctx q.pa with
  | none =>
    let m := q.opens (if s.preempted q.ctx then none else some s.pkg.now)
    if q.n ≤ q.index then (s.poisonTarget m).mapPkg fun p => p.setMerge { m with poisoned := true, senders := [(q.core, q.order)] }
    else s.mergeAdd m q
  | some m =>
    let counts := q.n == m.n && q.index < m.n
    let seen := { m with
      received := if counts then insertNat m.received q.index else m.received
      senders := m.sentBy q }
    if m.poisoned then s.keepMerge seen
    else if !counts || m.received.contains q.index then
      (s.poisonTarget m).keepMerge { seen with poisoned := true, held := [] }
    else s.mergeAdd m q

/-- Its context touches the hub of that mortar; a lost hub discards it (R378, R397). -/
def State.mergeArrive (s : State) (q : Partial) : State :=
  let t := s.reachFor q.ctx q.pa
  if paHome q.pa != 0 || s.pkg.dieServes (homeHub q.pa) then t.mergeMade q else t

def execSplitkPartialArrival (k : Nat) (s : State) : Out :=
  .next (match s.pkg.partials[k]? with
    | none => s
    | some q => (s.mapPkg fun p => { p with partials := p.partials.eraseIdx k }).mergeArrive q)

/-! ### Merges closed without completing (R186, R396) -/

/-- 2³² hub cycles. -/
def mergeLimit : Nat := 2 ^ 32 * Config.cycleUnits Config.hubClock

/-- The mortar closes a merge: the target is poisoned, unless it already was, and an error record appended. -/
def State.closeMerge (s : State) (m : Merge) : State :=
  let s := if m.poisoned then s else s.poisonTarget m
  s.mapPkg fun p => (p.dropMerge m).logError 8 (homeHub m.pa) m.ctx m.pa

def State.closeMerges (s : State) (which : Merge → Bool) : State := (s.pkg.merges.filter which).foldl State.closeMerge s

def Merge.expired (m : Merge) (now : Nat) : Bool := mergeLimit ≤ m.elapsed now

def execSplitkMergeTimeout (k : Nat) (s : State) : Out :=
  .next (match s.pkg.merges[k]? with
    | none => s
    | some m => if m.expired s.pkg.now then s.closeMerge m else s)

end Sys2Proof.Machine
end

