-- ==== Sys2Proof/Machine/Sched.lean ====
section
/-! DEFINITION. Strands on cores: resident state (R374, R389), starting (R242, R243, R253), the choices of a free core (R248,
R373, R392), retirement and the join step (R244 to R246, R269), pre-emption (R391). -/

namespace Sys2Proof.Machine

/-! ### Resident state (R374, R389) -/

/-- What a core does with the resident state of another context before it serves one. -/
def State.dispose (s : State) : State :=
  match s.core.resident with
  | none => s.mapCore Core.clearResident
  | some old =>
    if (s.pkg.ctx old).discard then
      (s.mapCore Core.clearResident).mapPkg fun p =>
        p.setCtx old fun c => { c with saved := c.saved.filter fun n => n != s.core.num }
    else s.saveResident.mapCore Core.clearResident

/-- The core in `core` begins to serve a context: its saved resident state for that core, or the defaults. DBGCTL.step is
the context's own, so none of another context's stays (R384; assumption 31). -/
def State.serve (s : State) (ctx : Nat) : State :=
  if s.core.resident = some ctx then s
  else
    let s := s.dispose
    let x := s.pkg.ctx ctx
    let s :=
      if x.saved.contains s.core.num then
        let s := s.recallArea ctx (x.imageAt s.core.num) Config.imageBytes
        (s.mapCore (s.loadResident (x.imageAt s.core.num) x.ptkey)).mapPkg fun p =>
          p.setCtx ctx fun c => { c with saved := c.saved.filter fun n => n != s.core.num }
      else s.mapCore fun c => { c with trapvec := x.trapvec }
    s.mapCore fun c => { c with resident := some ctx, step := false }

/-! ### Starting (R242, R243, R378) -/

def strandValue (r : ContRec) (gang : Option Nat) : Word :=
  r.affinity.setWidth 64 <<< 40 ||| bitAt gang.isSome 34 ||| r.prio.setWidth 64 <<< 32 ||| r.index.setWidth 64

/-- Slots of the list table whose open list the previous strand left. -/
def dropOpened (l : Vector ListSlot 16) : Vector ListSlot 16 :=
  l.map fun x => if x.state = .opened then { x with state := .free } else x

/-- What is neither resident state nor a register of the core's own is as R242 gives it. -/
def Core.blank (c : Core) : Core :=
  { c with
    strand := none
    x := Vector.replicate 64 0#64
    v := Vector.replicate 48 0#4096
    p := Vector.replicate 16 0#128
    vage := Vector.replicate 32 0#6
    page := Vector.replicate 8 0#6
    flight := []
    queues := Vector.replicate 8 []
    buffer := []
    block := none
    super := false
    collect := false
    pblkPred := 0#4
    pblkCount := 0#4
    pblkPat := 0#8
    vbase := 0#5
    pbase := 0#3
    vdepth := 0#6
    pdepth := 0#4
    tags := 0#64
    tagdrop := 0#64
    tagDiffers := 0#64
    tagMalformed := 0#64
    frame := 0#64
    strandReg := 0#64
    elbase := 0#22
    elcap := 0#22
    qfmt := Vector.replicate 8 0#64
    pace := Vector.replicate 4 0#20
    pending := []
    taken := []
    ops := []
    lastLoad := none
    wait := none
    wfe := none
    gbar := []
    barwt := []
    landed := []
    wrote := []
    unseen := []
    filled := []
    groups := 0#64
    joinDue := none
    l := EngQueue.empty
    c0 := EngQueue.empty
    c1 := EngQueue.empty
    k := EngQueue.empty
    nest0 := nestStart
    nest1 := nestStart
    wins := Vector.replicate 8 none
    slots := dropOpened c.slots
    opened := none
    work := []
    poison := c.poison.filter isResident }

/-- A strand starts on the core with its record. -/
def Core.startStrand (c : Core) (r : ContRec) (gang : Option Nat) : Core :=
  let d := c.blank
  { d with
    strand := some ⟨r.join, r.affinity, gang, r.prio, r.index⟩
    pc := r.code
    frame := r.frame
    strandReg := strandValue r gang
    x := ((d.x.set 1 Config.retireToken).set 3 r.frame).set 5 (r.index.setWidth 64) }

/-- A strand of a context starts on a die (R378). -/
def Package.touchDie (p : Package) (ctx core : Nat) : Package :=
  p.setCtx ctx fun c => c.touches (1#10 <<< dieOf core) p.halted p.now

/-- Losses of dies that a strand has to be told of. -/
def Core.dieLossTraps (c : Core) (lost : List (BitVec 4)) (dieen : BitVec 10) : Core :=
  lost.foldl (fun c d => c.pend ⟨0, 0, .plain 20#5 (d.setWidth 64) (dieen.setWidth 64) 0#64, .none⟩) c

/-- Lost hubs that a core of a context reaches when it begins to serve it. -/
def State.serveLoss (s : State) (ctx : Nat) : List (BitVec 4) :=
  let x := s.pkg.ctx ctx
  if s.core.resident = some ctx || !x.saved.contains s.core.num then []
  else s.areaLoss (x.imageAt s.core.num) Config.imageBytes

def State.start (s : State) (ctx : Nat) (r : ContRec) (gang : Option Nat) : State :=
  let lost := s.serveLoss ctx
  let s := s.serve ctx
  ((s.mapCore fun c => { (c.startStrand r gang).dieLossTraps lost s.pkg.dieen with served := some ctx }).mapPkg fun p =>
    p.touchDie ctx s.core.num).settleMerges ctx

/-- A free core passes n cycles; those of its die's running window are counted (R440, R441). -/
def State.idle (s : State) (n : Nat) : State :=
  let die := dieOf s.core.num
  let p := s.pkg.period die
  let before := min n ((s.pkg.windowStart.getD die 0 - s.core.time) / p)
  s.mapCore fun c => { (c.bump 47 (n - before)) with cycle := c.cycle + n, time := c.time + n * p }

/-- A free core has passed every whole cycle up to a time. -/
def State.idleTo (s : State) (time : Nat) : State := s.idle ((time - s.core.time) / s.pkg.period (dieOf s.core.num))

/-- A free core that starts a strand at a time does so at its first cycle from then on. -/
def State.idleFrom (s : State) (time : Nat) : State :=
  let s := s.idleTo time
  if s.core.time < time then s.idle 1 else s

/-! ### Free cores (R248, R253, R373, R392) -/

def Gang.reserves (g : Gang) (core : Nat) : Bool := g.members.any fun m => m.core == core && m.state == .reserved

/-- The core can be given a strand. -/
def State.isFree (s : State) (core : Nat) : Bool :=
  s.pkg.serves core && ((s.listed core).all fun c => c.strand.isNone) && !s.pkg.halted.getLsbD (dieOf core)

/-- The gang whose member starts next on a core: the first that reserves it. -/
def Package.nextGang (p : Package) (core : Nat) : Option (Gang × Member) :=
  p.gangs.findSome? fun g => (g.members.find? fun m => m.core == core && m.state == .reserved).map fun m => (g, m)

/-- The context that a reserved core serves alone (R373). -/
def Package.reservedFor (p : Package) (core : Nat) : Option Nat := (p.nextGang core).map fun g => g.1.ctx

/-- The core can be given a strand of a context. -/
def State.takes (s : State) (core ctx : Nat) : Bool := s.isFree core && (s.pkg.reservedFor core).all fun c => c == ctx

/-- A pre-empted strand of a context may resume on a core: a gang only where all its cores are free (R392). -/
def State.mayResume (s : State) (ctx core : Nat) (q : Paused) : Bool :=
  match q.gang with
  | none => true
  | some id =>
    q.core == core && ((s.pkg.ctx ctx).paused.filter fun r => r.gang == some id).all fun r => s.takes r.core ctx

/-- The pre-empted strand that a core resumes: the one saved on it, or the spread strand saved on the lowest core. -/
def State.resumable (s : State) (ctx core : Nat) : Option Paused :=
  let may := (s.pkg.ctx ctx).paused.filter (s.mayResume ctx core)
  (may.find? fun q => q.core == core).or
    (may.foldl (fun (best : Option Paused) q => match best with
      | some b => if q.core < b.core then some q else some b
      | none => some q) none)

def Context.hasRecords (x : Context) : Bool := x.queues.toList.any fun q => !q.isEmpty

def State.eligible (s : State) (core ctx : Nat) : Bool :=
  let x := s.pkg.ctx ctx
  x.valid && !x.held && s.pkg.inPart x.part core && s.takes core ctx
    && ((s.resumable ctx core).isSome || ((s.pkg.reservedFor core).isNone && x.hasRecords))

/-- The context that a free core chooses, in ascending order after the one it served last (R373). -/
def State.chosen (s : State) (core : Nat) : Option Nat :=
  let first := (((s.listed core).bind fun c => c.served).map fun n => n + 1).getD 0
  ((List.range 64).map fun k => (first + k) % 64).find? (s.eligible core)

/-- The level that a pop takes (R248). -/
def Context.level (x : Context) : Option (BitVec 2) :=
  let full := fun l : BitVec 2 => !(x.queue l).isEmpty
  (([2#2, 1#2, 0#2].find? fun l => full l && 1024 ≤ x.h.getD l.toNat 0)).or ([3#2, 2#2, 1#2, 0#2].find? full)

/-- The counts after a pop from a level, its queue already shortened. -/
def Context.counted (x : Context) (l : BitVec 2) : Context :=
  { x with h := Vector.ofFn fun m =>
      if (x.queue (BitVec.ofNat 2 m.val)).isEmpty then 0
      else if m.val = l.toNat then 0
      else if m.val < l.toNat then x.h[m] + 1
      else x.h[m] }

def Context.pop (x : Context) : Option (ContRec × Context) :=
  x.level.bind fun l =>
    match x.queue l with
    | r :: rest => some (r, (x.setQueue l rest).counted l)
    | [] => none

/-- The core is the one, or lies on the die, that the record prefers. -/
def ContRec.prefers (r : ContRec) (core : Nat) : Bool :=
  let a := r.affinity.toNat
  if a < 0x80 then core == a else a < 0x88 && dieOf core == a - 0x80

/-- Another idle core takes the record before this one (R248). -/
def State.beaten (s : State) (core ctx : Nat) (r : ContRec) : Bool :=
  (List.range Config.cores).any fun c =>
    c != core && s.chosen c == some ctx && (s.resumable ctx c).isNone
      && ((r.prefers c && !r.prefers core) || (r.prefers c == r.prefers core && c < core))

/-! ### Resuming (R392, R449) -/

/-- The program counter, mode and open block of a loaded strand; in supervisor mode its trap registers too. -/
def State.resumeAt (s : State) (a : Nat) (key : BitVec 6) : State :=
  let h := fun o n => s.physNat (a + o) n key
  let w := fun o => BitVec.ofNat 64 (h o 8)
  let status := w 0x20
  s.mapCore fun c =>
    let c := { c with
      pc := w 0x18
      super := status.getLsbD 0
      pblkPred := status.extractLsb' 20 4
      pblkCount := status.extractLsb' 16 4
      pblkPat := status.extractLsb' 8 8 }
    if c.super then
      { c with
        trapcause := w 0x1B8
        trappc := w 0x1C0
        trapinfo := Vector.ofFn fun k => w (0x1C8 + 8 * k.val)
        block := if h 0x1B3 1 = 1 then
            some ⟨BitVec.ofNat 4 (h 0x1B0 1), BitVec.ofNat 128 (h 0x1E8 16), h 0x1B1 1, BitVec.ofNat 8 (h 0x1B2 1)⟩
          else none }
    else
      { c with
        block := c.reopened c.pblkCount.toNat c.pblkPat
        pblkPred := 0#4
        pblkCount := 0#4
        pblkPat := 0#8 }

/-- The valid flag of an image, read and cleared. -/
def State.takeImage (s : State) (a : Nat) (key : BitVec 6) : State :=
  s.hubWrite (a + 2) (natBytes 1 (s.physNat (a + 2) 1 key / 2 * 2)) key

/-- The core in `core` resumes a pre-empted strand of a context. -/
def State.resumeStrand (s : State) (ctx : Nat) (q : Paused) : State :=
  let x := s.pkg.ctx ctx
  let a := x.imageAt q.core
  let s := s.idleFrom s.pkg.now
  let s := if s.core.resident = some ctx then s else s.dispose
  let s := s.mapCore fun c => { c.blank with resident := some ctx, served := some ctx }
  let s := s.loadImage a x.ptkey
  let s := (s.resumeAt a x.ptkey).takeImage a x.ptkey
  let s := s.mapCore fun c => c.dieLossTraps q.lost s.pkg.dieen
  (s.mapPkg fun p => (p.touchDie ctx s.core.num).setCtx ctx fun c => { c with
    paused := c.paused.filter fun r => r.core != q.core
    saved := c.saved.filter fun n => n != s.core.num }).settleMerges ctx

/-- An image that cannot be used: an error record, and the context held (R449). -/
def State.rejectImage (s : State) (ctx : Nat) (q : Paused) (o : Nat) : State :=
  let a := (s.pkg.ctx ctx).imageAt q.core + o
  (s.mapPkg fun p => (p.logError 7 (homeHub a) ctx a).setCtx ctx fun c => { c with held := true }).settleMerges ctx

/-- The strands that resume together: one spread strand on the core that takes it, or a gang on its own cores. -/
def Context.resumeSet (x : Context) (core : Nat) (q : Paused) : List (Nat × Paused) :=
  match q.gang with
  | none => [(core, q)]
  | some id => (x.paused.filter fun r => r.gang == some id).map fun r => (r.core, r)

/-- The images of the strands that resume are read; an unusable one keeps all of them off their cores (R449). -/
def State.resumeFrom (s : State) (ctx core : Nat) (q : Paused) : State :=
  let area := fun (r : Nat × Paused) => (s.pkg.ctx ctx).imageAt r.2.core
  let s := ((s.pkg.ctx ctx).resumeSet core q).foldl (fun s r => s.recallArea ctx (area r) Config.imageBytes) s
  let x := s.pkg.ctx ctx
  let set := x.resumeSet core ((x.paused.find? fun r => r.core == q.core).getD q)
  match set.findSome? fun r => (s.spoiledImage (area r) x.ptkey).map fun o => (r.2, o) with
  | some bad => s.rejectImage ctx bad.1 bad.2
  | none => if x.held then s else set.foldl (fun s r => s.onCore r.1 fun t => t.resumeStrand ctx r.2) s

/-! ### Steps of scheduling -/

/-- A free core has a strand to take now. -/
def State.acts (s : State) (core : Nat) : Bool :=
  match s.chosen core with
  | none => false
  | some ctx =>
    (s.resumable ctx core).isSome || (match (s.pkg.ctx ctx).pop with
      | some (r, _) => !s.beaten core ctx r
      | none => false)

/-- A lower core chooses before this one (R373). -/
def State.outranked (s : State) (core : Nat) : Bool := (List.range core).any s.acts

/-- A free core serves the context that it chooses. -/
def State.freeCore (s : State) (core : Nat) : State :=
  match s.chosen core with
  | none => s
  | some ctx =>
    if s.outranked core then s
    else
      match s.resumable ctx core with
      | some q => s.resumeFrom ctx core q
      | none =>
        match (s.pkg.ctx ctx).pop with
        | none => s
        | some (r, x) =>
          if s.beaten core ctx r then s
          else (s.mapPkg fun p => p.setCtx ctx fun _ => x).onCore core fun t => (t.idleFrom t.pkg.now).start ctx r none

def execCoreFreeSchedule (core : Nat) (s : State) : Out := .next (s.freeCore core)

def Gang.setMember (g : Gang) (m : Member) : Gang :=
  { g with members := g.members.map fun x => if x.rank = m.rank then m else x }

/-- A member of a gang starts at the first tick at or after T at which its core is free and no hold of its context
lasts (R253, R447). -/
def State.startMember (s : State) (core : Nat) : State :=
  match s.pkg.nextGang core with
  | none => s
  | some (g, m) =>
    let x := s.pkg.ctx g.ctx
    if !s.isFree core || !x.valid || x.held || s.pkg.tick < g.start then s
    else
      let time := max (s.coreAt core).time (max x.resumedAt (Config.timeOfTick g.start))
      let tick := Config.ticksOf time
      let g := { g.setMember { m with state := .running } with late := g.late || g.start < tick, last := max g.last tick }
      let s := s.mapPkg fun p => p.setGang g
      let s := s.onCore core fun t => (t.idleFrom time).start g.ctx (pktRecord g.packet m.rank) (some g.id)
      if g.members.any fun m => m.state == .reserved then s
      else s.writeStatus g.ctx g.packet (if g.late then 2 else 1) g.last

def execGangMemberStart (core : Nat) (s : State) : Out := .next (s.startMember core)

/-! ### Retirement (R244 to R246, R269) -/

/-- Every engine queue is empty, no command executes, and the class counters are zero (R244, R274). -/
def Core.quiet (c : Core) : Bool :=
  (allEngines.all fun q => (c.queue q).cmds.isEmpty) && c.ops.isEmpty && c.work.isEmpty

/-- A trap of the join step: the join address, and the code of a refused continuation (R246, R390). -/
def joinTrap (join : Word) (code : Nat) : Trap := .plain 27#5 join (BitVec.ofNat 64 code) 0#64

/-- The last join of a block: its continuation is pushed, and its count becomes zero (R246). The block is 64 bytes from a
32-byte boundary, so its continuation can lie in another line, or another page, than its count. -/
def State.joinLast (s : State) (join : Word) (zero : State → State) : Res State :=
  let va := join + 32#64
  match s.translate s.core.ctx va .read with
  | (s, .error t) => .error (.trapAt t s)
  | (s, .ok pg) =>
    let pa := pg.pa va.toNat
    let s := (s.recall (pa / 64)).reachFor s.core.ctx pa
    let r := s.look pa 32 pg.key
    let cont := recImage (BitVec.ofNat 256 (leNat r.1))
    if r.2 then .error (.trapAt (.plain 19#5 va s.core.pc 0#64) s)
    else
      match s.pkg.recordCode s.core.ctx cont with
      | some code => .error (.trapAt (joinTrap join code) s)
      | none =>
        match s.pkg.pushRecords s.core.ctx cont.record.prio [cont.record] with
        | none => .error (.trapAt (joinTrap join 0x15) s)
        | some p => .ok (zero { s with pkg := p })

/-- The join step (R246). -/
def State.joinStep (s : State) (join : Word) : Res State :=
  match s.translate s.core.ctx join .rmw with
  | (s, .error t) => .error (.trapAt t s)
  | (s, .ok pg) =>
    let pa := pg.pa join.toNat
    let s := (s.recall (pa / 64)).reachFor s.core.ctx pa
    let r := s.look pa 4 pg.key
    let n := leNat r.1
    let put := fun (v : Nat) (s : State) => s.put .other pa (natBytes 4 v) pg.key
    if r.2 then .error (.trapAt (.plain 19#5 join s.core.pc 0#64) s)
    else if n = 0 then .error (.trapAt (joinTrap join 0) s)
    else if n = 1 then s.joinLast join (put 0)
    else .ok (put (n - 1) s)

/-- The gang of a retiring member; a gang whose members have all retired is gone. -/
def Package.retireMember (p : Package) (id core : Nat) : Package :=
  match p.gang id with
  | none => p
  | some g =>
    let g := { g with members := g.members.map fun m =>
      if m.core = core && m.state = .running then { m with state := .retired } else m }
    if g.members.all fun m => m.state == .retired then { p with gangs := p.gangs.filter fun x => x.id != id } else p.setGang g

/-- Writes in flight land in the next n cycles. -/
def Core.landAll : Nat → Core → Core
  | 0, c => c
  | n + 1, c => Core.landAll n ({ c with cycle := c.cycle + 1, landed := [] } : Core).landDue

/-- A core that a strand has left. Its registers stand until the next strand starts (R242). -/
def Core.freed (c : Core) : Core :=
  { c.landAll (c.lastLanding - c.cycle) with
    cycle := c.cycle
    strand := none
    block := none
    super := true
    pending := []
    taken := []
    ops := []
    lastLoad := none
    wait := none
    wfe := none
    gbar := []
    barwt := []
    landed := []
    wrote := []
    unseen := []
    filled := []
    joinDue := none
    work := [] }

/-- The core becomes free. -/
def State.release (s : State) : State :=
  let s' := match s.core.gangOf with
    | some id => s.mapPkg fun p => p.retireMember id s.core.num
    | none => s
  (s'.mapCore Core.freed).settleMerges s.core.ctx

/-- What remains in the queues of a retiring strand is discarded (R269). -/
def Core.discardQueues (c : Core) : Core :=
  { c with
    queues := Vector.replicate 8 []
    buffer := []
    poison := c.poison.filter fun g => match g with
      | .buffer _ => false
      | _ => true }

/-- Steps 2 and 3 of R244 at the instruction at pc: a join step that is made again finds them made. -/
def State.leaveAll (s : State) : State :=
  if s.core.joinDue = some s.core.pc then s
  else (s.closeWindows.leaveGroups).mapCore fun c => { c with joinDue := some c.pc }

/-- Steps 2 to 5 of R244 for a core that is quiet. -/
def State.retire (s : State) : Res State := do
  let s := (s.mapCore Core.discardQueues).leaveAll
  match s.core.strand with
  | none => .ok s.release
  | some t =>
    if t.join = 0#64 then .ok s.release
    else do
      let s ← s.joinStep t.join
      .ok s.release

/-- How a retirement that has been reached ends: the core is free in the next cycle, or a trap at the instruction. -/
def State.retired (s : State) : State :=
  match s.retire with
  | .ok t => (t.mapCore fun c => (c.bump 0 1)).tick
  | .error (.trap t) => s.takeTrap t
  | .error (.trapAt t u) => u.takeTrap t
  | .error (.wait w t) => t.stall w

/-- DONE, and RET to the retire token: retirement, waited for as R244 step 1 states. -/
def retireOrWait (s : State) : Out := .next (if s.core.quiet then s.retired else s.stall .retire)

def execDone (s : State) : Out :=
  if s.core.block.isSome then .next (s.takeTrap (trapW .done 4#5 0#64))
  else if s.core.collecting then .next (s.takeTrap (trapW .done 16#5 0#64))
  else retireOrWait s

/-- A retirement that waits is reached: no pending trap comes before it. -/
def State.strandRetires (s : State) : State :=
  let reached := s.core.wait = some .retire && s.core.quiet && (s.core.super || s.core.pending.isEmpty) && !s.standsHalted
  if reached then s.heldUntilNow.retired else s

def execStrandRetire (core : Nat) (s : State) : Out := .next (s.onCore core State.strandRetires)

/-! ### Pre-emption of a context (R391, R392) -/

/-- STATUS as the image of a pre-empted strand records it: with the block that it stands in. -/
def Core.savedStatus (c : Core) : Word :=
  if c.super then c.status
  else
    match c.block with
    | none => c.status
    | some b => ({ c with pblkPred := b.pred, pblkCount := BitVec.ofNat 4 b.left, pblkPat := b.pat } : Core).status

/-- The mask of the events that a WFE has seen at a tick. -/
def WfeRec.mask (r : WfeRec) (now : Nat) : BitVec 5 :=
  r.seen ||| (if r.timeout ≠ 0 && r.tick + r.timeout ≤ now then 8#5 else 0#5)

/-- A pre-emption ends the wait of a WFE, which finishes before the strand is saved, and so does one whose wait is over (R388,
R409). -/
def State.endWfe (s : State) : State :=
  match s.core.wfe with
  | some r =>
    let told := if s.core.wait.isSome then 16#5 else 0#5
    (s.mapCore fun c =>
      { c.putX r.dst 2 ((r.mask (Config.ticksOf c.time) ||| told).setWidth 64) with wfe := none }).done s none 1
  | none => s

/-- The core in `core` is pre-empted: drained, saved and freed. -/
def State.preemptCore (s : State) (checkpoint : Nat) : State :=
  let s := s.endWfe
  let ctx := s.core.ctx
  let gang := s.core.gangOf
  let s := s.drain
  let a := (s.pkg.ctx ctx).imageAt s.core.num
  let s := s.saveImage ⟨a, s.core.pc, s.core.savedStatus, true, checkpoint⟩
  let s := (List.range 8).foldl State.closeWindow s
  let s := s.mapCore fun c => { c.blank with super := true, resident := none }
  s.mapPkg fun p => p.setCtx ctx fun c => { c with
    paused := c.paused ++ [⟨s.core.num, gang, []⟩]
    saved := insertNat c.saved s.core.num }

/-- Every strand of a context leaves its core (R391). -/
def State.preempt (s : State) (ctx checkpoint : Nat) : State :=
  let s := (s.coresOf ctx).foldl (fun s n => s.onCore n fun t => t.catchUp.preemptCore checkpoint) s
  s.settleMerges ctx

end Sys2Proof.Machine
end

