-- ==== Sys2Proof/Machine/Control.lean ====
section
/-! DEFINITION. Control flow: NOP and PBLK (R58, R61), the transfers (R107 to R114), CALLC (R344, R345) and PHASE (R257, R264,
R265). -/

namespace Sys2Proof.Machine

/-! ### NOP and PBLK -/

def execNop (s : State) : Out := issue s fun s => .ok s

def execPblk (pred : PReg) (n : BitVec 3) (pat : BitVec 8) (s : State) : Out :=
  issueTransfer (.pblk pred n pat) s fun s => do
    usePoison (s.core.predPoisoned pred)
    .ok (s.mapCore fun c => { c with block := some ⟨pred, c.getP pred, n.toNat + 1, pat⟩ }, none, 1)

/-! ### Transfers (R107 to R114) -/

/-- A taken transfer with one bubble, its target checked. -/
def taken (t : Word) (s : State) : Res (State × Option Word × Nat) := do
  checkTarget t
  .ok (s, some t, 2)

def execBr (off : BitVec 32) (s : State) : Out :=
  issueTransfer (.br off) s fun s => taken (s.core.pc + wordOffset off) s

def BranchOperand.value (b : BranchOperand) (c : Core) : Word :=
  match b with
  | .reg r => c.getX r
  | .imm n => n.setWidth 64

def BranchOperand.regs (b : BranchOperand) : List Reg :=
  match b with
  | .reg r => [r]
  | .imm _ => []

def execBrc (cc : Cond) (a : Reg) (b : BranchOperand) (off : BitVec 32) (s : State) : Out :=
  issueTransfer (.brc cc a b off) s fun s => do
    s.core.useX (a :: BranchOperand.regs b)
    if Cond.holds cc (s.core.getX a) (BranchOperand.value b s.core) then taken (s.core.pc + wordOffset off) s
    else .ok (s, none, 1)

/-- The target of CALL and CALLC: relative to pc when A is 0, else to x[A] (R109). -/
def Core.callTarget (c : Core) (a : Reg) (off : BitVec 32) : Word :=
  (if a = 0#6 then c.pc else c.getX a) + wordOffset off

/-- The link of CALL and CALLC lands in x1 after one cycle. -/
def Core.linked (c : Core) : Core := c.putX 1#6 1 (c.pc + 8#64)

/-- A CALL while a list is open adds one to its depth (R345). -/
def Core.deepen (c : Core) : Core :=
  if c.collect then { c with opened := c.opened.map fun l => { l with depth := l.depth + 1 } } else c

/-- A CALL that would raise the depth above 255 in collecting mode (R343). -/
def Core.tooDeep (c : Core) : Bool := c.collecting && c.opened.any fun l => 255 ≤ l.depth

def execCall (a : Reg) (off : BitVec 32) (s : State) : Out :=
  issueTransfer (.call a off) s fun s => do
    s.core.useX [a]
    let r ← taken (s.core.callTarget a off) s
    if s.core.tooDeep then Res.trap (trapW (.call a off) 16#5 0#64)
    .ok (r.1.mapCore fun c => c.linked.deepen, r.2)

/-- What a RET that transfers does to the open list: one level less, or the close of the call (R345). -/
def State.returned (s : State) : State :=
  match s.core.collect, s.core.opened with
  | true, some l =>
    if l.depth = 0 then s.closeList l
    else s.mapCore fun c => { c with opened := some { l with depth := l.depth - 1 } }
  | _, _ => s

/-- The handle of a call that a RET closes counts in class G, which needs the room (R309, R345). -/
def Core.closingRoom (c : Core) : Res Unit :=
  if c.collect && c.opened.any (fun l => l.depth == 0) then c.roomG .ret else .ok ()

/-- RET (R110, R111): to x1, or retirement. -/
def execRet (s : State) : Out :=
  if s.core.getX 1#6 = Config.retireToken && s.core.block.isNone && !s.core.poison.contains (.x 1#6) then
    if s.core.collecting then .next (s.takeTrap (trapW .ret 16#5 0#64)) else retireOrWait s
  else
    issueTransfer .ret s fun s => do
      s.core.closingRoom
      s.core.useX [1#6]
      let r ← taken (s.core.getX 1#6) s
      .ok (r.1.returned, r.2)

def execJr (a : Reg) (off : BitVec 32) (s : State) : Out :=
  issueTransfer (.jr a off) s fun s => do
    s.core.useX [a]
    taken (s.core.getX a + wordOffset off) s

/-- An age one LOOP older (R34). -/
def older (a : BitVec 6) : BitVec 6 := if a = 63#6 then a else a + 1#6

/-- The rotation of a LOOP, in its issue cycle, from the RRB at issue: a MOVRS to RRB still in flight lands over it later, and one
that has landed in this cycle is overwritten (R32, R113, R114, spec/08's listing). -/
def Core.rotate (c : Core) : Core :=
  { c with vage := c.vage.map older, page := c.page.map older, vbase := c.vbase - 1#5, pbase := c.pbase - 1#3 }

def execLoop (a : Reg) (off : BitVec 32) (s : State) : Out :=
  issueTransfer (.loop a off) s fun s => do
    s.core.useX [a]
    let n := s.core.getX a
    let left := if n = 0#64 then 0#64 else n - 1#64
    let t := s.mapCore fun c => (c.putX a 1 left).rotate
    if left = 0#64 then .ok (t, none, 1)
    else do
      let r ← taken (s.core.pc + wordOffset off) s
      .ok (t, r.2)

/-- CALLC (R344). -/
def execCallc (a : Reg) (off : BitVec 32) (s : State) : Out :=
  issueTransfer (.callc a off) s fun s => do
    s.core.useX [a]
    if s.core.collect then Res.trap (trapW (.callc a off) 16#5 0#64)
    let k ← openCheck s.core
    let r ← taken (s.core.callTarget a off) s
    .ok (r.1.mapCore fun c => c.linked.openList k, r.2)

/-! ### PHASE (R257, R264, R265) -/

/-- The word of a phase table at an address, read as code is fetched. -/
def phaseWord (s : State) (a : Word) : Res (State × Word) :=
  if a.getLsbD 63 then .error (.trapAt (.plain 6#5 a 0#64 0#64) s)
  else
    match s.translate s.core.ctx a .fetch with
    | (s, .error t) => .error (.trapAt t s)
    | (s, .ok pg) =>
      match s.fetchAt pg a with
      | (s, .error t) => .error (.trapAt { t with info1 := s.core.pc } s)
      | (s, .ok w) => .ok (s, w)

/-- The pair taken among the n that remain: size and entry, the first of the smallest that fit. -/
def phasePairs (v a : Word) : Nat → Option (Word × Word) → State → Res (State × Option (Word × Word))
  | 0, best, s => .ok (s, best)
  | n + 1, best, s => do
    let (s, size) ← phaseWord s a
    let (s, entry) ← phaseWord s (a + 8#64)
    let better := v.ule size && best.all fun b => size.ult b.1
    phasePairs v (a + 16#64) n (if better then some (size, entry) else best) s

def phaseMiss (v t reason : Word) (s : State) : Res (State × Option Word × Nat) :=
  .error (.trapAt (.plain 17#5 v t reason) s)

def execPhase (a : Reg) (imm : BitVec 32) (s : State) : Out :=
  issueTransfer (.phase a imm) s fun s => do
    s.core.useX [a]
    let v := s.core.getX a
    let t := s.core.pc + wordOffset imm
    if t.extractLsb' 0 3 ≠ 0#3 then Res.trap (.plain 5#5 t 0#64 0#64)
    let (s, head) ← phaseWord s t
    let c := fieldNat head 0 8
    if c = 0 || 8 < c || head.extractLsb' 8 56 ≠ 0#56 then phaseMiss v t 1#64 s
    else
      let (s, best) ← phasePairs v (t + 8#64) c none s
      match best with
      | none => phaseMiss v t 0#64 s
      | some b =>
        match checkTarget b.2 with
        | .error (.trap e) => .error (.trapAt e s)
        | .error e => .error e
        | .ok _ => .ok (s, some b.2, 3)

end Sys2Proof.Machine
end

