-- ==== Sys2Proof/Machine/Recovery.lean ====
section
/-! DEFINITION. The steps of recovery: pre-emption (R371, R391, R446, R447), checkpoints (R400), lost dies (R20, R397),
uncorrectable errors (R395, R396). -/

namespace Sys2Proof.Machine

/-! ### The command block (R433) -/

def Package.cmdOp (p : Package) : Nat := fieldNat p.command 0 8
def Package.cmdSubject (p : Package) : Nat := fieldNat p.command 8 8
def Package.cmdStatus (p : Package) : Nat := fieldNat p.command 32 32
def Package.cmdArg0 (p : Package) : Nat := fieldNat p.command 64 64
def Package.cmdArg1 (p : Package) : Nat := fieldNat p.command 128 64

def Package.setCommand (p : Package) (o : Nat) (bs : List Byte) : Package := { p with command := setBytes p.command o bs }

/-- A command ends: its status, and its event with the op as subject. -/
def Package.endCommand (p : Package) (status : Nat) : Package := (p.setCommand 4 (natBytes 4 status)).raise 0x16 p.cmdOp

/-- A write of op whose command is refused changes status alone: event 0x16 with its op as subject (R433, R451). -/
def Package.refuseCommand (p : Package) (op : Nat) : Package := (p.setCommand 4 (natBytes 4 3)).raise 0x16 op

/-- One that R385 refuses: event 0x14 with the command's subject. -/
def Package.refuseDebug (p : Package) (subject : Nat) : Package := (p.setCommand 4 (natBytes 4 3)).raise 0x14 subject

/-! ### Invalidation of a context (R371) -/

/-- The gang reservations of a context are released (assumption 28). -/
def Package.releaseGangs (p : Package) (ctx : Nat) : Package :=
  let keep := fun g : Gang =>
    if g.ctx = ctx then { g with members := g.members.filter fun m => m.state != .reserved } else g
  { p with gangs := (p.gangs.map keep).filter fun g => g.ctx != ctx || !g.members.isEmpty }

/-- Cores without a strand that hold the context's resident state write it to its save area, or clear it. -/
def State.disposeAll (s : State) (ctx : Nat) : State :=
  ((List.range Config.cores).filter fun n => (s.listed n).any fun c => c.resident == some ctx && c.strand.isNone).foldl
    (fun s n => s.onCore n State.dispose) s

/-- Steps 1 to 4 of R371 once the context's strands have left their cores; a descriptor written meanwhile takes effect. -/
def State.invalidate (s : State) (ctx : Nat) : State :=
  let s := (s.mapPkg fun p => p.releaseGangs ctx).disposeAll ctx
  let s := s.mapPkg fun p => p.dropHeld fun pg => pg.ctx == ctx
  (s.closeMerges fun m => m.ctx == ctx).mapPkg fun p => p.setCtx ctx fun c => { c with
    desc := c.shown
    touched := if c.rewritten.isSome then 0#10 else c.touched
    rewritten := none
    closing := false }

/-! ### Checkpoints (R400) -/

/-- The pages that a table of a level maps and whose owner field names a context. -/
def State.ownedBy (s : State) (owner : Nat) (key : BitVec 6) : Nat → Nat → List (Nat × Nat)
  | level, table =>
    ((List.range 512).map fun i =>
      let r := s.tableWord (table + 8 * i) key
      let e := r.1
      let bits := if pteBig e then 16 else 12 + 9 * level
      if r.2 || pteRefused level e || pteDemand e then []
      else if level = 0 || pteLeaf e then
        (if (pteOwner e).toNat = owner then [(s.pkg.ptePa e / 2 ^ bits * 2 ^ bits, 2 ^ bits)] else [])
      else
        match level with
        | 0 => []
        | n + 1 => s.ownedBy owner key n (s.pkg.ptePa e)).flatten

/-- Every page whose owner field names the context, in the tables of any valid context, and the context's save area. -/
def State.checkpointRanges (s : State) (ctx : Nat) : List (Nat × Nat) :=
  let tables := (List.range 64).filter fun c => (s.pkg.ctx c).valid
  (tables.map fun c => s.ownedBy ctx (s.pkg.ctx c).ptkey 4 (s.pkg.ctx c).table).flatten
    ++ [((s.pkg.ctx ctx).save, Config.cores * Config.imageBytes)]

/-- The table at a physical address, of a level, and the tables below it that a reader of the whole of it reads. -/
def State.tablesUnder (s : State) (key : BitVec 6) : Nat → Nat → List Nat
  | 0, table => [table]
  | n + 1, table =>
    table :: ((List.range 512).map fun i =>
      let r := s.tableWord (table + 8 * i) key
      if r.2 || pteRefused (n + 1) r.1 || pteDemand r.1 || pteLeaf r.1 then [] else s.tablesUnder key n (s.pkg.ptePa r.1)).flatten

/-- The tables that the ranges of a checkpoint are found in have been read, a line at a time (R425). -/
def State.readsTables (s : State) (ctx : Nat) : State :=
  let read := fun (c : Nat) => ((s.tablesUnder (s.pkg.ctx c).ptkey 4 (s.pkg.ctx c).table).map fun t => (pieces 64 t 64 4096)).flatten
  (((List.range 64).filter fun c => (s.pkg.ctx c).valid).map read).flatten.foldl
    (fun s e => s.mapPkg fun p => p.undecoded ctx e.1) s

def inRanges (l : List (Nat × Nat)) (a : Nat) : Bool := l.any fun r => r.1 ≤ a && a < r.1 + r.2

/-- Lines of the ranges that the host holds modified come back. -/
def State.recallRanges (s : State) (l : List (Nat × Nat)) : State :=
  (s.pkg.hostLines.filter fun e => inRanges l (64 * e.1)).foldl (fun s e => s.recall e.1) s

/-- The dirty lines of a core's windows: physical address, key identifier, place in the scratchpad. -/
def Core.dirtyLines (c : Core) : List (Nat × BitVec 6 × Nat) :=
  ((c.wins.toList.filterMap id).map fun w =>
    (w.lines.filter fun l => l.dirty).filterMap fun l => (w.page l.line).map fun pg =>
      (pg.pa (w.glob.toNat + 64 * l.line), pg.key, w.loc + 64 * l.line)).flatten

/-- Lines of the ranges that cores stash dirty stand at their homes as their cores hold them. -/
def State.settleRanges (s : State) (l : List (Nat × Nat)) : State :=
  s.cores.foldl (fun s c => (c.dirtyLines.filter fun e => inRanges l e.1).foldl (fun s e =>
    s.putHome e.1 (c.scratch.bytes e.2.2 64) e.2.1 (c.granulesPoisoned e.2.2 64)) s) s

/-- Bytes written for a context at a physical address. -/
def State.ctxWrite (s : State) (ctx pa : Nat) (bs : List Byte) (key : BitVec 6) : State :=
  ((s.recall (pa / 64)).reachFor ctx pa).put .other pa bs key

/-- The checkpoint's number stands in the image of every strand that it holds. -/
def State.numberImages (s : State) (ctx number : Nat) : State :=
  let x := s.pkg.ctx ctx
  x.paused.foldl (fun s q => s.ctxWrite ctx (x.imageAt q.core + 8) (natBytes 8 number) x.ptkey) s

def inRange (a n x : Nat) : Bool := a ≤ x && x < a + n

/-- Whole lines copied as they stand: their bytes, the keys that they are written under, and their poison. -/
def Package.copyLines (p : Package) (src dst n : Nat) : Package :=
  let line := fun l : Nat => l + dst / 64 - src / 64
  let moved := fun l : Nat => inRange src n (64 * l)
  { p with
    mem := p.mem.copyIn dst p.mem src n
    lineKeys := ((p.lineKeys.filter fun e => moved e.1).map fun e => (line e.1, e.2))
      ++ p.lineKeys.filter fun e => !inRange dst n (64 * e.1)
    poison := ((p.poison.filter moved).map line).foldl insertNat (p.poison.filter fun l => !inRange dst n (64 * l))
    counterPoison := ((p.counterPoison.filter (inRange src n)).map fun a => a + dst - src).foldl insertNat
      (p.counterPoison.filter fun a => !inRange dst n a) }

/-- A line streamed from one place to another: a home that does not serve gives poisoned data, and takes none (R397, R426). -/
def Package.moveLine (p : Package) (src dst : Nat) : Package :=
  if p.reach dst != .served then p
  else
    let q := p.copyLines src dst 64
    if p.reach src = .served then q else q.poisonLine (dst / 64)

/-- n bytes streamed for a context, a line at a time; the context touches the homes (R378). -/
def State.moveLines (s : State) (ctx src dst n : Nat) : State :=
  (List.range (n / 64)).foldl (fun s i =>
    ((s.reachFor ctx (src + 64 * i)).reachFor ctx (dst + 64 * i)).mapPkg fun p => p.moveLine (src + 64 * i) (dst + 64 * i)) s

/-- Where each range of a checkpoint stands in its region, after the marker's line. -/
def placesOf : Nat → List (Nat × Nat) → List (Nat × Nat × Nat)
  | _, [] => []
  | at_, r :: l => (r.1, at_, r.2) :: placesOf (at_ + r.2) l

def sizeOf_ (l : List (Nat × Nat)) : Nat := (l.map fun r => r.2).foldl (· + ·) 0

/-- The completion marker of a checkpoint: its number and its context (assumption 38). -/
def markerBytes (ctx number : Nat) : List Byte := natBytes 8 number ++ natBytes 8 ctx

/-- The device streams the ranges of a checkpoint to its region, the marker last. -/
def State.streamOut (s : State) (c : Checkpoint) : State :=
  let t := (placesOf (c.base + 64) c.ranges).foldl (fun t r => t.moveLines c.ctx r.1 r.2.1 r.2.2) s
  (t.reachFor c.ctx c.base).put .other c.base (markerBytes c.ctx c.number) 0#6

/-- A checkpoint of a context whose strands have left their cores. In host-assisted mode the host makes each transfer, the
marker's too (R381 function 3; assumption 38). -/
def State.makeCheckpoint (s : State) (ctx base number : Nat) : State :=
  let s := s.numberImages ctx number
  let ranges := s.checkpointRanges ctx
  let s := (s.recallRanges ranges).settleRanges ranges
  let x := s.pkg.ctx ctx
  let c : Checkpoint := {
    ctx := ctx
    number := number
    base := base
    ranges := ranges
    paused := x.paused
    gangs := s.pkg.gangs.filter fun g => g.ctx == ctx
    saved := x.saved }
  let s := if x.hardware 3 then s.streamOut c else s
  s.mapPkg fun p => { p.setCtx ctx fun x => { x with checkpoints := number } with
    checkpoints := c :: p.checkpoints.filter fun k => !(k.ctx == ctx && k.number == number) }

/-- The checkpoint that a restore names; none without its marker. -/
def State.checkpointOf (s : State) (ctx base number : Nat) : Option Checkpoint :=
  (s.pkg.checkpoints.find? fun k => k.ctx == ctx && k.number == number && k.base == base).filter fun k =>
    s.lookHome base 16 0#6 == (markerBytes k.ctx k.number, false)

/-- The marker of a region has been read for a context (R425). -/
def State.readsMarker (s : State) (ctx base : Nat) : State := s.mapPkg fun p => p.undecoded ctx base

/-- The ranges of a checkpoint as its region holds them. -/
def State.streamIn (s : State) (c : Checkpoint) : State :=
  let s := s.recallRanges [(c.base, 64 + sizeOf_ c.ranges)]
  ((placesOf (c.base + 64) c.ranges).foldl (fun t r => t.moveLines c.ctx r.2.1 r.1 r.2.2) s).mapPkg fun p =>
    { p with hostLines := p.hostLines.filter fun e => !inRanges c.ranges (64 * e.1) }

/-- Watchers of the ranges see the restored lines written. -/
def Core.sawRanges (c : Core) (l : List (Nat × Nat)) : Core :=
  let c := match c.wfe.bind fun w => w.line with
    | some n => if inRanges l (64 * n) then c.sawWrite .other n else c
    | none => c
  match c.lastLoad with
  | some (n, _) => if inRanges l (64 * n) then c.sawWrite .other n else c
  | none => c

/-- The context's memory, strands and gangs are those of the checkpoint. -/
def State.restoreFrom (s : State) (k : Checkpoint) : State :=
  let s := if (s.pkg.ctx k.ctx).hardware 3 then (s.streamIn k).mapCores fun c => c.sawRanges k.ranges else s
  s.mapPkg fun p => { p.setCtx k.ctx fun x => { x with paused := k.paused, saved := k.saved } with
    gangs := (p.gangs.filter fun g => g.ctx != k.ctx) ++ k.gangs }

/-! ### Pre-emption (R391, R446, R447) -/

/-- A pre-emption is taken once every strand of the context is in user mode, has been told of every lost die, can be drained, and
waits with no TLBINV for a page that the pre-emption does not itself release (R387, R388, R391, R407, R446; assumption 53). -/
def State.allUser (s : State) (ctx : Nat) : Bool :=
  (s.coresOf ctx).all fun n =>
    let c := s.coreAt n
    !c.super && !(c.pending.any fun t => t.rank == 0) && (s.focus n).catchUp.drains && !(s.focus n).tlbWaits fun d => !(d.strand.isSome && d.resident == some ctx)

/-- A command of the block that waits for the context's strands to leave their cores. -/
def Package.commandWaits (p : Package) (ctx : Nat) : Bool :=
  p.cmdStatus == 1 && p.cmdSubject == ctx && (p.cmdOp == 1 || p.cmdOp == 3 || p.cmdOp == 4)

/-- A gang has reserved a core that runs a strand of the context (R253). -/
def State.gangNeeds (s : State) (ctx : Nat) : Bool := (s.coresOf ctx).any fun n => s.pkg.gangs.any fun g => g.reserves n

/-- What completes a command once no strand of its context runs: a checkpoint needs a region that is long enough, a restore its
marker (R400, R433; assumption 38). -/
def State.completeCommand (s : State) (ctx : Nat) : State :=
  if !s.pkg.commandWaits ctx then s
  else
    match s.pkg.cmdOp with
    | 3 =>
      let n := (s.pkg.ctx ctx).checkpoints + 1
      let s := s.readsTables ctx
      if s.pkg.cmdArg1 < 64 + sizeOf_ (s.checkpointRanges ctx) then s.mapPkg fun p => p.endCommand 3
      else (s.makeCheckpoint ctx s.pkg.cmdArg0 n).mapPkg fun p => (p.setCommand 0x18 (natBytes 8 n)).endCommand 2
    | 4 =>
      let s := s.readsMarker ctx s.pkg.cmdArg0
      match s.checkpointOf ctx s.pkg.cmdArg0 s.pkg.cmdArg1 with
      | some k => (s.restoreFrom k).mapPkg fun p => p.endCommand 2
      | none => s.mapPkg fun p => p.endCommand 3
    | _ => s.mapPkg fun p => p.endCommand 2

/-- The strands of the context leave their cores, and what asked for it is completed. -/
def State.takeOff (s : State) (ctx : Nat) : State :=
  let number := if s.pkg.commandWaits ctx && s.pkg.cmdOp = 3 then (s.pkg.ctx ctx).checkpoints + 1 else 0
  let s := s.preempt ctx number
  let s := if (s.pkg.ctx ctx).closing then s.invalidate ctx else s
  (s.completeCommand ctx).settleMerges ctx

/-- Something asks for the context's strands to leave their cores. -/
def State.askedOff (s : State) (ctx : Nat) : Bool :=
  (s.pkg.ctx ctx).held || (s.pkg.ctx ctx).closing || !(s.pkg.ctx ctx).valid || s.pkg.commandWaits ctx

/-- A pre-emption that has been asked for is taken as soon as every strand of the context is in user mode. -/
def State.takeOffWhenUser (s : State) (ctx : Nat) : State := if s.allUser ctx then s.takeOff ctx else s

def execPreemption (ctx : Nat) (s : State) : Out :=
  .next (if !(s.coresOf ctx).isEmpty && (s.askedOff ctx || s.gangNeeds ctx) then s.takeOffWhenUser ctx else s)

/-! ### Time before a change of clocks or of halts (R17, R21) -/

/-- Every core that waits, is free, or is or will be held by a halt of some dies, has passed the cycles up to now. Only those of a
wait are cycles in which a wait holds issue (R28, R441). -/
def State.passTime (s : State) (halts : BitVec 10) : State :=
  (s.cores.map fun c => c.num).foldl (fun s n => s.onCore n fun t =>
    if t.core.strand.isNone then t.idleTo t.pkg.now
    else if t.standsHalted || (t.core.wait.isNone && t.heldBy halts) then t.catchUp
    else if t.core.wait.isSome then t.heldUntilNow
    else t) s

/-- Halts begin to freeze the bounds of the contexts that have touched their dies (R21). -/
def Package.freeze (p : Package) (halts : BitVec 10) : Package :=
  { p with contexts := p.contexts.map fun c =>
      if c.touched &&& p.halted = 0#10 && c.touched &&& halts != 0#10 then { c with frozenAt := p.now } else c }

/-! ### Lost dies (R20, R397) -/

/-- The lines of a lost core's windows are its home's again; one that was dirty holds undefined bytes (R2). -/
def State.loseLines (s : State) (c : Core) : State :=
  c.dirtyLines.foldl (fun s e =>
    let (bs, s) := s.takeFree 64
    s.putHome e.1 bs e.2.1 false) s

/-- A lost core: its strand, registers and engine work are gone. -/
def Core.lost (c : Core) : Core := { Core.reset c.num with cycle := c.cycle, time := c.time, activity := c.activity }

/-- Every core of a lost compute die. -/
def State.loseCores (s : State) (die : Nat) : State :=
  let gone := s.cores.filter fun c => dieOf c.num == die
  let s := gone.foldl State.loseLines s
  let s := s.mapCores fun c => if dieOf c.num = die then c.lost else c
  s.mapPkg fun p => { p with partials := p.partials.filter fun q => dieOf q.core != die }

/-- The merges that the loss closes for a trapped context (R186). -/
def Merge.losesDie (m : Merge) (die : Nat) : Bool :=
  if die < 8 then m.senders.any fun c => dieOf c.1 == die else paHome m.pa == 0 && homeHub m.pa == die

/-- Host-assisted die-loss handling: the context is held, its strands taken off (R381 function 4; assumption 27). -/
def State.holdForLoss (s : State) (ctx : Nat) : State :=
  if (s.pkg.ctx ctx).hardware 4 then s else (s.mapPkg fun p => p.holdForLoss ctx).takeOffWhenUser ctx

/-- A die is lost (R397). The open time of the merges of contexts that it leaves without a strand on a core stops (R186).
With a hub die its pool ports and Slathen ports stop serving, and the host port, which no rule gives to a hub, goes on
(assumption 39). With a core die its partials and stashed lines are lost (assumption 50). -/
def State.loseDie (s : State) (die : Nat) : State :=
  if 10 ≤ die || !s.pkg.dieServes die then s
  else
    let s := s.mapPkg fun p => { p with dieen := p.dieen &&& ~~~(1#10 <<< die) }
    let s := if die < 8 then s.loseCores die else s
    let hit := (List.range 64).filter fun c => (s.pkg.ctx c).touched.getLsbD die
    let s := hit.foldl (fun s c => s.tellLoss c die) s
    let s := s.closeMerges fun m => hit.contains m.ctx && m.losesDie die
    (List.range 64).foldl State.settleMerges (hit.foldl State.holdForLoss s)

def execDieLoss (die : Nat) (s : State) : Out := .next (s.loseDie die)

/-! ### Uncorrectable errors (R395, R396) -/

def Core.poisonGranule (c : Core) (g : Granule) : Core := if c.poison.contains g then c else { c with poison := g :: c.poison }

/-- An error in a core's SRAM: its granule is poisoned and a record appended. -/
def State.coreError (s : State) (core unit addr : Nat) (f : Core → Core) : State :=
  if Config.cores ≤ core then s
  else
    let ctx := ((s.coreAt core).resident).getD 0xFF
    (s.onCore core fun t => t.mapCore f).mapPkg fun p => p.logError unit (dieOf core) ctx addr

/-- Granule g of an entry of a queue. -/
def Core.strikeEntry (c : Core) (q entry g : Nat) : Core :=
  { c with queues := c.queues.setIfInBounds q ((c.queues.getD q []).modify entry fun e =>
      { e with poison := e.poison ||| (1#64 <<< g) }) }

/-- The unit of an error record of a memory line: L2, LLC or pool. -/
def lineUnit (u : BitVec 8) : Bool := u == 4#8 || u == 5#8 || u == 7#8

def State.strike (s : State) (site : ErrorSite) : State :=
  match site with
  | .scalar core r => if r = 0#6 then s else s.coreError core 1 0 fun c => c.poisonGranule (.x r)
  | .vector core slot g => if slot < 48 && g < 64 then s.coreError core 1 0 fun c => c.poisonGranule (.v slot g) else s
  | .predicate core slot g =>
    if 0 < slot && slot < 16 && g < 2 then s.coreError core 1 0 fun c => c.poisonGranule (.p slot g) else s
  | .queue core q entry g =>
    if entry < ((s.coreAt core).queues.getD q []).length && g < 64 then s.coreError core 3 0 fun c => c.strikeEntry q entry g
    else s
  | .buffer core g =>
    if 2 * g < (s.coreAt core).buffer.length then s.coreError core 3 0 fun c => c.poisonGranule (.buffer g) else s
  | .scratch core g =>
    if 8 * g < Config.scratchBytes then s.coreError core 2 (2 ^ 63 + 8 * g) fun c => c.poisonGranule (.scratch g) else s
  | .mapEntry core e g => if e < 64 && g < 16 then s.coreError core 1 0 fun c => c.poisonGranule (.map e g) else s
  | .statEntry core e g => if e < 1024 && g < 4 then s.coreError core 1 0 fun c => c.poisonGranule (.stat e g) else s
  | .line a u =>
    if lineUnit u then s.mapPkg fun p => (p.poisonLine (a / 64)).logError u.toNat (homeHub a) 0xFF a else s
  | .counter a =>
    (s.setPair (a / 4 * 4) true).mapPkg fun p => p.logError 6 (homeHub a) 0xFF (a / 4 * 4)

def execUncorrectableError (site : ErrorSite) (s : State) : Out := .next (s.strike site)

end Sys2Proof.Machine
end

