-- ==== Sys2Proof/Machine/Host.lean ====
section
/-! DEFINITION. Accesses of the host through BAR4 and the coherence between host and device (R297, R298, R423). -/

namespace Sys2Proof.Machine

/-! ### The host's copy of a line (R298) -/

def Package.hostCopy (p : Package) (line : Nat) : Option Line := (p.hostLines.find? fun e => e.1 == line).map fun e => e.2

def Package.setHostCopy (p : Package) (line : Nat) (v : Line) : Package :=
  { p with hostLines := (line, v) :: p.hostLines.filter fun e => e.1 != line }

/-! ### BAR4 (R297, R423, R425) -/

/-- The access is one that the port decodes: CXL.mem is on, the size and alignment are natural, and the address lies in
BAR4. -/
def Package.decodes (p : Package) (a : HostAccess) : Bool :=
  p.powered && !p.recovery && p.hostPort.up && p.hostPort.coherent && a.fn < 8
    && sizeOk a.size && a.pa % a.size == 0
    && a.pa + a.size ≤ 2 ^ p.bar4.toNat

/-- What an access brings that no decoder covers: event 0x31 with the function as subject (R425). -/
def Package.hostReach (p : Package) (a : HostAccess) : Package :=
  match p.reach a.pa with
  | .undecoded => p.raise 0x31 a.fn
  | _ => p

/-- Poisoned data of the host reach the home, after a copy that the host holds modified (R395, R422). -/
def State.hostPoison (s : State) (a : HostAccess) : State :=
  let s := ((s.recall (a.pa / 64)).mapPkg fun p => p.hostReach a).put .other a.pa (natBytes a.size a.data.toNat) s.pkg.hostkey
  if s.pkg.reach a.pa == .served || (s.stashOwner a.pa).isSome then s.putPoison a.pa a.size else s

/-- A store of the host of sound data: into its modified copy, into a copy that it takes, or at the home. -/
def State.hostStore (s : State) (a : HostAccess) : State :=
  let line := a.pa / 64
  let bs := natBytes a.size a.data.toNat
  match s.pkg.hostCopy line with
  | some v => (s.mapPkg fun p => p.setHostCopy line (setBytes v (a.pa % 64) bs)).noteWrite .other a.pa a.size
  | none =>
    let s := s.mapPkg fun p => p.hostReach a
    let r := s.look (64 * line) 64 s.pkg.hostkey
    if a.keepModified && s.pkg.reach a.pa == .served && (s.stashOwner a.pa).isNone && !r.2 then
      ((s.showTo none (64 * line) 64).mapPkg fun p => p.setHostCopy line (setBytes (BitVec.ofNat 512 (leNat r.1)) (a.pa % 64) bs)).noteWrite .other a.pa a.size
    else s.put .other a.pa bs s.pkg.hostkey

/-- A load of the host: its value joins the loads that the function has made; none for poisoned data. -/
def State.hostLoad (s : State) (a : HostAccess) : State :=
  match s.pkg.hostCopy (a.pa / 64) with
  | some v =>
    let n := leNat ((natBytes 64 v.toNat).drop (a.pa % 64) |>.take a.size)
    s.mapPkg fun p => { p with hostLoads := p.hostLoads ++ [(a.fn, some (BitVec.ofNat 512 n))] }
  | none =>
    let s := s.mapPkg fun p => p.hostReach a
    let r := s.look a.pa a.size s.pkg.hostkey
    let v := if r.2 then none else some (BitVec.ofNat 512 (leNat r.1))
    (s.showTo none a.pa a.size).mapPkg fun p => { p with hostLoads := p.hostLoads ++ [(a.fn, v)] }

/-- A host access is one event at its home. Whether HOSTORD makes a plain store a release and a plain load an acquire leaves
no trace in a machine whose homes apply every access at once (assumption 7); a barrier or fence of the host changes
nothing else. -/
def execHostBar4Access (a : HostAccess) (s : State) : Out :=
  .next (if !s.pkg.decodes a then s
    else match a.action with
      | .plainStore | .storeRelease => if a.poisoned then s.hostPoison a else s.hostStore a
      | .plainLoad | .loadAcquire => s.hostLoad a
      | .storeBarrier | .loadBarrier | .fullFence => s)

/-! ### Snoops and write-backs (R298) -/

/-- The snoop response arrives once the host has no modified copy any more; the accesses that the home holds go on. -/
def execBackInvalidateResponse (line : Nat) (s : State) : Out :=
  .next (if s.pkg.snoops.contains line && (s.pkg.hostCopy line).isNone then
      s.mapPkg fun p => { p with snoops := p.snoops.filter fun l => l != line }
    else s)

/-- The host's dirty write-back of a line reaches its home, with the event of an address that no decoder covers (R425). -/
def State.hostWriteback (s : State) (line : Nat) : State :=
  match s.pkg.hostCopy line with
  | none => s
  | some v =>
    (s.mapPkg fun p => { p with hostLines := p.hostLines.filter fun e => e.1 != line }.undecoded 0xFF (64 * line)).put .moved (64 * line)
      (natBytes 64 v.toNat) s.pkg.hostkey

def execHostWriteback (line : Nat) (s : State) : Out := .next (s.hostWriteback line)

end Sys2Proof.Machine
end

