-- ==== Sys2Proof/Machine/Links.lean ====
section
/-! DEFINITION. Ports and links: the host port (R422, R423), pool ports (R425, R426), Slathen ports (R399, R427 to R429). -/

namespace Sys2Proof.Machine

/-! ### The host port -/

/-- Widths that a x16 port trains to. -/
def portWidth (lanes : Nat) : Bool := lanes == 16 || lanes == 8 || lanes == 4

/-- The host port trains; a host that offers 68-byte flits alone, and a package in recovery, have CXL.io only (R422, R444). -/
def Package.trainHost (p : Package) (pcie6 : Bool) (lanes : Nat) (flits256 : Bool) : Package :=
  if !p.powered || !portWidth lanes then p
  else
    let q := { p with hostPort := ⟨true, pcie6, lanes, flits256 && !p.recovery⟩ }
    if flits256 then q else q.raise 0x21 0

/-- The size of BAR4 that the host selects among the powers of two from 1 GiB up to the one offered (R423; assumption 59). -/
def State.selectBar4 (s : State) : State :=
  { s with
    fresh := s.fresh + 1
    pkg := { s.pkg with
      bar4 := BitVec.ofNat 6 (30 + Config.bar4Selected s.fresh % (s.pkg.bar4offered.toNat - 30 + 1)) } }

def execHostPortTraining (pcie6 : Bool) (lanes : Nat) (flits256 : Bool) (s : State) : Out :=
  .next (s.mapPkg fun p => p.trainHost pcie6 lanes flits256).selectBar4

/-- A conventional reset offers BAR4 up to the size that BAR4SIZE then sets, and the host selects again (R423). -/
def execHostPortConventionalReset (s : State) : Out :=
  .next (s.mapPkg fun p => { p with bar4offered := p.bar4size }).selectBar4

/-! ### Pool ports -/

def Package.pool (p : Package) (k : Nat) : PoolPort := p.poolPorts.getD k ⟨false, false, 0⟩

def Package.setPool (p : Package) (k : Nat) (q : PoolPort) : Package := { p with poolPorts := p.poolPorts.setIfInBounds k q }

def execPoolPortTraining (port : Nat) (cxl3 : Bool) (lanes : Nat) (s : State) : Out :=
  .next (s.mapPkg fun p => if p.powered && portWidth lanes then p.setPool port ⟨true, cxl3, lanes⟩ else p)

def Package.poolDown (p : Package) (port : Nat) : Package :=
  if (p.pool port).up then (p.setPool port { p.pool port with up := false, lanes := 0 }).raise 0x32 port else p

/-- A request on its way to a home: it has read nothing yet, and no core stashes its line. -/
def State.requesting (s : State) (o : GOp) : Bool := o.size != 0 && o.got.isNone && (s.stashOwner o.pa).isNone

/-- Each request outstanding on the port completes: a read returns poisoned data and a write is discarded (R426). -/
def State.losePool (s : State) (port : Nat) : State :=
  if (s.pkg.pool port).up then
    let lose := fun o : GOp =>
      if s.requesting o && paHome o.pa == 0 && s.pkg.poolPort o.pa == some port then { o with lost := true } else o
    (s.mapCores fun c => { c with ops := c.ops.map lose }).mapPkg fun p => p.poolDown port
  else s

def execPoolPortDown (port : Nat) (s : State) : Out := .next (s.losePool port)

def Package.poolNarrowed (p : Package) (port lanes : Nat) : Package :=
  if (p.pool port).up && portWidth lanes && lanes < (p.pool port).lanes then
    (p.setPool port { p.pool port with lanes := lanes }).raise 0x33 port
  else p

def execPoolPortNarrowed (port lanes : Nat) (s : State) : Out := .next (s.mapPkg fun p => p.poolNarrowed port lanes)

/-! ### Slathen ports -/

/-- A change of a link that is in service. -/
def State.onLink (s : State) (k : Nat) (f : SlathenPort → SlathenPort) : State :=
  s.mapPkg fun p => if (p.link k).up then p.setLink k (f (p.link k)) else p

/-- The receiver's rule (R428). An acknowledgement names the last flit accepted. -/
def SlathenPort.receive (l : SlathenPort) (seq : BitVec 12) (good : Bool) : SlathenPort :=
  if !good then { l with sent := l.sent ++ [.nak l.expect] }
  else if seq = l.expect then
    { l with
      expect := l.expect + 1#12
      accepted := l.accepted + 1
      carried := l.carried + 1
      sent := l.sent ++ [.ack seq] }
  else if 2048 ≤ (seq - l.expect).toNat then l
  else { l with sent := l.sent ++ [.nak l.expect] }

def execSlathenFlitReceive (port : Nat) (seq : BitVec 12) (good : Bool) (s : State) : Out :=
  .next (s.onLink port fun l => l.receive seq good)

/-- The bytes of a flit (R427): sequence number and type, acknowledged sequence, credits, payload, check bytes. A nak names the
number that it asks for, and an idle flit carries none. -/
def SlathenSend.bytes (port place : Nat) (x : SlathenSend) : List Byte :=
  let parts := match x with
    | .data f a => (f.seq.toNat + 4096, a, f.load.payload)
    | .nak e => (e.toNat + 2 * 4096, e - 1#12, 0#1888)
    | .ack a => (0, a, 0#1888)
  let head := natBytes 2 parts.1 ++ natBytes 2 parts.2.1.toNat ++ natBytes 4 (Config.flitCredits port place).toNat
    ++ natBytes 236 parts.2.2.toNat
  head ++ natBytes 12 (Config.flitCheck (BitVec.ofNat 1952 (leNat head))).toNat

/-- The flits that a port has sent, as they stand on the link. -/
def Package.flitsOf (p : Package) (port : Nat) : List (List Byte) :=
  (p.link port).sent.zipIdx.map fun x => x.1.bytes port x.2

/-- The place of a sequence number among the held flits. -/
def SlathenPort.place (l : SlathenPort) (e : BitVec 12) : Option Nat := l.held.findIdx? fun f => f.seq == e

/-- Flits sent again, in order, each with the acknowledgement of the moment. -/
def SlathenPort.resend (l : SlathenPort) (fs : List Flit) : SlathenPort :=
  { l with sent := l.sent ++ fs.map fun f => .data f (l.expect - 1#12) }

def SlathenPort.nakked (l : SlathenPort) (e : BitVec 12) : SlathenPort :=
  match l.place e with
  | some n => l.resend (l.held.drop n)
  | none => l

def execSlathenNakReceive (port : Nat) (e : BitVec 12) (s : State) : Out := .next (s.onLink port fun l => l.nakked e)

/-- Transactions that wait are sent. -/
def SlathenPort.sendWaiting (l : SlathenPort) : SlathenPort :=
  l.waiting.foldl (fun l w => l.send w) { l with waiting := [] }

/-- A cumulative acknowledgement frees the flits up to the one that it names, and what waits for their places is sent. -/
def SlathenPort.acked (l : SlathenPort) (a : BitVec 12) : SlathenPort :=
  match l.place a with
  | some n => ({ l with held := l.held.drop (n + 1) } : SlathenPort).sendWaiting
  | none => l

def execSlathenAckReceive (port : Nat) (ack : BitVec 12) (s : State) : Out := .next (s.onLink port fun l => l.acked ack)

/-- The link goes down: what it held is discarded (R399). -/
def Package.linkDown (p : Package) (port : Nat) : Package :=
  if (p.link port).up then
    (p.setLink port { p.link port with up := false, lanes := 0, held := [], waiting := [] }).raise 0x41 port
  else p

/-- A Slathen port carries an outstanding request for another package's memory (assumption 23). -/
def Package.carries (p : Package) (port : Nat) (o : GOp) : Bool := p.requestLink o.pa == some port

/-- Each request outstanding over the link completes: a read returns poisoned data and a write is discarded (R399). -/
def State.loseLink (s : State) (port : Nat) : State :=
  let lose := fun o : GOp => if s.requesting o && s.pkg.carries port o then { o with lost := true } else o
  (s.mapCores fun c => { c with ops := c.ops.map lose }).mapPkg fun p => p.linkDown port

def execSlathenLinkDown (port : Nat) (s : State) : Out := .next (s.loseLink port)

/-- A lane fails: the port retrains at x4 and then at x2, and held flits are sent again; with no usable lane it is down
(R429). -/
def State.laneFails (s : State) (port : Nat) : State :=
  let l := s.pkg.link port
  if !l.up then s
  else if l.lanes ≤ 2 then s.loseLink port
  else s.mapPkg fun p => (p.setLink port ({ l with lanes := l.lanes / 2 }.resend l.held)).raise 0x40 port

def execSlathenLaneFailure (port : Nat) (s : State) : Out := .next (s.laneFails port)

/-- A port trains to x8 at 224 or 112 Gb/s per lane against its partner, and begins carrying flits (R427). -/
def Package.trainLink (p : Package) (port : Nat) (fast : Bool) : Package :=
  if p.powered then p.setLink port ⟨true, true, 8, fast, 0#12, [], [], 0#12, 0, (p.link port).carried, (p.link port).sent⟩ else p

def execSlathenPortTraining (port : Nat) (fast : Bool) (s : State) : Out := .next (s.mapPkg fun p => p.trainLink port fast)

end Sys2Proof.Machine
end

