-- ==== Sys2Proof/Machine/Management.lean ====
section
/-! DEFINITION. The management window (R430, R451): ownership (R379, R380), its registers, context descriptors (R370, R371),
partitions (R432), pool decoders (R431), the command block (R433) with debug access (R385) and halts (R398), attestation
(R383, R434). -/

namespace Sys2Proof.Machine

/-! ### Bytes and bits -/

/-- The bytes of a bit vector, least significant first. -/
def bytesOf {w : Nat} (n : Nat) (v : BitVec w) : List Byte := natBytes n v.toNat

/-- Bits [hi - 1 : lo] of a value are zero. -/
def zeroBits {w : Nat} (v : BitVec w) (lo hi : Nat) : Bool := fieldNat v lo (hi - lo) == 0

def wordOfBytes (bs : List Byte) : Word := BitVec.ofNat 64 (leNat bs)

/-! ### Ownership (R379, R380) -/

/-- The link of a master is up: the host port for functions 0 to 7; the board controller is number 8. -/
def Package.masterUp (p : Package) (m : Nat) : Bool := p.powered && (m == 8 || (m < 8 && p.hostPort.up))

def Package.owns (p : Package) (m : Nat) : Bool := p.ownerValid && p.owner.toNat == m

def Package.claim (p : Package) (m : Nat) (nonce : BitVec 32) : Package :=
  if p.ownerValid then p else { p with ownerNonce := nonce, ownerValid := true, owner := BitVec.ofNat 8 m }

def Package.handOver (p : Package) (target : BitVec 8) (nonce : BitVec 32) : Package :=
  if target = 0xFF#8 then { p with ownerNonce := 0#32, ownerValid := false, owner := 0xFF#8 }
  else { p with ownerNonce := nonce, ownerValid := true, owner := target }

/-- MGOWNER (R379). -/
def Package.mgowner (p : Package) : Word :=
  p.ownerNonce.setWidth 64 <<< 32 ||| bitAt p.ownerValid 8 ||| p.owner.setWidth 64

/-! ### 8-byte registers (R430, R435, R451) -/

/-- A management write is discarded: event 0x18 with the master as subject. -/
def Package.discarded (p : Package) (m : Nat) : Package := p.raise 0x18 m

/-- A record is refused: event 0x11 with its number as subject. -/
def Package.recordRefused (p : Package) (k : Nat) : Package := p.raise 0x11 k

/-- A Slathen link of the package has trained (R435). -/
def Package.linkTrained (p : Package) : Bool := p.slathen.toList.any fun l => l.trained

/-- A write of an 8-byte register by the owner, or of MGCLAIM by any master. -/
def Package.writeRegister (p : Package) (m off : Nat) (v : Word) : Package :=
  match off with
  | 0x08 => if zeroBits v 0 32 then p.claim m (v.extractLsb' 32 32) else p.discarded m
  | 0x10 =>
    let t := v.extractLsb' 0 8
    if zeroBits v 8 32 && (t.toNat ≤ 8 || t == 0xFF#8) then p.handOver t (v.extractLsb' 32 32) else p.discarded m
  | 0x18 => if zeroBits v 6 64 then { p with hostkey := v.extractLsb' 0 6 } else p.discarded m
  | 0x20 => { p with ringHead := v }
  | 0x30 =>
    if zeroBits v 6 64 && 30 ≤ fieldNat v 0 6 && fieldNat v 0 6 ≤ 45 then { p with bar4size := v.extractLsb' 0 6 }
    else p.discarded m
  | 0x38 =>
    if !(zeroBits v 6 8 && zeroBits v 14 64) then p.discarded m
    else if p.linkTrained then p.recordRefused m
    else { p with domain := v }
  | 0x80 => if zeroBits v 8 64 then { p with hostord := v.extractLsb' 0 8 } else p.discarded m
  | _ => p.discarded m

/-! ### Context descriptors (R370, R371) -/

/-- The flags that a write may change while the descriptor is valid. -/
def descFlags : BitVec 512 := 7#512 <<< 24

/-- The device refuses to make the descriptor valid in slot k (R370). -/
def Package.descRefused (p : Package) (k : Nat) (d : BitVec 512) : Bool :=
  let c : Context := { Context.reset with desc := d }
  fieldNat d 0 8 != k || 16 ≤ c.part || !partDefined (p.partition c.part)
    || !zeroBits d 22 24 || !zeroBits d 27 32 || !zeroBits d 32 64 || !zeroBits d 352 384
    || !zeroBits d 64 76 || c.save % 4096 != 0 || fieldNat d 256 64 % 4096 != 0 || c.frames % 4096 != 0
    || c.cqcap == 0 || c.trapvec == 0#64 || c.trapvec.toNat % 64 != 0

/-- A gang of the context that is pre-empted, or that its invalidation has still to pre-empt, has a core outside a partition
(R371). -/
def Package.gangOutside (p : Package) (k part : Nat) : Bool :=
  ((p.ctx k).paused.any fun q => q.gang.isSome && !p.inPart part q.core)
    || p.gangs.any fun g => g.ctx == k && g.members.any fun m => m.state == .running && !p.inPart part m.core

/-- A write of descriptor k as it would stand (R370, R371, R378). While strands of an invalidated descriptor run on, it governs
them, and one that is written meanwhile takes its place when they have left their cores (assumption 102). -/
def State.writeDescriptor (s : State) (k : Nat) (d : BitVec 512) : State :=
  let x := s.pkg.ctx k
  let old : Context := { x with desc := x.shown }
  let new : Context := { x with desc := d }
  let refused := s.mapPkg fun p => p.recordRefused k
  let later := s.mapPkg fun p => p.setCtx k fun c => { c with rewritten := some d }
  if old.valid then
    if d &&& ~~~descFlags != old.desc &&& ~~~descFlags then refused
    else if x.closing then later
    else if new.valid then s.mapPkg fun p => p.setCtx k fun _ => new
    else
      let s := s.mapPkg fun p => p.setCtx k fun _ => { new with held := true, closing := true }
      s.takeOffWhenUser k
  else if new.valid && (s.pkg.descRefused k d || s.pkg.gangOutside k new.part) then refused
  else if x.closing then later
  else s.mapPkg fun p => p.setCtx k fun _ => { new with touched := 0#10 }

/-! ### Partitions (R372, R432) -/

/-- The ranges of two defined partitions meet. -/
def partsMeet (a b : BitVec 128) : Bool :=
  partDefined a && partDefined b && partFirst a ≤ partLast b && partFirst b ≤ partLast a

/-- The descriptor as the window shows it is valid and names partition k: while strands of an invalidated one run on, that is the
one written meanwhile (assumption 102). -/
def Context.names (x : Context) (k : Nat) : Bool :=
  let d : Context := { x with desc := x.shown }
  d.valid && d.part == k

/-- A partition record as it would stand is refused (R372, R432). -/
def Package.partRefused (p : Package) (k : Nat) (r : BitVec 128) : Bool :=
  !zeroBits r 17 32
    || (partDefined r && (127 < partLast r || partLast r < partFirst r || partTable r % 128 != 0
      || (List.range 16).any fun j => j != k && partsMeet r (p.partition j)))
    || (partDefined (p.partition k) && !partDefined r
      && (List.range 64).any fun c => (p.ctx c).names k)

def Package.writePartition (p : Package) (k : Nat) (r : BitVec 128) : Package :=
  if p.partRefused k r then p.recordRefused k
  else { p with
    partitions := p.partitions.setIfInBounds k r
    floors := p.floors.setIfInBounds k (if partDefined r then partFloor r else 0) }

/-! ### Pool decoders (R431) -/

def decWayCounts : List Nat := [1, 2, 3, 4, 6, 8, 12, 24]

def decRefused (d : BitVec 256) : Bool :=
  let n := decWays d
  let ports := (List.range n).map (decPort d)
  decValid d && (decSize d == 0 || !decWayCounts.contains n || ports.any (fun q => 23 < q) || !ports.Nodup
    || !zeroBits d 22 32 || !zeroBits d 59 63 || (List.range 24).any fun w => n ≤ w && decPort d w != 0)

/-- The bytes of pool memory that the decoders give the package, with decoder k as d. -/
def Package.poolBytes (p : Package) (k : Nat) (d : BitVec 256) : Nat :=
  (((p.decoders.setIfInBounds k d).toList.filter decValid).map decSize).foldl (· + ·) 0

/-- The most pool memory that a package reaches (R8). -/
def maxPool : Nat := 24 * 2 ^ 40

/-- A write of decoder k: refused by its own rules (R431), or where the package would reach more than R8 lets it
(assumption 40). -/
def Package.writeDecoder (p : Package) (k : Nat) (d : BitVec 256) : Package :=
  if decRefused d || (decValid d && maxPool < p.poolBytes k d) then p.recordRefused k
  else { p with decoders := p.decoders.setIfInBounds k d }

/-! ### Debug access (R385) -/

/-- The context's memory and registers are open to its owner. -/
def Package.debugs (p : Package) (ctx : Nat) : Bool := ctx < 64 && (p.ctx ctx).valid && (p.ctx ctx).debug

/-- Run on the 8 bytes at a virtual address, one by one; none when one fails translation. -/
def debugBytes (ctx : Nat) (acc : Acc) (f : Page → Nat → State → State) : Nat → Word → State → Option State
  | 0, _, s => some s
  | n + 1, a, s =>
    match s.translate ctx a acc with
    | (_, .error _) => none
    | (s, .ok pg) => debugBytes ctx acc f n (a + 1#64) (f pg (8 - (n + 1)) ((s.recall (pg.pa a.toNat / 64)).reachFor ctx (pg.pa a.toNat)))

/-- The read of op 5; none when a byte fails translation. -/
def State.debugRead (s : State) (ctx : Nat) : Option State :=
  let a := BitVec.ofNat 64 s.pkg.cmdArg0
  let take := fun (pg : Page) (i : Nat) (s : State) =>
    let pa := pg.pa (a + BitVec.ofNat 64 i).toNat
    (s.showTo none pa 1).mapPkg fun p => p.setCommand (0x20 + i) (s.look pa 1 pg.key).1
  match debugBytes ctx .read take 8 a s with
  | some t => some (t.mapPkg fun p => p.endCommand 2)
  | none => none

/-- The write of op 6; none when a byte fails translation, and then none is written. -/
def State.debugWrite (s : State) (ctx : Nat) : Option State :=
  let a := BitVec.ofNat 64 s.pkg.cmdArg0
  let store := fun (pg : Page) (i : Nat) (s : State) =>
    s.put .other (pg.pa (a + BitVec.ofNat 64 i).toNat) [byteOf s.pkg.command (0x20 + i)] pg.key
  match debugBytes ctx .write store 8 a s with
  | some t => some (t.mapPkg fun p => p.endCommand 2)
  | none => none

/-- A register of the strand that a context's image holds: x registers by number, system registers from 0x1000 on. -/
def State.imageRegister (s : State) (ctx core n : Nat) : Option Word :=
  let x := s.pkg.ctx ctx
  let a := x.imageAt core
  let h := fun o k => s.physNat (a + o) k x.ptkey
  let t := s.mapCore fun _ => s.imageCore a x.ptkey { Core.reset core with resident := some ctx, time := s.pkg.now }
  if n < 64 then some (t.core.getX (BitVec.ofNat 6 n))
  else if n < 0x1000 then none
  else
    (SysReg.ofNat (n - 0x1000)).map fun r => match r with
      | .status => BitVec.ofNat 64 (h 0x20 8)
      | .trapcause => BitVec.ofNat 64 (h 0x1B8 8)
      | .trappc => BitVec.ofNat 64 (h 0x1C0 8)
      | .trapinfo k => BitVec.ofNat 64 (h (0x1C8 + 8 * k.toNat) 8)
      | r => t.readSys r

/-- The read of op 7; none for a register that the image does not hold. It is one read of the image at its start (R425). -/
def State.debugRegister (s : State) (ctx : Nat) : Option State :=
  let core := s.pkg.cmdArg1
  let v := if (s.pkg.ctx ctx).paused.any fun q => q.core == core then s.imageRegister ctx core s.pkg.cmdArg0 else none
  v.map fun v => s.mapPkg fun p =>
    ((p.undecoded ctx ((s.pkg.ctx ctx).imageAt core)).setCommand 0x20 (natBytes 8 v.toNat)).endCommand 2

/-! ### Halts (R21, R385, R398) -/

/-- Every context resident on the die has debug enabled. -/
def State.haltAdmitted (s : State) (die : Nat) : Bool :=
  die < 10 && s.cores.all fun c => dieOf c.num != die || c.resident.all fun x => s.pkg.debugs x

def State.halt (s : State) (die : Nat) : State :=
  let halts := s.pkg.halted ||| (1#10 <<< die)
  (s.passTime halts).mapPkg fun p => { p.freeze halts with halted := halts }.endCommand 2

/-- The halt trap of a core that goes on with single step set: reason 3. -/
def Core.toldHalt (c : Core) : Core := if c.strand.isSome && c.step then c.pend (debugTrap 3#64) else c

def State.resumeDie (s : State) (die : Nat) : State :=
  let was := s.pkg.halted.getLsbD die
  let s := (s.passTime s.pkg.halted).mapPkg fun p => { p with halted := p.halted &&& ~~~(1#10 <<< die) }.endCommand 2
  if was then s.mapCores fun c => if dieOf c.num = die then c.toldHalt else c else s

/-! ### The command block (R433, R447) -/

/-- A write of op starts the command of the block as it stands after the write; `was` is the state before it, to which a refusal
adds its status and its event. -/
def State.startCommand (s was : State) : State :=
  let p := s.pkg
  let x := p.cmdSubject
  let refuse := was.mapPkg fun q => q.refuseCommand p.cmdOp
  let debug := was.mapPkg fun q => q.refuseDebug x
  let runs := s.mapPkg fun p => p.setCommand 4 (natBytes 4 1)
  if !zeroBits p.command 16 32 then refuse
  else
    match p.cmdOp with
    | 1 =>
      if 64 ≤ x then refuse
      else if (p.ctx x).held then s.mapPkg fun p => p.endCommand 2
      else (runs.mapPkg fun p => p.setCtx x fun c => { c with held := true }).takeOffWhenUser x
    | 2 =>
      if 64 ≤ x then refuse
      else if !(p.ctx x).held then s.mapPkg fun p => p.endCommand 2
      else if !(p.ctx x).valid then refuse
      else
        ((s.mapPkg fun p => p.setCtx x fun c => { c with held := false, resumedAt := p.now }).settleMerges x).mapPkg fun p =>
          p.endCommand 2
    | 3 => if 64 ≤ x || p.cmdArg0 % 64 != 0 then refuse else runs.takeOffWhenUser x
    | 4 =>
      if 64 ≤ x then refuse
      else if (s.checkpointOf x p.cmdArg0 p.cmdArg1).isNone then refuse.readsMarker x p.cmdArg0
      else (runs.readsMarker x p.cmdArg0).takeOffWhenUser x
    | 5 => if p.debugs x then (s.debugRead x).getD refuse else debug
    | 6 => if p.debugs x then (s.debugWrite x).getD refuse else debug
    | 7 => if p.debugs x then (s.debugRegister x).getD refuse else debug
    | 8 => if s.haltAdmitted x then s.halt x else debug
    | 9 => if x < 10 then s.resumeDie x else refuse
    | _ => refuse

/-- The bytes of the block that a write changes: its read-only fields keep their bytes. -/
def commandField (o : Nat) : Bool := !((4 ≤ o && o < 8) || (0x18 ≤ o && o < 0x20))

def Package.storeCommand (p : Package) (o : Nat) : List Byte → Package
  | [] => p
  | b :: r => (if commandField o then p.setCommand o [b] else p).storeCommand (o + 1) r

/-- A write of the block (R433, R451). One that leaves bytes 2 and 3 nonzero changes no byte; with op among its bytes it is a
refused command (assumption 101). -/
def State.writeCommand (s : State) (o : Nat) (data : List Byte) : State :=
  if o = 0 && s.pkg.cmdStatus = 1 then s
  else
    let t := s.mapPkg fun p => p.storeCommand o data
    if o = 0 then t.startCommand s else if zeroBits t.pkg.command 16 32 then t else s

/-! ### The power and firmware block (R437) -/

def powerField (o : Nat) : Bool := o < 4 || (0x20 ≤ o && o < 0x2C) || (0x100 ≤ o && o < 0x1C0)

/-- One byte of a writable field; bits [31:16] of a weight stay zero. -/
def Package.storePower (p : Package) (o : Nat) (b : Byte) : Package :=
  if o < 4 then { p with cap := setBytes p.cap o [b], capDue := true }
  else if o < 0x28 then { p with fwaddr := setBytes p.fwaddr (o - 0x20) [b] }
  else if o < 0x2C then { p with fwlen := setBytes p.fwlen (o - 0x28) [b] }
  else
    let k := (o - 0x100) / 4
    if (o - 0x100) % 4 < 2 then
      { p with weights := p.weights.setIfInBounds k (setBytes (p.weights.getD k 0#16) ((o - 0x100) % 4) [b]) }
    else p

def Package.storePowers (p : Package) (o : Nat) : List Byte → Package
  | [] => p
  | b :: r => (p.storePower o b).storePowers (o + 1) r

/-- A write of the block: whole, or discarded with event 0x15; a write of fwaddr starts verification (R443). -/
def Package.writePower (p : Package) (o : Nat) (data : List Byte) : Package :=
  let n := data.length
  let fw := o < 0x28 && 0x20 < o + n
  if !((List.range n).all fun i => powerField (o + i)) || (fw && p.fwstat = 1#32) then p.raise 0x15 0
  else
    let q := p.storePowers o data
    if fw then { q with fwstat := 1#32 } else q

/-! ### Attestation (R383, R434) -/

/-- The fields of the area that any master writes: request and nonce. -/
def attField (off : Nat) : Option (Nat × Nat) :=
  if 0x11000 ≤ off && off < 0x11008 then some (0x11000, 8)
  else if 0x11020 ≤ off && off < 0x11040 then some (0x11020, 32)
  else none

/-- A request with go set begins signing, or is refused. -/
def Package.askReport (p : Package) (m : Nat) : Package :=
  let c := fieldNat p.attRequest 0 32
  let ok := c == 0xFFFFFFFF || (c < 64 && (p.ctx c).valid)
  { p with attState := if ok then 1#2 else 3#2, attMaster := BitVec.ofNat 8 m }

def Package.writeAttestation (p : Package) (m off : Nat) (data : List Byte) : Package :=
  if p.attState = 1#2 then p
  else if off < 0x11008 then
    let v := setBytes p.attRequest (off - 0x11000) data
    if !zeroBits v 33 64 then p.discarded m
    else
      let q := { p with attRequest := v }
      if v.getLsbD 32 && off ≤ 0x11004 && 0x11004 < off + data.length then q.askReport m else q
  else { p with attNonce := setBytes p.attNonce (off - 0x11020) data }

/-- DIEEN and COREEN0 to COREEN7 as 8-byte words in register order (R383). -/
def Package.configBytes (p : Package) : List Byte :=
  natBytes 8 p.dieen.toNat ++ (p.coreen.toList.map fun c => natBytes 8 c.toNat).flatten

/-- The digest of the running image (R383, R437). -/
def Package.fwdig (p : Package) : BitVec 256 := p.fwRunning.getD Config.bootDigest

/-- The signed part of a report. -/
def Package.reportHead (p : Package) : List Byte :=
  let c := fieldNat p.attRequest 0 32
  natBytes 4 1 ++ natBytes 4 c ++ natBytes 8 p.tick ++ bytesOf 32 p.attNonce ++ bytesOf 32 p.fwdig
    ++ bytesOf 32 (sha3 p.configBytes)
    ++ (if c = 0xFFFFFFFF then List.replicate 32 0#8 else bytesOf 32 (sha3 (bytesOf 64 (p.ctx c).shown)))

/-- Signing completes: the report replaces the previous one. The signature is a fresh value over the digest (R383). -/
def State.signReport (s : State) : State :=
  if s.pkg.attState ≠ 1#2 then s
  else
    let head := s.pkg.reportHead
    let sig := (List.range 2420).map (Config.signature s.fresh (sha3 head))
    { s with
      fresh := s.fresh + 1
      pkg := { s.pkg with attState := 2#2, attReport := Memory.empty.writeBytes 0 (head ++ sig) } }

/-! ### Writes of the window (R451) -/

/-- The size and alignment are ones that the window accepts. -/
def writeShape (off n : Nat) : Bool :=
  ((n == 1 || n == 2 || n == 4 || n == 8) && off % n == 0) || (n == 64 && off % 64 == 0)

def isRegister (off : Nat) : Bool := off < 0x40 || (0x80 ≤ off && off < 0x88)

/-- What recovery leaves open: MGOWNER, MGCLAIM, MGHAND and the power and firmware block (R444). -/
def openInRecovery (off : Nat) : Bool := off < 0x18 || (0x3000 ≤ off && off < 0x3200)

/-- A write of the owner, or of MGCLAIM, that has an accepted size. -/
def State.routeWrite (s : State) (m off : Nat) (data : List Byte) : State :=
  let n := data.length
  let crosses := fun (base size : Nat) => (off - base) % size + n > size
  let drop := s.mapPkg fun p => p.discarded m
  if isRegister off then (if n = 8 then s.mapPkg fun p => p.writeRegister m off (wordOfBytes data) else drop)
  else if off < 0x80 then (if crosses 0x40 64 then drop else s.writeCommand (off - 0x40) data)
  else if off < 0x1000 then s
  else if off < 0x2000 then
    let k := (off - 0x1000) / 64
    if crosses 0x1000 64 then drop else s.writeDescriptor k (setBytes (s.pkg.ctx k).shown (off % 64) data)
  else if off < 0x2100 then
    let k := (off - 0x2000) / 16
    if crosses 0x2000 16 then drop
    else s.mapPkg fun p => p.writePartition k (setBytes (p.partition k) (off % 16) data)
  else if off < 0x2300 then
    let k := (off - 0x2100) / 32
    if crosses 0x2100 32 then drop
    else s.mapPkg fun p => p.writeDecoder k (setBytes (p.decoders.getD k 0#256) (off % 32) data)
  else if off < 0x3000 then s
  else if off < 0x3200 then s.mapPkg fun p => p.writePower (off - 0x3000) data
  else if off < 0x4000 || 0x12000 ≤ off then s
  else drop

/-- A write of the management window by a master (R379, R451). -/
def State.windowWrite (s : State) (m off : Nat) (data : List Byte) : State :=
  let n := data.length
  if !s.pkg.masterUp m || 0x100000 < off + n || n = 0 || (s.pkg.recovery && !openInRecovery off) then s
  else
    match attField off with
    | some f =>
      if writeShape off n && off + n ≤ f.1 + f.2 then s.mapPkg fun p => p.writeAttestation m off data
      else s.mapPkg fun p => p.discarded m
    | none =>
      let claim := 8 ≤ off && off < 0x10
      if !claim && !s.pkg.owns m then s.mapPkg fun p => p.raise 0x12 m
      else if !writeShape off n then s.mapPkg fun p => p.discarded m
      else s.routeWrite m off data

/-- A write event whose offset lies in its part of the window. -/
def windowEvent (m off : Nat) (data : List Byte) (here : Bool) (s : State) : Out :=
  .next (if here then s.windowWrite m off data else s)

/-! ### Ownership steps -/

def execMgclaim (master : Nat) (nonce : BitVec 32) (s : State) : Out :=
  windowEvent master 0x08 (natBytes 4 0 ++ bytesOf 4 nonce) true s

def execMghand (master : Nat) (target : BitVec 8) (nonce : BitVec 32) (s : State) : Out :=
  windowEvent master 0x10 (natBytes 4 target.toNat ++ bytesOf 4 nonce) true s

/-- The owner's link has gone down: ownership lapses, and event 0x13 names the master (R380). -/
def Package.lapse (p : Package) : Package :=
  if p.ownerValid then { p with ownerValid := false }.raise 0x13 p.owner.toNat else p

def execOwnershipLapse (s : State) : Out := .next (s.mapPkg Package.lapse)

/-! ### Register and record steps -/

def execContextDescriptorWrite (master offset : Nat) (data : List Byte) (s : State) : Out :=
  windowEvent master offset data (0x1000 ≤ offset && offset < 0x2000) s

def execPartitionRecordWrite (master offset : Nat) (data : List Byte) (s : State) : Out :=
  windowEvent master offset data (0x2000 ≤ offset && offset < 0x2100) s

def execPoolDecoderWrite (master offset : Nat) (data : List Byte) (s : State) : Out :=
  windowEvent master offset data (0x2100 ≤ offset && offset < 0x2300) s

def execDomainWrite (master : Nat) (value : Word) (s : State) : Out := windowEvent master 0x38 (bytesOf 8 value) true s

def execBar4sizeWrite (master : Nat) (value : Word) (s : State) : Out := windowEvent master 0x30 (bytesOf 8 value) true s

def execHostordWrite (master : Nat) (value : Word) (s : State) : Out := windowEvent master 0x80 (bytesOf 8 value) true s

/-- Any write of the window, at any offset and of any size. -/
def execManagementWrite (master offset : Nat) (data : List Byte) (s : State) : Out := windowEvent master offset data true s

/-! ### Commands (R433): a write of op and subject together -/

/-- The owner starts a command whose arguments stand in the block. -/
def commandEvent (master op subject : Nat) (s : State) : Out :=
  windowEvent master 0x40 (natBytes 1 op ++ natBytes 1 subject) true s

def execPreemptAndHold (master ctx : Nat) (s : State) : Out := commandEvent master 1 ctx s

def execEndHold (master ctx : Nat) (s : State) : Out := commandEvent master 2 ctx s

def execCheckpoint (master ctx : Nat) (s : State) : Out := commandEvent master 3 ctx s

def execRestoreCheckpoint (master ctx : Nat) (s : State) : Out := commandEvent master 4 ctx s

def execDebugReadMemory (master ctx : Nat) (s : State) : Out := commandEvent master 5 ctx s

def execDebugWriteMemory (master ctx : Nat) (s : State) : Out := commandEvent master 6 ctx s

def execDebugReadRegister (master ctx : Nat) (s : State) : Out := commandEvent master 7 ctx s

def execHaltDie (master die : Nat) (s : State) : Out := commandEvent master 8 die s

def execResumeDie (master die : Nat) (s : State) : Out := commandEvent master 9 die s

/-! ### Attestation steps -/

def execAttestationRequest (master : Nat) (request : Word) (s : State) : Out :=
  windowEvent master 0x11000 (bytesOf 8 request) true s

def execAttestationReportReady (s : State) : Out := .next s.signReport

end Sys2Proof.Machine
end

