-- ==== Sys2Proof/Machine/Power.lean ====
section
/-! DEFINITION. Power, cooling, firmware and the reset of the package (R437 to R444, R11, R12). -/

namespace Sys2Proof.Machine

/-! ### Caps and floors (R438) -/

def execPowerCapWrite (master : Nat) (watts : BitVec 32) (s : State) : Out :=
  windowEvent master 0x3000 (bytesOf 4 watts) true s

def maxCap : Nat := 2400
def minCap : Nat := 310

/-- The partitions that are defined. -/
def Package.defined (p : Package) : List Nat := (List.range 16).filter fun k => partDefined (p.partition k)

/-- The sum of the floors of all defined partitions. -/
def Package.floorSum (p : Package) : Nat := (p.defined.map fun k => partFloor (p.partition k)).foldl (· + ·) 0

/-- The floor of partition k in force under a cap. -/
def Package.floorIn (p : Package) (cap k : Nat) : Nat :=
  let r := p.partition k
  if !partDefined r then 0
  else if cap < p.floorSum then partFloor r * cap / p.floorSum else partFloor r

/-- The last cap write of a window takes effect at its end. -/
def Package.resolveCap (p : Package) : Package :=
  if !p.capDue then p
  else
    let want := min p.cap.toNat maxCap
    let c := max want minCap
    let q := { p with
      capDue := false
      clamped := want < minCap
      scaled := c < p.floorSum
      floors := Vector.ofFn fun k => p.floorIn c k.val
      effcap := BitVec.ofNat 32 c }
    let q := if q.clamped then q.raise 0x50 0 else q
    if q.scaled then p.defined.foldl (fun (r : Package) k => r.raise 0x51 k) q else q

def execCapResolve (s : State) : Out := .next (s.mapPkg Package.resolveCap)

/-! ### Activity (R440, R441) -/

/-- The events that the model does not count: slot-B phases of the copy engines and lookups of the L2 (assumption 93). -/
def hiddenEvents : List Nat := [30, 31, 36, 37]

/-- The event of a cycle with no strand. -/
def idleEvent : Nat := 47

/-- The count of an event of a core in the window that ends; `hidden` gives what is not counted. -/
def Core.counted (c : Core) (hidden : Nat → Nat) (e : Nat) : Nat :=
  if hiddenEvents.contains e then hidden e else c.activity.getD e 0

/-- The energy of a core's window in pJ. -/
def Core.energy (c : Core) (weights : Vector (BitVec 16) 48) (hidden : Nat → Nat) : Nat :=
  (List.range 48).foldl (fun n e => n + (weights.getD e 0#16).toNat * c.counted hidden e) 0

/-- Units of a draw in one watt: 128 cycles of a clock of 100 MHz. -/
def drawPerWatt : Nat := 1280000

/-- The time that the running window of a die has lasted. -/
def Package.windowTime (p : Package) (die : Nat) : Nat := p.now - p.windowStart.getD die 0

/-- 128 cycles of the die's clock have passed since its window began. -/
def Package.windowOver (p : Package) (die : Nat) : Bool := 0 < p.windowTime die && 128 * p.period die ≤ p.windowTime die

/-- What an energy in pJ draws over the running window of a die. -/
def Package.drawn (p : Package) (die energy : Nat) : Nat := energy * (128 * Config.timeUnits) / p.windowTime die

/-- The weights of the running window of a die. -/
def Package.dieWeights (p : Package) (die : Nat) : Vector (BitVec 16) 48 := p.weightsUsed.getD die (Vector.replicate 48 0#16)

def idleWatts : Nat := 310

def Package.clockOf (p : Package) (core : Nat) : Nat := (p.clocks.getD (dieOf core) 0#8).toNat

/-- A core at the end of its die's window: its counts begin again. -/
def Core.closeWindowCounts (c : Core) (p : Package) : Core :=
  if p.windowOver (dieOf c.num) then { c with activity := Vector.replicate 48 0 } else c

/-- The energy in pJ of a core position over the window that ends. One that the state does not list has had no strand in it. -/
def State.windowEnergy (s : State) (hidden : Nat → Nat → Nat) (n : Nat) : Nat :=
  let die := dieOf n
  match s.listed n with
  | some c => c.energy (s.pkg.dieWeights die) (hidden n)
  | none => ((s.pkg.dieWeights die).getD idleEvent 0#16).toNat * (s.pkg.windowTime die / s.pkg.period die)

/-- What each core position draws once the windows that are over have ended; a disabled one draws nothing (R15). A position of a die
whose window still runs counts with what it drew in its last one. -/
def State.drawsNow (s : State) (hidden : Nat → Nat → Nat) : Vector Nat 128 :=
  Vector.ofFn fun n =>
    if s.pkg.windowOver (dieOf n.val) then
      (if s.pkg.enabled n.val then s.pkg.drawn (dieOf n.val) (s.windowEnergy hidden n.val) else 0)
    else s.pkg.draws[n]

/-- The windows of the dies that have had 128 cycles end: the estimate, and the weights of the next window of each. Where none has,
nothing changes. -/
def State.activityWindow (s : State) : State :=
  if !(List.range 8).any s.pkg.windowOver then s
  else
    let s := s.passTime s.pkg.halted
    let draws := s.drawsNow (Config.hiddenCounts s.fresh)
    let t := s.mapCores fun c => c.closeWindowCounts s.pkg
    ({ t with fresh := t.fresh + 1 } : State).mapPkg fun p => { p with
      draws := draws
      estimate := BitVec.ofNat 32 (idleWatts + draws.toList.foldl (· + ·) 0 / drawPerWatt)
      weightsUsed := Vector.ofFn fun d => if p.windowOver d.val then p.weights else p.dieWeights d.val
      windowStart := Vector.ofFn fun d => if p.windowOver d.val then p.now else p.windowStart[d] }

def execActivityWindow (s : State) : Out := .next s.activityWindow

/-! ### Clocks (R439, R442; assumption 29) -/

def lowClock : BitVec 8 := 10#8
def highClock : BitVec 8 := 33#8

def lower (c : BitVec 8) : BitVec 8 := if c.ule lowClock then lowClock else c - 1#8
def higher (c : BitVec 8) : BitVec 8 := if highClock.ule c then highClock else c + 1#8

/-- The partition has a position on the die. -/
def Package.onDie (p : Package) (k die : Nat) : Bool :=
  let r := p.partition k
  partDefined r && partFirst r < 16 * die + 16 && 16 * die ≤ partLast r

/-- The clock of a die: the higher of those of its partitions, and no more than heat leaves it. -/
def Package.dieClock (p : Package) (die : Nat) : BitVec 8 :=
  let parts := p.defined.filter fun k => p.onDie k die
  let want := if parts.isEmpty then p.bareClocks.getD die highClock
    else parts.foldl (fun m k => if m.ult (p.partClocks.getD k highClock) then p.partClocks.getD k highClock else m) lowClock
  let heat := p.thermalClocks.getD die highClock
  if heat.ult want then heat else want

/-- The estimate is below 95 % of the cap in force: clocks may rise. -/
def Package.mayRise (p : Package) : Bool := p.estimate.toNat * 100 < p.effcap.toNat * 95

/-- A window moves the clock of a die by at most one step towards what its partitions, the cap and heat give it, and up only where
clocks may rise. -/
def Package.nextClock (p : Package) (die : Nat) : BitVec 8 :=
  let now := p.clocks.getD die highClock
  let want := p.dieClock die
  if want.ult now then lower now else if now.ult want && p.mayRise then higher now else now

def Package.setClocks (p : Package) : Package := { p with clocks := Vector.ofFn fun d => p.nextClock d.val }

/-- What the positions of a partition drew in the last windows of their dies. -/
def State.partDraw (s : State) (k : Nat) : Nat :=
  (((List.range Config.cores).filter fun n => s.pkg.inPart k n).map fun n => s.pkg.draws.getD n 0).foldl (· + ·) 0

/-- The clock of a partition in force: its own, and no higher than the clocks of its dies. -/
def Package.partNow (p : Package) (k : Nat) : BitVec 8 :=
  let own := p.partClocks.getD k highClock
  let dies := ((List.range 8).filter fun d => p.onDie k d).foldl (fun (m : BitVec 8) d =>
    if m.ult (p.clocks.getD d highClock) then p.clocks.getD d highClock else m) 0#8
  if dies != 0#8 && dies.ult own then dies else own

/-- The clock in force of a die of no partition. -/
def Package.bareNow (p : Package) (die : Nat) : BitVec 8 :=
  let own := p.bareClocks.getD die highClock
  let now := p.clocks.getD die highClock
  if now.ult own then now else own

/-- The draw of a partition above its floor in force. -/
def State.excess (s : State) (k : Nat) : Int :=
  (s.partDraw k : Int) - ((s.pkg.floors.getD k 0 * drawPerWatt : Nat) : Int)

/-- The host sets the clocks of the partition: it has valid contexts, and none has power capping in hardware mode (R381). -/
def Package.hostCaps (p : Package) (k : Nat) : Bool :=
  let mine := (List.range 64).filter fun c => (p.ctx c).valid && (p.ctx c).part == k
  !mine.isEmpty && mine.all fun c => !(p.ctx c).hardware 5

/-- The partition that is lowered first among some: it draws most above its floor, and its clock can be lowered. -/
def State.mostAbove (s : State) (which : Nat → Bool) : Option Nat :=
  (s.pkg.defined.filter fun k => which k && lowClock.ult (s.pkg.partNow k)).foldl (fun (best : Option Nat) k =>
    match best with
    | none => some k
    | some b => if s.excess b < s.excess k then some k else best) none

/-- The host hears of the partition that draws most above its floor, where it sets that one's clocks (R381). -/
def State.tellHost (s : State) : State :=
  match s.mostAbove fun _ => true with
  | some k => if s.pkg.hostCaps k then s.mapPkg fun p => p.raise 0x51 k else s
  | none => s

/-- The device lowers the partition that draws most above its floor among those whose clocks it sets, one step from the clock in
force; when none can go lower, the dies outside every partition. -/
def State.lowerOne (s : State) : State :=
  match s.mostAbove fun k => !s.pkg.hostCaps k with
  | some k => s.mapPkg fun p => { p with partClocks := p.partClocks.setIfInBounds k (lower (p.partNow k)) }
  | none => s.mapPkg fun p => { p with bareClocks := Vector.ofFn fun d => lower (p.bareNow d.val) }

/-- The cap's part of a window: one step down, or every clock one step up. -/
def State.capClocks (s : State) : State :=
  let p := s.pkg
  if p.effcap.ult p.estimate then s.tellHost.lowerOne
  else if p.mayRise then
    s.mapPkg fun p => { p with partClocks := p.partClocks.map higher, bareClocks := p.bareClocks.map higher }
  else s

/-- A compute die steps down for heat: its own, or a hub's. -/
def Package.heated (p : Package) (die : Nat) : Bool := p.hot.getLsbD die || p.hot.getLsbD 8 || p.hot.getLsbD 9

/-- The clock that heat leaves a die after a window. -/
def Package.heatClock (p : Package) (die : Nat) : BitVec 8 :=
  let c := p.thermalClocks.getD die highClock
  let now := p.clocks.getD die highClock
  if p.heated die then lower (if now.ult c then now else c)
  else if p.mayRise then higher c
  else c

/-- Heat's part of a window, with event 0x51 for each partition on every die that steps down. -/
def Package.heatClocks (p : Package) : Package :=
  let q := { p with thermalClocks := Vector.ofFn fun d => p.heatClock d.val }
  let down := (List.range 8).filter fun d => p.heated d && lowClock.ult (p.clocks.getD d highClock)
  (down.map fun d => p.defined.filter fun k => p.onDie k d).flatten.foldl (fun (r : Package) k => r.raise 0x51 k) q

def State.throttle (s : State) : State :=
  let s := s.mapPkg Package.heatClocks
  (s.capClocks.passTime s.pkg.halted).mapPkg Package.setClocks

def execClockThrottleWindow (s : State) : Out := .next s.throttle

/-! ### Temperatures (R442) -/

def execThermalLimit (die : Nat) (s : State) : Out :=
  .next (if die < 10 then s.mapPkg fun p => { p with hot := p.hot ||| (1#10 <<< die) } else s)

def execTemperatureFallsBelowLimit (die : Nat) (s : State) : Out :=
  .next (s.mapPkg fun p => { p with hot := p.hot &&& ~~~(1#10 <<< die) })

/-- The status word of the block (R437). -/
def Package.powerStatus (p : Package) : Nat :=
  p.clamped.toNat + 2 * p.scaled.toNat + 4 * (p.hot != 0#10).toNat

/-- What a package keeps without power: pool memory with its keys and poison, checkpoints, flash, fuses, the timebase. -/
def Package.cold (p : Package) : Package :=
  { Package.reset with
    now := p.now
    windowStart := Vector.replicate 8 p.now
    mem := p.mem
    poison := p.poison
    counterPoison := p.counterPoison
    lineKeys := p.lineKeys
    checkpoints := p.checkpoints
    coreen := p.coreen
    fwFlash := p.fwFlash
    fwRunning := p.fwRunning
    recovery := p.recovery
    hostLoads := p.hostLoads }

/-- Die power is removed at 115 °C, every host link drops, and DIEEN reads 0 until a package reset. -/
def State.shutdown (s : State) : State :=
  { s with
    core := Core.reset s.core.num
    parked := []
    pkg := { s.pkg.cold with powered := false, dieen := 0#10 } }

def execThermalShutdown (s : State) : Out := .next s.shutdown

/-! ### Firmware (R443) and reset (R444) -/

def execFwaddrWrite (master : Nat) (addr : Word) (s : State) : Out := windowEvent master 0x3020 (bytesOf 8 addr) true s

/-- The digest of the staged image, read under key identifier 0 as its homes give it (R298). -/
def State.stagedDigest (s : State) : BitVec 256 :=
  sha3 ((List.range s.pkg.fwlen.toNat).map fun i => (s.lookHome (s.pkg.fwaddr.toNat + i) 1 0#6).1.headD 0#8)

/-- The device reads the staged image: lines that the host holds modified come back, and an address that no decoder covers brings
its event (R298, R425). -/
def State.readStaged (s : State) : State :=
  let n := s.pkg.fwlen.toNat
  (pieces 64 s.pkg.fwaddr.toNat (n / 64 + 2) n).foldl (fun s p => (s.recall (p.1 / 64)).mapPkg fun q => q.undecoded 0xFF p.1) s

/-- Verification ends: a verified image is written to flash; a refused one leaves the flash unchanged. -/
def State.verified (s : State) (r : FirmwareResult) : State :=
  let p := s.pkg
  let status := fun (n : BitVec 32) => s.readStaged.mapPkg fun p => { p with fwstat := n }
  if p.fwstat ≠ 1#32 then s
  else if p.fwaddr.toNat % 4096 ≠ 0 then s.mapPkg fun p => { p with fwstat := if r = .signatureRefused then 3#32 else 4#32 }
  else
    match r with
    | .accepted => (status 2#32).mapPkg fun p => { p with fwFlash := some s.stagedDigest }
    | .signatureRefused => status 3#32
    | .malformed => status 4#32

def execFirmwareVerifyComplete (r : FirmwareResult) (s : State) : Out := .next (s.verified r)

/-- A package reset: the image in flash runs, or the package starts in recovery. -/
def State.resetPackage (s : State) (flashGood : Bool) : State :=
  { State.reset with
    pkg := { s.pkg.cold with
      recovery := !flashGood
      fwRunning := if flashGood then s.pkg.fwFlash else s.pkg.fwRunning }
    schedule := s.schedule
    fresh := s.fresh }

def execPackageReset (flashGood : Bool) (s : State) : Out := .next (s.resetPackage flashGood)

end Sys2Proof.Machine
end

