-- ==== Sys2Proof/Machine/Queues.lean ====
section
/-! DEFINITION. RVZ and QDROP (R261, R274, R275). -/

namespace Sys2Proof.Machine

/-- RVZ: nothing is queued, executes or is outstanding. -/
def execRvz (s : State) : Out :=
  issue s fun s => if s.core.quiet then .ok (s.mapCore fun c => c.acquire fun _ => true) else .error (.wait .drain s)

/-- The command is dropped by a QDROP from a sequence number: it has not begun, or stands stopped, and its number is in the
range (R261). -/
def Cmd.droppable (m : Cmd) (from_ : BitVec 16) : Bool :=
  (m.status == .stopped || (m.status == .queued && !m.begun)) && (m.seq - from_).toNat < 2 ^ 15

/-- The tag of a removed copy is marked dropped; TAGS follows once no issued copy names it. -/
def Core.tagDropped (c : Core) (m : Cmd) : Core :=
  { c with tagdrop := bitSet c.tagdrop (cmdTag m) }.settleTag (cmdTag m)

/-- A trap still to be taken, or taken and not returned from, resumes nothing once its command is gone. -/
def Core.forgetStop (c : Core) (q : EngineQ) : Core :=
  { c with
    pending := c.pending.map fun t => if t.stopped = .engine q then { t with stopped := .none } else t
    taken := c.taken.filter fun t => t != .engine q }

/-- Remove from a queue the commands that have not begun, from a sequence number on (R261). -/
def Core.dropFrom (c : Core) (q : EngineQ) (from_ : BitVec 16) : Core :=
  let gone := (c.queue q).cmds.filter fun m => m.droppable from_
  let kept := (c.queue q).cmds.filter fun m => !m.droppable from_
  let d := c.setQueue q { c.queue q with cmds := kept }
  let d := if gone.any fun m => m.status == .stopped then d.forgetStop q else d
  match q with
  | .c0 | .c1 => gone.foldl Core.tagDropped d
  | .l | .k => d

def execQdrop (q : EngineQ) (a : Reg) (s : State) : Out :=
  issue s fun s => do
    s.core.useX [a]
    let n := s.core.getX a
    if n.extractLsb' 16 48 ≠ 0#48 then Res.trap (trapW (.qdrop q a) 2#5 0#64)
    notCollecting (.qdrop q a) s.core
    .ok (s.mapCore fun c => c.dropFrom q (n.setWidth 16))

end Sys2Proof.Machine
end

