-- ==== Sys2Proof/Machine/System.lean ====
section
/-! DEFINITION. The SYS family but for TLBINV and KEYSET (R401 to R406, R408 to R410). -/

namespace Sys2Proof.Machine

/-! ### SYSC, TRET, BKPT -/

/-- SYSC: its effect is the system-call trap (R402). -/
def execSysc (imm : BitVec 16) (s : State) : Out :=
  if s.core.block.isSome then .next (s.takeTrap (trapW (.sysc imm) 4#5 0#64))
  else .next (s.takeTrap (.plain 23#5 (imm.setWidth 64) 0#64 0#64))

/-- TRET (R403). -/
def execTret (skip : Bool) (s : State) : Out :=
  superOnly (.tret skip) s <| issueTransfer (.tret skip) s fun s => do
    let r ← s.core.returnFrom skip
    .ok ({ s with core := r.1 }, some r.2, 2)

/-- BKPT: a debug trap of reason 1, whether or not debug is enabled (R408). -/
def execBkpt (_imm : BitVec 16) (s : State) : Out := issue s fun _ => Res.trap (.plain 22#5 1#64 0#64 0#64)

/-! ### CTXSV and CTXLD (R404 to R406) -/

/-- The address of the image (R404). -/
def State.imageAddress (s : State) (a : Reg) : Nat :=
  let v := s.core.getX a
  if v ≠ 0#64 then v.toNat else ((s.pkg.ctx s.core.ctx).imageAt s.core.num)

/-- The checks on the image's address. -/
def checkImage (a : Nat) (acc : Word) : Res Unit :=
  if a % 4096 ≠ 0 then .trap (.plain 5#5 (BitVec.ofNat 64 a) 0#64 0#64)
  else if 2 ^ 52 ≤ a then .trap (.plain 9#5 (BitVec.ofNat 64 a) 0#64 acc)
  else .ok ()

/-- STATUS with the mode recorded as user. -/
def Core.userStatus (c : Core) : Word := ({ c with super := false } : Core).status

/-- Outstanding work that CTXSV waits for: it ends at a stopped EL instruction (R391 steps 1 and 6). -/
def Core.settling (c : Core) : Bool := (!c.ops.isEmpty || !c.work.isEmpty) && !c.work.any fun w => w.stopped

/-- What CTXSV leaves of the core: its queues empty, its windows closed; the pending traps went into the image. -/
def Core.emptied (c : Core) : Core :=
  { (allEngines.foldl (fun (c : Core) q => c.setQueue q { c.queue q with cmds := [] }) c).discardQueues with
    work := []
    pending := c.pending.filter fun t => t.rank == 0
    taken := [] }

def execCtxsv (a : Reg) (s : State) : Out :=
  superOnly (.ctxsv a) s <| issue s fun s => do
    s.core.useX [a]
    let at_ := s.imageAddress a
    checkImage at_ 2#64
    if s.core.settling || s.dropsShared || !s.drains then .error (.wait .drain s)
    else
      let s := s.drain
      let s := s.saveImage ⟨at_, s.core.trappc, s.core.userStatus, false, 0⟩
      let s := (List.range 8).foldl State.closeWindow s
      .ok (s.mapCore Core.emptied)

/-- The image is refused although its valid flag was set: by its version, its context, or a gang member's core. -/
def State.imageVersion (s : State) (a : Nat) (key : BitVec 6) : Nat := s.physNat a 2 key

def State.imageForeign (s : State) (a : Nat) (key : BitVec 6) : Bool :=
  s.physNat (a + 4) 1 key != s.core.ctx || (s.physNat (a + 3) 1 key % 2 == 1 && s.physNat (a + 5) 1 key != s.core.num)

/-- The strand that was pre-empted into an image is no longer waiting for a core; a loss of a die that it was to be told
is pending. -/
def State.claimImage (s : State) (a : Nat) : State :=
  let x := s.pkg.ctx s.core.ctx
  let mine := x.paused.filter fun q => x.imageAt q.core == a
  let s := mine.foldl (fun (s : State) q => s.mapCore fun c => c.dieLossTraps q.lost s.pkg.dieen) s
  s.mapPkg fun p => p.setCtx s.core.ctx fun c => { c with paused := c.paused.filter fun q => x.imageAt q.core != a }

/-- CTXLD of an image that passes every check. -/
def State.loadFor (s : State) (a : Nat) (key : BitVec 6) : State :=
  let status := BitVec.ofNat 64 (s.physNat (a + 0x20) 8 key)
  let back := BitVec.ofNat 64 (s.physNat (a + 0x18) 8 key)
  let s := (s.takeImage a key).loadImage a key
  let s := s.mapCore fun c => { c with
    trappc := back
    pblkPred := status.extractLsb' 20 4
    pblkCount := status.extractLsb' 16 4
    pblkPat := status.extractLsb' 8 8 }
  s.claimImage a

def execCtxld (a : Reg) (s : State) : Out :=
  let i : Instr := .ctxld a
  superOnly i s <| issue s fun s => do
    s.core.useX [a]
    let at_ := s.imageAddress a
    checkImage at_ 1#64
    if !s.core.quiet then .error (.wait .drain s)
    else
      let key := (s.pkg.ctx s.core.ctx).ptkey
      let s := (s.advance (s.core.lastLanding - s.core.cycle)).recallArea s.core.ctx at_ Config.imageBytes
      match s.spoiledImage at_ key with
      | some o => .error (.trapAt (.plain 19#5 (BitVec.ofNat 64 (at_ + o)) s.core.pc 0#64) s)
      | none =>
        if s.physNat (at_ + 2) 1 key % 2 = 0 then .error (.trapAt (trapW i 14#5 0#64) s)
        else if s.imageVersion at_ key ≠ 1 then .error (.trapAt (trapW i 14#5 0#64) (s.takeImage at_ key))
        else if s.imageForeign at_ key then .error (.trapAt (trapW i 14#5 0#64) s)
        else .ok (s.loadFor at_ key)

/-! ### WFE (R409, R410) -/

/-- The line that a WFE watches: none for 0, for a local address and for one that fails translation. -/
def State.watchLine (s : State) (v : Word) : Option Nat × State :=
  if v = 0#64 || isLocal v then (none, s)
  else
    match s.translate s.core.ctx v .read with
    | (s, .ok pg) => (some (pg.pa v.toNat / 64), s)
    | (s, .error _) => (none, s)

/-- The watch is armed at issue; a write that followed the core's last load of the line is an event at once (R410). -/
def State.armed (s : State) (d : Reg) (v : Word) (timeout : Nat) : State :=
  let (line, s) := s.watchLine v
  let missed := line.any fun l => s.core.lastLoad == some (l, true)
  s.mapCore fun c => { c with wfe := some ⟨d, Config.ticksOf c.time, timeout, line, if missed then 1#5 else 0#5⟩ }

def execWfe (d a : Reg) (imm : BitVec 32) (s : State) : Out :=
  issue s fun s => do
    if s.core.wfe.isNone then s.core.useX [a]
    let s := if s.core.wfe.isSome then s else s.armed d (s.core.getX a) imm.toNat
    let mask := (s.core.wfe.map fun r => r.mask (Config.ticksOf s.core.time)).getD 0#5
    if mask = 0#5 then .error (.wait .event s)
    else .ok (s.mapCore fun c => { c.putX d 2 (mask.setWidth 64) with wfe := none })

end Sys2Proof.Machine
end

