-- ==== Sys2Proof/Machine/Waits.lean ====
section
/-! DEFINITION. Steps of a core that no instruction of its own makes: landing of writes (R22, R23), the end of a wait (R28), and
the entry of a pending trap (R386 to R388). -/

namespace Sys2Proof.Machine

/-! ### Held cycles -/

/-- n cycles in which issue is held. -/
def State.held (s : State) (n : Nat) : State := (s.advance n).mapCore fun c => c.bump 2 n

/-! ### Landing (R22) -/

/-- The cycle of the earliest landing in flight. -/
def Core.firstLanding (c : Core) : Option Nat :=
  c.flight.foldl (fun (m : Option Nat) f => some (match m with | some n => min n f.land | none => f.land)) none

/-- A write of a waiting core lands in its cycle. A core that issues lands its writes as its own cycles pass. -/
def State.landNext (s : State) : State :=
  match s.core.wait, s.core.firstLanding with
  | some _, some n => s.held (n - s.core.cycle)
  | _, _ => s.mapCore Core.landDue

def execRegisterWriteLanding (core : Nat) (s : State) : Out := .next (s.onCore core State.landNext)

/-! ### The end of a wait (R28, R159, R274, R307, R324, R409) -/

/-- The condition that a wait waits for. -/
def State.waitOver (s : State) (w : Wait) : Bool :=
  let c := s.core
  match w with
  | .entry q => (c.visible q).isSome
  | .engine q => (c.queue q).cmds.length < Config.queueDepth
  | .classes g t n a k => c.classesHold g t n a k
  | .tagsAny m => c.tags &&& m != 0#64 || c.pendingTags &&& m == 0#64
  | .tagsAll m => (m &&& ~~~c.tags) &&& ~~~c.pendingTags != 0#64 || m &&& ~~~c.tags == 0#64
  | .barrier pa key gen =>
    let r := s.look pa 32 key
    (c.waitingOn pa gen).any (fun r => r.seen.isSome)
      || (!s.hostHolds (pa / 64) && (r.2 || advanced (barRead r.1).gen gen))
  | .group => c.waitingBar.any fun r => r.finished
  | .event => c.wfe.any fun r => r.mask (s.pkg.tick) != 0#5
  | .drain => c.quiet || !(c.settling || s.dropsShared || !s.drains)
  | .retire => c.quiet
  | .stash win line => c.stashed win line

/-- What the members of the strand's gang on other packages have done reaches its groups' homes. -/
def State.othersArrive (s : State) : State :=
  match s.core.gangOf with
  | none => s
  | some id => s.othersAct id

/-- A wait ends: its instruction issues next, in the cycle in which the condition has been found. -/
def State.endWait (s : State) : State :=
  match s.core.wait with
  | none => s
  | some .group =>
    let s := s.othersArrive
    if s.waitOver .group then s.heldUntilNow.mapCore fun c => { c with wait := none } else s
  | some (.stash win line) =>
    if s.waitOver (.stash win line) then
      s.heldUntilNow.mapCore fun c => { c with wait := none, filled := (win, line) :: c.filled }
    else s
  | some w => if s.waitOver w then s.heldUntilNow.mapCore fun c => { c with wait := none } else s

def execWaitEnd (core : Nat) (s : State) : Out := .next (s.onCore core State.endWait)

/-! ### Trap entry (R386, R388) -/

/-- A pending trap is taken at the instruction that has reached issue. A WFE that waits finishes first (R409), and a halt
holds the core at its boundary (R398). -/
def State.enterPending (s : State) : State :=
  if s.core.strand.isSome && s.core.wfe.isNone && !s.standsHalted then
    (if s.core.wait.isSome then s.heldUntilNow else s).takePending
  else s

def execTrapEntry (core : Nat) (s : State) : Out := .next (s.onCore core State.enterPending)

end Sys2Proof.Machine
end

