-- ==== Sys2Proof/Machine/Dispatch.lean ====
section
/-! DEFINITION. The meaning of every instruction and step: one arm per constructor. -/

namespace Sys2Proof.Machine

def exec (i : Instr) (s : State) : Host.Outcome State Fault Refusal :=
  match i with
  | .nop => Sys2Proof.Machine.execNop s
  | .pblk pred n pat => Sys2Proof.Machine.execPblk pred n pat s
  | .br off => Sys2Proof.Machine.execBr off s
  | .brc cc a b off => Sys2Proof.Machine.execBrc cc a b off s
  | .call a off => Sys2Proof.Machine.execCall a off s
  | .ret => Sys2Proof.Machine.execRet s
  | .jr a off => Sys2Proof.Machine.execJr a off s
  | .loop a off => Sys2Proof.Machine.execLoop a off s
  | .callc a off => Sys2Proof.Machine.execCallc a off s
  | .phase a imm => Sys2Proof.Machine.execPhase a imm s
  | .spawn a => Sys2Proof.Machine.execSpawn a s
  | .done => Sys2Proof.Machine.execDone s
  | .launch a => Sys2Proof.Machine.execLaunch a s
  | .gjoin g => Sys2Proof.Machine.execGjoin g s
  | .gleave g => Sys2Proof.Machine.execGleave g s
  | .gbar g => Sys2Proof.Machine.execGbar g s
  | .gsize d g => Sys2Proof.Machine.execGsize d g s
  | .grank d g => Sys2Proof.Machine.execGrank d g s
  | .rvz => Sys2Proof.Machine.execRvz s
  | .qdrop q a => Sys2Proof.Machine.execQdrop q a s
  | .tickRead d => Sys2Proof.Machine.execTickRead d s
  | .sysc imm => Sys2Proof.Machine.execSysc imm s
  | .tret skip => Sys2Proof.Machine.execTret skip s
  | .ctxsv a => Sys2Proof.Machine.execCtxsv a s
  | .ctxld a => Sys2Proof.Machine.execCtxld a s
  | .tlbinv kind d a ctx => Sys2Proof.Machine.execTlbinv kind d a ctx s
  | .bkpt imm => Sys2Proof.Machine.execBkpt imm s
  | .wfe d a imm => Sys2Proof.Machine.execWfe d a imm s
  | .keyset a key => Sys2Proof.Machine.execKeyset a key s
  | .add d a b => Sys2Proof.Machine.execAdd d a b s
  | .sub d a b => Sys2Proof.Machine.execSub d a b s
  | .and d a b => Sys2Proof.Machine.execAnd d a b s
  | .or d a b => Sys2Proof.Machine.execOr d a b s
  | .xor d a b => Sys2Proof.Machine.execXor d a b s
  | .andn d a b => Sys2Proof.Machine.execAndn d a b s
  | .shl d a b => Sys2Proof.Machine.execShl d a b s
  | .shr d a b => Sys2Proof.Machine.execShr d a b s
  | .sar d a b => Sys2Proof.Machine.execSar d a b s
  | .rotl d a b => Sys2Proof.Machine.execRotl d a b s
  | .slt d a b => Sys2Proof.Machine.execSlt d a b s
  | .sltu d a b => Sys2Proof.Machine.execSltu d a b s
  | .min d a b => Sys2Proof.Machine.execMin d a b s
  | .max d a b => Sys2Proof.Machine.execMax d a b s
  | .minu d a b => Sys2Proof.Machine.execMinu d a b s
  | .maxu d a b => Sys2Proof.Machine.execMaxu d a b s
  | .sel d a b c => Sys2Proof.Machine.execSel d a b c s
  | .clz d a => Sys2Proof.Machine.execClz d a s
  | .ctz d a => Sys2Proof.Machine.execCtz d a s
  | .popc d a => Sys2Proof.Machine.execPopc d a s
  | .bswap d a => Sys2Proof.Machine.execBswap d a s
  | .addi d a imm => Sys2Proof.Machine.execAddi d a imm s
  | .andi d a imm => Sys2Proof.Machine.execAndi d a imm s
  | .ori d a imm => Sys2Proof.Machine.execOri d a imm s
  | .xori d a imm => Sys2Proof.Machine.execXori d a imm s
  | .shli d a n => Sys2Proof.Machine.execShli d a n s
  | .shri d a n => Sys2Proof.Machine.execShri d a n s
  | .sari d a n => Sys2Proof.Machine.execSari d a n s
  | .slti d a imm => Sys2Proof.Machine.execSlti d a imm s
  | .sltiu d a imm => Sys2Proof.Machine.execSltiu d a imm s
  | .mul d a b => Sys2Proof.Machine.execMul d a b s
  | .mulh d a b => Sys2Proof.Machine.execMulh d a b s
  | .mulhu d a b => Sys2Proof.Machine.execMulhu d a b s
  | .div d a b => Sys2Proof.Machine.execDiv d a b s
  | .divu d a b => Sys2Proof.Machine.execDivu d a b s
  | .rem d a b => Sys2Proof.Machine.execRem d a b s
  | .remu d a b => Sys2Proof.Machine.execRemu d a b s
  | .limm d imm => Sys2Proof.Machine.execLimm d imm s
  | .limmh d a imm => Sys2Proof.Machine.execLimmh d a imm s
  | .bank d a => Sys2Proof.Machine.execBank d a s
  | .rowof d a => Sys2Proof.Machine.execRowof d a s
  | .lword d a => Sys2Proof.Machine.execLword d a s
  | .movsr d r => Sys2Proof.Machine.execMovsr d r s
  | .movrs r a => Sys2Proof.Machine.execMovrs r a s
  | .ld k d a disp => Sys2Proof.Machine.execLd k d a disp s
  | .st k b a disp => Sys2Proof.Machine.execSt k b a disp s
  | .ldacq k sc d a disp => Sys2Proof.Machine.execLdacq k sc d a disp s
  | .strel k sc b a disp => Sys2Proof.Machine.execStrel k sc b a disp s
  | .amoAdd w o sc d a b disp => Sys2Proof.Machine.execAmoAdd w o sc d a b disp s
  | .amoAnd w o sc d a b disp => Sys2Proof.Machine.execAmoAnd w o sc d a b disp s
  | .amoOr w o sc d a b disp => Sys2Proof.Machine.execAmoOr w o sc d a b disp s
  | .amoXor w o sc d a b disp => Sys2Proof.Machine.execAmoXor w o sc d a b disp s
  | .amoMin w o sc d a b disp => Sys2Proof.Machine.execAmoMin w o sc d a b disp s
  | .amoMax w o sc d a b disp => Sys2Proof.Machine.execAmoMax w o sc d a b disp s
  | .amoMinu w o sc d a b disp => Sys2Proof.Machine.execAmoMinu w o sc d a b disp s
  | .amoMaxu w o sc d a b disp => Sys2Proof.Machine.execAmoMaxu w o sc d a b disp s
  | .amoSwap w o sc d a b disp => Sys2Proof.Machine.execAmoSwap w o sc d a b disp s
  | .cas w o sc d a b disp => Sys2Proof.Machine.execCas w o sc d a b disp s
  | .fence kind sc => Sys2Proof.Machine.execFence kind sc s
  | .waitc g r c a k => Sys2Proof.Machine.execWaitc g r c a k s
  | .stwin n a b c => Sys2Proof.Machine.execStwin n a b c s
  | .stfl w => Sys2Proof.Machine.execStfl w s
  | .stinv w => Sys2Proof.Machine.execStinv w s
  | .pfh kind a b disp => Sys2Proof.Machine.execPfh kind a b disp s
  | .cpset e level a b c => Sys2Proof.Machine.execCpset e level a b c s
  | .cpgo e demand bound d a b c => Sys2Proof.Machine.execCpgo e demand bound d a b c s
  | .tagwany d a => Sys2Proof.Machine.execTagwany d a s
  | .tagwall a => Sys2Proof.Machine.execTagwall a s
  | .tagffr d a => Sys2Proof.Machine.execTagffr d a s
  | .tagclr a => Sys2Proof.Machine.execTagclr a s
  | .barinit b a disp => Sys2Proof.Machine.execBarinit b a disp s
  | .barexp b a disp => Sys2Proof.Machine.execBarexp b a disp s
  | .bararv sc b a disp => Sys2Proof.Machine.execBararv sc b a disp s
  | .barwt sc d a b disp => Sys2Proof.Machine.execBarwt sc d a b disp s
  | .bargen d a disp => Sys2Proof.Machine.execBargen d a disp s
  | .vadd r sat d a b => Sys2Proof.Machine.execVadd r sat d a b s
  | .vsub r sat d a b => Sys2Proof.Machine.execVsub r sat d a b s
  | .vmul r sat d a b => Sys2Proof.Machine.execVmul r sat d a b s
  | .vfma r sat d a b c => Sys2Proof.Machine.execVfma r sat d a b c s
  | .vfms r sat d a b c => Sys2Proof.Machine.execVfms r sat d a b c s
  | .vmin d a b => Sys2Proof.Machine.execVmin d a b s
  | .vmax d a b => Sys2Proof.Machine.execVmax d a b s
  | .vabs d a => Sys2Proof.Machine.execVabs d a s
  | .vneg d a => Sys2Proof.Machine.execVneg d a s
  | .vcps d a b => Sys2Proof.Machine.execVcps d a b s
  | .vmov d a => Sys2Proof.Machine.execVmov d a s
  | .vsel d a b c => Sys2Proof.Machine.execVsel d a b c s
  | .vrcp r sat d a => Sys2Proof.Machine.execVrcp r sat d a s
  | .vrsq r sat d a => Sys2Proof.Machine.execVrsq r sat d a s
  | .vsqrt r sat d a => Sys2Proof.Machine.execVsqrt r sat d a s
  | .vdiv r sat d a b => Sys2Proof.Machine.execVdiv r sat d a b s
  | .vexp2 r sat d a => Sys2Proof.Machine.execVexp2 r sat d a s
  | .vlog2 r sat d a => Sys2Proof.Machine.execVlog2 r sat d a s
  | .viadd sat d a b => Sys2Proof.Machine.execViadd sat d a b s
  | .visub sat d a b => Sys2Proof.Machine.execVisub sat d a b s
  | .vimul sat d a b => Sys2Proof.Machine.execVimul sat d a b s
  | .vimin d a b => Sys2Proof.Machine.execVimin d a b s
  | .vimax d a b => Sys2Proof.Machine.execVimax d a b s
  | .vshl d a n => Sys2Proof.Machine.execVshl d a n s
  | .vshr d a n => Sys2Proof.Machine.execVshr d a n s
  | .vsar d a n => Sys2Proof.Machine.execVsar d a n s
  | .vfsh d a b n => Sys2Proof.Machine.execVfsh d a b n s
  | .vlut3 d a b c t => Sys2Proof.Machine.execVlut3 d a b c t s
  | .vpopc d a => Sys2Proof.Machine.execVpopc d a s
  | .vclz d a => Sys2Proof.Machine.execVclz d a s
  | .vfcmp cc d a b => Sys2Proof.Machine.execVfcmp cc d a b s
  | .vicmp cc d a b => Sys2Proof.Machine.execVicmp cc d a b s
  | .plut3 d a b c t => Sys2Proof.Machine.execPlut3 d a b c t s
  | .pcnt d a => Sys2Proof.Machine.execPcnt d a s
  | .pfirst d a => Sys2Proof.Machine.execPfirst d a s
  | .vbcast d a b => Sys2Proof.Machine.execVbcast d a b s
  | .vextr d a b => Sys2Proof.Machine.execVextr d a b s
  | .vins d a b c => Sys2Proof.Machine.execVins d a b c s
  | .vperm d a b c => Sys2Proof.Machine.execVperm d a b c s
  | .vrotl d a n => Sys2Proof.Machine.execVrotl d a n s
  | .vzip d a b h => Sys2Proof.Machine.execVzip d a b h s
  | .vrsum r d a => Sys2Proof.Machine.execVrsum r d a s
  | .vrmax d a => Sys2Proof.Machine.execVrmax d a s
  | .vrmin d a => Sys2Proof.Machine.execVrmin d a s
  | .vrisum sat d a => Sys2Proof.Machine.execVrisum sat d a s
  | .vcvt r sat dst src d a => Sys2Proof.Machine.execVcvt r sat dst src d a s
  | .vqnt r dst d a b => Sys2Proof.Machine.execVqnt r dst d a b s
  | .vscacc r sat src d a b c => Sys2Proof.Machine.execVscacc r sat src d a b c s
  | .vldexp r sat d a b => Sys2Proof.Machine.execVldexp r sat d a b s
  | .vstatClr a => Sys2Proof.Machine.execVstatClr a s
  | .vstatAcc a b => Sys2Proof.Machine.execVstatAcc a b s
  | .vstatFin a c => Sys2Proof.Machine.execVstatFin a c s
  | .vstld f d a => Sys2Proof.Machine.execVstld f d a s
  | .vld d a disp => Sys2Proof.Machine.execVld d a disp s
  | .vst b a disp => Sys2Proof.Machine.execVst b a disp s
  | .vlds d a r => Sys2Proof.Machine.execVlds d a r s
  | .vsts b a r => Sys2Proof.Machine.execVsts b a r s
  | .vpush a b => Sys2Proof.Machine.execVpush a b s
  | .vpop d => Sys2Proof.Machine.execVpop d s
  | .vstrc a => Sys2Proof.Machine.execVstrc a s
  | .amap demand bound a b => Sys2Proof.Machine.execAmap demand bound a b s
  | .aang demand bound a b => Sys2Proof.Machine.execAang demand bound a b s
  | .acfg bound a b => Sys2Proof.Machine.execAcfg bound a b s
  | .arun bound a => Sys2Proof.Machine.execArun bound a s
  | .arunv demand bound fmt a b c => Sys2Proof.Machine.execArunv demand bound fmt a b c s
  | .agrad bound a => Sys2Proof.Machine.execAgrad bound a s
  | .avec demand bound a b c => Sys2Proof.Machine.execAvec demand bound a b c s
  | .aprod demand bound toQ1 d a b c => Sys2Proof.Machine.execAprod demand bound toQ1 d a b c s
  | .anorm demand bound a => Sys2Proof.Machine.execAnorm demand bound a s
  | .asave demand bound a => Sys2Proof.Machine.execAsave demand bound a s
  | .ares demand bound a => Sys2Proof.Machine.execAres demand bound a s
  | .astat demand bound clr a => Sys2Proof.Machine.execAstat demand bound clr a s
  | .skinit bound d => Sys2Proof.Machine.execSkinit bound d s
  | .skupd demand bound d a b => Sys2Proof.Machine.execSkupd demand bound d a b s
  | .skqry demand bound d a b c => Sys2Proof.Machine.execSkqry demand bound d a b c s
  | .skadd bound d a b c => Sys2Proof.Machine.execSkadd bound d a b c s
  | .sksq demand bound d a b c => Sys2Proof.Machine.execSksq demand bound d a b c s
  | .skopt demand bound a b c => Sys2Proof.Machine.execSkopt demand bound a b c s
  | .elcat d a b => Sys2Proof.Machine.execElcat d a b s
  | .elflt a b c => Sys2Proof.Machine.execElflt a b c s
  | .elrbs a b c => Sys2Proof.Machine.execElrbs a b c s
  | .elapp r a => Sys2Proof.Machine.execElapp r a s
  | .eldrop a => Sys2Proof.Machine.execEldrop a s
  | .ellen d a => Sys2Proof.Machine.execEllen d a s
  | .elget d a b => Sys2Proof.Machine.execElget d a b s
  | .registerWriteLanding core => Sys2Proof.Machine.execRegisterWriteLanding core s
  | .waitEnd core => Sys2Proof.Machine.execWaitEnd core s
  | .trapEntry core => Sys2Proof.Machine.execTrapEntry core s
  | .globalLoadComplete core k => Sys2Proof.Machine.execGlobalLoadComplete core k s
  | .globalStoreAccept core k => Sys2Proof.Machine.execGlobalStoreAccept core k s
  | .stashLineFill core win line => Sys2Proof.Machine.execStashLineFill core win line s
  | .stashRemoteAccess core k => Sys2Proof.Machine.execStashRemoteAccess core k s
  | .stashLineRelease core win line => Sys2Proof.Machine.execStashLineRelease core win line s
  | .spawnPush core k => Sys2Proof.Machine.execSpawnPush core k s
  | .launchWindowWrite w => Sys2Proof.Machine.execLaunchWindowWrite w s
  | .gangPacketArrival ctx packet => Sys2Proof.Machine.execGangPacketArrival ctx packet s
  | .gangMemberStart core => Sys2Proof.Machine.execGangMemberStart core s
  | .coreFreeSchedule core => Sys2Proof.Machine.execCoreFreeSchedule core s
  | .strandRetire core => Sys2Proof.Machine.execStrandRetire core s
  | .groupOperationAtHome core k => Sys2Proof.Machine.execGroupOperationAtHome core k s
  | .barrierOperationAtHome core k => Sys2Proof.Machine.execBarrierOperationAtHome core k s
  | .latticeCommandBegin core => Sys2Proof.Machine.execLatticeCommandBegin core s
  | .latticeQueueTransfer core => Sys2Proof.Machine.execLatticeQueueTransfer core s
  | .latticeStop core => Sys2Proof.Machine.execLatticeStop core s
  | .copyCommandBegin core e => Sys2Proof.Machine.execCopyCommandBegin core e s
  | .streamCopyStart core e => Sys2Proof.Machine.execStreamCopyStart core e s
  | .copyComplete core e => Sys2Proof.Machine.execCopyComplete core e s
  | .copyStop core e => Sys2Proof.Machine.execCopyStop core e s
  | .sketchCommandBegin core => Sys2Proof.Machine.execSketchCommandBegin core s
  | .sketchStop core => Sys2Proof.Machine.execSketchStop core s
  | .mortarUpdate core => Sys2Proof.Machine.execMortarUpdate core s
  | .splitkPartialArrival k => Sys2Proof.Machine.execSplitkPartialArrival k s
  | .splitkMergeTimeout k => Sys2Proof.Machine.execSplitkMergeTimeout k s
  | .engineCommandRetire core q => Sys2Proof.Machine.execEngineCommandRetire core q s
  | .boundOverrun core q => Sys2Proof.Machine.execBoundOverrun core q s
  | .elUnitWork core => Sys2Proof.Machine.execElUnitWork core s
  | .elStop core => Sys2Proof.Machine.execElStop core s
  | .listHandleWrite core => Sys2Proof.Machine.execListHandleWrite core s
  | .tlbinvComplete core k => Sys2Proof.Machine.execTlbinvComplete core k s
  | .keysetSwitchComplete core k => Sys2Proof.Machine.execKeysetSwitchComplete core k s
  | .demandFill core q => Sys2Proof.Machine.execDemandFill core q s
  | .hostBar4Access a => Sys2Proof.Machine.execHostBar4Access a s
  | .backInvalidateResponse line => Sys2Proof.Machine.execBackInvalidateResponse line s
  | .hostWriteback line => Sys2Proof.Machine.execHostWriteback line s
  | .preemption ctx => Sys2Proof.Machine.execPreemption ctx s
  | .dieLoss die => Sys2Proof.Machine.execDieLoss die s
  | .uncorrectableError site => Sys2Proof.Machine.execUncorrectableError site s
  | .mgclaim master nonce => Sys2Proof.Machine.execMgclaim master nonce s
  | .mghand master target nonce => Sys2Proof.Machine.execMghand master target nonce s
  | .ownershipLapse => Sys2Proof.Machine.execOwnershipLapse s
  | .contextDescriptorWrite master offset data => Sys2Proof.Machine.execContextDescriptorWrite master offset data s
  | .partitionRecordWrite master offset data => Sys2Proof.Machine.execPartitionRecordWrite master offset data s
  | .poolDecoderWrite master offset data => Sys2Proof.Machine.execPoolDecoderWrite master offset data s
  | .domainWrite master value => Sys2Proof.Machine.execDomainWrite master value s
  | .bar4sizeWrite master value => Sys2Proof.Machine.execBar4sizeWrite master value s
  | .hostordWrite master value => Sys2Proof.Machine.execHostordWrite master value s
  | .managementWrite master offset data => Sys2Proof.Machine.execManagementWrite master offset data s
  | .preemptAndHold master ctx => Sys2Proof.Machine.execPreemptAndHold master ctx s
  | .endHold master ctx => Sys2Proof.Machine.execEndHold master ctx s
  | .checkpoint master ctx => Sys2Proof.Machine.execCheckpoint master ctx s
  | .restoreCheckpoint master ctx => Sys2Proof.Machine.execRestoreCheckpoint master ctx s
  | .debugReadMemory master ctx => Sys2Proof.Machine.execDebugReadMemory master ctx s
  | .debugWriteMemory master ctx => Sys2Proof.Machine.execDebugWriteMemory master ctx s
  | .debugReadRegister master ctx => Sys2Proof.Machine.execDebugReadRegister master ctx s
  | .haltDie master die => Sys2Proof.Machine.execHaltDie master die s
  | .resumeDie master die => Sys2Proof.Machine.execResumeDie master die s
  | .attestationRequest master request => Sys2Proof.Machine.execAttestationRequest master request s
  | .attestationReportReady => Sys2Proof.Machine.execAttestationReportReady s
  | .powerCapWrite master watts => Sys2Proof.Machine.execPowerCapWrite master watts s
  | .capResolve => Sys2Proof.Machine.execCapResolve s
  | .clockThrottleWindow => Sys2Proof.Machine.execClockThrottleWindow s
  | .activityWindow => Sys2Proof.Machine.execActivityWindow s
  | .thermalLimit die => Sys2Proof.Machine.execThermalLimit die s
  | .thermalShutdown => Sys2Proof.Machine.execThermalShutdown s
  | .fwaddrWrite master addr => Sys2Proof.Machine.execFwaddrWrite master addr s
  | .firmwareVerifyComplete r => Sys2Proof.Machine.execFirmwareVerifyComplete r s
  | .packageReset flashGood => Sys2Proof.Machine.execPackageReset flashGood s
  | .hostPortTraining pcie6 lanes flits256 => Sys2Proof.Machine.execHostPortTraining pcie6 lanes flits256 s
  | .poolPortTraining port cxl3 lanes => Sys2Proof.Machine.execPoolPortTraining port cxl3 lanes s
  | .poolPortDown port => Sys2Proof.Machine.execPoolPortDown port s
  | .poolPortNarrowed port lanes => Sys2Proof.Machine.execPoolPortNarrowed port lanes s
  | .slathenFlitReceive port seq good => Sys2Proof.Machine.execSlathenFlitReceive port seq good s
  | .slathenNakReceive port e => Sys2Proof.Machine.execSlathenNakReceive port e s
  | .slathenAckReceive port ack => Sys2Proof.Machine.execSlathenAckReceive port ack s
  | .slathenLaneFailure port => Sys2Proof.Machine.execSlathenLaneFailure port s
  | .slathenLinkDown port => Sys2Proof.Machine.execSlathenLinkDown port s
  | .slathenPortTraining port fast => Sys2Proof.Machine.execSlathenPortTraining port fast s
  | .hostPortConventionalReset => Sys2Proof.Machine.execHostPortConventionalReset s
  | .temperatureFallsBelowLimit die => Sys2Proof.Machine.execTemperatureFallsBelowLimit die s

end Sys2Proof.Machine
end

