-- ==== Sys2Proof/Machine/Schedule.lean ====
section
/-! DEFINITION. What happens next: the issue of a core (R24, R28, R388), an event of the package (spec/95), and the choice
that the machine makes for itself when its schedule is empty (assumption 2). -/

namespace Sys2Proof.Machine

/-! ### The issue of a core -/

/-- The core in `core` may issue: its position serves and runs a strand, and no halt holds it (R11, R21, R434). -/
def State.mayIssue (s : State) : Bool :=
  s.pkg.powered && s.core.strand.isSome && s.pkg.serves s.core.num && !s.standsHalted

/-- A pending trap is taken before the instruction at pc (R388, R409). -/
def Core.trapsFirst (c : Core) : Bool := !c.super && !c.pending.isEmpty && c.wfe.isNone

/-- A core whose issue was held counts the cycles that have passed. -/
def State.resumed (s : State) : State := if s.core.wait.isSome then s.heldUntilNow else s

/-- The instruction at pc issues, or the trap that stands before it is taken. -/
def State.issueHere (s : State) : Out :=
  if s.core.trapsFirst then .next s.takePending
  else
    match s.fetchInstr with
    | (t, .error e) => .next (t.takeTrap e)
    | (t, .ok i) => exec i t

/-- Core n issues, if it may. -/
def State.issueCore (s : State) (n : Nat) : Out :=
  let t := s.focus n
  if t.mayIssue then t.resumed.issueHere else .next s

/-! ### An event of the package -/

/-- A package that has lost the power of its dies sees a package reset alone (R442). -/
def Instr.wakes : Instr → Bool
  | .packageReset _ => true
  | _ => false

/-- An event happens. Instruction words come from a core's fetch alone. -/
def State.happen (s : State) (i : Instr) : Out :=
  if (encode i).isSome || !(s.pkg.powered || Instr.wakes i) then .next s else exec i s

/-- A choice of the schedule is made. -/
def State.choose (s : State) : Choice → Out
  | .issue n => s.issueCore n
  | .event i => s.happen i

/-! ### The machine's own choice -/

/-- The steps that may be due at the core in `core`, in the order in which they are tried. -/
def Core.due (c : Core) : List Instr :=
  let n := c.num
  let ops := ((List.range c.ops.length).map fun k =>
    [Instr.globalLoadComplete n k, .globalStoreAccept n k, .stashRemoteAccess n k, .barrierOperationAtHome n k,
      .groupOperationAtHome n k, .spawnPush n k, .launchWindowWrite (.core n k), .tlbinvComplete n k,
      .keysetSwitchComplete n k, .listHandleWrite n]).flatten
  let wins := ((List.range 8).map fun i =>
    ((c.wins.getD i none).map fun w => w.lines.map fun l => Instr.stashLineRelease n i l.line).getD []).flatten
  let fills := match c.wanted with
    | some (w, l) => [Instr.stashLineFill n w l]
    | none => []
  let el := if c.work.isEmpty then [] else [Instr.elUnitWork n, .elStop n]
  let engine := fun (q : EngineQ) (l : List Instr) => if (c.queue q).cmds.isEmpty then [] else l
  ops ++ wins ++ fills ++ el
    ++ engine .l [.boundOverrun n .l, .latticeQueueTransfer n, .engineCommandRetire n .l, .latticeCommandBegin n,
        .demandFill n .l, .latticeStop n]
    ++ engine .c0 [.boundOverrun n .c0, .streamCopyStart n .ce0, .copyComplete n .ce0, .copyCommandBegin n .ce0,
        .demandFill n .c0, .copyStop n .ce0]
    ++ engine .c1 [.boundOverrun n .c1, .streamCopyStart n .ce1, .copyComplete n .ce1, .copyCommandBegin n .ce1,
        .demandFill n .c1, .copyStop n .ce1]
    ++ engine .k [.boundOverrun n .k, .mortarUpdate n, .engineCommandRetire n .k, .sketchCommandBegin n,
        .demandFill n .k, .sketchStop n]
    ++ [.strandRetire n]

/-- The rank of a core's strand in its gang. -/
def State.rankAt (s : State) (c : Core) : Nat :=
  (((c.strand.bind fun t => t.gang).bind s.pkg.gang).map fun g => g.rankOf c.num).getD 0

/-- A core among others whose ranks rise. -/
def State.insertRank (s : State) (c : Core) : List Core → List Core
  | [] => [c]
  | d :: r => if s.rankAt d ≤ s.rankAt c then d :: s.insertRank c r else c :: d :: r

/-- The cores with the lower ranks of gangs first: operations that reach a group's home together are applied in that order
(R270). -/
def State.byRank (s : State) : List Core := s.cores.foldl (fun l c => s.insertRank c l) []

/-- The steps that may be due outside the cores. -/
def State.dueElsewhere (s : State) : List Instr :=
  (s.pkg.hostLines.map fun e => Instr.hostWriteback e.1).filter (fun i => match i with
      | .hostWriteback l => s.pkg.snoops.contains l
      | _ => false)
    ++ s.pkg.snoops.map (fun l => .backInvalidateResponse l)
    ++ (List.range s.pkg.partials.length).map (fun k => .splitkPartialArrival k)
    ++ (List.range s.pkg.merges.length).map (fun k => .splitkMergeTimeout k)
    ++ (if (List.range 8).any s.pkg.windowOver then [.activityWindow] else [])
    ++ (if s.pkg.capDue then [.capResolve] else [])
    ++ ((s.cores.filterMap fun c => if c.strand.isSome then c.resident else none).filter s.askedOff).map (fun c => .preemption c)
    ++ ((s.pkg.gangs.map fun g => (g.members.filter fun m => m.state == .reserved).map fun m =>
        Instr.gangMemberStart m.core).flatten)
    ++ (if (s.pkg.contexts.toList.any fun x => x.hasRecords || !x.paused.isEmpty) then
        (List.range Config.cores).map fun c => .coreFreeSchedule c
      else [])

/-- The first step of a list that changes the state. -/
def State.firstChange (s : State) : List Instr → Option Out
  | [] => none
  | i :: r =>
    match s.happen i with
    | .next t => if t = s then s.firstChange r else some (.next t)
    | o => some o

/-- The core in `core` can issue now: it does not wait, its wait is over, or a pending trap comes first. -/
def State.issues (s : State) : Bool :=
  s.mayIssue && (s.core.trapsFirst || s.core.wait.all s.waitOver)

/-- The number of the core with the least local time among some. -/
def earliest : List Core → Option Nat
  | [] => none
  | c :: r =>
    some ((r.foldl (fun m d => if d.time < m.time || (d.time == m.time && d.num < m.num) then d else m) c).num)

/-- The choice of a machine whose schedule is empty: a step that is due; else the core with the least local time among those
that may issue, which issues or passes a held cycle; else a hub cycle of the package's time. -/
def State.byItself (s : State) : Out :=
  match s.firstChange ((s.byRank.map Core.due).flatten ++ s.dueElsewhere) with
  | some o => o
  | none =>
    match earliest (s.cores.filter fun c => (s.focus c.num).mayIssue) with
    | some n => if (s.focus n).issues then s.issueCore n else .next (s.onCore n fun t => t.held 1)
    | none => .next (s.mapPkg fun p => { p with now := p.now + Config.cycleUnits Config.hubClock })

end Sys2Proof.Machine
end

