-- ==== Sys2Proof/Machine/Boot.lean ====
section
/-! DEFINITION. Placing an instruction where a core fetches it. A program is loaded from outside the machine (R424, R425,
R434): the set-up here stands for that load (assumption 30). -/

namespace Sys2Proof.Machine

/-! ### What a host writes before a program runs -/

/-- Context 0 alone: valid, partition 0, tables at 0x1000 under key identifier 0, which it may use. -/
def bootDescriptor : BitVec 512 := (1#512 <<< 24) ||| (0x1000#512 <<< 64) ||| (1#512 <<< 128)

/-- The first GiB of the pool behind port 0. -/
def bootDecoder : BitVec 256 := (1#256 <<< 63) ||| (1#256 <<< 54) ||| (1#256 <<< 32)

/-- Tables of levels 4 to 2: the first GiB of the address space is the first GiB of the pool, with every permission. -/
def bootTables (m : Memory) : Memory :=
  ((m.writeNat 0x1000 8 0x2001).writeNat 0x2000 8 0x3001).writeNat 0x3000 8 0x22F

def Package.booted (p : Package) : Package :=
  { p with
    powered := true
    dieen := 0x3FF#10
    coreen := Vector.replicate 8 0xFFFF#16
    halted := 0#10
    contexts := p.contexts.set 0 { Context.reset with desc := bootDescriptor }
    decoders := (Vector.replicate 16 0#256).set 0 bootDecoder
    poolPorts := p.poolPorts.set 0 ⟨true, false, 8⟩
    mem := bootTables p.mem
    lineKeys := []
    poison := []
    counterPoison := []
    held := []
    stale := [] }

/-- The core in `core` runs a strand of context 0 at address 0. -/
def Core.booted (c : Core) : Core :=
  { c with
    strand := some ⟨0#64, 0xFF#8, none, 0#2, 0#32⟩
    resident := some 0
    served := some 0
    pc := 0#64
    block := none }

def State.booted (s : State) : State :=
  { s with
    core := s.core.booted
    parked := s.parked.map fun c => { c with wins := Vector.replicate 8 none }
    pkg := s.pkg.booted }

/-! ### Placing a word -/

/-- The page that the next fetch of the core in `core` goes through. -/
def State.fetchPage (s : State) : Option Page :=
  let pc := s.core.pc
  if s.mayIssue && pc.extractLsb' 0 3 == 0#3 && !pc.getLsbD 63 then
    match s.translate s.core.ctx pc .fetch with
    | (_, .ok pg) => if s.pkg.reach (pg.pa pc.toNat) = .served then some pg else none
    | (_, .error _) => none
  else none

/-- Bytes at the program counter, read as they stand at the next fetch. -/
def State.code (s : State) (pg : Page) (bs : List Byte) : State :=
  let pa := pg.pa s.core.pc.toNat
  (s.put .other pa bs pg.key).mapPkg fun p => { p with
    stale := p.stale.filter fun e => e.pa != pa
    poison := p.poison.filter fun l => l != pa / 64
    counterPoison := p.counterPoison.filter fun a => a / 8 != pa / 8 }

/-- The next choice is the issue of the core in `core`, before any pending trap. -/
def State.next (s : State) : State :=
  { s with
    core := if s.core.trapsFirst then { s.core with pending := [] } else s.core
    schedule := .issue s.core.num :: s.schedule }

/-- Bytes placed where the next step fetches its instruction: at the program counter of a core that can fetch there, or at
address 0 of a package set up as a host would. -/
def State.placed (s : State) (bs : List Byte) : State :=
  match s.fetchPage with
  | some pg => (s.code pg bs).next
  | none =>
    let t := s.booted
    { t with pkg := { t.pkg with mem := t.pkg.mem.writeBytes 0 bs } }.next

end Sys2Proof.Machine
end

