-- ==== Sys2Proof/Machine/Step.lean ====
section
/-! DEFINITION. One step of the machine, and placing an instruction where the next step fetches it. -/

namespace Sys2Proof.Machine

/-- One step: the next choice of the schedule; with none, the machine's own choice, or the stop of a package whose dies have
no power (R442; assumption 2). -/
def step (s : State) : Out :=
  match s.schedule with
  | c :: r => { s with schedule := r }.choose c
  | [] => if s.pkg.powered then s.byItself else .fault .powerRemoved

/-- The state with an instruction placed where the next step fetches it, its other bits zero (assumption 30). -/
def State.withFetchWord (s : State) (nbits w : Nat) : State := s.placed (natBytes 8 (w % 2 ^ nbits))

end Sys2Proof.Machine
end

