-- ==== Sys2Proof/Safety.lean ====
section
/-! DEFINITION. The words in which claims speak of the machine: when an instruction executes, how its issue ends, what it keeps,
and the canonical form of all memories. -/

namespace Sys2Proof.Machine

/-! ### Completion -/

/-- The instruction answers a next state, and that state is as P says. -/
def Completes (i : Instr) (s : State) (P : State → Prop) : Prop := ∃ t, exec i s = .next t ∧ P t

/-- An instruction outside the vector unit executes: lane 0 of an open block passes (R62), and none of the scalar registers
that it reads is poisoned (R395). -/
def State.executes (s : State) (rs : List Reg) : Prop :=
  s.core.lane0 = true ∧ ∀ r ∈ rs, Granule.x r ∉ s.core.poison

/-- A transfer executes: no block is open (R63), and no register that it reads is poisoned. -/
def State.transfers (s : State) (rs : List Reg) : Prop :=
  s.core.block = none ∧ ∀ r ∈ rs, Granule.x r ∉ s.core.poison

/-- An instruction outside the vector unit that a prefix block may cover: lane 0 decides whether it executes (R62). -/
def laneZero : Instr → Bool
  | .nop | .spawn .. | .launch .. | .gjoin .. | .gleave .. | .gbar .. | .gsize .. | .grank .. | .rvz | .qdrop ..
  | .tickRead .. | .ctxsv .. | .ctxld .. | .tlbinv .. | .bkpt .. | .wfe .. | .keyset .. | .add .. | .sub .. | .and ..
  | .or .. | .xor .. | .andn .. | .shl .. | .shr .. | .sar .. | .rotl .. | .slt .. | .sltu .. | .min .. | .max ..
  | .minu .. | .maxu .. | .sel .. | .clz .. | .ctz .. | .popc .. | .bswap .. | .addi .. | .andi .. | .ori .. | .xori ..
  | .shli .. | .shri .. | .sari .. | .slti .. | .sltiu .. | .mul .. | .mulh .. | .mulhu .. | .div .. | .divu .. | .rem ..
  | .remu .. | .limm .. | .limmh .. | .bank .. | .rowof .. | .lword .. | .movsr .. | .movrs .. | .ld .. | .st ..
  | .ldacq .. | .strel .. | .amoAdd .. | .amoAnd .. | .amoOr .. | .amoXor .. | .amoMin .. | .amoMax .. | .amoMinu ..
  | .amoMaxu .. | .amoSwap .. | .cas .. | .fence .. | .waitc .. | .stwin .. | .stfl .. | .stinv .. | .pfh .. | .cpset ..
  | .cpgo .. | .tagwany .. | .tagwall .. | .tagffr .. | .tagclr .. | .barinit .. | .barexp .. | .bararv .. | .barwt ..
  | .bargen .. | .pcnt .. | .pfirst .. | .vstatClr .. | .vstatFin .. | .vstrc .. | .amap .. | .aang .. | .acfg ..
  | .arun .. | .arunv .. | .agrad .. | .avec .. | .aprod .. | .anorm .. | .asave .. | .ares .. | .astat .. | .skinit ..
  | .skupd .. | .skqry .. | .skadd .. | .sksq .. | .skopt .. | .elcat .. | .elflt .. | .elrbs .. | .elapp ..
  | .eldrop .. | .ellen .. | .elget .. => true
  | _ => false

/-- User mode may issue the instruction: it is not privileged (R44, R401), and a command's bound is not zero (R56). -/
def forUser : Instr → Bool
  | .ctxsv .. | .ctxld .. | .tlbinv .. | .keyset .. | .tret .. => false
  | .movsr _ r | .movrs r _ => r.code.toNat < 0x100
  | .cpgo _ _ n .. | .amap _ n .. | .aang _ n .. | .acfg n .. | .arun n _ | .arunv _ n .. | .agrad n _ | .avec _ n ..
  | .aprod _ n .. | .anorm _ n _ | .asave _ n _ | .ares _ n _ | .astat _ n .. | .skinit n _ | .skupd _ n .. | .skqry _ n ..
  | .skadd n .. | .sksq _ n .. | .skopt _ n .. => n != 0#20
  | _ => true

/-- Single step follows the instruction (R384). -/
def State.stepped (s : State) : Bool := !s.core.super && s.core.step

/-- The address can be a transfer's target (R48): a word's address in the global space. -/
def codeAddress (a : Word) : Prop :=
  a.extractLsb' 0 3 = 0#3 ∧ a.getLsbD 63 = false ∧ a.extractLsb' 57 6 = 0#6

/-! ### Frames -/

/-- Every byte of memory, as every key sees it, and every byte of the scratchpad reads as before. -/
def SameMemory (s t : State) : Prop :=
  (∀ key a, t.pkg.peek key a = s.pkg.peek key a) ∧ ∀ o, t.core.scratch.read o = s.core.scratch.read o

/-- A core with what every issue may change taken from another. -/
def Core.issuedAs (c d : Core) : Core :=
  { c with
    pc := d.pc, block := d.block, wait := d.wait, gbar := d.gbar, barwt := d.barwt, joinDue := d.joinDue, wfe := d.wfe
    issued := d.issued, pending := d.pending, filled := d.filled
    activity := d.activity }

/-- The issue from s has ended in t, and the next instruction stands at pc: t is u, which holds the effects of the
instruction, n cycles on. The open block has counted down, no trap has joined the pending ones but single step's, and
nothing else has changed but the counts of activity. -/
def After (s u : State) (pc : Word) (n : Nat) (t : State) : Prop :=
  t.core.pc = pc ∧ t.core.issued = s.core.issued + 1 ∧ t.core.wait = none ∧ t.core.filled = []
    ∧ t.core.block = (if s.core.block.isSome then s.core.block.bind Block.next else u.core.block)
    ∧ t.core.gbar = leaveBars s.core.super u.core.gbar
    ∧ t.core.barwt = (u.core.barwt.filter fun r => r.super != s.core.super)
    ∧ t.core.joinDue = (if s.core.super then u.core.joinDue else none)
    ∧ (s.stepped = false → t.core.pending = u.core.pending ∧ t.core.wfe = u.core.wfe)
    ∧ (s.stepped = true → t.core.pending = insertPending u.core.pending (debugTrap 2#64))
    ∧ t.parked = u.parked ∧ t.schedule = u.schedule ∧ t.fresh = u.fresh
    ∧ t.pkg = { u.pkg with now := (u.advance n).pkg.now } ∧ SameMemory u t
    ∧ t.core = (u.advance n).core.issuedAs t.core

/-- The instruction issues from s with the effects that stand in u, and the next instruction, at pc, n cycles later. -/
def Issues (i : Instr) (s u : State) (pc : Word) (n : Nat) : Prop := Completes i s (After s u pc n)

/-- The same, for an instruction that transfers no control. -/
def Goes (i : Instr) (s u : State) : Prop := Issues i s u (s.core.pc + 8#64) 1

/-! ### Traps -/

/-- The instruction raises a trap at its issue, which is taken from s (R386; `Obligations.TrapEntry` says how). -/
def Traps (i : Instr) (s : State) (cause : BitVec 5) (info0 info1 info2 : Word) : Prop :=
  exec i s = .next (s.takeTrap (.plain cause info0 info1 info2))

/-- t stands at the handler of a trap that was raised in s (R386, R389). The trap registers hold what the trap gave them,
unless a write in flight has landed there since. -/
def AtHandler (s : State) (e : Trap) (t : State) : Prop :=
  t.core.pc = (if s.core.super then s.core.trapvec + 0x40#64 else s.core.trapvec) ∧ t.core.super = true
    ∧ t.core.block = none ∧ t.core.wait = none
    ∧ (s.core.flight = [] → t.core.trappc = s.core.pc
      ∧ t.core.trapcause = BitVec.ofBool e.engine ++ BitVec.ofBool s.core.super ++ 0#57 ++ e.cause
      ∧ t.core.trapinfo = #v[e.info0, e.info1, e.info2, e.info3])

/-! ### Results in scalar registers (R22) -/

/-- A write of register d with v is in flight, to land lat cycles after the present one. -/
def State.withX (s : State) (d : Reg) (lat : Nat) (v : Word) : State :=
  { s with core := { s.core with flight := s.core.flight ++ [⟨s.core.cycle + lat, s.core.issued, .x d v⟩] } }

/-- From t on, n cycles after s: register d holds v when lat cycles have passed since s, and what it would have held before
that; every other register holds what it would have held without the instruction. x0 discards the write. -/
def LandsIn (s t : State) (n : Nat) (d : Reg) (lat : Nat) (v : Word) : Prop :=
  (d ≠ 0#6 → (t.advance (lat - n)).core.getX d = v)
    ∧ ∀ r k, (r ≠ d ∨ d = 0#6 ∨ n + k < lat) → (t.advance k).core.getX r = (s.advance (n + k)).core.getX r

/-- The instruction writes register d with v after lat cycles and changes nothing else. -/
def WritesX (i : Instr) (s : State) (d : Reg) (lat : Nat) (v : Word) : Prop :=
  Completes i s fun t => After s (s.withX d lat v) (s.core.pc + 8#64) 1 t ∧ SameMemory s t ∧ LandsIn s t 1 d lat v

/-! ### Tables of code -/

/-- The n words at a global address, each read as code is fetched (R264). -/
def State.codeWords (s : State) (a : Word) : Nat → Option (State × List Word)
  | 0 => some (s, [])
  | n + 1 =>
    match s.translate s.core.ctx a .fetch with
    | (_, .error _) => none
    | (u, .ok pg) =>
      match u.fetchAt pg a with
      | (_, .error _) => none
      | (v, .ok w) => (v.codeWords (a + 8#64) n).map fun r => (r.1, w :: r.2)

/-- The phase table at T gives the entry for a count x (R257, R264): of its pairs, the first with the least size that is x or
more. v is s once every word of the table has been fetched. -/
def State.PhaseTakes (s : State) (T x : Word) (v : State) (entry : Word) : Prop :=
  ∃ (u : State) (head : Word) (ws : List Word) (k : Nat),
    let c := head.toNat
    let size := fun j => (ws.getD (2 * j) 0#64).toNat
    T.extractLsb' 0 3 = 0#3 ∧ (∀ j, j < 2 * c + 1 → (T + 8#64 * BitVec.ofNat 64 j).getLsbD 63 = false)
      ∧ s.codeWords T 1 = some (u, [head]) ∧ 1 ≤ c ∧ c ≤ 8 ∧ u.codeWords (T + 8#64) (2 * c) = some (v, ws)
      ∧ k < c ∧ x.toNat ≤ size k ∧ (∀ j, j < k → x.toNat ≤ size j → size k < size j)
      ∧ (∀ j, k < j → j < c → x.toNat ≤ size j → size k ≤ size j) ∧ entry = ws.getD (2 * k + 1) 0#64

/-! ### Places in memory (R35, R43, R123, R278) -/

/-- n bytes at a local address, which is a multiple of n, stand at offset o of the scratchpad. -/
def AtLocal (a : Word) (n o : Nat) : Prop :=
  a.getLsbD 63 = true ∧ a.extractLsb' 22 41 = 0#41 ∧ o = (a.extractLsb' 0 22).toNat ∧ o + n ≤ Config.scratchBytes
    ∧ a.toNat % n = 0

/-- n bytes at a global address, which is a multiple of n, stand in a page; u is s after their translation. -/
def AtGlobal (s : State) (a : Word) (n : Nat) (acc : Acc) (u : State) (pg : Page) : Prop :=
  a.getLsbD 63 = false ∧ a.toNat % n = 0 ∧ s.translate s.core.ctx a acc = (u, .ok pg)

/-- No stash window of the core holds an access: it meets none, or a line that is stashed and that a write may change (R43,
R311). -/
def WindowOpen (s : State) (hit : Option (Nat × Nat)) (writes : Bool) : Prop :=
  ∀ w l, hit = some (w, l) → (writes = true → s.core.lineWritable w l = true) ∧ s.core.stashed w l = true

/-- The value that a load gives a register, from the bytes at an address (R123). -/
def loaded (k : LoadKind) (byte : Nat → Byte) : Word :=
  match k with
  | .b => (byte 0).signExtend 64
  | .bu => (byte 0).setWidth 64
  | .h => (byte 1 ++ byte 0).signExtend 64
  | .hu => (byte 1 ++ byte 0).setWidth 64
  | .w => (byte 3 ++ byte 2 ++ byte 1 ++ byte 0).signExtend 64
  | .wu => (byte 3 ++ byte 2 ++ byte 1 ++ byte 0).setWidth 64
  | .d => byte 7 ++ byte 6 ++ byte 5 ++ byte 4 ++ byte 3 ++ byte 2 ++ byte 1 ++ byte 0

/-- A command, work of the effect-list unit, or what a save image holds, without the part that a write of the core may change:
the bytes that it keeps as they stood, the bytes that it leaves alone, or that a write has met the line of the last load; and a
core without those of its commands and its unseen engine writes. -/
def Cmd.bare (m : Cmd) : Cmd := { m with olds := [] }

def ElWork.bare (w : ElWork) : ElWork := { w with later := [] }

def Core.bare (c : Core) : Core := { c.mapCmds Cmd.bare with unseen := [] }

def Rest.bare (r : Rest) : Rest := { r with lastLoad := none }

/-- Nothing that the core issued earlier must be made before its access to n bytes at a scratchpad offset: they lie outside every
window, or nothing holds back an operation on their memory (R125, R288, R347). -/
def State.NothingDue (s : State) (kind : GKind) (o n : Nat) : Prop :=
  ∀ w l, s.core.windowAt o = some (w, l) →
    s.holds { s.core.newOp 0 kind with pa := s.core.windowPa w o, size := n } s.core.ops = false

/-- The scratchpad of u is that of s with the n bytes at o replaced; memory reads as before. -/
def Stored (s u : State) (o n : Nat) (byte : Nat → Byte) : Prop :=
  (∀ p, u.core.scratch.read p = if o ≤ p ∧ p < o + n then byte (p - o) else s.core.scratch.read p)
    ∧ (∀ key a, u.pkg.peek key a = s.pkg.peek key a)
    ∧ u = { s with
        core := { s.core with
          scratch := u.core.scratch, poison := u.core.poison, wins := u.core.wins, work := u.core.work
          wrote := u.core.wrote, ops := u.core.ops, wfe := u.core.wfe, lastLoad := u.core.lastLoad, unseen := u.core.unseen
          l := u.core.l, c0 := u.core.c0, c1 := u.core.c1, k := u.core.k }
        parked := u.parked
        pkg := { s.pkg with written := u.pkg.written, stale := u.pkg.stale, rests := u.pkg.rests } }
    ∧ (∀ x ∈ u.core.unseen, x ∈ s.core.unseen ∧ x.meets (s.core.locOf o) n = false)
    ∧ u.core.work.map ElWork.bare = s.core.work.map ElWork.bare
    ∧ u.core.mapCmds Cmd.bare = { s.core.mapCmds Cmd.bare with
        scratch := u.core.scratch, poison := u.core.poison, wins := u.core.wins, work := u.core.work
        wrote := u.core.wrote, ops := u.core.ops, wfe := u.core.wfe, lastLoad := u.core.lastLoad, unseen := u.core.unseen }
    ∧ u.pkg.rests.map Rest.bare = s.pkg.rests.map Rest.bare
    ∧ (s.core.windowAt o = none → u.parked = s.parked ∧ u.core.wins = s.core.wins ∧ u.core.ops = s.core.ops
      ∧ u.core.wfe = s.core.wfe ∧ u.core.lastLoad = s.core.lastLoad ∧ u.core.l = s.core.l ∧ u.core.c0 = s.core.c0
      ∧ u.core.c1 = s.core.c1 ∧ u.core.k = s.core.k ∧ u.pkg = s.pkg)

/-- t is u with stores that have become entries of its open list l (R339, R340): each stands in its own 80 bytes, in order. -/
def Collected (u : State) (l : OpenList) (entries : List (Word × List Byte)) (t : State) : Prop :=
  let at_ := l.start + 80 * l.count
  (∀ i e p, entries[i]? = some e → at_ + 80 * i ≤ p → p < at_ + 80 * i + 80 →
      t.core.scratch.read p = (entryBytes e.1 e.2).getD (p - (at_ + 80 * i)) 0#8)
    ∧ (∀ p, (p < at_ ∨ at_ + 80 * entries.length ≤ p) → t.core.scratch.read p = u.core.scratch.read p)
    ∧ t = { u with core := { u.core with
        scratch := t.core.scratch, poison := t.core.poison, wrote := t.core.wrote, unseen := t.core.unseen
        work := t.core.work, opened := some { l with count := l.count + entries.length } } }
    ∧ (∀ x ∈ t.core.unseen, x ∈ u.core.unseen) ∧ t.core.work.map ElWork.bare = u.core.work.map ElWork.bare

/-- The place of the next n entries of an open list meets no window. -/
def Core.Appends (c : Core) (l : OpenList) (n : Nat) : Prop :=
  ∀ p, l.start + 80 * l.count ≤ p → p < l.start + 80 * (l.count + n) → c.windowAt p = none

/-- The runs of lanes that pass in the words of a vector store, in their order (R340): word, first lane and number of lanes. -/
def State.Runs (s : State) (runs : List (Nat × Nat × Nat)) : Prop :=
  let passes := fun i r : Nat => s.core.passMask.getLsbD (16 * i + r) = true
  runs.Pairwise (fun x y => x.1 < y.1 ∨ (x.1 = y.1 ∧ x.2.1 < y.2.1))
    ∧ ∀ i r m, (i, r, m) ∈ runs ↔ i < 8 ∧ 0 < m ∧ r + m ≤ 16 ∧ (∀ j, j < m → passes i (r + j))
        ∧ (r = 0 ∨ ¬passes i (r - 1)) ∧ (r + m = 16 ∨ ¬passes i (r + m))

/-- bs are bytes that stand at a location: those there now, or, where a write of the core's engines that no wait has acquired meets
them, the bytes that were there before it (R199, R285, R320; assumption 97). -/
def State.MayFind (s : State) (loc : Nat) (now bs : List Byte) : Prop :=
  bs.length = now.length ∧ (s.core.unseenAt loc now.length = false → bs = now)
    ∧ ∀ i, i < now.length → bs[i]? = now[i]? ∨ ∃ x ∈ s.core.unseen, x.loc ≤ loc + i ∧ bs[i]? = x.old[loc + i - x.loc]?

/-- t is s, but for what later reads may still find old: of the core's engine writes, some are found old no more, its commands
keep what has been read here, and the engine writes of other cores may have been read. -/
def Found (s t : State) : Prop :=
  t = { s with
      core := { s.core with unseen := t.core.unseen, l := t.core.l, c0 := t.core.c0, c1 := t.core.c1, k := t.core.k }
      parked := t.parked, fresh := t.fresh }
    ∧ (∀ x ∈ t.core.unseen, x ∈ s.core.unseen) ∧ t.core.bare = s.core.bare ∧ t.parked.map Core.bare = s.parked.map Core.bare

/-- Of engine writes that no wait has acquired, some are acquired (R287, R288): they are found old no more, and those that none of
the others meets stay as they are. -/
def Acquired (all : List Unseen) (gone : Unseen → Prop) (left : List Unseen) : Prop :=
  (∀ u ∈ left, u ∈ all ∧ ¬gone u)
    ∧ ∀ u ∈ all, ¬gone u → (∀ v ∈ all, v ≠ u → v.meets u.loc u.old.length = false) → u ∈ left

/-- What an operation reads, and whether a byte that no collected store supplies is poisoned (R126, R287, R304, R342, R399). -/
def Finds (s : State) (o : GOp) (bs : List Byte) (bad : Bool) (t : State) : Prop :=
  let now := (s.look o.pa o.size o.key).1
  (o.lost = true → bs = List.replicate o.size 0#8 ∧ (bad = true ↔ o.overlay = [] ∨ none ∈ o.overlay) ∧ t = s)
    ∧ (o.lost = false →
      (bad = true ↔ (o.overlay = [] ∧ (s.look o.pa o.size o.key).2 = true)
        ∨ ∃ i, o.overlay[i]? = some none ∧ (s.look (o.pa + i) 1 o.key).2 = true)
      ∧ (match o.kind with | .load _ => s.MayFind o.pa now bs | _ => bs = now)
      ∧ Found s t)

/-- The operation joins the outstanding ones of the core (R28, R125, R306; assumption 13): one on bytes of its own stashed lines
that nothing earlier holds back is made at once, a load or an atomic operation having read, a store having written. -/
def Joins (u : State) (hit : Option (Nat × Nat)) (o : GOp) (t : State) : Prop :=
  let k := u.core.ops.length
  let p := { o with serial := u.pkg.serial }
  let v := u.addOp o
  let read := v.readOp p
  let writes := fun (w : State) (bs : List Byte) => w.put (.instr u.core.num o.order) o.pa bs o.key
  let joined := fun (w : State) (q : GOp) => w.mapCore fun c => { c with ops := c.ops.set k q }
  (hit = none ∨ u.holds o u.core.ops = true → t = v)
    ∧ (hit.isSome = true → u.holds o u.core.ops = false →
      (o.kind = .store → t = joined (writes v (natBytes o.size o.data.toNat)) { p with size := 0 })
      ∧ (o.kind ≠ .store → t = joined (if read.1.2 then read.2 else match o.kind.newBytes o.data read.1.1 with
          | some bs => writes read.2 bs
          | none => read.2) { p with got := some read.1, overtaken := read.2.core.unseenAt o.pa o.size }))

/-! ### Translation (R375, R376) -/

/-- The entry of a context's tables at a physical address, read at its home under the key of PTBASE. -/
def State.Pte (s : State) (ctx pa : Nat) (e : Word) : Prop :=
  s.lookHome pa 8 (s.pkg.ctx ctx).ptkey = (natBytes 8 e.toNat, false)

/-- The first row of R376: an entry that its own bits refuse at a level. -/
def PteRefused (level : Nat) (e : Word) : Prop :=
  (e.getLsbD 0 = e.getLsbD 8) ∨ e.getLsbD 4 = true ∨ (e.getLsbD 11 = true ∧ e.getLsbD 8 = false) ∨ e.extractLsb' 6 2 = 3#2
    ∨ (e.getLsbD 10 = true ∧ level ≠ 0) ∨ (e.getLsbD 9 = true ∧ 2 < level)

/-- The walk for an address reads a table at a level (R375). -/
inductive AtTable (s : State) (ctx va : Nat) : Nat → Nat → Prop where
  | root : AtTable s ctx va 4 (4096 * ((s.pkg.ctx ctx).ptbase.extractLsb' 12 40).toNat)
  | next (level table : Nat) (e : Word) : AtTable s ctx va (level + 1) table →
      s.Pte ctx (table + 8 * (va / 2 ^ (12 + 9 * (level + 1)) % 512)) e → ¬PteRefused (level + 1) e → e.getLsbD 8 = false →
      e.getLsbD 9 = false → AtTable s ctx va level (s.pkg.ptePa e)

/-- The access that a page refuses: its cause, and the code that TRAPINFO2 carries (R376, R390). -/
def Page.Refuses (pg : Page) (acc : Acc) (cause : BitVec 5) (code : Word) : Prop :=
  match acc with
  | .fetch => pg.x = false ∧ cause = 9#5 ∧ code = 3#64
  | .read => pg.r = false ∧ cause = 9#5 ∧ code = 1#64
  | .write => pg.w = false ∧ cause = 11#5 ∧ code = 2#64
  | .rmw => (pg.r = false ∧ cause = 9#5 ∧ code = 1#64) ∨ (pg.r = true ∧ pg.w = false ∧ cause = 11#5 ∧ code = 2#64)
  | .probe => False

/-- The code of an access in TRAPINFO2 (R390). -/
def AccessCode (acc : Acc) (code : Word) : Prop :=
  match acc with
  | .write => code = 2#64
  | .fetch => code = 3#64
  | .read | .rmw | .probe => code = 1#64

/-! ### Vectors (R30 to R34, R131 to R136, R155) -/

/-- The sources can be read (R28, R30, R31, R395): no queue is named twice, each queue named is one that the core consumes
and shows its oldest entry, and nothing that they deliver is poisoned. -/
def State.delivers (s : State) (srcs : List VSrc) : Prop :=
  (srcs.filterMap VSrc.queue).Nodup
    ∧ ∀ v ∈ srcs, s.core.srcPoisoned v = false
      ∧ ∀ q, VSrc.queue v = some q → q ≠ 0#3 ∧ q ≠ 4#3 ∧ (s.core.visible q).isSome = true

/-- The core after the pops of its sources. -/
def Core.afterPops (c : Core) (srcs : List VSrc) : Core :=
  { c with queues := Vector.ofFn fun q =>
      if VSrc.pop (BitVec.ofNat 3 q.val) ∈ srcs then (c.queues[q]).tail else c.queues[q] }

/-- The destination can be written (R31, R63, R132): a push outside a block, onto a queue that the core fills and that has
room once the sources have been popped. -/
def State.accepts (s : State) (srcs : List VSrc) (d : VDst) : Prop :=
  match d with
  | .reg _ => True
  | .push q =>
    s.core.block = none ∧ (q = 0#3 ∨ 5 ≤ q.toNat) ∧ ((s.core.afterPops srcs).queues[q.toNat]'q.isLt).length < 32

/-- The core with an image on its way to a vector destination: the lanes that pass the block of a register, or the place
that a push reserves. -/
def Core.withV (c : Core) (d : VDst) (lat : Nat) (img : VecImg) : Core :=
  match d with
  | .reg n => { c with flight := c.flight ++ [⟨c.cycle + lat, c.issued, .v (c.vslot n) c.passMask img⟩] }
  | .push q =>
    { c with
      queues := c.queues.set q.toNat (c.queues[q.toNat]'q.isLt ++ [⟨c.ticket, none, 0#64⟩]) q.isLt
      ticket := c.ticket + 1
      flight := c.flight ++ [⟨c.cycle + lat, c.issued, .fill q c.ticket img⟩] }

/-- The instruction pops its sources, sends the lanes f to d in lat cycles and changes nothing else. -/
def WritesV (i : Instr) (s : State) (srcs : List VSrc) (d : VDst) (lat : Nat) (f : Nat → Lane) : Prop :=
  Goes i s { s with core := (s.core.afterPops srcs).withV d lat (ofLanes f) }

/-- Lane k that a source delivers. -/
def State.lane (s : State) (v : VSrc) (k : Nat) : Lane := laneOf (s.core.readSrc v) k

/-- The words that a vector access makes (R155): those with a lane that passes the block. -/
def State.accesses (s : State) (i : Nat) : Prop := i < 8 ∧ ∃ k, k / 16 = i ∧ k < 128 ∧ s.core.passMask.getLsbD k = true

/-- The words of a vector access stand at the offsets o: inside the scratchpad, in banks that differ, each free to be
touched. -/
def State.WordsAt (s : State) (base : Word) (stride : Int) (o : Nat → Nat) (writes : Bool) : Prop :=
  (∃ p, AtLocal base 64 p ∧ ∀ i, s.accesses i → (o i : Int) = p + 64 * (i * stride)) ∧
  (∀ i, s.accesses i → o i + 64 ≤ Config.scratchBytes)
    ∧ (∀ i j, s.accesses i → s.accesses j → i ≠ j → o i / 64 % 31 ≠ o j / 64 % 31)
    ∧ ∀ i, s.accesses i →
      WindowOpen s (s.core.windowAt (o i)) writes

/-! ### Waits and steps of a core -/

/-- The instruction waits: the effects that it has made stand in u, the program counter stays, and one held cycle passes
(R28). -/
def Waits (i : Instr) (s u : State) (w : Wait) : Prop := exec i s = .next (u.stall w)

/-- The operation at index k of the core is o, no earlier operation and no ELAPP holds it back (R288, R347), and the link that it
takes has room (R428). -/
def Ready (s : State) (k : Nat) (o : GOp) : Prop :=
  s.core.ops[k]? = some o ∧ s.holds o (s.core.ops.take k) = false ∧ s.linkFull o = false

/-- The core without the operation at index k, and without the fences that nothing precedes any more: with such a one goes what
had reached the core of its engines' writes (R288 row 4; assumption 97). -/
def Core.without (c : Core) (k : Nat) : Core :=
  let d := { c with ops := dropFences c.work (c.ops.eraseIdx k) }
  if d.ops.length = (c.ops.eraseIdx k).length then d else d.observeShown

/-- The cores agree but for the activity counts and what a waiting WFE has seen. -/
def SameCore (a b : Core) : Prop := b = { a with activity := b.activity, wfe := b.wfe }

/-- t is u, but for the activity counts of the core in front and what its waiting WFE has seen. -/
def Becomes (u t : State) : Prop := SameCore u.core t.core ∧ t = { u with core := t.core }

/-- A step of the package happens and makes the state u. -/
def Makes (i : Instr) (s u : State) : Prop := ∃ t, exec i s = .next t ∧ Becomes u t

/-! ### Engine commands (R56, R193, R258, R282) -/

/-- The pages of extents, each translated as a whole from the state that the one before it left; a local extent has none.
u is s after them. -/
def Pins (s : State) : List (Word × Nat × Acc) → State → List Page → Prop
  | [], u, pins => u = s ∧ pins = []
  | (a, n, acc) :: r, u, pins => ∃ v p q, pins = p ++ q ∧ Pins v r u q
      ∧ if a.getLsbD 63 = true ∨ n = 0 then v = s ∧ p = [] else s.translateExtent s.core.ctx a.toNat n acc = (v, .ok p)

/-- A local range lies in the scratchpad. -/
def Inside (a : Word) (n : Nat) : Prop :=
  a.getLsbD 63 = true → n ≠ 0 → a.extractLsb' 22 41 = 0#41 ∧ (a.extractLsb' 0 22).toNat + n ≤ Config.scratchBytes

/-- The instruction puts a command at the end of a queue with its operands, bound and pages captured, in the state u that
its translations leave; while the queue is full it waits. `f` fills in what the kind of command captures besides. -/
def Enqueues (i : Instr) (s u : State) (q : EngineQ) (bound : BitVec 20) (d a b c : Reg) (pins : List Page)
    (f : Cmd → Cmd := id) (g : Core → Core := id) : Prop :=
  let x := s.core.getX
  let e := u.core.queue q
  let m := f {
    word := wordOf i, instr := i, d := x d, a := x a, b := x b, c := x c, seq := e.next, order := s.core.issued
    left := if bound = 0#20 then none else some (16 * bound.toNat), since := none, pins := pins, hold := [], nest := []
    qfmt := 0#64, noted := (0, 0), spoilt := false, olds := [], nth := e.count, status := .queued, sweep := Sweep.start, begun := false, refused := none
    stop := none }
  (e.cmds.length < 32 →
    Goes i s { u with core := g (u.core.setQueue q { e with cmds := e.cmds ++ [m], next := e.next + 1#16, count := e.count + 1 }) })
    ∧ (32 ≤ e.cmds.length → Waits i s u (.engine q))

/-- The head of a queue may begin (R194, R258, R260): queued, with no trap of its own, paced unless it begins again (assumption
99), and every access and EL instruction before it done. -/
def State.mayBegin (s : State) (q : EngineQ) (m : Cmd) (r : List Cmd) : Prop :=
  (s.core.queue q).cmds = m :: r ∧ s.engineRuns = true ∧ m.status = .queued ∧ m.refused = none
    ∧ ((s.core.queue q).last = some m.order ∨ ∀ t, (s.core.queue q).began = some t → t + s.core.gap q ≤ s.core.cycle)
    ∧ (∀ o ∈ s.core.ops, m.order ≤ o.order ∨ (o.kind.reads = false ∧ o.kind.writes = false))
    ∧ ∀ w ∈ s.core.work, m.order ≤ w.order

/-- The head of a queue runs, and cycles of its bound remain. -/
def State.hasRunning (s : State) (q : EngineQ) (m : Cmd) (r : List Cmd) : Prop :=
  (s.core.queue q).cmds = m :: r ∧ s.engineRuns = true ∧ m.status = .running
    ∧ ∀ n, m.left = some n → (match m.since with | some t => s.core.meter - t | none => 0) < n

/-- The head of a queue has run out of its bound at a boundary: no output of several entries is open (R195), and a short command
of the lattice has not made its effect (R197, R200). -/
def State.hasOverrun (s : State) (q : EngineQ) (m : Cmd) (r : List Cmd) : Prop :=
  (s.core.queue q).cmds = m :: r ∧ s.engineRuns = true ∧ m.status = .running
    ∧ m.sweep.pushed = 0 ∧ (q = .l → latticeKind m.target.instr ≠ .short ∨ m.target.sweep.done ≠ 1) ∧ ∃ n, m.left = some n ∧ n ≤ (match m.since with | some t => s.core.meter - t | none => 0)

/-- The core with x at the head of a queue, which begins now or not. -/
def Core.withHead (c : Core) (q : EngineQ) (x : Cmd) (r : List Cmd) (begins : Bool) : Core :=
  let e := { c.queue q with cmds := x :: r }
  c.setQueue q (if begins then { e with began := some c.cycle, last := some x.order } else e)

/-- The command as it begins. -/
def Cmd.beginning (m : Cmd) (c : Core) (qfmt : Word) : Cmd :=
  { m with status := .running, since := some c.meter, begun := true, qfmt := qfmt }

/-- A local range that no window holds, at offset o. -/
def Plain (s : State) (a : Word) (n o : Nat) : Prop :=
  a.getLsbD 63 = true ∧ a.extractLsb' 22 41 = 0#41 ∧ o = (a.extractLsb' 0 22).toNat ∧ o + n ≤ Config.scratchBytes
    ∧ (∀ k, k < n → s.core.windowAt (o + k) = none) ∧ s.core.scratchPoisoned o n = false

/-! ### Strands -/

/-- The core runs a new strand of a record, in the state of R242 and R243. -/
def Started (c : Core) (r : ContRec) (gang : Option Nat) : Prop :=
  c.strand = some ⟨r.join, r.affinity, gang, r.prio, r.index⟩ ∧ c.pc = r.code ∧ c.super = false ∧ c.collect = false
    ∧ c.getX 1#6 = 0x7FFFFFFFFFFFFFF8#64 ∧ c.getX 3#6 = r.frame ∧ c.getX 5#6 = r.index.setWidth 64
    ∧ (∀ k : Reg, k ≠ 1#6 → k ≠ 3#6 → k ≠ 5#6 → c.getX k = 0#64)
    ∧ c.strandReg = 0#16 ++ r.affinity ++ 0#5 ++ BitVec.ofBool gang.isSome ++ r.prio ++ r.index ∧ c.frame = r.frame
    ∧ c.v = Vector.replicate 48 0#4096 ∧ c.p = Vector.replicate 16 0#128 ∧ c.flight = []
    ∧ c.queues = Vector.replicate 8 [] ∧ c.buffer = [] ∧ c.block = none ∧ c.ops = [] ∧ c.work = [] ∧ c.wait = none
    ∧ c.rrb = 0#64 ∧ c.livedepth = 0#64 ∧ c.tags = 0#64 ∧ c.tagdrop = 0#64
    ∧ c.qfmt = Vector.replicate 8 0#64 ∧ c.pace = Vector.replicate 4 0#20 ∧ c.l = EngQueue.empty
    ∧ c.c0 = EngQueue.empty ∧ c.c1 = EngQueue.empty ∧ c.k = EngQueue.empty ∧ c.wins = Vector.replicate 8 none
    ∧ c.elbase = 0#22 ∧ c.elcap = 0#22

/-- The core of u in front is free in t: nothing of its strand's queues and engines is left, its registers and its resident
state stand, and one cycle has passed. Of the merges only the times that R186 counts may have been settled. -/
def Freed (u t : State) : Prop :=
  t.core.strand = none ∧ t.core.super = true ∧ t.core.ops = [] ∧ t.core.work = [] ∧ t.core.flight = [] ∧ t.core.pending = []
    ∧ (u.core.flight = [] → ∀ r, t.core.getX r = u.core.getX r) ∧ t.core.queues = Vector.replicate 8 []
    ∧ t.core.wins = Vector.replicate 8 none
    ∧ t.core.resident = u.core.resident ∧ t.core.scratch = u.core.scratch ∧ t.core.stats = u.core.stats
    ∧ t.core.lat = u.core.lat ∧ (u.core.flight = [] → t.core.trapvec = u.core.trapvec) ∧ t.core.cycle = u.core.cycle + 1
    ∧ t.parked = u.parked ∧ t.pkg = { u.pkg with now := t.pkg.now, merges := t.pkg.merges } ∧ t.schedule = u.schedule
    ∧ (t.pkg.merges.map fun m => { m with age := 0, since := none }) = u.pkg.merges.map fun m => { m with age := 0, since := none }

end Sys2Proof.Machine
end

