-- ==== Sys2Proof/Certificates/Slice0/Obligations.lean ====
section
/-! DEFINITION. The statements about the model, in the words of Sys2Proof/Safety.lean. OBLIGATIONS.json gives the rule of spec/ or
the log entry that each one formalises. -/

open Sys2Proof Sys2Proof.Machine

/-! ### Scalar families -/

/-- SALU (R115): each result lands in x[D] one cycle after the issue, and nothing else changes. -/
def Obligations.ScalarAluResults : Prop :=
  ∀ (s : State) (d a b c : Reg),
    let x := s.core.getX a
    let y := s.core.getX b
    (s.executes [a, b] →
      WritesX (.add d a b) s d 1 (x + y) ∧ WritesX (.sub d a b) s d 1 (x - y)
      ∧ WritesX (.and d a b) s d 1 (x &&& y) ∧ WritesX (.or d a b) s d 1 (x ||| y)
      ∧ WritesX (.xor d a b) s d 1 (x ^^^ y) ∧ WritesX (.andn d a b) s d 1 (x &&& ~~~y)
      ∧ WritesX (.shl d a b) s d 1 (x <<< (y.toNat % 64)) ∧ WritesX (.shr d a b) s d 1 (x >>> (y.toNat % 64))
      ∧ WritesX (.sar d a b) s d 1 (x.sshiftRight (y.toNat % 64))
      ∧ WritesX (.rotl d a b) s d 1 (x.rotateLeft (y.toNat % 64))
      ∧ WritesX (.slt d a b) s d 1 (if x.toInt < y.toInt then 1#64 else 0#64)
      ∧ WritesX (.sltu d a b) s d 1 (if x.toNat < y.toNat then 1#64 else 0#64)
      ∧ WritesX (.min d a b) s d 1 (if y.toInt < x.toInt then y else x)
      ∧ WritesX (.max d a b) s d 1 (if x.toInt < y.toInt then y else x)
      ∧ WritesX (.minu d a b) s d 1 (if y.toNat < x.toNat then y else x)
      ∧ WritesX (.maxu d a b) s d 1 (if x.toNat < y.toNat then y else x))
    ∧ (s.executes [a, b, c] → WritesX (.sel d a b c) s d 1 (if s.core.getX c ≠ 0#64 then x else y))
    ∧ (s.executes [a] →
      (∃ n, WritesX (.clz d a) s d 1 (BitVec.ofNat 64 n) ∧ n ≤ 64 ∧ (∀ k, k < n → x.getLsbD (63 - k) = false)
        ∧ (n < 64 → x.getLsbD (63 - n) = true))
      ∧ (∃ n, WritesX (.ctz d a) s d 1 (BitVec.ofNat 64 n) ∧ n ≤ 64 ∧ (∀ k, k < n → x.getLsbD k = false)
        ∧ (n < 64 → x.getLsbD n = true))
      ∧ WritesX (.popc d a) s d 1 (BitVec.ofNat 64 ((List.range 64).filter x.getLsbD).length)
      ∧ WritesX (.bswap d a) s d 1
          (byteOf x 0 ++ byteOf x 1 ++ byteOf x 2 ++ byteOf x 3 ++ byteOf x 4 ++ byteOf x 5 ++ byteOf x 6 ++ byteOf x 7))

/-- SALUI, SIMM and SADDR (R36, R116, R119, R120): immediates sign-extend but for ORI and XORI, whose immediates zero-extend;
the bank, the row and the number of the word at a scratchpad offset, after two cycles. -/
def Obligations.ImmediateResults : Prop :=
  (∀ (s : State) (d a : Reg) (imm : BitVec 32) (n : BitVec 6),
    let x := s.core.getX a
    (s.executes [a] →
      WritesX (.addi d a imm) s d 1 (x + imm.signExtend 64) ∧ WritesX (.andi d a imm) s d 1 (x &&& imm.signExtend 64)
      ∧ WritesX (.ori d a imm) s d 1 (x ||| imm.setWidth 64) ∧ WritesX (.xori d a imm) s d 1 (x ^^^ imm.setWidth 64)
      ∧ WritesX (.shli d a n) s d 1 (x <<< n.toNat) ∧ WritesX (.shri d a n) s d 1 (x >>> n.toNat)
      ∧ WritesX (.sari d a n) s d 1 (x.sshiftRight n.toNat)
      ∧ WritesX (.slti d a imm) s d 1 (if x.toInt < imm.toInt then 1#64 else 0#64)
      ∧ WritesX (.sltiu d a imm) s d 1 (if x.toNat < (imm.signExtend 64).toNat then 1#64 else 0#64)
      ∧ WritesX (.limmh d a imm) s d 1 (imm ++ x.extractLsb' 0 32))
    ∧ (s.executes [] → WritesX (.limm d imm) s d 1 (imm.signExtend 64)))
  ∧ (∀ (s : State) (d a : Reg), s.executes [a] →
    let w := (s.core.getX a).toNat / 64 % 2 ^ 16
    WritesX (.bank d a) s d 2 (BitVec.ofNat 64 (w % 31)) ∧ WritesX (.rowof d a) s d 2 (BitVec.ofNat 64 (w / 31))
    ∧ WritesX (.lword d a) s d 2 (BitVec.ofNat 64 w))

/-- SMUL (R117, R118): products after three cycles, quotients and remainders after twelve; the results for a zero divisor
and for the quotient that overflows are those of R118. -/
def Obligations.MultiplyDivideResults : Prop :=
  ∀ (s : State) (d a b : Reg), s.executes [a, b] →
    let x := s.core.getX a
    let y := s.core.getX b
    let minusOne := BitVec.allOnes 64
    WritesX (.mul d a b) s d 3 (x * y)
    ∧ WritesX (.mulh d a b) s d 3 (BitVec.ofInt 64 (x.toInt * y.toInt / 2 ^ 64))
    ∧ WritesX (.mulhu d a b) s d 3 (BitVec.ofNat 64 (x.toNat * y.toNat / 2 ^ 64))
    ∧ WritesX (.div d a b) s d 12 (if y = 0#64 then minusOne else BitVec.ofInt 64 (x.toInt.tdiv y.toInt))
    ∧ WritesX (.divu d a b) s d 12 (if y = 0#64 then minusOne else BitVec.ofNat 64 (x.toNat / y.toNat))
    ∧ WritesX (.rem d a b) s d 12 (if y = 0#64 then x else BitVec.ofInt 64 (x.toInt.tmod y.toInt))
    ∧ WritesX (.remu d a b) s d 12 (if y = 0#64 then x else BitVec.ofNat 64 (x.toNat % y.toNat))

/-! ### System registers -/

/-- MOVSR and TICK (R44 to R46, R121, R206, R260, R276, R307, R372, R389): what each system register reads, two cycles after the
issue. A register numbered 0x100 or above is read in supervisor mode. -/
def Obligations.SystemRegisterReads : Prop :=
  ∀ (s : State) (d : Reg), s.executes [] →
    let c := s.core
    let x := s.pkg.ctx c.ctx
    let bit := BitVec.ofBool
    let part := s.pkg.partition x.part
    let head := fun st : CmdStatus => bit (c.l.cmds.any fun m => m.status == st)
    (∀ r : SysReg, c.super = true ∨ r.code.toNat < 0x100 → (r = .lstat → c.l.cmds.length ≤ 32) →
      WritesX (.movsr d r) s d 2 (match r with
        | .status => 0#40 ++ c.pblkPred ++ c.pblkCount ++ c.pblkPat ++ 0#6 ++ bit c.collect ++ bit c.super
        | .rrb => 0#53 ++ c.pbase ++ 0#3 ++ c.vbase
        | .livedepth => 0#52 ++ c.pdepth ++ 0#2 ++ c.vdepth
        | .tags => c.tags
        | .tagdrop => c.tagdrop
        | .outst => 0#18 ++ BitVec.ofNat 6 c.classK ++ 0#2 ++ BitVec.ofNat 6 c.classA ++ 0#1 ++ BitVec.ofNat 7 c.classC
            ++ BitVec.ofNat 12 c.classS ++ BitVec.ofNat 12 c.classG
        | .tick => BitVec.ofNat 64 (Config.ticksOf c.time)
        | .coreid => BitVec.ofNat 64 (256 * s.pkg.rank c.num + c.num)
        | .strand => c.strandReg
        | .frame => c.frame
        | .elbase => 0#42 ++ c.elbase
        | .elcap => 0#42 ++ c.elcap
        | .lstat => c.lat.lastSeq ++ 0#8 ++ c.lat.fault ++ c.lat.nullPairs ++ 0#5 ++ bit c.lat.recAlt ++ head .stopped
            ++ head .running ++ 0#2 ++ BitVec.ofNat 6 (c.l.cmds.filter fun m => m.status == .queued).length
        | .normin => c.lat.normin
        | .normout => c.lat.normout
        | .qfmt q => c.qfmt[q.toNat]'q.isLt
        | .pace q => 0#44 ++ c.pace[q.code.toNat]'q.code.isLt
        | .trapcause => c.trapcause
        | .trappc => c.trappc
        | .trapinfo n => c.trapinfo[n.toNat]'n.isLt
        | .trapvec => c.trapvec
        | .savearea => x.desc.extractLsb' 204 52 ++ 0#12
        | .ctxid => BitVec.ofNat 64 c.ctx
        | .ptbase => 0#6 ++ x.ptbase.extractLsb' 12 46 ++ 0#12
        | .keyid => x.keymask
        | .touched => 0#54 ++ x.touched
        | .part => part.extractLsb' 32 16 ++ 0#12 ++ x.desc.extractLsb' 8 4 ++ 0#9 ++ part.extractLsb' 8 7 ++ 0#9
            ++ part.extractLsb' 0 7
        | .pkgpos => s.pkg.domain
        | .dieen => 0#54 ++ s.pkg.dieen
        | .coreen k => 0#48 ++ s.pkg.coreen[k.toNat]'k.isLt
        | .dbgctl => 0#62 ++ bit c.step ++ bit x.debug))
    ∧ WritesX (.tickRead d) s d 2 (BitVec.ofNat 64 (Config.ticksOf c.time))

/-- MOVRS (R44, R102, R122, R384): the write is on its way for two cycles; a register that is read-only in the mode keeps
its value, and DBGCTL takes no step bit while debug is not enabled. A QFMT value that names no conversion traps.
What a write of a system register leaves when it lands (R45, R46, R101, R260, R389): the fields that it stores, clamped
where the layout says so; every other system register, and a read-only one, keeps its value. -/
def Obligations.SystemRegisterWrites : Prop :=
  (∀ (s : State) (r : SysReg) (a : Reg), s.executes [a] → (s.core.super = true ∨ r.code.toNat < 0x100) →
    let v := s.core.getX a
    let sent := if r = .dbgctl ∧ (s.pkg.ctx s.core.ctx).debug = false then 0#64 else v
    let writable := s.core.super = true
      ∨ (match r with | .rrb | .livedepth | .frame | .elbase | .elcap | .qfmt _ | .pace _ => True | _ => False)
    let refused := (match r with | .qfmt _ => badPair (fieldNat v 0 5) (fieldNat v 8 5) = true | _ => False)
    (¬refused → writable →
      Goes (.movrs r a) s
        { s with core := { s.core with flight := s.core.flight ++ [⟨s.core.cycle + 2, s.core.issued, .sys r sent⟩] } })
    ∧ (¬writable → Goes (.movrs r a) s s)
    ∧ (refused → Traps (.movrs r a) s 14#5 (wordOf (.movrs r a)) 0#64 0#64))
  ∧ (∀ (s : State) (r : SysReg) (v : Word),
    let t : State := { s with core := s.core.land (.sys r v) }
    (∀ q, q ≠ r → t.readSys q = s.readSys q)
    ∧ t.readSys r = (match r with
      | .status => 0#40 ++ v.extractLsb' 8 16 ++ (s.readSys .status).extractLsb' 0 8
      | .rrb => 0#53 ++ v.extractLsb' 8 3 ++ 0#3 ++ v.extractLsb' 0 5
      | .livedepth => 0#52 ++ BitVec.ofNat 4 (min 8 (fieldNat v 8 4)) ++ 0#2 ++ BitVec.ofNat 6 (min 32 (fieldNat v 0 6))
      | .frame => v
      | .elbase => 0#42 ++ v.extractLsb' 0 22
      | .elcap => 0#42 ++ v.extractLsb' 0 22
      | .qfmt _ => 0#45 ++ v.extractLsb' 16 3 ++ 0#3 ++ v.extractLsb' 8 5 ++ 0#3 ++ v.extractLsb' 0 5
      | .pace _ => 0#44 ++ v.extractLsb' 0 20
      | .trapcause => v.extractLsb' 62 2 ++ 0#57 ++ v.extractLsb' 0 5
      | .trappc => v
      | .trapinfo _ => v
      | .trapvec => v.extractLsb' 3 61 ++ 0#3
      | .dbgctl => 0#62 ++ v.extractLsb' 1 1 ++ (s.readSys .dbgctl).extractLsb' 0 1
      | q => s.readSys q))

/-! ### Prefix blocks and transfers -/

/-- R62: where lane 0 of the open block does not pass, a covered instruction outside the vector unit issues, counts the
block down and does nothing else. -/
def Obligations.ClosedLaneSkips : Prop :=
  ∀ (i : Instr) (s : State) (b : Block), laneZero i = true → s.core.block = some b →
    b.value.getLsbD 0 ≠ b.pat.getLsbD 0 → (s.core.super = true ∨ forUser i = true) → Goes i s s

/-- NOP and PBLK (R58, R61): PBLK opens a block over the n + 1 words that follow, with the predicate as it stands.
BR, BRC, JR and RET (R107, R108, R110 to R112): the target, two cycles later, or the next word where the condition does
not hold. RET closes calls of collecting mode in `Obligations.CollectingCalls`.
CALL (R109): x1 receives the address of the next word, and the target is relative to pc when A is 0, else to x[A]. -/
def Obligations.BranchesTransfer : Prop :=
  (∀ s : State,
    (s.executes [] → Goes .nop s s)
    ∧ ∀ (p : PReg) (n : BitVec 3) (pat : BitVec 8), s.core.block = none → s.core.predPoisoned p = false →
      Goes (.pblk p n pat) s { s with core := { s.core with block := some ⟨p, s.core.getP p, n.toNat + 1, pat⟩ } })
  ∧ (∀ (s : State) (a b : Reg) (n : BitVec 6) (off : BitVec 32) (cc : Cond),
    let x := s.core.getX a
    let there := s.core.pc + off.signExtend 64 <<< 3
    let holds := fun y : Word => match cc with
      | .eq => x = y
      | .ne => x ≠ y
      | .lt => x.toInt < y.toInt
      | .ge => y.toInt ≤ x.toInt
      | .ltu => x.toNat < y.toNat
      | .geu => y.toNat ≤ x.toNat
      | .bits => x.getLsbD (y.toNat % 64) = true
      | .bitc => x.getLsbD (y.toNat % 64) = false
    (s.transfers [] → codeAddress there → Issues (.br off) s s there 2)
    ∧ (s.transfers [a, b] → codeAddress there → holds (s.core.getX b) → Issues (.brc cc a (.reg b) off) s s there 2)
    ∧ (s.transfers [a, b] → ¬holds (s.core.getX b) → Goes (.brc cc a (.reg b) off) s s)
    ∧ (s.transfers [a] → codeAddress there → holds (n.setWidth 64) → Issues (.brc cc a (.imm n) off) s s there 2)
    ∧ (s.transfers [a] → ¬holds (n.setWidth 64) → Goes (.brc cc a (.imm n) off) s s)
    ∧ (s.transfers [a] → codeAddress (x + off.signExtend 64 <<< 3) →
        Issues (.jr a off) s s (x + off.signExtend 64 <<< 3) 2)
    ∧ (s.transfers [1#6] → codeAddress (s.core.getX 1#6) → s.core.collect = false →
        Issues .ret s s (s.core.getX 1#6) 2))
  ∧ (∀ (s : State) (a : Reg) (off : BitVec 32), s.transfers [a] → s.core.collect = false →
    let there := (if a = 0#6 then s.core.pc else s.core.getX a) + off.signExtend 64 <<< 3
    codeAddress there → Issues (.call a off) s (s.withX 1#6 1 (s.core.pc + 8#64)) there 2)

/-- LOOP (R113, R114): x[A] counts down and stays zero, RRB moves both bases down by one, every rotating slot ages, and the
transfer is made while the count is not zero.
PHASE (R257, R264, R265): of the pairs (size, entry) in the table, the first of those with the least size that is x[A] or
more gives the target, three cycles later. -/
def Obligations.LoopAndPhase : Prop :=
  (∀ (s : State) (a : Reg) (off : BitVec 32), s.transfers [a] →
    let n := s.core.getX a
    let left := if n = 0#64 then 0#64 else n - 1#64
    let age := fun g : BitVec 6 => BitVec.ofNat 6 (min 63 (g.toNat + 1))
    let c := s.core
    let u : State := { s with core := { c with
      vage := c.vage.map age
      page := c.page.map age
      vbase := c.vbase - 1#5
      pbase := c.pbase - 1#3
      flight := c.flight ++ [⟨c.cycle + 1, c.issued, .x a left⟩] } }
    let there := c.pc + off.signExtend 64 <<< 3
    (left = 0#64 → Goes (.loop a off) s u) ∧ (left ≠ 0#64 → codeAddress there → Issues (.loop a off) s u there 2))
  ∧ (∀ (s v : State) (a : Reg) (off : BitVec 32) (entry : Word), s.transfers [a] →
    s.PhaseTakes (s.core.pc + off.signExtend 64 <<< 3) (s.core.getX a) v entry → codeAddress entry →
    Issues (.phase a off) s v entry 3)

/-- R44, R401: in user mode the privileged instructions and the registers numbered 0x100 or above raise cause 3.
R63: a transfer, DONE or SYSC that a block covers raises cause 4.
R48: a target off a word's boundary, in the local space or beyond the virtual addresses stops a transfer. -/
def Obligations.PrivilegeAndTransferTraps : Prop :=
  (∀ s : State, s.core.super = false →
    (∀ d r, 0x100 ≤ r.code.toNat →
      Traps (.movsr d r) s 3#5 (wordOf (.movsr d r)) (0#52 ++ r.code) 0#64)
    ∧ (∀ r a, 0x100 ≤ r.code.toNat →
      Traps (.movrs r a) s 3#5 (wordOf (.movrs r a)) (0#52 ++ r.code) 0#64)
    ∧ (∀ skip, Traps (.tret skip) s 3#5 (wordOf (.tret skip)) 0#64 0#64)
    ∧ (∀ a, Traps (.ctxsv a) s 3#5 (wordOf (.ctxsv a)) 0#64 0#64)
    ∧ (∀ a, Traps (.ctxld a) s 3#5 (wordOf (.ctxld a)) 0#64 0#64)
    ∧ (∀ kind d a x, Traps (.tlbinv kind d a x) s 3#5 (wordOf (.tlbinv kind d a x)) 0#64 0#64)
    ∧ ∀ a key, Traps (.keyset a key) s 3#5 (wordOf (.keyset a key)) 0#64 0#64)
  ∧ (∀ (i : Instr) (s : State), s.core.block.isSome = true → (s.core.super = true ∨ forUser i = true) →
    (match i with
      | .pblk .. | .br .. | .brc .. | .call .. | .jr .. | .loop .. | .callc .. | .phase .. | .ret | .done | .sysc _ | .tret _ =>
        True
      | _ => False) →
    Traps i s 4#5 (wordOf i) 0#64 0#64)
  ∧ (∀ (s : State) (a b : Reg) (off : BitVec 32),
    let there := s.core.pc + off.signExtend 64 <<< 3
    let from_ := s.core.getX a + off.signExtend 64 <<< 3
    let called := (if a = 0#6 then s.core.pc else s.core.getX a) + off.signExtend 64 <<< 3
    let stops := fun (i : Instr) (t : Word) =>
      (t.extractLsb' 0 3 ≠ 0#3 → Traps i s 5#5 t 0#64 0#64)
      ∧ (t.extractLsb' 0 3 = 0#3 → t.getLsbD 63 = true → Traps i s 6#5 t 0#64 0#64)
      ∧ (t.extractLsb' 0 3 = 0#3 → t.getLsbD 63 = false → t.extractLsb' 57 6 ≠ 0#6 → Traps i s 9#5 t 0#64 3#64)
    (s.transfers [] → stops (.br off) there)
    ∧ (s.transfers [a, b] → s.core.getX a = s.core.getX b → stops (.brc .eq a (.reg b) off) there)
    ∧ (s.transfers [a] → stops (.jr a off) from_ ∧ stops (.call a off) called)
    ∧ (s.transfers [a] → 1 < (s.core.getX a).toNat → stops (.loop a off) there)
    ∧ (s.transfers [1#6] → s.core.getX 1#6 ≠ Config.retireToken → (s.core.collect = true → s.core.classG < 4095) →
        stops .ret (s.core.getX 1#6)))

/-! ### Traps -/

/-- R386, R387, R389: what a trap saves and where it goes. The handler's first word issues two cycles later, or in the
cycle after the last landing in flight. -/
def Obligations.TrapEntry : Prop :=
  ∀ (s : State) (t : Trap), ∃ n : Nat,
    2 ≤ n ∧ (∀ f ∈ s.core.flight, f.land < s.core.cycle + n)
    ∧ (n = 2 ∨ ∃ f ∈ s.core.flight, f.land + 1 = s.core.cycle + n)
    ∧ s.takeTrap t = State.advance n { s with core := { s.core with
        pc := if s.core.super then s.core.trapvec + 0x40#64 else s.core.trapvec
        super := true
        trappc := s.core.pc
        trapcause := BitVec.ofBool t.engine ++ BitVec.ofBool s.core.super ++ 0#57 ++ t.cause
        trapinfo := #v[t.info0, t.info1, t.info2, t.info3]
        pblkPred := (match s.core.block with | some b => b.pred | none => 0#4)
        pblkCount := (match s.core.block with | some b => BitVec.ofNat 4 b.left | none => 0#4)
        pblkPat := (match s.core.block with | some b => b.pat | none => 0#8)
        block := none
        wait := none
        wfe := none } }

/-- SYSC and BKPT (R402, R408): their effect is their trap.
R388, R445: the first pending trap is taken in user mode before the instruction at pc, and what it stopped is kept for
TRET. A core that waits for the event of a WFE finishes that instruction first (R409). -/
def Obligations.PendingTrapsTaken : Prop :=
  (∀ (s : State) (imm : BitVec 16),
    (s.core.block = none → Traps (.sysc imm) s 23#5 (0#48 ++ imm) 0#64 0#64)
    ∧ (s.core.lane0 = true → Traps (.bkpt imm) s 22#5 1#64 0#64 0#64))
  ∧ (∀ (s : State) (p : Pending) (r : List Pending) (rest : List Choice), s.core.strand.isSome = true →
    s.core.wait = none → s.core.wfe = none → s.standsHalted = false → s.core.pending = p :: r →
    let u : State := { s with core := { s.core with
      pending := r
      taken := if p.stopped = .none then s.core.taken else p.stopped :: s.core.taken } }
    (s.core.super = false → exec (.trapEntry s.core.num) s = .next (u.takeTrap p.trap))
    ∧ (s.core.super = true → exec (.trapEntry s.core.num) s = .next s)
    ∧ (s.core.super = false → s.mayIssue = true → s.schedule = .issue s.core.num :: rest →
        step s = .next (({ u with schedule := rest } : State).takeTrap p.trap)))

/-- TRET (R403, R445, R446): user mode at TRAPPC, or at the word after it, with the block of STATUS open again, and what the
taken traps stopped resumed. -/
def Obligations.TrapReturn : Prop :=
  ∀ (s : State) (skip : Bool), s.core.super = true → s.core.block = none → s.core.pblkCount.toNat ≤ 8 →
    let c := s.core
    let n := c.pblkCount.toNat
    let m := if skip && n != 0 then n - 1 else n
    let pat := if skip && n != 0 then c.pblkPat >>> 1 else c.pblkPat
    let there := if skip then c.trappc + 8#64 else c.trappc
    codeAddress there → (m ≠ 0 → s.core.predPoisoned c.pblkPred = false) →
    Issues (.tret skip) s
      { s with core := c.taken.foldl Core.resumeStop { c with
        super := false
        gbar := if skip then leaveBars false c.gbar else c.gbar
        barwt := if skip then c.barwt.filter fun r => r.super else c.barwt
        block := if m = 0 then none else some ⟨c.pblkPred, c.getP c.pblkPred, m, pat &&& BitVec.ofNat 8 (2 ^ m - 1)⟩
        pblkPred := 0#4, pblkCount := 0#4, pblkPat := 0#8
        taken := [] } } there 2

/-! ### Accesses of the control core -/

/-- LD and LDACQ of the scratchpad (R123, R124, R341): the extended little-endian value, five cycles later. What must precede an
access of the same memory is made first (R125), which is the model's own reading (log 13); outside every window, and where no
write of the core's engines is unseen (log 97), the value is that of the bytes as they stand. Bytes of an open list's
storage are free values.
ST and STREL to the scratchpad (R123, R128): the low bytes of x[B] stand there when the instruction has issued. -/
def Obligations.LocalAccesses : Prop :=
  (∀ (s : State) (k : LoadKind) (sc : Scope) (d a : Reg) (disp : BitVec 24) (o : Nat),
    let n := loadSize k
    let hit := s.core.windowAt o
    let v := s.settleRead o n
    let now := v.core.scratch.bytes o n
    s.executes [a] → AtLocal (s.core.getX a + disp.signExtend 64) n o → s.core.collecting = false →
    v.core.scratchPoisoned o n = false → WindowOpen s hit false →
    (s.NothingDue (.load .d) o n → v = s)
    ∧ (hit = none → s.core.inOpenStorage o n = false → s.core.unseenAt (s.core.locOf o) n = false →
      WritesX (.ld k d a disp) s d 5 (loaded k fun i => s.core.scratch.read (o + i))
      ∧ WritesX (.ldacq k sc d a disp) s d 5 (loaded k fun i => s.core.scratch.read (o + i)))
    ∧ ∃ bs t, v.MayFind (v.core.locOf o) now bs ∧ Found v t
      ∧ (v.core.inOpenStorage o n = false →
        let u := t.withX d 5 (loaded k fun i => bs.getD i 0#8)
        Goes (.ld k d a disp) s u ∧ Goes (.ldacq k sc d a disp) s u)
      ∧ (v.core.inOpenStorage o n = true →
        let x := loaded k fun i => if v.core.inOpenStorage (o + i) 1 then Config.freeByte (t.fresh + i) else bs.getD i 0#8
        let u : State := { t.withX d 5 x with fresh := t.fresh + n }
        Goes (.ld k d a disp) s u ∧ Goes (.ldacq k sc d a disp) s u))
  ∧ (∀ (s : State) (k : StoreSize) (sc : Scope) (b a : Reg) (disp : BitVec 24) (o : Nat),
    let n := storeSize k
    let hit := s.core.windowAt o
    let v := s.settleWrite o n
    let u := s.storeLocal o (natBytes n (s.core.getX b).toNat)
    s.executes [a, b] → AtLocal (s.core.getX a + disp.signExtend 64) n o → s.core.collecting = false →
    WindowOpen s hit true →
    (s.NothingDue .store o n → v = s)
    ∧ Stored v u o n (fun i => byteOf (s.core.getX b) i) ∧ Goes (.st k b a disp) s u ∧ Goes (.strel k sc b a disp) s u)

/-- LD, LDACQ, ST and STREL of global memory (R125, R128, R288, R290): the operation joins the core's outstanding ones, with
its page, its data and its order; memory and registers stand as before until it is made. That one on bytes of the core's own
stashed lines is made at its issue, unless something earlier holds it back, is the model's own reading (log 13). -/
def Obligations.GlobalAccessesIssue : Prop :=
  ∀ (s u : State) (pg : Page) (kl : LoadKind) (ks : StoreSize) (sc : Scope) (d b a : Reg) (disp : BitVec 24),
    let addr := s.core.getX a + disp.signExtend 64
    let pa := pg.pbase + (addr.toNat - pg.vbase)
    let hit := u.core.windowOf addr.toNat
    let base := fun (kind : GKind) (n : Nat) => ({ u.core.newOp 0 kind with
      pc := s.core.pc, order := s.core.issued, page := some pg, va := addr, pa := pa, size := n } : GOp)
    let known := u.core.merged addr (loadSize kl)
    let load := fun (supplied : List (Option Byte)) acq => ({ base (.load kl) (loadSize kl) with
      dst := d, acquire := acq, overlay := supplied, tainted := u.core.mergedPoison addr (loadSize kl) } : GOp)
    let store := fun rel => ({ base .store (storeSize ks) with data := s.core.getX b, release := rel } : GOp)
    let joins := fun (i : Instr) (v : State) (o : GOp) => ∃ t, Joins v hit o t ∧ Goes i s t
    (s.executes [a] → s.core.classG < 4095 → AtGlobal s addr (loadSize kl) .read u pg → WindowOpen u hit false →
      (hit = none → Goes (.ld kl d a disp) s (u.addOp (load known none))
        ∧ Goes (.ldacq kl sc d a disp) s (u.addOp (load known (some sc))))
      ∧ (∀ w l, hit = some (w, l) →
        let off := u.core.stashOffset w l addr.toNat
        let supplied := (List.range (loadSize kl)).map fun i => match known.getD i none with
          | some x => some x
          | none => if u.core.inOpenStorage (off + i) 1 then some (Config.freeByte (u.fresh + i)) else none
        let drawn : State := { u with fresh := u.fresh + loadSize kl }
        (u.core.inOpenStorage off (loadSize kl) = false →
          joins (.ld kl d a disp) u (load known none) ∧ joins (.ldacq kl sc d a disp) u (load known (some sc)))
        ∧ (u.core.inOpenStorage off (loadSize kl) = true →
          joins (.ld kl d a disp) drawn (load supplied none) ∧ joins (.ldacq kl sc d a disp) drawn (load supplied (some sc)))))
    ∧ (s.executes [a, b] → s.core.classS < 4095 → s.core.collecting = false →
      AtGlobal s addr (storeSize ks) .write u pg → WindowOpen u hit false →
      (hit = none → Goes (.st ks b a disp) s (u.addOp (store none))
        ∧ Goes (.strel ks sc b a disp) s (u.addOp (store (some sc))))
      ∧ joins (.st ks b a disp) u (store none) ∧ joins (.strel ks sc b a disp) u (store (some sc)))

/-- AMO and CAS (R300, R304, R305): in the scratchpad the old value reaches x[D] after five cycles and the new one stands
there at once; in global memory the operation joins the outstanding ones.
What an AMO and a CAS make of the old bytes of their target and of x[B] (R304, R305): the new value of the operation's
width, and the old value as the register receives it. -/
def Obligations.Atomics : Prop :=
  (∀ (s u : State) (pg : Page) (w : AmoSize) (o : MemOrder) (sc : Scope) (d a b : Reg) (disp : BitVec 24) (off : Nat),
    let addr := s.core.getX a + disp.signExtend 64
    let n := amoSize w
    let forms : List (Instr × GKind × List Reg) := [
      (.amoAdd w o sc d a b disp, .amo .add w, [a, b]), (.amoAnd w o sc d a b disp, .amo .and w, [a, b]),
      (.amoOr w o sc d a b disp, .amo .or w, [a, b]), (.amoXor w o sc d a b disp, .amo .xor w, [a, b]),
      (.amoMin w o sc d a b disp, .amo .min w, [a, b]), (.amoMax w o sc d a b disp, .amo .max w, [a, b]),
      (.amoMinu w o sc d a b disp, .amo .minu w, [a, b]), (.amoMaxu w o sc d a b disp, .amo .maxu w, [a, b]),
      (.amoSwap w o sc d a b disp, .amo .swap w, [a, b]), (.cas w o sc d a b disp, .cas w (s.core.getX d), [a, b, d])]
    ∀ f ∈ forms, s.executes f.2.2 → s.core.collecting = false →
      (AtLocal addr n off → WindowOpen s (s.core.windowAt off) true →
        let due := s.settleWrite off n
        let seen := due.mapCore fun c => c.pass (c.locOf off) n
        seen.core.scratchPoisoned off n = false →
        let old := seen.core.scratch.bytes off n
        let read := seen.pinFound s.core.issued (seen.core.locOf off) (seen.core.scratchCells off n)
        let v := (match f.2.1.newBytes (s.core.getX b) old with
          | some bs => read.storeLocal off bs
          | none => read)
        Found due read ∧ Goes f.1 s (v.withX d 5 (f.2.1.result old)))
      ∧ (s.core.classG < 4095 → AtGlobal s addr n .rmw u pg → WindowOpen u (u.core.windowOf addr.toNat) false →
        let p : GOp := { u.core.newOp 0 f.2.1 with
          pc := s.core.pc, order := s.core.issued, page := some pg, va := addr, pa := pg.pbase + (addr.toNat - pg.vbase)
          size := n, data := s.core.getX b, dst := d
          acquire := (match o with | .acquire | .acqRel => some sc | _ => none)
          release := (match o with | .release | .acqRel => some sc | _ => none) }
        (u.core.windowOf addr.toNat = none → Goes f.1 s (u.addOp p))
        ∧ ∃ t, Joins u (u.core.windowOf addr.toNat) p t ∧ Goes f.1 s t))
  ∧ (∀ (v : List Byte) (b e : Word) (x y : BitVec 32) (p : Word),
    (v.length = 4 → leNat v = x.toNat → b.extractLsb' 0 32 = y →
      let new := fun (op : AmoOp) => ((GKind.amo op .word).newBytes b v).map leNat
      new .add = some (x + y).toNat ∧ new .and = some (x &&& y).toNat ∧ new .or = some (x ||| y).toNat
      ∧ new .xor = some (x ^^^ y).toNat ∧ new .min = some (if y.toInt < x.toInt then y.toNat else x.toNat)
      ∧ new .max = some (if x.toInt < y.toInt then y.toNat else x.toNat) ∧ new .minu = some (min x.toNat y.toNat)
      ∧ new .maxu = some (max x.toNat y.toNat) ∧ new .swap = some y.toNat
      ∧ ((GKind.cas .word e).newBytes b v).map leNat = (if e.extractLsb' 0 32 = x then some y.toNat else none)
      ∧ (∀ op, (GKind.amo op .word).result v = (match op with
          | .minu | .maxu => x.setWidth 64
          | _ => x.signExtend 64))
      ∧ (GKind.cas .word e).result v = x.signExtend 64)
    ∧ (v.length = 8 → leNat v = p.toNat →
      let new := fun (op : AmoOp) => ((GKind.amo op .dword).newBytes b v).map leNat
      new .add = some (p + b).toNat ∧ new .and = some (p &&& b).toNat ∧ new .or = some (p ||| b).toNat
      ∧ new .xor = some (p ^^^ b).toNat ∧ new .min = some (if b.toInt < p.toInt then b.toNat else p.toNat)
      ∧ new .max = some (if p.toInt < b.toInt then b.toNat else p.toNat) ∧ new .minu = some (min p.toNat b.toNat)
      ∧ new .maxu = some (max p.toNat b.toNat) ∧ new .swap = some b.toNat
      ∧ ((GKind.cas .dword e).newBytes b v).map leNat = (if e = p then some b.toNat else none)
      ∧ (∀ op, (GKind.amo op .dword).result v = p) ∧ (GKind.cas .dword e).result v = p))

/-- The address checks of a scalar access (R35, R123, R376): 5 for its alignment, 6 for the local space, and the cause that a
translation gives.
What a translation answers (R375, R376): 9 for an address beyond the tables, an entry that is refused, a key that the context may
not use or a permission that is missing, 10 for a page that is mapped on demand, 11 for a write that the page does not allow, and
else the page. Cause 19 for a poisoned entry and the use of translations that a core holds (R407) are not stated. -/
def Obligations.AccessAddressTraps : Prop :=
  (∀ (s u : State) (e : Trap) (k : LoadKind) (m : StoreSize) (d a b : Reg) (disp : BitVec 24),
    let addr := s.core.getX a + disp.signExtend 64
    let beyond := addr.extractLsb' 22 41 ≠ 0#41 ∨ Config.scratchBytes ≤ (addr.extractLsb' 0 22).toNat
    s.executes [a, b] → s.core.classG < 4095 → s.core.classS < 4095 →
    (addr.toNat % loadSize k ≠ 0 → Traps (.ld k d a disp) s 5#5 addr 0#64 0#64)
    ∧ (addr.toNat % storeSize m ≠ 0 → Traps (.st m b a disp) s 5#5 addr 0#64 0#64)
    ∧ (addr.toNat % loadSize k = 0 → addr.getLsbD 63 = true → beyond → Traps (.ld k d a disp) s 6#5 addr 0#64 0#64)
    ∧ (addr.toNat % storeSize m = 0 → addr.getLsbD 63 = true → beyond → Traps (.st m b a disp) s 6#5 addr 0#64 0#64)
    ∧ (addr.toNat % loadSize k = 0 → addr.getLsbD 63 = false → s.translate s.core.ctx addr .read = (u, .error e) →
        exec (.ld k d a disp) s = .next (u.takeTrap e))
    ∧ (addr.toNat % storeSize m = 0 → addr.getLsbD 63 = false → s.translate s.core.ctx addr .write = (u, .error e) →
        exec (.st m b a disp) s = .next (u.takeTrap e)))
  ∧ ∀ (s : State) (ctx : Nat) (va e code : Word) (acc : Acc) (level table : Nat), AccessCode acc code →
    let x := s.pkg.ctx ctx
    let entry := table + 8 * (va.toNat / 2 ^ (12 + 9 * level) % 512)
    let refuses := fun (cause : BitVec 5) (c : Word) => (s.translate ctx va acc).2 = .error (.plain cause va 0#64 c)
    let keys := x.keymask.getLsbD ((e.extractLsb' 52 6).toNat) = true ∧ x.keymask.getLsbD x.ptkey.toNat = true
    let big := e.getLsbD 10 = true ∧ ∃ i, i < 16 ∧ ¬s.Pte ctx (table + 8 * (va.toNat / 2 ^ 12 % 512 / 16 * 16 + i)) e
    let bits := if level = 0 then (if e.getLsbD 10 then 16 else 12) else 12 + 9 * level
    let page : Page := ⟨ctx, va.toNat / 2 ^ bits * 2 ^ bits, bits, s.pkg.ptePa e / 2 ^ bits * 2 ^ bits, e.extractLsb' 52 6,
      e.extractLsb' 58 6, e.getLsbD 3, e.getLsbD 2, e.getLsbD 1, e.getLsbD 5⟩
    (2 ^ 57 ≤ va.toNat → refuses 9#5 code)
    ∧ (va.toNat < 2 ^ 57 → (∀ g ∈ s.pkg.held, g.ctx = ctx → g.covers va.toNat = false) → AtTable s ctx va.toNat level table →
      s.Pte ctx entry e →
      (PteRefused level e → refuses 9#5 code)
      ∧ (¬PteRefused level e → level = 0 → big → (∀ i, i < 16 →
          ∃ y, s.Pte ctx (table + 8 * (va.toNat / 2 ^ 12 % 512 / 16 * 16 + i)) y) → refuses 9#5 code)
      ∧ (¬PteRefused level e → ¬big → level = 0 ∨ e.getLsbD 9 = true ∨ e.getLsbD 8 = true →
        (¬keys → refuses 9#5 code)
        ∧ (keys → e.getLsbD 8 = true → refuses 10#5 code)
        ∧ (keys → e.getLsbD 8 = false → (∀ cause c, page.Refuses acc cause c → refuses cause c)
          ∧ ((∀ cause c, ¬page.Refuses acc cause c) → (s.translate ctx va acc).2 = .ok page))))

/-! ### Order and completion of accesses -/

/-- FENCE, WAITC, RVZ and PFH (R274, R289, R306, R307, R313): a fence stands among the outstanding operations and makes the
context fetch code as written (whose fence counts is the model's own reading: log 98), and orders what follows after the writes of
the core's engines that have reached another party, as every wait and acquire does (log 97); WAITC and RVZ wait until their counts
are reached, and acquire the writes of the commands that they cover, RVZ those of all. That every prefetch hint is
dropped is the model's own choice (log 16). -/
def Obligations.FencesAndWaits : Prop :=
  ∀ (s : State) (kind : FenceKind) (sc : Scope) (g t c a k : BitVec 4) (p : PrefetchKind) (ra rb : Reg) (disp : BitVec 24),
    s.executes [] →
    let fetched := s.freshCode
    let covered := fun e : StaleWord => e.ctx = s.core.ctx ∧ s.storeDone e = true
    let covers := fun u : Unseen => let n := (match u.queue with | .c0 | .c1 => c | .l => a | .k => k)
      u.shown || (n != 15#4 && u.nth + 1 + n.toNat ≤ (s.core.queue u.queue).count)
    let idle := s.core.ops = [] ∧ ∀ w ∈ s.core.work, w.applies = false
    let within := fun (n : BitVec 4) (count : Nat) => n = 15#4 ∨ count ≤ n.toNat
    let reached := within g s.core.classG ∧ within t s.core.classS ∧ within c s.core.classC ∧ within a s.core.classA
      ∧ within k s.core.classK
    let quiet := s.core.ops = [] ∧ s.core.work = [] ∧ s.core.l.cmds = [] ∧ s.core.c0.cmds = [] ∧ s.core.c1.cmds = []
      ∧ s.core.k.cmds = []
    (idle → Goes (.fence kind sc) s { fetched with core := s.core.observeShown })
    ∧ fetched = { s with pkg := { s.pkg with stale := fetched.pkg.stale } }
    ∧ (∀ e ∈ fetched.pkg.stale, e ∈ s.pkg.stale ∧ ¬covered e)
    ∧ (∀ e ∈ s.pkg.stale, (∀ f ∈ s.pkg.stale, f.pa = e.pa → ¬covered f) → e ∈ fetched.pkg.stale)
    ∧ (¬idle → Goes (.fence kind sc) s (fetched.addOp (s.core.newOp 0 (.fence kind))))
    ∧ (reached → Goes (.waitc g t c a k) s { s with core := s.core.acquire covers })
    ∧ (∀ gone, s.core.acquire gone = { s.core with unseen := (s.core.acquire gone).unseen }
      ∧ Acquired s.core.unseen (fun u => gone u = true) (s.core.acquire gone).unseen)
    ∧ s.core.observeShown = s.core.acquire Unseen.shown
    ∧ (¬reached → Waits (.waitc g t c a k) s s (.classes g t c a k))
    ∧ (quiet → Goes .rvz s { s with core := { s.core with unseen := [] } }) ∧ (¬quiet → Waits .rvz s s .drain)
    ∧ Goes (.pfh p ra rb disp) s s

/-- Row by row of R288, and R125, R270: which earlier operation of a core must be made before a later one. That an acquire, a
release or a fence of any scope orders alike, scopes being held and not compared, is the model's own choice (log 7). -/
def Obligations.OrderOfAccesses : Prop :=
  ∀ (a b : GOp) (between : List GOp), (match a.kind with | .fence _ => False | _ => True) → a.kind ≠ .handle →
    b.kind ≠ .handle →
    (mustPrecede a b between = true ↔
      a.acquire.isSome = true ∨ b.release.isSome = true
      ∨ (a.size ≠ 0 ∧ b.size ≠ 0 ∧ a.pa < b.pa + b.size ∧ b.pa < a.pa + a.size)
      ∨ (a.kind.countsG = true ∧ b.kind.countsG = true ∧ a.dst = b.dst ∧ a.dst ≠ 0#6)
      ∨ (a.kind.isGroup = true ∧ b.kind.isGroup = true)
      ∨ ∃ f ∈ between, ∃ kind, f.kind = .fence kind ∧ (match kind with
          | .acq => a.kind.reads = true
          | .rel => b.kind.writes = true
          | .ar | .sc => True))

/-- Bytes at a home (R287, R377): what is written under a key is read back under it, every other byte of the pool reads as
before under that key, and every other line reads as before under every key. -/
def Obligations.HomeWritesReadBack : Prop :=
  ∀ (p : Package) (key : BitVec 6) (a : Nat) (bs : List Byte), p.mem.wf = true → bs ≠ [] → a % 64 + bs.length ≤ 64 →
    let q := p.pokes key a bs
    q.mem.wf = true
    ∧ (∀ i, i < bs.length → q.peek key (a + i) = bs.getD i 0#8)
    ∧ (∀ b, (b < a ∨ a + bs.length ≤ b) → q.peek key b = p.peek key b)
    ∧ (∀ k b, b / 64 ≠ a / 64 → q.peek k b = p.peek k b)
    ∧ q = { p with mem := q.mem, lineKeys := q.lineKeys }

/-- The steps in which loads, atomic operations and stores of a core are made at their homes (R26, R125, R126, R128, R281,
R304): the register or the memory that they write, and the poison that a load finds; an acquire orders what follows
after every engine write that has reached another party (log 97). That a load which collected stores cover ignores the poison below them, and that their own poison gives a
late cause 19, are the model's own readings (logs 33 and 81). -/
def Obligations.AccessesComplete : Prop :=
  (∀ (s : State) (o : GOp), Finds s o (s.readOp o).1.1 (s.readOp o).1.2 (s.readOp o).2)
  ∧ ∀ (s : State) (k : Nat) (o : GOp), Ready s k o →
    let remote := s.remoteStash s.core.num o
    let loads := if remote then Instr.stashRemoteAccess s.core.num k else .globalLoadComplete s.core.num k
    let stores := if remote then Instr.stashRemoteAccess s.core.num k else .globalStoreAccept s.core.num k
    let u := if o.got.isSome then s else s.reachFor s.core.ctx o.pa
    let r := (match o.got with | some r => (r, u) | none => u.readOp o)
    let bytes := overlaid (o.overlay ++ List.replicate (o.size - o.overlay.length) none) r.1.1
    let clean := o.tainted = false ∧ r.1.2 = false
    let seen := r.2.mapCore fun c => { (if o.acquire.isSome then (c.without k).observeShown else c.without k) with
      lastLoad := some (o.pa / 64, o.overtaken || (o.got.isNone && c.unseenAt o.pa o.size)) }
    let awaited := s.hostHolds (o.pa / 64)
    let written := fun (v : State) (bs : List Byte) => v.put (.instr s.core.num o.order) o.pa bs o.key
    ((o.got = none → awaited = false) →
      (clean → (∀ kl, o.kind = .load kl →
        Makes loads s (seen.mapCore fun c => c.lateX o.order o.dst (extendLoad kl bytes))))
      ∧ (clean → ∀ op w, o.kind = .amo op w →
        let put := if o.got.isSome then seen else written seen (op.bytes w bytes o.data)
        Makes loads s (put.mapCore fun c => c.lateX o.order o.dst (oldValue w op.zeroExtends bytes)))
      ∧ (clean → ∀ w e, o.kind = .cas w e →
        let put := if o.got.isSome ∨ natBytes (amoSize w) e.toNat ≠ bytes then seen
          else written seen (natBytes (amoSize w) o.data.toNat)
        Makes loads s (put.mapCore fun c => c.lateX o.order o.dst (oldValue w false bytes)))
      ∧ (¬clean → isLoadOp o.kind = true →
        Makes loads s (seen.mapCore fun c => c.pend ⟨6, o.order, .plain 19#5 o.va o.pc 0#64, .none⟩)))
    ∧ (o.kind = .store →
      (o.size = 0 → remote = false → Makes stores s (s.mapCore fun c => c.without k))
      ∧ (o.size ≠ 0 → awaited = false → o.lost = false →
        Makes stores s ((written (s.reachFor s.core.ctx o.pa) (natBytes o.size o.data.toNat)).mapCore fun c => c.without k))
      ∧ (o.size ≠ 0 → awaited = false → o.lost = true →
        Makes stores s ((s.reachFor s.core.ctx o.pa).mapCore fun c => c.without k)))
    ∧ (∀ (c : Core) (n : Nat) (r : Reg) (v : Word), r ≠ 0#6 →
      (c.lateX n r v).getX r = (if c.overtaken n r then c.getX r else v)
        ∧ ∀ q, q ≠ r → (c.lateX n r v).getX q = c.getX q)
    ∧ (o.kind = .writeback → o.size = 0 → remote = false → Makes stores s (s.mapCore fun c => c.without k))
    ∧ (awaited = true → o.got = none → o.size ≠ 0 → isLoadOp o.kind = true → Makes loads s (s.snoop (o.pa / 64)))
    ∧ (awaited = true → o.size ≠ 0 → o.kind = .store → Makes stores s (s.snoop (o.pa / 64)))

/-- A step that names core n acts on that core, whichever core stands in front, and leaves that core in front. One core in front
and the others parked is the model's own form of the package (log 2). -/
def Obligations.StepsActOnTheirCore : Prop :=
  ∀ (s : State) (n k w l : Nat) (e : CopyEng) (q : EngineQ) (i : Instr),
    i ∈ [.registerWriteLanding n, .waitEnd n, .trapEntry n, .globalLoadComplete n k, .globalStoreAccept n k,
      .stashLineFill n w l, .stashRemoteAccess n k, .stashLineRelease n w l, .spawnPush n k, .strandRetire n,
      .groupOperationAtHome n k, .barrierOperationAtHome n k, .latticeCommandBegin n, .latticeQueueTransfer n,
      .latticeStop n, .copyCommandBegin n e, .streamCopyStart n e, .copyComplete n e, .copyStop n e, .sketchCommandBegin n,
      .sketchStop n, .mortarUpdate n, .engineCommandRetire n q, .boundOverrun n q, .elUnitWork n, .elStop n,
      .listHandleWrite n, .tlbinvComplete n k, .keysetSwitchComplete n k, .demandFill n q, .launchWindowWrite (.core n k)] →
    ∃ u : State, exec i (s.focus n) = .next (u.focus n) ∧ exec i s = .next (u.focus s.core.num)

/-! ### Stash windows, copy tags, barriers, groups -/

/-- STWIN, STFL and STINV (R310, R312): a window that breaks no condition opens, and each condition that one breaks has its code; a
flush puts the 64 bytes of each dirty line at the line's home and leaves the lines stashed and clean, an invalidation closes the
window as well, nothing else of memory changes, and the local range keeps its bytes. That the codes are tested in the order of
their numbers, and that the write-backs of one STFL or STINV take one place in class S, are the model's own readings (logs 14 and
15). -/
def Obligations.StashWindows : Prop :=
  ∀ (s u : State) (n : BitVec 3) (a b c : Reg) (pages : List Page) (w : WindowSel),
    let loc := (s.core.getX a).extractLsb' 0 22
    let glob := s.core.getX b
    let len := (s.core.getX c).toNat
    let others := s.core.wins.toList.filterMap id
    let apart := fun (p q r t : Nat) => p + q ≤ r ∨ r + t ≤ p
    let fit := (s.core.getX a).getLsbD 63 = true ∧ (s.core.getX a).extractLsb' 22 41 = 0#41 ∧ loc.toNat % 1984 = 0
      ∧ glob.toNat % 64 = 0 ∧ len ≠ 0 ∧ len % 1984 = 0 ∧ loc.toNat + len ≤ 4063232
    let pagesFit := ∀ pg ∈ pages, pg.r = true ∧ pg.c = true ∧ paHome pg.pbase ≠ 1
      ∧ (∀ first ∈ pages.head?, pg.key = first.key ∧ pg.owner = first.owner)
    let dirty := s.core.dirty (selected w) = true
    let wrote := fun t : State => if s.core.dirty (selected w) then t.addOp (t.core.newOp 0 .writeback) else t
    let flushed := (selected w).foldl State.cleanWindow s
    let closed := (selected w).foldl State.closeWindow s
    (s.executes [a, b, c] → s.core.collecting = false →
      s.translateExtent s.core.ctx glob.toNat len .probe = (u, .ok pages) →
      let refused := fun k : Word => exec (.stwin n a b c) s = .next (u.takeTrap (.plain 26#5 k (0#61 ++ n) 0#64))
      let clear := ∀ x ∈ others, apart loc.toNat len x.loc x.len ∧ apart glob.toNat len x.glob.toNat x.len
      ((s.core.wins.getD n.toNat none).isSome = true → refused 1#64)
      ∧ (s.core.wins.getD n.toNat none = none →
        (len ≠ 0 → (∃ x ∈ others, x.len ≠ 0
          ∧ (¬apart loc.toNat len x.loc x.len ∨ ¬apart glob.toNat len x.glob.toNat x.len)) → refused 2#64)
        ∧ (len = 0 ∨ clear → ¬fit → refused 3#64)
        ∧ (clear → fit → ¬pagesFit → refused 4#64)
        ∧ (clear → fit → pagesFit → Goes (.stwin n a b c) s { u with core := { u.core with
            wins := s.core.wins.setIfInBounds n.toNat (some ⟨loc.toNat, glob, len, pages, []⟩) } })))
    ∧ (s.executes [] → s.core.collecting = false → (dirty → s.core.classS < 4095) →
      Goes (.stfl w) s (wrote flushed) ∧ Goes (.stinv w) s (wrote closed))
    ∧ (let homes := (selected w).flatMap fun k => (match s.core.wins.getD k none with
          | none => []
          | some x => (x.lines.filter fun l => l.dirty).filterMap fun l => (x.page l.line).map fun pg =>
              (pg.pa (x.glob.toNat + 64 * l.line), pg, x.loc + 64 * l.line))
      s.pkg.mem.wf = true → s.core.scratch.wf = true → (∀ e ∈ homes, e.1 % 64 = 0 ∧ s.pkg.reach e.1 = .served) →
      (homes.map fun e => e.1).Nodup → ∀ t ∈ [flushed, closed],
        (∀ e ∈ homes, ∀ i, i < 64 → t.pkg.peek e.2.1.key (e.1 + i) = s.core.scratch.read (e.2.2 + i))
        ∧ ∀ key p, (∀ e ∈ homes, p / 64 ≠ e.1 / 64) → t.pkg.peek key p = s.pkg.peek key p)
    ∧ flushed.core.scratch = s.core.scratch ∧ closed.core.scratch = s.core.scratch
    ∧ (∀ k ∈ selected w,
      closed.core.wins.getD k none = none
      ∧ flushed.core.wins.getD k none = (s.core.wins.getD k none).map fun x =>
          { x with lines := x.lines.map fun l => { l with dirty := false } })
    ∧ ∀ k, k ∉ selected w →
      closed.core.wins.getD k none = s.core.wins.getD k none ∧ flushed.core.wins.getD k none = s.core.wins.getD k none

/-- A line of a window on its way (R42, R281, R311): a line that an access waits for comes from its home, and one that
another core asks for goes back there, written if it is dirty.
R42, R312: a write-back puts the 64 bytes of a stashed line at its home, under the key of its page. -/
def Obligations.StashLinesMove : Prop :=
  (∀ (s : State) (n line pa : Nat) (pg : Page) (w : StashWin), n < 8 → s.core.wins.getD n none = some w →
    64 * line < w.len → s.core.linePa n line = some (pa, pg) →
    let fill := Instr.stashLineFill s.core.num n line
    let release := Instr.stashLineRelease s.core.num n line
    let o := w.loc + 64 * line
    let u := s.reachFor s.core.ctx pa
    let awaited := s.core.wait = some (.stash n line) ∧ s.core.stashed n line = false
    (awaited → s.stashOwner pa = none → s.hostHolds (pa / 64) = false → (u.look pa 64 pg.key).2 = false → pa % 64 = 0 →
      ∃ v, Makes fill s v ∧ v = { u with core := { u.core with
          scratch := v.core.scratch, poison := v.core.poison
          wins := s.core.wins.setIfInBounds n (some { w with lines := w.lines ++ [⟨line, false⟩] }) } }
        ∧ ∀ p, v.core.scratch.read p
          = if o ≤ p ∧ p < o + 64 then (u.look pa 64 pg.key).1.getD (p - o) 0#8 else s.core.scratch.read p)
    ∧ (awaited → s.stashOwner pa = none → s.hostHolds (pa / 64) = true → exec fill s = .next (s.snoop (pa / 64)))
    ∧ (s.core.stashed n line = true → s.askedFor s.core.num pa = true → s.core.wait ≠ some (.stash n line) →
      (n, line) ∉ s.core.filled →
      (∀ op ∈ s.core.ops, op.size ≠ 0 → op.got = none → op.pa / 64 ≠ pa / 64) →
      (∀ p, o ≤ p → p < o + 64 → Granule.pair p ∉ s.core.poison) →
      let v := if w.lines.any fun l => l.line == line && l.dirty then s.writeBackLine w line else s
      exec release s = .next { v with core := { v.core with
        wins := v.core.wins.setIfInBounds n (some { w with lines := w.lines.filter fun l => l.line != line }) } }))
  ∧ (∀ (s : State) (w : StashWin) (line : Nat) (pg : Page), w.page line = some pg →
    let pa := pg.pa (w.glob.toNat + 64 * line)
    let o := w.loc + 64 * line
    let t := s.writeBackLine w line
    s.pkg.mem.wf = true → s.core.scratch.wf = true → pa % 64 = 0 → (s.reachFor s.core.ctx pa).pkg.reach pa = .served →
    (∀ i, i < 64 → t.pkg.peek pg.key (pa + i) = s.core.scratch.read (o + i))
    ∧ (∀ key b, b / 64 ≠ pa / 64 → t.pkg.peek key b = s.pkg.peek key b)
    ∧ t.core.scratch = s.core.scratch ∧ t.core.wins = s.core.wins)

/-- TAGWANY, TAGWALL, TAGFFR, TAGCLR and CPSET (R314, R323, R324). A wait that observes a tag acquires the writes of its copies
(R295), and with them those that have reached another party (log 97); `Obligations.FencesAndWaits` says what that leaves. -/
def Obligations.TagsAndNests : Prop :=
  ∀ (s : State) (d a b c : Reg) (e : CopyEng) (level : BitVec 3),
    let q := s.core
    let m := q.getX a
    let due := fun t : Nat => ∃ k ∈ q.c0.cmds ++ q.c1.cmds, cmdTag k = t
    let cleared := fun (r : Word) => { q with
      tags := q.tags &&& ~~~r, tagdrop := q.tagdrop &&& ~~~r, tagDiffers := q.tagDiffers &&& ~~~r
      tagMalformed := q.tagMalformed &&& ~~~r }
    let observed := fun (r : Word) (x : Core) =>
      x.acquire fun u => u.shown || ((u.queue == .c0 || u.queue == .c1) && r.getLsbD u.tag)
    (s.executes [a] →
      (m = 0#64 ∨ q.tags &&& m ≠ 0#64 → (q.unseen = [] → WritesX (.tagwany d a) s d 2 (q.tags &&& m))
        ∧ Goes (.tagwany d a) s (({ s with core := observed (q.tags &&& m) q } : State).withX d 2 (q.tags &&& m)))
      ∧ (q.tags &&& m = 0#64 → (∃ t, t < 64 ∧ m.getLsbD t = true ∧ due t) →
        Waits (.tagwany d a) s s (.tagsAny m) ∧ Waits (.tagffr d a) s s (.tagsAny m))
      ∧ (m ≠ 0#64 → q.tags &&& m = 0#64 → (∀ t, t < 64 → m.getLsbD t = true → ¬due t) →
        Traps (.tagwany d a) s 25#5 (wordOf (.tagwany d a)) 0#64 0#64)
      ∧ (q.tags &&& m = m → Goes (.tagwall a) s { s with core := observed m q })
      ∧ (q.tags &&& m ≠ m → (∀ t, t < 64 → m.getLsbD t = true → q.tags.getLsbD t = false → due t) →
        Waits (.tagwall a) s s (.tagsAll m))
      ∧ ((∃ t, t < 64 ∧ m.getLsbD t = true ∧ q.tags.getLsbD t = false ∧ ¬due t) →
        Traps (.tagwall a) s 25#5 (wordOf (.tagwall a)) 0#64 0#64)
      ∧ (∀ t, t < 64 → (q.tags &&& m).getLsbD t = true → (∀ k, k < t → (q.tags &&& m).getLsbD k = false) →
        let bit := fun r : Word => BitVec.ofBool (r.getLsbD t)
        let v : Word := 0#53 ++ bit q.tagdrop ++ bit q.tagMalformed ++ bit q.tagDiffers ++ 0#2 ++ BitVec.ofNat 6 t
        Goes (.tagffr d a) s (({ s with core := observed (1#64 <<< t) (cleared (1#64 <<< t)) } : State).withX d 2 v))
      ∧ (q.tags &&& m = 0#64 → (∀ t, t < 64 → m.getLsbD t = true → ¬due t) →
        Traps (.tagffr d a) s 25#5 (wordOf (.tagffr d a)) 0#64 0#64)
      ∧ Goes (.tagclr a) s { s with core := cleared m })
    ∧ (s.executes [a, b, c] → (q.getX a).extractLsb' 32 32 = 0#32 → q.collecting = false →
      let l : NestLevel := ⟨(q.getX a).extractLsb' 0 32, q.getX b, q.getX c⟩
      (e = .ce0 → Goes (.cpset e level a b c) s { s with core := { q with nest0 := q.nest0.set level.toNat l } })
      ∧ (e = .ce1 → Goes (.cpset e level a b c) s { s with core := { q with nest1 := q.nest1.set level.toNat l } }))

/-- BARINIT, BAREXP, BARARV, BARGEN and BARWT at their issue (R296, R326, R327): an operation on the object joins the
outstanding ones; BARWT finishes where the generation has advanced past the one that it presents, with the engine writes that
were counted into it acquired (log 97), and waits where not; one whose advance the object's home has shown it finishes with it. -/
def Obligations.BarriersIssue : Prop :=
  ∀ (s u : State) (pg : Page) (sc : Scope) (d b a : Reg) (disp : BitVec 24) (acc : Acc),
    let addr := s.core.getX a + disp.signExtend 64
    let pa := pg.pbase + (addr.toNat - pg.vbase)
    let base := fun (kind : GKind) => ({ u.core.newOp 0 kind with
      pc := s.core.pc, order := s.core.issued, page := some pg, va := addr, pa := pa, size := 32 } : GOp)
    let sends := fun (kind : GKind) (rel : Option Scope) =>
      u.addOp { base kind with data := s.core.getX b, release := rel }
    s.core.classS < 4095 → s.core.classG < 4095 → AtGlobal s addr 32 acc u pg →
    (s.executes [a, b] → s.core.collecting = false →
      (acc = .write → Goes (.barinit b a disp) s (sends .barInit none))
      ∧ (acc = .rmw → Goes (.barexp b a disp) s (sends .barExp none) ∧ Goes (.bararv sc b a disp) s (sends .barArv (some sc))))
    ∧ (s.executes [a] → acc = .read →
      Goes (.bargen d a disp) s (u.addOp { base .barGen with pa := pa + 16, size := 4, dst := d }))
    ∧ (s.executes [a, b] → s.core.collecting = false → acc = .read →
      let v := u.reachFor u.core.ctx pa
      let r := v.look pa 32 pg.key
      let gen : BitVec 32 := BitVec.ofNat 32 (leNat ((r.1.drop 16).take 4))
      let given := (s.core.getX b).extractLsb' 0 32
      let ahead := (gen - given).toNat
      let counted := fun e : Unseen => e.counted.contains (pa, given)
      let observed := fun t : State => { t with
        core := t.core.acquire counted
        parked := t.parked.map fun c : Core =>
          { c with unseen := c.unseen.map fun e => if counted e then { e with shown := true } else e } }
      (∀ w x, u.core.waitingOn pa given = some w → w.seen = some x →
        Goes (.barwt sc d a b disp) s (u.withX d 2 (x.setWidth 64)))
      ∧ ((∀ w, u.core.waitingOn pa given = some w → w.seen = none) → u.holds (base .barGen) u.core.ops = false →
      u.hostHolds (pa / 64) = false → r.2 = false →
      (1 ≤ ahead → ahead < 2 ^ 31 → Goes (.barwt sc d a b disp) s ((observed v).withX d 2 (gen.setWidth 64)))
      ∧ (ahead = 0 ∨ 2 ^ 31 ≤ ahead →
        Waits (.barwt sc d a b disp) s (v.mapCore fun c => c.waitOn pa given) (.barrier pa pg.key given))))

/-- The barrier object at its home (R325, R326): the fields after each operation, with the advance of the generation that
follows when the arrivals have reached what is expected; BARGEN returns the generation. -/
def Obligations.BarrierObjects : Prop :=
  ∀ (s : State) (k : Nat) (o : GOp) (e a : Word) (g : BitVec 32) (f : Byte) (rest : List Byte), Ready s k o →
    let key := (o.page.map fun p => p.key).getD 0#6
    let u := s.reachFor s.core.ctx o.pa
    let object := fun (e a : Word) (g : BitVec 32) (f : Byte) (rest : List Byte) =>
      natBytes 8 e.toNat ++ natBytes 8 a.toNat ++ natBytes 4 g.toNat ++ f :: rest
    let step := Instr.barrierOperationAtHome s.core.num k
    let counted := fun e : Unseen => if e.shown then { e with counted := (o.pa, g) :: e.counted } else e
    let counts := fun t : State => if o.kind = .barArv then
      t.mapCores fun c => { c with unseen := c.unseen.map counted } else t
    let leaves := fun (bs : List Byte) (gen : BitVec 32) =>
      Makes step s (((counts (u.mapCore fun c => c.without k)).put (.instr s.core.num o.order) o.pa bs key).observe o.pa gen
        (o.kind = .barInit))
    let checked := fun (e a : Word) =>
      if e ≠ 0#64 ∧ e.toNat ≤ a.toNat then
        leaves (object 0#64 0#64 (g + 1#32) (if e.toNat < a.toNat then f ||| 1#8 else f) rest) (g + 1#32)
      else leaves (object e a g f rest) g
    s.hostHolds (o.pa / 64) = false → o.lost = false →
    ((u.look o.pa 32 key).2 = false → rest.length = 11 → (u.look o.pa 32 key).1 = object e a g f rest →
      (o.kind = .barExp → checked (e + o.data) a) ∧ (o.kind = .barArv → checked e (a + o.data))
      ∧ (o.kind = .barInit →
        leaves (object 0#64 0#64 (o.data.extractLsb' 0 32) 0#8 (List.replicate 11 0#8)) (o.data.extractLsb' 0 32)))
    ∧ ((u.look o.pa 32 key).2 = true → o.kind = .barExp ∨ o.kind = .barArv ∨ o.kind = .barInit →
      Makes step s (u.mapCore fun c => (c.without k).pend ⟨6, o.order, .plain 19#5 o.va o.pc 0#64, .none⟩))
    ∧ (∀ (t : State) (pa : Nat) (gen : BitVec 32) (init : Bool) (w : BarwtRec), w.pa = pa → w.seen = none →
      1 ≤ (gen - w.gen).toNat → (gen - w.gen).toNat < 2 ^ 31 →
      let v := t.observe pa gen init
      (w ∈ t.core.barwt → { w with seen := some gen } ∈ v.core.barwt
        ∧ (init = false → ∀ e ∈ v.core.unseen, (pa, w.gen) ∉ e.counted))
      ∧ (∀ (i : Nat) (c : Core), t.parked[i]? = some c → w ∈ c.barwt →
        ∃ d, v.parked[i]? = some d ∧ { w with seen := some gen } ∈ d.barwt)
      ∧ (init = true → ∀ e ∈ v.core.unseen, ∀ x ∈ e.counted, x.1 ≠ pa))
    ∧ (o.kind = .barGen → o.tainted = false → o.size = 4 → o.got = none → o.overlay = [] →
      (u.look o.pa 4 key).1 = natBytes 4 g.toNat → (u.look o.pa 4 key).2 = false →
      Makes step s ((u.readOp o).2.mapCore fun c => ({ (if o.acquire.isSome then (c.without k).observeShown else c.without k) with
        lastLoad := some (o.pa / 64, o.overtaken || c.unseenAt o.pa o.size) } : Core).lateX o.order o.dst (g.setWidth 64)))

/-- GJOIN, GLEAVE, GBAR, GSIZE and GRANK at their issue (R270 to R273): the operation joins the outstanding ones and the
strand's own membership follows; GBAR sends its arrival once and waits until its episode has completed. The checks of R273
raise cause 18 with their code. -/
def Obligations.GroupsIssue : Prop :=
  ∀ (s : State) (d : Reg) (g : GroupOperand),
    let regs := (match g with | .imm _ => [] | .reg a => [a])
    let n : Word := (match g with | .imm k => k.setWidth 64 | .reg a => s.core.getX a)
    let inGang := (s.core.strand.bind fun t => t.gang).isSome = true
    let member := s.core.groups.getLsbD n.toNat = true
    let set := fun (x : State) (groups : Word) => ({ x with core := { x.core with groups := groups } } : State)
    let joins := fun (kind : GKind) (rel : Option Scope) => s.addOp { s.core.newOp 0 kind with release := rel }
    let error := fun (i : Instr) (code : Word) => Traps i s 18#5 code n 0#64
    s.executes regs → s.core.classS < 4095 → s.core.classG < 4095 → s.core.collecting = false → s.core.waitingBar = none →
    (inGang → n.toNat < 64 →
      (¬member → Goes (.gjoin g) s (set (joins (.gjoin n.toNat) none) (s.core.groups ||| (1#64 <<< n.toNat))))
      ∧ (member → Goes (.gleave g) s
          (set (joins (.gleave n.toNat) (some s.gangScope)) (s.core.groups &&& ~~~(1#64 <<< n.toNat))))
      ∧ (member → Waits (.gbar g) s ((joins (.gbar n.toNat) (some s.gangScope)).mapCore fun c =>
          { c with gbar := s.core.gbar ++ [⟨some s.core.pc, n.toNat, s.core.super, false⟩] }) .group)
      ∧ Goes (.gsize d g) s (s.addOp { s.core.newOp 0 (.gsize n.toNat) with dst := d })
      ∧ (member → Goes (.grank d g) s (s.addOp { s.core.newOp 0 (.grank n.toNat) with dst := d }))
      ∧ (member → error (.gjoin g) 3#64) ∧ (¬member → error (.gleave g) 4#64 ∧ error (.gbar g) 4#64 ∧ error (.grank d g) 4#64))
    ∧ (inGang → 64 ≤ n.toNat → error (.gjoin g) 2#64 ∧ error (.gleave g) 2#64 ∧ error (.gbar g) 2#64
      ∧ error (.gsize d g) 2#64 ∧ error (.grank d g) 2#64)
    ∧ (¬inGang → error (.gjoin g) 1#64 ∧ error (.gleave g) 1#64 ∧ error (.gbar g) 1#64 ∧ error (.gsize d g) 1#64
      ∧ error (.grank d g) 1#64)

/-- R255, R256, R270 to R273 at a group's home: members by rank, the episodes of a barrier, the number of members and the
number of those with a lower rank; and a GBAR whose episode has completed goes on, and orders what follows it after what has
reached the core of its engines' writes (log 97). That the operations of a hub cycle reach the home in the
order that the schedule gives, which is by rank where the machine chooses, is the model's own reading (log 82). -/
def Obligations.GroupsAtHome : Prop :=
  ∀ (s : State) (k id : Nat) (o : GOp) (g : Gang) (n : Nat), Ready s k o →
    (s.core.strand.bind fun t => t.gang) = some id → (s.pkg.gangs.find? fun x => x.id == id) = some g →
    pktPackages g.packet = 1 →
    let r := g.rankOf s.core.num
    let step := Instr.groupOperationAtHome s.core.num k
    let x := g.group n
    let done := s.mapCore fun c => c.without k
    let others := x.members.filter fun y => y != r
    (o.kind = .gsize n →
      Makes step s (done.mapCore fun c => c.lateX o.order o.dst (BitVec.ofNat 64 x.members.length)))
    ∧ (o.kind = .grank n →
      Makes step s (done.mapCore fun c =>
        c.lateX o.order o.dst (BitVec.ofNat 64 (x.members.filter fun y => y < r).length)))
    ∧ (o.kind = .gjoin n →
      Makes step s (done.mapPkg fun p => p.setGang (g.setGroup { x with members := insertNat x.members r })))
    ∧ (o.kind = .gleave n → x.awaited = none →
      Makes step s (done.mapPkg fun p => p.setGang (g.setGroup { x with members := others })))
    ∧ (o.kind = .gbar n → x.awaited = none → others ≠ [] →
      Makes step s (done.mapPkg fun p => p.setGang (g.setGroup { x with awaited := some others, arrived := [r] })))
    ∧ (o.kind = .gbar n → x.awaited = some [r] → x.next = [] →
      Makes step s ((done.mapPkg fun p => p.setGang (g.setGroup { x with awaited := none, arrived := [], next := [] })).finishBars g n
        (insertNat x.arrived r)))
    ∧ ∀ op : GroupOperand, s.executes (match op with | .imm _ => [] | .reg a => [a]) → s.core.collecting = false →
      s.core.waitingBar.any (fun b => b.finished) = true → Goes (.gbar op) s { s with core := s.core.observeShown }

/-! ### Scheduling -/

/-- R241: the records that a push accepts.
SPAWN and LAUNCH at their issue (R266, R267): a record or packet of the scratchpad that passes its checks joins the
outstanding operations as a release; another raises cause 27 with its code. -/
def Obligations.RecordsIssue : Prop :=
  (∀ (p : Package) (ctx : Nat) (r : RecImage),
    let within := fun core : Nat => p.serves core = true ∧ p.inPart (p.ctx ctx).part core = true
    (p.recordCode ctx r = none ↔
      r.code.toNat % 8 = 0 ∧ r.join.toNat % 32 = 0 ∧ r.prio ≤ 3 ∧ r.flags = 0
      ∧ ((r.affinity < 0x80 ∧ within r.affinity)
        ∨ (0x80 ≤ r.affinity ∧ r.affinity < 0x88 ∧ ∃ core, core < 128 ∧ core / 16 = r.affinity - 0x80 ∧ within core)
        ∨ r.affinity = 0xFF)))
  ∧ (∀ (s : State) (a : Reg) (o n : Nat),
    let v := s.settleRead o n
    let now := v.core.scratch.bytes o n
    s.executes [a] → s.core.classS < 4095 → s.core.collecting = false → AtLocal (s.core.getX a) n o →
    v.core.scratchPoisoned o n = false → v.core.inOpenStorage o n = false → WindowOpen s (s.core.windowAt o) false →
    ∃ bs t, v.MayFind (v.core.locOf o) now bs ∧ Found v t ∧
      let r : BitVec 256 := BitVec.ofNat 256 (leNat bs)
      let k : Line := BitVec.ofNat 512 (leNat bs)
      let status := pktStatus k
      let released := if pktKind k = 2 ∧ 1 < pktPackages k then Scope.fabric else Scope.package
      (n = 32 →
        (t.pkg.recordCode s.core.ctx (recImage r) = none →
          Goes (.spawn a) s (t.addOp { s.core.newOp 0 (.spawn r) with release := some .package }))
        ∧ ∀ code, t.pkg.recordCode s.core.ctx (recImage r) = some code →
          ∃ u, exec (.spawn a) s = .next (u.takeTrap (.plain 27#5 (BitVec.ofNat 64 code) s.core.pc 0#64)) ∧ Becomes t u)
      ∧ (n = 64 → status = 0#64 →
        let z := t.readPlacement s.core.ctx k
        (z.packetCode s.core.ctx k true = none →
          Goes (.launch a) s (z.addOp { s.core.newOp 0 (.launch k) with release := some released }))
        ∧ ∀ code, z.packetCode s.core.ctx k true = some code →
          ∃ u, exec (.launch a) s = .next (u.takeTrap (.plain 27#5 (BitVec.ofNat 64 code) s.core.pc 0#64)) ∧ Becomes z u)
      ∧ (n = 64 → status ≠ 0#64 → ∀ y pg, AtGlobal (t.mapCore fun c => c.bump 13 1) status 8 .write y pg →
        let z := y.readPlacement s.core.ctx k
        z.packetCode s.core.ctx k true = none →
        Goes (.launch a) s (z.addOp { z.core.newOp 0 (.launch k) with release := some released })))

/-- The steps in which a record or a packet is accepted (R247, R250, R266 to R268, R424): at the end of its priority's queue,
or the late trap and the event of a refusal. That the LAUNCH of a context which is not valid is discarded with event 0x10 and no
trap, and that each refusal gives a late trap of its own, are the model's own readings (logs 83 and 76). -/
def Obligations.PushesAccepted : Prop :=
  ∀ (s : State) (k ctx off : Nat) (o : GOp) (packet : Line) (data : List Byte),
    let here := s.core.ctx
    let x := fun c : Nat => s.pkg.ctx c
    let room := fun (c : Nat) (l : BitVec 2) (n : Nat) => ((x c).queue l).length + n ≤ (x c).cqcap
    let pushed := fun (c : Nat) (l : BitVec 2) (rs : List ContRec) =>
      s.pkg.setCtx c fun y => y.setQueue l (y.queue l ++ rs)
    let spread := fun (c : Nat) => pktKind packet = 1 ∧ pktStatus packet = 0#64 ∧ s.packetCode c packet true = none
    let records := (List.range (pktN packet)).map (pktRecord packet)
    let l := BitVec.ofNat 2 (pktPrio packet)
    let late := fun (i : Instr) =>
      Makes i s (s.mapCore fun c => (c.without k).pend ⟨6, o.order, .plain 27#5 0x15#64 o.pc 0#64, .none⟩)
    (Ready s k o → here < 64 →
      (∀ r, o.kind = .spawn r →
        let q := (recImage r).record
        (room here q.prio 1 → Makes (.spawnPush s.core.num k) s
          { s with core := s.core.without k, pkg := pushed here q.prio [q] })
        ∧ (¬room here q.prio 1 → late (.spawnPush s.core.num k)))
      ∧ (o.kind = .launch packet → (x here).valid = false →
        Makes (.launchWindowWrite (.core s.core.num k)) s
          ((s.mapCore fun c => c.without k).mapPkg fun p => p.raise 0x10 here))
      ∧ (o.kind = .launch packet → (x here).valid = true → spread here →
        (room here l (pktN packet) → Makes (.launchWindowWrite (.core s.core.num k)) s
          { s with core := s.core.without k, pkg := pushed here l records })
        ∧ (¬room here l (pktN packet) → late (.launchWindowWrite (.core s.core.num k)))))
    ∧ (s.pkg.hostPort.up = true → s.pkg.recovery = false → ctx < 64 → off < 4096 →
      let write := Instr.launchWindowWrite (.host ctx off data)
      (off % 64 = 0 → data.length = 64 → (x ctx).valid = true → packet = BitVec.ofNat 512 (leNat data) → spread ctx →
        room ctx l (pktN packet) → exec write s = .next { s with pkg := pushed ctx l records })
      ∧ (off % 64 ≠ 0 ∨ data.length ≠ 64 ∨ (x ctx).valid = false →
        exec write s = .next (s.mapPkg fun p => p.raise 0x10 ctx)))

/-- A free core starts the strand that it takes, and a gang's member starts at its tick (R242, R243, R248, R253).
A gang's packet reserves the cores of its ranks (R252 to R254): at the window that accepts it, and where it arrives from
another package.
R248: the level that a pop takes, and the oldest record of it: the highest nonempty level, unless a lower one has been
passed over 1,024 times. -/
def Obligations.StrandsStart : Prop :=
  (∀ (s : State) (core ctx : Nat) (r : ContRec) (x : Context) (g : Gang) (m : Member), core < 128 →
    (s.chosen core = some ctx → s.outranked core = false → s.resumable ctx core = none →
      (s.pkg.ctx ctx).pop = some (r, x) → s.beaten core ctx r = false → ctx < 64 →
      ∃ t c, exec (.coreFreeSchedule core) s = .next t ∧ t.listed core = some c ∧ Started c r none ∧ c.resident = some ctx
        ∧ ∀ l, (t.pkg.ctx ctx).queue l = x.queue l)
    ∧ (s.pkg.nextGang core = some (g, m) → s.isFree core = true → (s.pkg.ctx g.ctx).valid = true →
      (s.pkg.ctx g.ctx).held = false → g.start ≤ s.pkg.tick →
      ∃ t c, exec (.gangMemberStart core) s = .next t ∧ t.listed core = some c
        ∧ Started c (pktRecord g.packet m.rank) (some g.id) ∧ c.resident = some g.ctx))
  ∧ (∀ (s t : State) (ctx k : Nat) (o : GOp) (packet : Line) (cores : List Nat),
    let n := pktN packet / pktPackages packet
    let first := if pktPackages packet = 1 then 0 else s.pkg.position * n
    let members := cores.zipIdx.map fun c => (⟨first + c.2, c.1, .reserved⟩ : Member)
    let reserved := fun (p : Package) (c start : Nat) (late : Bool) => { p with
      gangs := p.gangs ++ [⟨p.gangId, c, packet, start, late, 0, members, []⟩], gangId := p.gangId + 1 }
    let arrives := pktStamp packet + pktGuard packet
    (∀ port, s.pkg.carrier = some port → (t.readPlacement ctx packet).placement ctx n = some cores →
      (s.pkg.ctx ctx).valid = true →
      s.pkg.takesPart packet = true →
      (∀ i : Fin 18, t.pkg.slathen[i] = if i.val = port then (s.pkg.slathen[i]).deliver else s.pkg.slathen[i]) →
      t = { s with pkg := { s.pkg with slathen := t.pkg.slathen } } →
      let z := t.readPlacement ctx packet
      exec (.gangPacketArrival ctx packet) s
        = .next { z with pkg := reserved z.pkg ctx (max arrives s.pkg.tick) (decide (arrives < s.pkg.tick)) })
    ∧ (let y := (s.mapCore fun c => c.without k).readPlacement s.core.ctx packet
      y.placement s.core.ctx n = some cores → Ready s k o → o.kind = .launch packet → pktKind packet = 2 →
      (s.pkg.ctx s.core.ctx).valid = true →
      pktPackages packet = 1 → y.packetCode s.core.ctx packet true = none →
      Makes (.launchWindowWrite (.core s.core.num k)) s
        { y with pkg := reserved y.pkg s.core.ctx (s.pkg.tick + pktGuard packet) false }))
  ∧ (∀ (x y : Context) (r : ContRec), x.pop = some (r, y) →
    ∃ l : BitVec 2, x.queue l = r :: y.queue l ∧ (∀ k, k ≠ l → y.queue k = x.queue k)
      ∧ (((∃ h : l.toNat < 3, 1024 ≤ x.h[l.toNat])
          ∧ ∀ k : Fin 3, l.toNat < k.val → x.queue (BitVec.ofNat 2 k.val) ≠ [] → x.h[k] < 1024)
        ∨ ((∀ k : Fin 3, x.queue (BitVec.ofNat 2 k.val) ≠ [] → x.h[k] < 1024) ∧ ∀ k, l.toNat < k.toNat → x.queue k = [])))

/-- DONE, RET to the retire token and a retirement that has waited (R110, R244 to R246, R269, R271): until the core is quiet it
waits; then what is left in its queues is discarded, its windows are closed, it leaves every group of its gang, the join step is
made where the record names a join block, whose second half is translated on its own, and the core becomes free, its gang gone with
its last member. Windows and groups come before the join step, once: that a DONE made again after its join step has trapped goes on
at that step is the model's own reading (log 80). -/
def Obligations.StrandsRetire : Prop :=
  ∀ (s u y : State) (t : Strand) (pg pc : Page) (i : Instr), s.core.strand = some t → s.core.block = none →
    s.core.collecting = false →
    (i = .done ∨ (i = .ret ∧ s.core.getX 1#6 = 0x7FFFFFFFFFFFFFF8#64 ∧ Granule.x 1#6 ∉ s.core.poison)
      ∨ (i = .strandRetire s.core.num ∧ s.core.wait = some .retire ∧ s.core.time = s.pkg.now ∧ s.standsHalted = false
        ∧ (s.core.super = true ∨ s.core.pending = []))) →
    let quiet := s.core.ops = [] ∧ s.core.work = [] ∧ s.core.l.cmds = [] ∧ s.core.c0.cmds = [] ∧ s.core.c1.cmds = []
      ∧ s.core.k.cmds = []
    let again := s.core.joinDue = some s.core.pc
    let empty : State := { s with core := { s.core with
      queues := Vector.replicate 8 [], buffer := []
      poison := s.core.poison.filter fun g => match g with | .buffer _ => false | _ => true } }
    let left : State := if again then empty
      else (((List.range 8).foldl State.closeWindow empty).leaveGroups).mapCore fun c => { c with joinDue := some s.core.pc }
    let gone := fun x : State => (match t.gang.bind fun id => x.pkg.gangs.find? fun g => g.id == id with
      | none => x
      | some g =>
        let members := g.members.map fun m =>
          if m.core = s.core.num && m.state = .running then { m with state := .retired } else m
        let new : Gang := { g with members := members }
        let gangs := if members.all (fun m => m.state == .retired) then x.pkg.gangs.filter fun h => h.id != g.id
          else x.pkg.gangs.map fun h => if h.id = g.id then new else h
        { x with pkg := { x.pkg with gangs := gangs } })
    let pa := pg.pbase + (t.join.toNat - pg.vbase)
    let v := (u.recall (pa / 64)).reachFor u.core.ctx pa
    let n := leNat (v.look pa 4 pg.key).1
    let second := pc.pbase + ((t.join + 32#64).toNat - pc.vbase)
    let z := (y.recall (second / 64)).reachFor y.core.ctx second
    let cont := recImage (BitVec.ofNat 256 (leNat (z.look second 32 pc.key).1))
    (¬quiet → i ≠ .strandRetire s.core.num → Waits i s s .retire)
    ∧ (quiet → t.join = 0#64 → Completes i s fun v => v.core.strand = none ∧ v.core.super = true ∧ v.core.ops = []
      ∧ v.core.queues = Vector.replicate 8 [] ∧ (¬again → v.core.wins = Vector.replicate 8 none)
      ∧ (s.core.flight = [] → v.core.x = s.core.x) ∧ v.core.scratch = s.core.scratch)
    ∧ (¬again → left.core.wins = Vector.replicate 8 none)
    ∧ (s.core.wins = Vector.replicate 8 none → t.gang = none →
      left = { empty with core := { empty.core with joinDue := some s.core.pc } })
    ∧ (∀ id g, t.gang = some id → (s.pkg.gangs.find? fun x => x.id == id) = some g → (g.groups.map fun x => x.id).Nodup →
      ¬again → ∃ h : Gang, (left.pkg.gangs.find? fun x => x.id == id) = some h ∧ left.core.groups = 0#64 ∧ h.members = g.members
        ∧ ∀ k, let r := g.rankOf s.core.num
          let was := g.group k
          let is := h.group k
          is.members = was.members.filter (fun q => q != r)
          ∧ (was.awaited = none → is.awaited = none)
          ∧ ∀ l, was.awaited = some l → r ∈ was.members → is.members ≠ [] →
            (l.filter (fun q => q != r) ≠ [] → is.awaited = some (l.filter fun q => q != r))
            ∧ (l.filter (fun q => q != r) = [] → was.next = [] → is.awaited = none))
    ∧ (quiet → t.join = 0#64 → Completes i s (Freed (gone left)))
    ∧ (quiet → t.join ≠ 0#64 → left.translate s.core.ctx t.join .rmw = (u, .ok pg) → (v.look pa 4 pg.key).2 = false →
      (2 ≤ n → Completes i s (Freed (gone (v.put .other pa (natBytes 4 (n - 1)) pg.key))))
      ∧ (n = 1 → v.translate v.core.ctx (t.join + 32#64) .read = (y, .ok pc) → (z.look second 32 pc.key).2 = false →
        (z.pkg.recordCode z.core.ctx cont = none → ∀ p,
          z.pkg.pushRecords z.core.ctx cont.record.prio [cont.record] = some p →
          Completes i s (Freed (gone (({ z with pkg := p } : State).put .other pa (natBytes 4 0) pg.key))))
        ∧ ∀ code, z.pkg.recordCode z.core.ctx cont = some code →
          exec i s = .next (z.takeTrap (.plain 27#5 t.join (BitVec.ofNat 64 code) 0#64)))
      ∧ (n = 0 → exec i s = .next (v.takeTrap (.plain 27#5 t.join 0#64 0#64))))

/-! ### The vector unit -/

/-- R96, R97: the integer that a magnitude m × 2^e, or one between m and m + 1 of those units, rounds to in units of 2^q; and
every code of a float format but its NaNs converts back to itself. R97 to R99, R139, R148 to R151: the ties of E2M1, conversions to
integers and between angles, the special operands and exact results of the special functions with some of their rounded values, the
scale of a group header, and the values of VQNT, VSCACC and VLDEXP. -/
def Obligations.RoundingModes : Prop :=
  (∀ (mode : Rnd) (neg more : Bool) (m : Nat) (e q : Int),
    let n := roundAt mode neg m e q more
    let u := 2 ^ (q - e).toNat
    let up := (m + u - 1) / u
    let above := if more then m / u + 1 else up
    (q ≤ e → more = false → n = m * 2 ^ (e - q).toNat)
    ∧ (e < q →
      (mode = .rtz → n = m / u) ∧ (mode = .rdn → n = if neg then above else m / u)
      ∧ (mode = .rup → n = if neg then m / u else above)
      ∧ (mode = .rne → more = true → n = if 2 * (m % u) < u then m / u else m / u + 1)
      ∧ (mode = .rne → more = false →
        2 * m ≤ 2 * (n * u) + u ∧ 2 * (n * u) ≤ 2 * m + u
        ∧ (2 * m = 2 * (n * u) + u ∨ 2 * (n * u) = 2 * m + u → n % 2 = 0))))
  ∧ (∀ f ∈ [fF32, fBF16, fF16, fE5M2, fE4M3, fE3M2, fE2M3, fE2M1, fF64], ∀ (mode : Rnd) (code : Nat), code < 2 ^ f.width →
    f.decode code ≠ .nan → f.cvt mode false (f.decode code) = code)
  ∧ (∀ (r : Rnd) (sat n : Bool) (a b : Lane) (k : Nat) (w : Int),
    let out := toF32 r sat
    let sign := fun (v : Lane) => if n then v ||| 0x80000000#32 else v
    let big := fun (neg : Bool) => (if sat then 0x7F7FFFFF#32 else 0x7F800000#32) ||| (if neg then 0x80000000#32 else 0#32)
    let zero := ofF32 (sign 0#32)
    let inf := ofF32 (sign 0x7F800000#32)
    (isNaN32 a = true → ∀ f ∈ [XVal.recip, XVal.rsqrt, XVal.sqrt, XVal.exp2, XVal.log2], out (f (ofF32 a)) = 0x7FC00000#32)
    ∧ (isNaN32 a = false → a.getLsbD 31 = true → a ≠ 0x80000000#32 →
      ∀ f ∈ [XVal.rsqrt, XVal.sqrt, XVal.log2], out (f (ofF32 a)) = 0x7FC00000#32)
    ∧ out zero.recip = big n ∧ out zero.rsqrt = big n ∧ out zero.sqrt = sign 0#32 ∧ out zero.exp2 = 0x3F800000#32
    ∧ out zero.log2 = big true ∧ out inf.recip = sign 0#32
    ∧ out inf.rsqrt = (if n then 0x7FC00000#32 else 0#32) ∧ out inf.sqrt = (if n then 0x7FC00000#32 else big false)
    ∧ out inf.exp2 = (if n then 0#32 else big false) ∧ out inf.log2 = (if n then 0x7FC00000#32 else big false)
    ∧ (-126 ≤ w → w ≤ 127 → out (XVal.ofInt (w * 2 ^ k) (-k)).exp2 = BitVec.ofInt 32 ((127 + w) * 2 ^ 23))
    ∧ (XVal.fin false (2 ^ k) w false).log2 = XVal.ofInt (w + k) 0 ∧ out (XVal.fin false 1 0 false).log2 = 0#32
    ∧ scaleLane r sat a b = (match ofF32 a with
      | .nan => 0x7FC00000#32
      | .inf neg => big neg
      | .fin neg m e _ => if -4000 ≤ b.toInt ∧ b.toInt ≤ 4000 then out (.fin neg m (e + b.toInt) false)
        else scaleLane r sat a (if 0 < b.toInt then 4000#32 else -4000#32)))
  ∧ (let rounds := fun (f : XVal → XVal) (x : Lane) (down up near : Lane) => ∀ sat, toF32 .rdn sat (f (ofF32 x)) = down
      ∧ toF32 .rup sat (f (ofF32 x)) = up ∧ toF32 .rne sat (f (ofF32 x)) = near
    rounds XVal.exp2 0x3F000000#32 0x3FB504F3#32 0x3FB504F4#32 0x3FB504F3#32
    ∧ rounds XVal.exp2 0xBFA00000#32 0x3ED744FC#32 0x3ED744FD#32 0x3ED744FD#32
    ∧ rounds XVal.log2 0x40400000#32 0x3FCAE00D#32 0x3FCAE00E#32 0x3FCAE00D#32
    ∧ rounds XVal.log2 0x3F400000#32 0xBED47FCC#32 0xBED47FCB#32 0xBED47FCC#32
    ∧ rounds XVal.recip 0x40400000#32 0x3EAAAAAA#32 0x3EAAAAAB#32 0x3EAAAAAB#32
    ∧ rounds XVal.rsqrt 0x40400000#32 0x3F13CD3A#32 0x3F13CD3B#32 0x3F13CD3A#32
    ∧ rounds XVal.sqrt 0x40400000#32 0x3FDDB3D7#32 0x3FDDB3D8#32 0x3FDDB3D7#32)
  ∧ (∀ (r : Rnd) (sat : Bool) (src dst : Nat) (l : Lane),
    cvtLane src src r sat l = l
    ∧ (∀ x ∈ [(8, 16, true), (9, 8, true), (10, 8, false), (11, 4, true), (12, 4, false)], dst = x.1 →
      let lo : Int := if x.2.2 then -(2 ^ (x.2.1 - 1) : Int) else 0
      let hi : Int := if x.2.2 then 2 ^ (x.2.1 - 1) - 1 else 2 ^ x.2.1 - 1
      cvtLane 21 dst r true l = BitVec.ofInt 32 (max lo (min hi l.toInt))
      ∧ (∃ v : Int, lo ≤ v ∧ v ≤ hi ∧ (v - l.toInt) % 2 ^ x.2.1 = 0 ∧ cvtLane 21 dst r false l = BitVec.ofInt 32 v)
      ∧ cvtLane 0 dst r sat 0x7FC00000#32 = 0#32 ∧ cvtLane 0 dst r sat 0x7F800000#32 = BitVec.ofInt 32 hi
      ∧ cvtLane 0 dst r sat 0xFF800000#32 = BitVec.ofInt 32 lo)
    ∧ cvtLane 20 19 r sat l = l.extractLsb' 0 16 ++ 0#16
    ∧ (r = .rtz ∨ r = .rdn → cvtLane 19 20 r sat l = 0#16 ++ l.extractLsb' 16 16)
    ∧ (r = .rup → cvtLane 19 20 r sat l
      = 0#16 ++ (l.extractLsb' 16 16 + if l.extractLsb' 0 16 = 0#16 then 0#16 else 1#16))
    ∧ (r = .rne → cvtLane 19 20 r sat l = 0#16 ++ (l.extractLsb' 16 16
      + if 0x8000 < (l.extractLsb' 0 16).toNat ∨ (l.extractLsb' 0 17 = 0x18000#17) then 1#16 else 0#16)))
  ∧ (∀ sat, cvtLane 0 7 .rne sat 0x3E800000#32 = 0#32 ∧ cvtLane 0 7 .rne sat 0x3F400000#32 = 2#32
    ∧ cvtLane 0 7 .rne sat 0x40200000#32 = 4#32 ∧ cvtLane 0 7 .rne sat 0x40A00000#32 = 6#32
    ∧ cvtLane 0 9 .rne sat 0x40200000#32 = 2#32 ∧ cvtLane 0 9 .rtz sat 0x40200000#32 = 2#32
    ∧ cvtLane 0 9 .rdn sat 0xC0200000#32 = -3#32 ∧ cvtLane 0 9 .rup sat 0x40200000#32 = 3#32
    ∧ cvtLane 0 7 .rne sat 0x7FC00000#32 = 0#32 ∧ cvtLane 0 7 .rne sat 0x7F800000#32 = 7#32
    ∧ cvtLane 0 4 .rne false 0x7F800000#32 = 0x7F#32 ∧ cvtLane 0 4 .rne true 0x7F800000#32 = 0x7E#32
    ∧ cvtLane 0 2 .rne false 0x47800000#32 = 0x7C00#32 ∧ cvtLane 0 2 .rtz false 0x47800000#32 = 0x7BFF#32
    ∧ quantLane .rne 4 true true 0x3FC00000#32 0x0FD7C800#32 = 5#32
    ∧ quantLane .rne 4 true true 0xC0000000#32 0x0FD7C800#32 = -8#32
    ∧ toF32 .rne sat (XVal.add .rne ((hdrScale 0x0FD7C800#32).mul (readFmt 21 8#32)) (ofF32 0x3E800000#32)) = 0x3FE00000#32)
  ∧ ∀ (r : Rnd) (a h : Lane), ∀ x ∈ [(8, 16, true), (9, 8, true), (10, 8, false), (11, 4, true), (12, 4, false)],
    let lo : Int := if x.2.2 then -(2 ^ (x.2.1 - 1) : Int) else 0
    let hi : Int := if x.2.2 then 2 ^ (x.2.1 - 1) - 1 else 2 ^ x.2.1 - 1
    let i4 := decide (x.1 = 11)
    let z : Int := (h.extractLsb' 20 8).toInt
    let bad := h.extractLsb' 28 4 ≠ 0#4 ∨ h.extractLsb' 12 8 = 0xFF#8 ∨ (i4 = true ∧ (z < -8 ∨ 7 < z))
    let lane := quantLane r x.2.1 x.2.2 i4 a h
    let scale := 4096 + fieldNat h 0 12
    (h.extractLsb' 12 8 ≠ 0#8 → hdrScale h = .fin false scale ((fieldNat h 12 8 : Int) - 139) false)
    ∧ (h.extractLsb' 12 8 = 0#8 → hdrScale h = .fin false 0 0 false)
    ∧ (bad → lane = 0#32)
    ∧ (¬bad → (h.extractLsb' 12 8 = 0#8 ∨ isNaN32 a = true → lane = BitVec.ofInt 32 (max lo (min hi z)))
      ∧ (h.extractLsb' 12 8 ≠ 0#8 →
        (∀ neg, ofF32 a = .inf neg → lane = BitVec.ofInt 32 (if neg then lo else hi))
        ∧ ∀ neg m e k, ofF32 a = .fin neg m e k →
          let d := e - ((fieldNat h 12 8 : Int) - 139)
          let top := m * 2 ^ d.toNat
          let under := scale * 2 ^ (-d).toNat
          (2 ^ 32 * under < top → lane = BitVec.ofInt 32 (if neg then lo else hi))
          ∧ (top ≤ 2 ^ 32 * under → ∃ q : Nat,
            lane = BitVec.ofInt 32 (max lo (min hi ((if neg then -(q : Int) else q) + z)))
            ∧ (r = .rne → 2 * (q * under) ≤ 2 * top + under ∧ 2 * top ≤ 2 * (q * under) + under
              ∧ (2 * (q * under) = 2 * top + under ∨ 2 * top = 2 * (q * under) + under → q % 2 = 0))
            ∧ (r = .rtz ∨ (r = .rdn ∧ neg = false) ∨ (r = .rup ∧ neg = true) → q = top / under)
            ∧ ((r = .rdn ∧ neg = true) ∨ (r = .rup ∧ neg = false) → q = (top + under - 1) / under))))

/-- VF, VFS and VC (R137 to R140, R148 to R151): each lane of the result from the same lane of the sources, rounded once, in
the cycle that the family's table gives. -/
def Obligations.FloatVectors : Prop :=
  ∀ (s : State) (r : Rnd) (sat : Bool) (d : VDst) (a b c : VSrc) (p : PReg) (dst src : FmtCode),
    let x := s.lane a
    let y := s.lane b
    let z := s.lane c
    let f := ofF32
    let rnd := toF32 r sat
    (s.delivers [a, b] → s.accepts [a, b] d →
      WritesV (.vadd r sat d a b) s [a, b] d 4 (fun k => rnd (XVal.add r (f (x k)) (f (y k))))
      ∧ WritesV (.vsub r sat d a b) s [a, b] d 4 (fun k => rnd (XVal.add r (f (x k)) (f (y k)).neg))
      ∧ WritesV (.vmul r sat d a b) s [a, b] d 4 (fun k => rnd ((f (x k)).mul (f (y k))))
      ∧ WritesV (.vmin d a b) s [a, b] d 4 (fun k =>
          if isNaN32 (x k) ∨ isNaN32 (y k) then QNaN else if below32 (y k) (x k) then y k else x k)
      ∧ WritesV (.vmax d a b) s [a, b] d 4 (fun k =>
          if isNaN32 (x k) ∨ isNaN32 (y k) then QNaN else if below32 (x k) (y k) then y k else x k)
      ∧ WritesV (.vcps d a b) s [a, b] d 4 (fun k => (y k).extractLsb' 31 1 ++ (x k).extractLsb' 0 31)
      ∧ (s.core.predPoisoned p = false →
        WritesV (.vsel d a b p) s [a, b] d 4 (fun k => if (s.core.getP p).getLsbD k then x k else y k))
      ∧ WritesV (.vdiv r sat d a b) s [a, b] d 12 (fun k => rnd ((f (x k)).div (f (y k))))
      ∧ WritesV (.vldexp r sat d a b) s [a, b] d 4 (fun k => scaleLane r sat (x k) (y k))
      ∧ (∀ w sg, quantFmt dst.toNat = some (w, sg) →
        WritesV (.vqnt r dst d a b) s [a, b] d 4 (fun k => quantLane r w sg (decide (dst = 11#5)) (x k) (y k))))
    ∧ (s.delivers [a, b, c] → s.accepts [a, b, c] d →
      WritesV (.vfma r sat d a b c) s [a, b, c] d 4 (fun k => rnd (XVal.add r ((f (x k)).mul (f (y k))) (f (z k))))
      ∧ WritesV (.vfms r sat d a b c) s [a, b, c] d 4 (fun k => rnd (XVal.add r ((f (x k)).mul (f (y k))) (f (z k)).neg))
      ∧ (src = 0#5 ∨ src = 21#5 →
        WritesV (.vscacc r sat src d a b c) s [a, b, c] d 6 (fun k =>
          let h := laneOf (s.core.rawSrc b) k
          if h.extractLsb' 28 4 ≠ 0#4 ∨ h.extractLsb' 12 8 = 0xFF#8 then QNaN
          else rnd (XVal.add r ((hdrScale h).mul (readFmt src.toNat (x k))) (f (z k))))))
    ∧ (s.delivers [a] → s.accepts [a] d →
      WritesV (.vabs d a) s [a] d 4 (fun k => 0#1 ++ (x k).extractLsb' 0 31)
      ∧ WritesV (.vneg d a) s [a] d 4 (fun k => ~~~((x k).extractLsb' 31 1) ++ (x k).extractLsb' 0 31)
      ∧ WritesV (.vmov d a) s [a] d 4 x
      ∧ WritesV (.vrcp r sat d a) s [a] d 8 (fun k => rnd (f (x k)).recip)
      ∧ WritesV (.vrsq r sat d a) s [a] d 8 (fun k => rnd (f (x k)).rsqrt)
      ∧ WritesV (.vsqrt r sat d a) s [a] d 12 (fun k => rnd (f (x k)).sqrt)
      ∧ WritesV (.vexp2 r sat d a) s [a] d 10 (fun k => rnd (f (x k)).exp2)
      ∧ WritesV (.vlog2 r sat d a) s [a] d 10 (fun k => rnd (f (x k)).log2)
      ∧ (badPair src.toNat dst.toNat = false →
        WritesV (.vcvt r sat dst src d a) s [a] d 4 (fun k => cvtLane src.toNat dst.toNat r sat (x k)))
      ∧ (badPair src.toNat dst.toNat = true →
        Traps (.vcvt r sat dst src d a) s 14#5 (wordOf (.vcvt r sat dst src d a)) 0#64 0#64))

/-- VI, VX and VR (R141 to R147): integer and bit lanes, lanes that move, and reductions written to every lane. -/
def Obligations.IntegerVectors : Prop :=
  ∀ (s : State) (r : Rnd) (d : VDst) (a b c : VSrc) (n : BitVec 5) (t : BitVec 8) (i j : Reg) (m : BitVec 7) (h : Bool),
    let x := s.lane a
    let y := s.lane b
    let z := s.lane c
    let clamp := fun k : Int => BitVec.ofInt 32 (max (-2147483648) (min 2147483647 k))
    let clean := fun rs : List Reg => ∀ q ∈ rs, Granule.x q ∉ s.core.poison
    let all := lanesOf (s.core.readSrc a)
    (s.delivers [a, b] → s.accepts [a, b] d →
      WritesV (.viadd false d a b) s [a, b] d 2 (fun k => x k + y k)
      ∧ WritesV (.viadd true d a b) s [a, b] d 2 (fun k => clamp ((x k).toInt + (y k).toInt))
      ∧ WritesV (.visub false d a b) s [a, b] d 2 (fun k => x k - y k)
      ∧ WritesV (.visub true d a b) s [a, b] d 2 (fun k => clamp ((x k).toInt - (y k).toInt))
      ∧ WritesV (.vimul false d a b) s [a, b] d 4 (fun k => x k * y k)
      ∧ WritesV (.vimul true d a b) s [a, b] d 4 (fun k => clamp ((x k).toInt * (y k).toInt))
      ∧ WritesV (.vimin d a b) s [a, b] d 2 (fun k => if (y k).toInt < (x k).toInt then y k else x k)
      ∧ WritesV (.vimax d a b) s [a, b] d 2 (fun k => if (x k).toInt < (y k).toInt then y k else x k)
      ∧ WritesV (.vshl d a (.lanes b)) s [a, b] d 2 (fun k => x k <<< ((y k).toNat % 32))
      ∧ WritesV (.vshr d a (.lanes b)) s [a, b] d 2 (fun k => x k >>> ((y k).toNat % 32))
      ∧ WritesV (.vsar d a (.lanes b)) s [a, b] d 2 (fun k => (x k).sshiftRight ((y k).toNat % 32))
      ∧ WritesV (.vfsh d a b (.imm n)) s [a, b] d 2 (fun k => ((x k ++ y k) <<< n.toNat).extractLsb' 32 32)
      ∧ WritesV (.vzip d a b h) s [a, b] d 3 (fun k =>
          (if k % 2 = 0 then x else y) ((if h then 64 else 0) + k / 2)))
    ∧ (s.delivers [a, b, c] → s.accepts [a, b, c] d →
      WritesV (.vfsh d a b (.lanes c)) s [a, b, c] d 2 (fun k => ((x k ++ y k) <<< ((z k).toNat % 32)).extractLsb' 32 32)
      ∧ (∃ f : Nat → Lane, WritesV (.vlut3 d a b c t) s [a, b, c] d 2 f ∧ ∀ k e, e < 32 →
          (f k).getLsbD e
            = t.getLsbD (4 * ((x k).getLsbD e).toNat + 2 * ((y k).getLsbD e).toNat + ((z k).getLsbD e).toNat))
      ∧ WritesV (.vperm d a b c) s [a, b, c] d 4 (fun k =>
          let e := (z k).toNat % 256
          if e < 128 then x e else y (e - 128)))
    ∧ (s.delivers [a] → s.accepts [a] d →
      WritesV (.vshl d a (.imm n)) s [a] d 2 (fun k => x k <<< n.toNat)
      ∧ WritesV (.vshr d a (.imm n)) s [a] d 2 (fun k => x k >>> n.toNat)
      ∧ WritesV (.vsar d a (.imm n)) s [a] d 2 (fun k => (x k).sshiftRight n.toNat)
      ∧ WritesV (.vpopc d a) s [a] d 2 (fun k => BitVec.ofNat 32 ((List.range 32).filter (x k).getLsbD).length)
      ∧ (∃ f : Nat → Nat, WritesV (.vclz d a) s [a] d 2 (fun k => BitVec.ofNat 32 (f k)) ∧ ∀ k, f k ≤ 32
          ∧ (∀ e, e < f k → (x k).getLsbD (31 - e) = false) ∧ (f k < 32 → (x k).getLsbD (31 - f k) = true))
      ∧ (clean [i, j] → WritesV (.vins d a i j) s [a] d 3 (fun k =>
          if k = (s.core.getX j).toNat % 128 then (s.core.getX i).setWidth 32 else x k))
      ∧ (clean [i] → WritesV (.vrotl d a (.reg i)) s [a] d 3 (fun k => x ((k + (s.core.getX i).toNat % 128) % 128)))
      ∧ WritesV (.vrotl d a (.imm m)) s [a] d 3 (fun k => x ((k + m.toNat) % 128))
      ∧ WritesV (.vrsum r d a) s [a] d 8 (fun _ => treeSum r all)
      ∧ WritesV (.vrmax d a) s [a] d 8 (fun _ => (tree max32 all).headD 0#32)
      ∧ WritesV (.vrmin d a) s [a] d 8 (fun _ => (tree min32 all).headD 0#32)
      ∧ WritesV (.vrisum false d a) s [a] d 8 (fun _ => all.foldl (· + ·) 0#32)
      ∧ WritesV (.vrisum true d a) s [a] d 8 (fun _ => clamp (all.map BitVec.toInt).sum))
    ∧ (s.accepts [] d → clean [i, j] →
      WritesV (.vbcast d i j) s [] d 3 (fun k => (s.core.getX i + BitVec.ofNat 64 k * s.core.getX j).setWidth 32))

/-- VP and VEXTR (R62, R134, R144, R145): predicates from comparisons and tables, scalars from predicates and lanes. -/
def Obligations.PredicatesAndScalars : Prop :=
  (∀ (s : State) (p q r o : PReg) (d : Reg) (a b : VSrc) (e : Reg) (fc : FCond) (ic : ICond) (t : BitVec 8),
    let x := s.lane a
    let y := s.lane b
    let writes := fun (i : Instr) (srcs : List VSrc) (f : Nat → Bool) =>
      let c := s.core.afterPops srcs
      Goes i s { s with core := { c with flight := c.flight ++ [⟨c.cycle + 2, c.issued, .p (c.pslot p) c.passMask (ofBits f)⟩] } }
    let free := ∀ k, s.core.block = some k → k.pred ≠ p
    (s.delivers [a, b] → free →
      writes (.vfcmp fc p a b) [a, b] (fun k => FCond.holds fc (x k) (y k))
      ∧ writes (.vicmp ic p a b) [a, b] (fun k => match ic with
        | .eq => x k = y k
        | .ne => x k ≠ y k
        | .lt => (x k).toInt < (y k).toInt
        | .le => (x k).toInt ≤ (y k).toInt
        | .gt => (y k).toInt < (x k).toInt
        | .ge => (y k).toInt ≤ (x k).toInt
        | .ltu => (x k).toNat < (y k).toNat
        | .geu => (y k).toNat ≤ (x k).toNat))
    ∧ (free → (∀ k ∈ [q, r, o], s.core.predPoisoned k = false) →
      writes (.plut3 p q r o t) [] (fun k => t.getLsbD (4 * ((s.core.getP q).getLsbD k).toNat
        + 2 * ((s.core.getP r).getLsbD k).toNat + ((s.core.getP o).getLsbD k).toNat)))
    ∧ (¬free → Traps (.vfcmp fc p a b) s 4#5 (wordOf (.vfcmp fc p a b)) 0#64 0#64)
    ∧ (s.core.lane0 = true → s.core.predPoisoned q = false →
      WritesX (.pcnt d q) s d 2 (BitVec.ofNat 64 ((List.range 128).filter (s.core.getP q).getLsbD).length)
      ∧ ∃ n, WritesX (.pfirst d q) s d 2 (BitVec.ofNat 64 n) ∧ n ≤ 128 ∧ (∀ k, k < n → (s.core.getP q).getLsbD k = false)
        ∧ (n < 128 → (s.core.getP q).getLsbD n = true))
    ∧ (s.executes [e] → s.delivers [a] →
      Goes (.vextr d a e) s
        (({ s with core := s.core.afterPops [a] } : State).withX d 3 ((x ((s.core.getX e).toNat % 128)).setWidth 64)))
    ∧ (s.core.lane0 = false → s.delivers [a] → Goes (.vextr d a e) s { s with core := s.core.afterPops [a] }))
  ∧ ∀ u v : Lane,
    (isNaN32 u = true ∨ isNaN32 v = true → FCond.holds .eq u v = false ∧ FCond.holds .ne u v = true
      ∧ FCond.holds .lt u v = false ∧ FCond.holds .le u v = false ∧ FCond.holds .gt u v = false
      ∧ FCond.holds .ge u v = false ∧ FCond.holds .un u v = true ∧ FCond.holds .or u v = false)
    ∧ FCond.holds .eq 0x80000000#32 0#32 = true

/-- R29, R32, R34, R62, R132: what a write of a vector or predicate register, or of a queue's reserved place, leaves when
it lands. That the failing lanes of a masked write to a dead rotating slot keep what the slot stores is the model's own choice
(log 41). -/
def Obligations.VectorWritesLand : Prop :=
  ∀ (c : Core) (n m : BitVec 6) (p q : PReg) (mask img : PredImg) (w : VecImg) (o : QNum) (ticket k : Nat), k < 128 →
    n.toNat < 48 → m.toNat < 48 →
    c.vslot n = (if n.toNat < 16 then n.toNat else 16 + (n.toNat - 16 + c.vbase.toNat) % 32)
    ∧ c.pslot p = (if p.toNat < 8 then p.toNat else 8 + (p.toNat - 8 + c.pbase.toNat) % 8)
    ∧ c.passMask.getLsbD k = (match c.block with | none => true | some b => b.value.getLsbD k == b.pat.getLsbD 0)
    ∧ (let t := c.land (.v (c.vslot n) mask w)
      laneOf (t.getV m) k = (if c.vslot m ≠ c.vslot n then laneOf (c.getV m) k
        else if mask.getLsbD k then laneOf w k else laneOf (c.v.getD (c.vslot n) 0#4096) k)
      ∧ t.x = c.x ∧ t.p = c.p ∧ t.queues = c.queues)
    ∧ (let t := c.land (.p (c.pslot p) mask img)
      (t.getP q).getLsbD k = (if q = 0#4 then true
        else if p = 0#4 ∨ c.pslot q ≠ c.pslot p then (c.getP q).getLsbD k
        else if mask.getLsbD k then img.getLsbD k else (c.p.getD (c.pslot p) 0#128).getLsbD k)
      ∧ t.x = c.x ∧ t.v = c.v ∧ t.queues = c.queues)
    ∧ (let t := c.land (.fill o ticket w)
      t.queues[o.toNat]'o.isLt = (c.queues[o.toNat]'o.isLt).map (fun e =>
        if e.ticket = ticket then { e with img := some w } else e)
      ∧ (∀ r : QNum, r ≠ o → t.queues[r.toNat]'r.isLt = c.queues[r.toNat]'r.isLt) ∧ t.x = c.x ∧ t.v = c.v ∧ t.p = c.p)
    ∧ (16 ≤ n.toNat → c.vdepth ≠ 0#6 → c.vdepth.toNat ≤ (c.vage.getD (c.vslot n - 16) 0#6).toNat → c.getV n = 0#4096)

/-- VM (R155, R156): the lanes that pass of up to eight words, read into a destination seven cycles later or stored at once;
two words in one bank raise cause 7. That what the core issued earlier to the same stashed lines is made first is the model's own
reading (log 13), and so is that a load may find older bytes of its engines' unacquired writes (log 97); where neither applies, the
values are those that stand. That poison anywhere in an accessed word counts is the model's own reading too (log 107). -/
def Obligations.VectorMemory : Prop :=
  ∀ (s : State) (d : VDst) (v : VSrc) (a r : Reg) (disp : BitVec 24) (o : Nat → Nat) (p : Nat),
    let base := s.core.getX a + disp.signExtend 64
    let strided := (s.core.getX r).toInt
    let loads := fun (i : Instr) (base : Word) (stride : Int) (rs : List Reg) =>
      (∀ q ∈ rs, Granule.x q ∉ s.core.poison) → s.accepts [] d → s.WordsAt base stride o false → s.core.collecting = false →
      let v := (List.range 8).foldl (fun t k =>
        if s.core.passMask.extractLsb' (16 * k) 16 = 0#16 then t else t.settleRead (o k) 64) s
      (∀ k, s.accesses k → v.core.scratchPoisoned (o k) 64 = false) →
      (∃ (u : State) (f : Nat → Lane), Goes i s { u with core := u.core.withV d 7 (ofLanes f) })
      ∧ ((∀ k, s.accesses k → s.NothingDue (.load .d) (o k) 64 ∧ s.core.unseenAt (s.core.locOf (o k)) 64 = false
          ∧ s.core.inOpenStorage (o k) 64 = false) →
        v = s ∧ ∃ (u : State) (f : Nat → Lane), Goes i s { u with core := (u.core.afterPops []).withV d 7 (ofLanes f) }
          ∧ Found s u ∧ ((∀ k, s.accesses k → s.core.windowAt (o k) = none) → u = s)
          ∧ ∀ k, k < 128 → s.accesses (k / 16) →
            let at_ := fun n => s.core.scratch.read (o (k / 16) + 4 * (k % 16) + n)
            f k = at_ 3 ++ at_ 2 ++ at_ 1 ++ at_ 0)
    let stores := fun (i : Instr) (base : Word) (stride : Int) (rs : List Reg) =>
      (∀ q ∈ rs, Granule.x q ∉ s.core.poison) → s.delivers [v] → s.WordsAt base stride o true → s.core.collecting = false →
      let passes := fun k n : Nat => k < 128 ∧ n < 4 ∧ s.core.passMask.getLsbD k = true
      let place := fun k n : Nat => o (k / 16) + 4 * (k % 16) + n
      let outside := ∀ k m, s.accesses k → m < 64 → s.core.windowAt (o k + m) = none
      let undue := s.core.work = [] ∧ ∀ k m n, s.accesses k → m + n ≤ 64 → s.NothingDue .store (o k + m) n
      ∃ runs : List (Nat × List Byte),
        let u := runs.foldl (fun t w => t.storeLocal w.1 w.2) { s with core := s.core.afterPops [v] }
        Goes i s u
        ∧ (∀ w ∈ runs, ∀ j, j < w.2.length → ∃ k n, passes k n ∧ w.1 + j = place k n ∧ w.2[j]? = some (byteOf (s.lane v k) n))
        ∧ (∀ k n, passes k n → ∃ w ∈ runs, ∃ j, j < w.2.length ∧ w.1 + j = place k n)
        ∧ (outside ∨ undue →
        (∀ k n, passes k n → u.core.scratch.read (place k n) = byteOf (s.lane v k) n)
        ∧ (∀ e, (∀ k n, passes k n → e ≠ place k n) →
          u.core.scratch.read e = s.core.scratch.read e)
        ∧ (∀ key e, u.pkg.peek key e = s.pkg.peek key e)
        ∧ u = { s with
            core := { s.core.afterPops [v] with
              scratch := u.core.scratch, poison := u.core.poison, wins := u.core.wins, work := u.core.work
              wrote := u.core.wrote, ops := u.core.ops, wfe := u.core.wfe, lastLoad := u.core.lastLoad
              unseen := u.core.unseen, l := u.core.l, c0 := u.core.c0, c1 := u.core.c1, k := u.core.k }
            parked := u.parked
            pkg := { s.pkg with written := u.pkg.written, stale := u.pkg.stale, rests := u.pkg.rests } }
        ∧ (∀ x ∈ u.core.unseen, x ∈ s.core.unseen)
        ∧ (∀ q, ((u.core.mapCmds Cmd.bare).queue q) = ((s.core.mapCmds Cmd.bare).queue q))
        ∧ u.pkg.rests.map Rest.bare = s.pkg.rests.map Rest.bare
        ∧ (outside → u.parked = s.parked ∧ u.pkg = s.pkg
          ∧ u.core.wins = s.core.wins ∧ u.core.ops = s.core.ops ∧ u.core.wfe = s.core.wfe ∧ u.core.lastLoad = s.core.lastLoad
          ∧ ∀ q, u.core.queue q = s.core.queue q))
    loads (.vld d a disp) base 1 [a] ∧ loads (.vlds d a (.reg disp r)) base strided [a, r]
    ∧ loads (.vlds d a (.imm disp)) (s.core.getX a) disp.toInt [a]
    ∧ stores (.vst v a disp) base 1 [a] ∧ stores (.vsts v a (.reg disp r)) base strided [a, r]
    ∧ stores (.vsts v a (.imm disp)) (s.core.getX a) disp.toInt [a]
    ∧ ((∀ q ∈ [a, r], Granule.x q ∉ s.core.poison) → s.accepts [] d → AtLocal base 64 p → s.core.block = none →
      (∀ i : Nat, i < 8 → 0 ≤ (p / 64 : Int) + i * strided ∧ (p / 64 : Int) + i * strided ≤ 63487) → strided % 31 = 0 →
      Traps (.vlds d a (.reg disp r)) s 7#5 (wordOf (.vlds d a (.reg disp r))) (BitVec.ofNat 64 (p / 64 % 31)) 0#64)

/-- VS (R152 to R154): an entry cleared, the lanes that pass accumulated into it, its moments and logarithm formed, and a
field of it in every lane; of an entry that the lattice has written and no WAITC covers, an instruction finds each field old or new.
That a NaN wins the maximum with +0 in R153 is the model's own reading (log 112).
VQ (R157 to R159): the lanes that a predicate and the block select join the assembly buffer, 128 of which form an entry
of q4; VPOP takes the oldest entry, and VSTRC fills up the last. -/
def Obligations.StatisticsAndStreams : Prop :=
  (∀ (s : State) (a b : Reg) (v : VSrc) (d : VDst) (f : StatField),
      let k := (s.core.getX a).toNat % 1024
      let stands := s.core.stats.getD k StatEntry.zero
      let sound := ∀ g, g < 4 → Granule.stat k g ∉ s.core.poison
      let sets := fun (t : State) (i : Instr) (srcs : List VSrc) (x : StatEntry) => ∃ p q,
        Goes i s { t with core := { t.core.afterPops srcs with
            stats := s.core.stats.setIfInBounds k x, poison := p, unseen := q } }
          ∧ (∀ g ∈ p, g ∈ s.core.poison) ∧ (∀ g ∈ s.core.poison, g ∉ p → ∃ j, g = .stat k j)
          ∧ (∀ u ∈ q, u ∈ t.core.unseen ∧ u.meets (statLoc k 0) 32 = false)
          ∧ (t.core.unseenAt (statLoc k 0) 32 = false → q = t.core.unseen)
      let found := fun (P : StatEntry → State → Prop) => ∃ e t, P e t ∧ Found s t
        ∧ s.MayFind (statLoc k 0) stands.bytes e.bytes ∧ (s.core.unseenAt (statLoc k 0) 32 = false → e = stands ∧ t = s)
      (s.executes [a] → sets s (.vstatClr a) [] ⟨0#32, 0#32, 0#32, 0xFF800000#32, 0#32, QNaN, QNaN, QNaN⟩)
      ∧ (s.delivers [v] → Granule.x a ∉ s.core.poison → sound → found fun e t =>
        sets t (.vstatAcc a v) [v] (e.accumulate s.core.passMask (s.core.readSrc v)))
      ∧ (s.executes [a, b] → sound → found fun e t => sets t (.vstatFin a b) [] (e.finish ((s.core.getX b).setWidth 32)))
      ∧ (s.accepts [] d → Granule.x a ∉ s.core.poison → sound → found fun e t =>
        Goes (.vstld f d a) s { t with core := (t.core.afterPops []).withV d 12 (ofLanes fun _ => match f with
          | .mean => e.mu
          | .rdev => e.rho
          | .lse => e.lam
          | .count => e.n) }))
  ∧ (∀ (e : StatEntry) (mask : PredImg) (w : VecImg) (eps : Lane),
      let rn := toF32 .rne false
      let plus := fun x y : Lane => rn (XVal.add .rne (ofF32 x) (ofF32 y))
      let lanes := fun g : Lane → Lane => (List.range 128).map fun j => if mask.getLsbD j then g (laneOf w j) else 0#32
      let x := e.accumulate mask w
      let some_ := fun P : Lane → Prop => ∃ j, j < 128 ∧ mask.getLsbD j = true ∧ P (laneOf w j)
      let less := fun y : XVal => XVal.add .rne y (ofF32 x.m).neg
      let z := e.finish eps
      let n := XVal.ofInt e.n.toNat 0
      let d := rn (XVal.add .rne (ofF32 (rn ((ofF32 e.s2).div n))) (ofF32 (rn ((ofF32 z.mu).mul (ofF32 z.mu)))).neg)
      x.n = BitVec.ofNat 32 (min (e.n.toNat + ((List.range 128).filter mask.getLsbD).length) (2 ^ 32 - 1))
      ∧ x.s1 = plus e.s1 (treeSum .rne (lanes id))
      ∧ x.s2 = plus e.s2 (treeSum .rne (lanes fun y => rn ((ofF32 y).mul (ofF32 y))))
      ∧ (x.mu = e.mu ∧ x.rho = e.rho ∧ x.lam = e.lam)
      ∧ (isNaN32 x.m = true ↔ isNaN32 e.m = true ∨ some_ fun y => isNaN32 y = true)
      ∧ (isNaN32 x.m = false → (x.m = e.m ∨ some_ fun y => x.m = y) ∧ below32 x.m e.m = false
        ∧ ¬some_ fun y => below32 x.m y = true)
      ∧ (isNaN32 x.m = true → x.e = QNaN) ∧ (x.m = 0xFF800000#32 → x.e = e.e)
      ∧ (∀ m, ofF32 x.m = .inf false → ofF32 e.m = m →
        x.e = plus (match m with | .inf false => e.e | _ => 0#32)
          (treeSum .rne (lanes fun y => match ofF32 y with | .inf false => 0x3F800000#32 | _ => 0#32)))
      ∧ (∀ m, finite32 x.m = true → ofF32 e.m = m →
        x.e = plus (match m with
            | .inf _ => rn ((ofF32 e.e).mul (.zero false))
            | m => if m.numEq (ofF32 x.m) then e.e else rn (XVal.timesExp2 (ofF32 e.e) (less m)))
          (treeSum .rne (lanes fun y => match ofF32 y with | .inf _ => 0#32 | y => rn (less y).exp2)))
      ∧ (e.n = 0#32 → z.mu = QNaN ∧ z.rho = QNaN ∧ z.lam = QNaN)
      ∧ (e.n ≠ 0#32 → z.mu = rn ((ofF32 e.s1).div n) ∧ z.lam = plus e.m (rn (ofF32 e.e).log2)
        ∧ z.rho = rn (ofF32 (plus (if isNaN32 d then QNaN else if below32 d 0#32 then 0#32 else d) eps)).rsqrt)
      ∧ (z.n = e.n ∧ z.s1 = e.s1 ∧ z.s2 = e.s2 ∧ z.m = e.m ∧ z.e = e.e))
  ∧ ∀ (s : State) (v : VSrc) (p : PReg) (d : VDst) (a : Reg),
      let c := s.core
      let chosen := ((List.range 128).filter fun k => (c.getP p).getLsbD k && c.passMask.getLsbD k).map (s.lane v)
      let fill := List.replicate (128 - c.buffer.length) ((c.getX a).setWidth 32)
      let sound := ∀ g, Granule.buffer g ∉ c.poison
      let room := (c.queues[4]).length < 32
      let entered := fun (b : Core) (l : List Lane) => { b with
        queues := b.queues.set 4 (b.queues[4] ++ [⟨b.ticket, some (ofLaneList (l.take 128)), 0#64⟩])
        ticket := b.ticket + 1
        buffer := l.drop 128 }
      (s.delivers [v] → c.predPoisoned p = false → c.buffer.length < 128 →
        let all := c.buffer ++ chosen
        (all.length < 128 → Goes (.vpush v p) s { s with core := { c.afterPops [v] with buffer := all } })
        ∧ (128 ≤ all.length → room → sound → Goes (.vpush v p) s { s with core := entered (c.afterPops [v]) all })
        ∧ (128 ≤ all.length → ¬room → Traps (.vpush v p) s 25#5 (wordOf (.vpush v p)) 4#64 0#64))
      ∧ (∀ e img, c.visible 4#3 = some (e, img) → e.poison = 0#64 → s.accepts [] d →
        Goes (.vpop d) s { s with core := (c.afterPops [.pop 4#3]).withV d 2 (c.deliver 4#3 img) })
      ∧ (s.accepts [] d → c.visible 4#3 = none → Waits (.vpop d) s s (.entry 4#3))
      ∧ (s.executes [a] → (c.buffer = [] → Goes (.vstrc a) s s)
        ∧ (c.buffer ≠ [] → c.buffer.length < 128 → room → sound →
          Goes (.vstrc a) s { s with core := entered c (c.buffer ++ fill) }))

/-! ### Waits, landings and the system family -/

/-- WFE, the end of a wait and the landing of a waiting core's writes (R22, R28, R409, R410). -/
def Obligations.EventsAndWaits : Prop :=
  ∀ (s u : State) (pg : Page) (d a : Reg) (imm : BitVec 32),
    let v := s.core.getX a
    let now := Config.ticksOf s.core.time
    let armed := fun (t : State) (line : Option Nat) (seen : BitVec 5) =>
      ({ t with core := { t.core with wfe := some ⟨d, now, imm.toNat, line, seen⟩ } } : State)
    let ends := fun (t : State) (mask : BitVec 5) =>
      Goes (.wfe d a imm) s (({ t with core := { t.core with wfe := none } } : State).withX d 2 (mask.setWidth 64))
    let c := s.core
    (s.executes [a] → c.wfe = none →
      (v = 0#64 ∨ v.getLsbD 63 = true → Waits (.wfe d a imm) s (armed s none 0#5) .event)
      ∧ (v ≠ 0#64 → v.getLsbD 63 = false → s.translate c.ctx v .read = (u, .ok pg) →
        let line := (pg.pbase + (v.toNat - pg.vbase)) / 64
        (u.core.lastLoad ≠ some (line, true) → Waits (.wfe d a imm) s (armed u (some line) 0#5) .event)
        ∧ (u.core.lastLoad = some (line, true) → ends u 1#5)))
    ∧ (s.executes [] → ∀ r, c.wfe = some r →
      let mask := r.seen ||| (if r.timeout ≠ 0 ∧ r.tick + r.timeout ≤ now then 8#5 else 0#5)
      (mask ≠ 0#5 → ends s mask) ∧ (mask = 0#5 → Waits (.wfe d a imm) s s .event))
    ∧ (∀ w, c.wait = some w → c.time = s.pkg.now →
      let tags := fun e : EngineQ => (match e with | .l => c.l | .c0 => c.c0 | .c1 => c.c1 | .k => c.k).cmds
      let due := fun m : Word => ∀ t, t < 64 → m.getLsbD t = true → ¬∃ k ∈ c.c0.cmds ++ c.c1.cmds, cmdTag k = t
      let within := fun (n : BitVec 4) (count : Nat) => n = 15#4 ∨ count ≤ n.toNat
      let quiet := c.ops = [] ∧ c.work = [] ∧ ∀ e, tags e = []
      (match w with
        | .entry q => (c.visible q).isSome = true
        | .engine e => (tags e).length < 32
        | .classes g t n e o => within g c.classG ∧ within t c.classS ∧ within n c.classC ∧ within e c.classA ∧ within o c.classK
        | .tagsAny m => c.tags &&& m ≠ 0#64 ∨ due m
        | .tagsAll m => m &&& ~~~c.tags = 0#64 ∨ ∃ t, t < 64 ∧ (m &&& ~~~c.tags).getLsbD t = true ∧
            ¬∃ k ∈ c.c0.cmds ++ c.c1.cmds, cmdTag k = t
        | .group => (∃ r, c.waitingBar = some r ∧ r.finished = true)
            ∧ ∀ id g, c.strand.bind (fun t => t.gang) = some id → s.pkg.gang id = some g → pktPackages g.packet = 1
        | .retire => quiet
        | .drain => quiet
        | .stash n line => c.stashed n line = true
        | .event => ∃ r, c.wfe = some r ∧ r.seen ≠ 0#5
        | .barrier pa _ gen => ∃ r x, c.waitingOn pa gen = some r ∧ r.seen = some x) →
      Makes (.waitEnd c.num) s { s with core := { c with wait := none } })
    ∧ (∀ q, c.wait = some (.entry q) → (c.visible q).isSome = false → Makes (.waitEnd c.num) s s)
    ∧ (∀ f ∈ c.flight, c.wait.isSome = true → c.cycle ≤ f.land → (∀ g ∈ c.flight, f.land ≤ g.land) →
      Makes (.registerWriteLanding c.num) s (s.advance (f.land - c.cycle)))
    ∧ (c.wait = none → Makes (.registerWriteLanding c.num) s { s with core := c.landDue })

/-- CTXSV, CTXLD, TLBINV and KEYSET in supervisor mode (R404 to R407, R411), and the steps in which the last two complete. CTXSV
drains the core and writes the image of what the drain has left, its queues and engine commands among it. The places of the image
that R393 leaves open are the model's own choice (log 25); that pending and taken traps leave the core with the image, and that
writes in flight land before an image is loaded, are its own readings (log 77). -/
def Obligations.SystemInstructions : Prop :=
  ∀ (s : State) (kind : TlbKind) (d a : Reg) (n key : BitVec 6) (o k : Nat), s.core.super = true →
    let c := s.core
    let x := s.pkg.ctx c.ctx
    let at_ := if c.getX a = 0#64 then x.imageAt c.num else (c.getX a).toNat
    let quiet := c.ops = [] ∧ c.work = [] ∧ c.l.cmds = [] ∧ c.c0.cmds = [] ∧ c.c1.cmds = [] ∧ c.k.cmds = []
    (s.executes [a] → at_ % 4096 = 0 → at_ < 2 ^ 52 →
      (c.settling = true ∨ s.dropsShared = true ∨ s.drains = false → Waits (.ctxsv a) s s .drain)
      ∧ (c.settling = false → s.dropsShared = false → s.drains = true →
        let w := s.drain
        let q := w.core
        (quiet → c.flight = [] → c.wins = Vector.replicate 8 none → w = s)
        ∧ ∃ u : State, Goes (.ctxsv a) s u ∧ u.core.x = q.x ∧ u.core.v = q.v ∧ u.core.p = q.p ∧ u.core.super = q.super
          ∧ u.core.queues = Vector.replicate 8 [] ∧ u.core.buffer = [] ∧ u.core.work = [] ∧ u.core.taken = []
          ∧ (∀ e, (u.core.queue e).cmds = []) ∧ (∀ t ∈ u.core.pending, t.rank = 0) ∧ (∀ g, .buffer g ∉ u.core.poison)
          ∧ u.core.wins = Vector.replicate 8 none ∧ u.core.trapvec = q.trapvec ∧ u.core.strand = q.strand
          ∧ (q.wins = Vector.replicate 8 none → w.pkg.hostLines = [] → w.pkg.mem.wf = true →
            (∀ b, at_ ≤ b → b < at_ + Config.imageBytes → w.pkg.reach b = .served ∧ w.stashOwner b = none) →
            let holds := fun (off len n : Nat) => u.physNat (at_ + off) len (w.pkg.ctx q.ctx).ptkey = n
            holds 0 2 1 ∧ holds 2 1 1 ∧ holds 4 1 (q.ctx % 256) ∧ holds 5 1 (q.num % 256) ∧ holds 0x18 8 q.trappc.toNat
            ∧ holds 0x20 8 (0#40 ++ q.pblkPred ++ q.pblkCount ++ q.pblkPat ++ 0#6 ++ BitVec.ofBool q.collect ++ 0#1 : Word).toNat
            ∧ (∀ r : Reg, r ≠ 0#6 → holds (0x400 + 8 * r.toNat) 8 (q.getX r).toNat)
            ∧ (∀ n, n < 48 → q.vdead n = false → holds (0x14000 + 512 * n) 512 (q.v.getD n 0#4096).toNat)
            ∧ (∀ n k y, n < 8 → k < 32 → (q.queues.getD n [])[k]? = some y →
              holds (0x1A000 + 0x4000 * n + 512 * k) 512 (y.img.getD 0#4096).toNat)
            ∧ ∀ (e : EngineQ), (q.queue e).cmds.length ≤ 32 →
              let n := (match e with | .l => 0 | .c0 => 1 | .c1 => 2 | .k => 3)
              holds (0x15C + n) 1 (q.queue e).cmds.length
              ∧ ∀ (i : Nat) (m : Cmd), (q.queue e).cmds[i]? = some m →
                let slot := 0xE000 + 0x1800 * n + 192 * i
                holds slot 8 m.word.toNat ∧ holds (slot + 8) 8 m.d.toNat ∧ holds (slot + 16) 8 m.a.toNat
                ∧ holds (slot + 24) 8 m.b.toNat ∧ holds (slot + 32) 8 m.c.toNat ∧ holds (slot + 40) 2 m.seq.toNat)))
    ∧ (s.executes [a] → at_ % 4096 ≠ 0 → Traps (.ctxsv a) s 5#5 (BitVec.ofNat 64 at_) 0#64 0#64)
    ∧ (s.executes [a] → at_ % 4096 = 0 → at_ < 2 ^ 52 →
      let w := (s.advance (c.lastLanding - c.cycle)).recallArea c.ctx at_ Config.imageBytes
      let u := (w.takeImage at_ x.ptkey).recallArea c.ctx at_ Config.imageBytes
      let field := fun (t : State) (off len : Nat) => t.physNat (at_ + off) len x.ptkey
      (quiet → w.spoiledImage at_ x.ptkey = none → field w 2 1 % 2 = 1 → field w 0 2 = 1 → field w 4 1 = c.ctx →
        field w 3 1 % 2 = 0 →
        ∃ t : State, Goes (.ctxld a) s t ∧ t.core.super = true
          ∧ t.core.trappc = BitVec.ofNat 64 (field w 0x18 8)
          ∧ t.core.pblkPat = (BitVec.ofNat 64 (field w 0x20 8)).extractLsb' 8 8
          ∧ ∀ r : Reg, r ≠ 0#6 → t.core.getX r = BitVec.ofNat 64 (field u (0x400 + 8 * r.toNat) 8))
      ∧ (¬quiet → Waits (.ctxld a) s s .drain))
    ∧ (s.executes [a] → c.classG < 4095 →
      Goes (.tlbinv kind d a n) s (s.addOp { c.newOp 0 (.tlbinv kind n.toNat) with
        va := c.getX a, dst := d, release := some .package }))
    ∧ (∀ op ctx, Ready s k op → op.kind = .tlbinv kind ctx →
      let hit := fun g : Page => match kind with
        | .page => g.ctx = ctx ∧ g.covers op.va.toNat = true
        | .ctx => g.ctx = ctx
        | .all => True
      let u : State := { s with pkg := { s.pkg with held := s.pkg.held.filter fun g => !tlbMatches kind ctx op.va.toNat g } }
      (∀ g, tlbMatches kind ctx op.va.toNat g = true ↔ hit g)
      ∧ ((∀ e ∈ s.cores, (∀ g ∈ e.countedPages, ¬hit g) ∧ ∀ p ∈ e.ops, ∀ g, p.page = some g → ¬hit g) →
        (∀ q ∈ s.pkg.partials, ¬hit q.page) →
        Makes (.tlbinvComplete c.num k) s (u.mapCore fun e => (e.without k).lateX op.order op.dst 1#64))
      ∧ ((∃ g ∈ c.countedPages, hit g) → Makes (.tlbinvComplete c.num k) s u))
    ∧ (s.executes [a] → c.classS < 4095 → key ≠ 0#6 → x.keymask.getLsbD key.toNat = true → AtLocal (c.getX a) 64 o →
      let v := s.settleRead o 64
      v.core.scratchPoisoned o 64 = false → v.core.inOpenStorage o 64 = false → WindowOpen s (c.windowAt o) true →
      ∃ bs t, v.MayFind (v.core.locOf o) (v.core.scratch.bytes o 64) bs ∧ Found v t ∧
        let u := t.storeLocal o (List.replicate 64 0#8)
        Stored (t.settleWrite o 64) u o 64 (fun _ => 0#8)
          ∧ Goes (.keyset a key) s (u.addOp (u.core.newOp 0 (.keyset key (BitVec.ofNat 512 (leNat bs))))))
    ∧ (s.executes [] → c.classS < 4095 → key = 0#6 ∨ x.keymask.getLsbD key.toNat = false →
      Traps (.keyset a key) s 9#5 (c.getX a) 0#64 0#64)
    ∧ (∀ op pair, Ready s k op → op.kind = .keyset key pair →
      Makes (.keysetSwitchComplete c.num k) s
        { s with core := c.without k, pkg := { s.pkg with keys := s.pkg.keys.set key.toNat pair key.isLt } })

/-! ### Effect lists -/

/-- CALLC, the CALL and RET of collecting mode, and the loads and stores that it makes (R340 to R345): a store to the scratchpad
or to global memory becomes an entry, a vector store one for each run of its lanes, in their order, and a release is refused; a
load takes the bytes that an entry covers from the last such one. That a load may find older bytes of its engines' unacquired
writes, and that RET writes ELBASE and ELCAP in its issue cycle, are the model's own readings (logs 97 and 114). -/
def Obligations.CollectingCalls : Prop :=
  ∀ (s : State) (a b d : Reg) (off : BitVec 32) (disp : BitVec 24) (j : BitVec 4) (kl : LoadKind) (ks : StoreSize) (o : Nat)
    (sc : Scope) (v : VSrc),
    let c := s.core
    let there := (if a = 0#6 then c.pc else c.getX a) + off.signExtend 64 <<< 3
    let lo := c.elbase.toNat
    let n := c.elcap.toNat
    let link := fun u : Core => ({ s with core := u } : State).withX 1#6 1 (c.pc + 8#64)
    let next := fun g : BitVec 12 => if g = 4095#12 then 1#12 else g + 1#12
    let setSlot := fun (k : BitVec 4) (l : ListSlot) => c.slots.set k.toNat l k.isLt
    let addr := c.getX a + disp.signExtend 64
    let data := natBytes (storeSize ks) (c.getX b).toNat
    (s.transfers [a] → codeAddress there → c.collect = false → lo % 1984 = 0 → n % 1984 = 0 → lo + n ≤ 4063232 →
      (∀ l ∈ c.slots.toList, l.state = .live → ∀ g ∈ l.segs, lo + n ≤ g.1 ∨ g.1 + 80 * g.2 ≤ lo) →
      (c.slots[j.toNat]'j.isLt).state = .free → (∀ i : BitVec 4, i.toNat < j.toNat → (c.slots[i.toNat]'i.isLt).state ≠ .free) →
      Issues (.callc a off) s (link { c with
        slots := setSlot j ⟨next (c.slots[j.toNat]'j.isLt).gen, .opened, []⟩
        opened := some ⟨j, lo, 0, 0⟩
        collect := true }) there 2)
    ∧ (s.transfers [a] → c.collect = false → lo % 1984 ≠ 0 ∨ n % 1984 ≠ 0 ∨ 4063232 < lo + n →
      Traps (.callc a off) s 15#5 3#64 (0#42 ++ c.elbase) (0#42 ++ c.elcap))
    ∧ (∀ l, c.opened = some l → c.collect = true → c.super = false →
      (s.transfers [a] → codeAddress there → l.depth < 255 →
        Issues (.call a off) s (link { c with opened := some { l with depth := l.depth + 1 } }) there 2)
      ∧ (s.transfers [a] → codeAddress there → 255 ≤ l.depth →
        Traps (.call a off) s 16#5 (wordOf (.call a off)) 0#64 0#64)
      ∧ (s.transfers [1#6] → codeAddress (c.getX 1#6) → 1 ≤ l.depth →
        Issues .ret s { s with core := { c with opened := some { l with depth := l.depth - 1 } } } (c.getX 1#6) 2)
      ∧ (s.transfers [1#6] → codeAddress (c.getX 1#6) → l.depth = 0 → 4095 ≤ c.classG →
        Traps .ret s 25#5 (wordOf .ret) 8#64 0#64)
      ∧ (s.transfers [1#6] → codeAddress (c.getX 1#6) → l.depth = 0 → c.classG < 4095 →
        let used := (80 * l.count + 1983) / 1984 * 1984
        let g := (c.slots[l.slot.toNat]'l.slot.isLt).gen
        let u : State := { s with core := { c with
          slots := setSlot l.slot ⟨g, .live, [(l.start, l.count)]⟩
          elbase := BitVec.ofNat 22 (l.start + used)
          elcap := BitVec.ofNat 22 (n - used)
          collect := false
          opened := none } }
        Issues .ret s (u.addOp { u.core.newOp 0 .handle with dst := 5#6, data := 0#48 ++ g ++ l.slot }) (c.getX 1#6) 2)
      ∧ (s.executes [a, b] → AtLocal addr (storeSize ks) o → c.windowAt o = none → l.count < c.capacity l → c.Appends l 1 →
        ∃ t, Collected s l [(addr, data)] t ∧ Goes (.st ks b a disp) s t)
      ∧ (∀ u pg, s.executes [a, b] → AtGlobal s addr (storeSize ks) .write u pg → u.core.collecting = true →
        u.core.opened = some l →
        (l.count < u.core.capacity l → u.core.Appends l 1 →
          ∃ t, Collected u l [(addr, data)] t ∧ Goes (.st ks b a disp) s t)
        ∧ (u.core.capacity l ≤ l.count →
          exec (.st ks b a disp) s = .next (u.takeTrap (.plain 15#5 1#64 (BitVec.ofNat 64 l.count) 1#64)))
        ∧ (c.classS < 4095 →
          exec (.strel ks sc b a disp) s = .next (u.takeTrap (.plain 16#5 (wordOf (.strel ks sc b a disp)) 0#64 0#64))))
      ∧ (s.executes [a, b] → AtLocal addr (storeSize ks) o → c.windowAt o = none →
        Traps (.strel ks sc b a disp) s 16#5 (wordOf (.strel ks sc b a disp)) 0#64 0#64)
      ∧ (s.executes [a, b] → AtLocal addr (storeSize ks) o → c.windowAt o = none → c.capacity l ≤ l.count →
        Traps (.st ks b a disp) s 15#5 1#64 (BitVec.ofNat 64 l.count) 1#64)
      ∧ (s.executes [a] → AtLocal addr (loadSize kl) o → c.windowAt o = none → c.scratchPoisoned o (loadSize kl) = false →
        c.inOpenStorage o (loadSize kl) = false → c.mergedPoison addr (loadSize kl) = false →
        let value := fun bs : List Byte => loaded kl fun i => (c.lookup l.start (addr.toNat + i) l.count).getD (bs.getD i 0#8)
        (c.unseenAt (c.locOf o) (loadSize kl) = false →
          WritesX (.ld kl d a disp) s d 11 (value (c.scratch.bytes o (loadSize kl))))
        ∧ ∃ bs t, s.MayFind (c.locOf o) (c.scratch.bytes o (loadSize kl)) bs ∧ Found s t
          ∧ Goes (.ld kl d a disp) s (t.withX d 11 (value bs)))
      ∧ (∀ (i : Instr) (base : Word) (stride : Int) (rs : List Reg) (p : Nat → Nat),
        (i, base, stride, rs) ∈ [(Instr.vst v a disp, addr, 1, [a]), (.vsts v a (.reg disp b), addr, (c.getX b).toInt, [a, b]),
          (.vsts v a (.imm disp), c.getX a, disp.toInt, [a])] →
        (∀ q ∈ rs, Granule.x q ∉ c.poison) → s.delivers [v] → s.WordsAt base stride p true →
        ∃ runs, s.Runs runs
          ∧ let entries := runs.map fun x : Nat × Nat × Nat => ((BitVec.ofNat 64 (2 ^ 63 + p x.1 + 4 * x.2.1) : Word),
              (List.range (4 * x.2.2)).map fun j => byteOf (s.lane v (16 * x.1 + x.2.1 + j / 4)) (j % 4))
            let popped : State := { s with core := c.afterPops [v] }
            (l.count + entries.length ≤ c.capacity l → c.Appends l entries.length →
              ∃ t, Collected popped l entries t ∧ Goes i s t)
            ∧ (c.capacity l < l.count + entries.length →
              Traps i s 15#5 1#64 (BitVec.ofNat 64 l.count) (BitVec.ofNat 64 entries.length)))
      ∧ (∀ (w : VDst) (p : Nat → Nat), Granule.x a ∉ c.poison → s.accepts [] w → s.WordsAt addr 1 p false →
        (∀ k, s.accesses k → c.windowAt (p k) = none ∧ c.unseenAt (c.locOf (p k)) 64 = false
          ∧ c.inOpenStorage (p k) 64 = false ∧ c.scratchPoisoned (p k) 64 = false
          ∧ c.mergedPoison (BitVec.ofNat 64 (2 ^ 63 + p k)) 64 = false) →
        ∃ f : Nat → Lane, WritesV (.vld w a disp) s [] w 13 f ∧ ∀ k, k < 128 → s.accesses (k / 16) →
          let at_ := fun n => let q := p (k / 16) + 4 * (k % 16) + n
            (c.lookup l.start (2 ^ 63 + q) l.count).getD (c.scratch.read q)
          f k = at_ 3 ++ at_ 2 ++ at_ 1 ++ at_ 0))

/-- The EL instructions at their issue (R346, R350): work for the effect-list unit on the segments of a live list; a handle
that is not live raises cause 15. -/
def Obligations.ListsIssue : Prop :=
  ∀ (s : State) (d a b x : Reg) (r : ElRelease) (j k : BitVec 4),
    let c := s.core
    let h := c.getX a
    let g := c.getX b
    let live := fun (v : Word) (k : BitVec 4) => v.extractLsb' 16 48 = 0#48 ∧ v.extractLsb' 0 4 = k
      ∧ (c.slots[k.toNat]'k.isLt).state = .live ∧ (c.slots[k.toNat]'k.isLt).gen = v.extractLsb' 4 12 ∧ v.extractLsb' 4 12 ≠ 0#12
    let la := c.slots[j.toNat]'j.isLt
    let lb := c.slots[k.toNat]'k.isLt
    let gone := fun (i : BitVec 4) (l : ListSlot) => c.slots.set i.toNat { l with state := .free, segs := [] } i.isLt
    let works := fun (i : Instr) (slots : Vector ListSlot 16) (segs : List (Nat × Nat)) (p q : Word) =>
      Goes i s { s with core := { c with
        slots := slots
        work := c.work ++ [⟨i, segs, p, q, h.setWidth 16, c.pc, c.issued, 0, 0, 0, false, []⟩] } }
    let entries := segEntries la.segs
    c.classG < 4095 → c.classS < 4095 → c.collecting = false →
    (live h j →
      (s.executes [a, b, x] → works (.elflt a b x) c.slots la.segs g (c.getX x) ∧ works (.elrbs a b x) c.slots la.segs g (c.getX x))
      ∧ (s.executes [a] → works (.elapp r a) c.slots la.segs 0#64 0#64 ∧ works (.eldrop a) (gone j la) [] 0#64 0#64
        ∧ works (.ellen d a) c.slots la.segs 0#64 0#64)
      ∧ (s.executes [a, b] → works (.elget d a b) c.slots []
          (if g.toNat < entries.length then BitVec.ofNat 64 (2 ^ 63 + entries.getD g.toNat 0) else 0#64) 0#64)
      ∧ (s.executes [a, b] → live g k → h ≠ g → la.entries + lb.entries ≤ 4096 → la.segs.length + lb.segs.length ≤ 16 →
        let gen := if la.gen = 4095#12 then 1#12 else la.gen + 1#12
        works (.elcat d a b) ((gone k lb).set j.toNat ⟨gen, .live, la.segs ++ lb.segs⟩ j.isLt) [] (0#48 ++ gen ++ j) 0#64)
      ∧ (s.executes [a, b] → live g k → h = g ∨ 4096 < la.entries + lb.entries ∨ 16 < la.segs.length + lb.segs.length →
        Traps (.elcat d a b) s 15#5 5#64 h g))
    ∧ (s.executes [a] → h.extractLsb' 16 48 = 0#48 → (∀ k, ¬live h k) →
      Traps (.elapp r a) s 15#5 4#64 h 0#64 ∧ Traps (.eldrop a) s 15#5 4#64 h 0#64 ∧ Traps (.ellen d a) s 15#5 4#64 h 0#64)
    ∧ (s.executes [a] → h.extractLsb' 16 48 ≠ 0#48 →
      Traps (.elapp r a) s 2#5 (wordOf (.elapp r a)) 0#64 0#64 ∧ Traps (.eldrop a) s 2#5 (wordOf (.eldrop a)) 0#64 0#64)

/-- The effect-list unit (R341, R345 to R349): the head of its work makes its next part, or stops with a late trap, and the
handle of a closed call reaches x5. ELAPP writes a live entry whole, at its place in the scratchpad or in a page of memory, but for
the bytes that the core has written since; with a release the last live global entry is found first, passed over, and written
after every other one and after whatever the core has outstanding. -/
def Obligations.ListUnit : Prop :=
  ∀ (s : State) (w : ElWork) (r : List ElWork), s.core.work = w :: r → w.stopped = false → s.engineRuns = true →
    let c := s.core
    let es := segEntries w.segs
    let off := es.getD (if w.done < es.length then w.done else w.live - 1) 0
    let e := c.entryAt off
    let unit := Instr.elUnitWork c.num
    let moved := fun v : ElWork => ({ s with core := { c with work := v :: r } } : State)
    let ended := fun (d : Reg) (v : Word) =>
      ({ s with core := ({ c.lateX w.order d v with work := r } : Core).settleFences } : State)
    let gone : State := { s with core := ({ c with work := r } : Core).settleFences }
    let sound := c.entryPoison off false = none
    let plain := ∀ p, off ≤ p → p < off + 80 → c.windowAt p = none
    let A := e.address
    let data := (List.range e.size).map fun i => c.scratch.read (off + 16 + i)
    let kept := fun (x : State) (v : ElWork) => ({ x with core := { x.core with work := v :: x.core.work.tail } } : State)
    let written := fun (x : State) (pg : Page) =>
      let pa := pg.pbase + (A.toNat - pg.vbase)
      ((x.recall (pa / 64)).reachFor c.ctx pa).put (.instr c.num w.order) pa data pg.key
    let first := fun n : Nat => let o := es.getD (n - 1) 0
      if n = 0 then ∀ i, i < es.length → (c.entryAt (es.getD i 0)).live = false ∨ (c.entryAt (es.getD i 0)).isLocal = true
      else n ≤ es.length ∧ (c.entryAt o).live = true ∧ (c.entryAt o).isLocal = false
        ∧ ∀ i, n ≤ i → i < es.length → (c.entryAt (es.getD i 0)).live = false ∨ (c.entryAt (es.getD i 0)).isLocal = true
    let reaches := fun (u : State) (pg : Page) => A.toNat % 64 + e.size ≤ 64 ∧ s.translate c.ctx A .write = (u, .ok pg)
      ∧ u.core = { c with activity := u.core.activity } ∧ c.windowOf A.toNat = none ∧ (∀ p ∈ c.ops, w.order ≤ p.order)
      ∧ u.pkg.linkFull (pg.pbase + (A.toNat - pg.vbase)) = false
    (∀ d a b, w.instr = .elcat d a b ∨ w.instr = .elget d a b → Makes unit s (ended d w.b))
    ∧ (∀ a, w.instr = .eldrop a → Makes unit s gone)
    ∧ (∀ d a, w.instr = .ellen d a →
      (w.done < es.length → sound → plain → Makes unit s (moved { w with
        done := w.done + 1
        malformed := if e.malformed then w.malformed + 1 else w.malformed
        live := if e.malformed ∨ e.void then w.live else w.live + 1 }))
      ∧ (es.length ≤ w.done →
        Makes unit s (ended d (BitVec.ofNat 64 (w.live + es.length * 2 ^ 16 + w.malformed * 2 ^ 32)))))
    ∧ (∀ a b x, w.instr = .elflt a b x → w.done < es.length → sound → plain →
      let inside := e.live = false ∨ (w.b.toNat ≤ e.address.toNat ∧ e.address.toNat + e.size ≤ w.c.toNat)
      (inside → Makes unit s (moved { w with done := w.done + 1 }))
      ∧ (¬inside → ∃ u, Makes unit s u ∧ u.core.work.map ElWork.bare = ({ w with done := w.done + 1 } :: r).map ElWork.bare
        ∧ u.core.entryAt off = { e with attr := e.attr + 2 ^ 14 }
        ∧ (∀ p, (p < off ∨ off + 16 ≤ p) → u.core.scratch.read p = c.scratch.read p)
        ∧ u = { s with core := { c with
          work := u.core.work, scratch := u.core.scratch, poison := u.core.poison, wrote := u.core.wrote
          unseen := u.core.unseen } }
        ∧ ∀ x ∈ u.core.unseen, x ∈ c.unseen))
    ∧ (∀ a b x, w.instr = .elrbs a b x → w.done < es.length → sound → plain →
      let at_ := e.address - w.b + w.c
      ∃ u, Makes unit s u ∧ u.core.work.map ElWork.bare = ({ w with done := w.done + 1 } :: r).map ElWork.bare
        ∧ (e.live = false → u = moved { w with done := w.done + 1 })
        ∧ (e.live = true → (at_.getLsbD 63 = true ∧ at_.extractLsb' 22 41 = 0#41)
            ∨ (at_.getLsbD 63 = false ∧ at_.extractLsb' 57 6 = 0#6) →
          (u.core.entryAt off).address = at_ ∧ (u.core.entryAt off).live = true ∧ (u.core.entryAt off).size = e.size)
        ∧ (∀ p, (p < off ∨ off + 16 ≤ p) → u.core.scratch.read p = c.scratch.read p)
        ∧ u = { s with core := { c with
          work := u.core.work, scratch := u.core.scratch, poison := u.core.poison, wrote := u.core.wrote
          unseen := u.core.unseen } }
        ∧ ∀ x ∈ u.core.unseen, x ∈ c.unseen)
    ∧ (∀ a, (w.instr = .elapp .plain a
          ∨ ∃ sc, w.instr = .elapp (.rel sc) a ∧ w.malformed ≠ 0 ∧ w.done < es.length ∧ w.live ≠ w.done + 1) →
      (w.done < es.length → c.entryPoison off true = none →
        (e.live = false → Makes unit s (moved { w with done := w.done + 1 }))
        ∧ (e.live = true → e.isLocal = true → e.addr + e.size ≤ Config.scratchBytes →
          (∀ p, e.addr ≤ p → p < e.addr + e.size → c.windowAt p = none) →
          ∃ u, Makes unit s u ∧ u.core.work.map ElWork.bare = ({ w with done := w.done + 1 } :: r).map ElWork.bare
            ∧ (∀ p, u.core.scratch.read p
              = if e.addr ≤ p ∧ p < e.addr + e.size ∧ scratchLoc p ∉ w.later then c.scratch.read (off + 16 + (p - e.addr))
                else c.scratch.read p)
            ∧ u = { s with core := { c with
              work := u.core.work, scratch := u.core.scratch, poison := u.core.poison, wrote := u.core.wrote
              unseen := u.core.unseen } }
            ∧ ∀ x ∈ u.core.unseen, x ∈ c.unseen))
      ∧ (w.done < es.length → c.entryPoison off true = none → e.live = true → e.isLocal = false → w.later = [] →
        ∀ u pg, reaches u pg → Makes unit s (kept (written u pg) { w with done := w.done + 1 }))
      ∧ (es.length ≤ w.done → Makes unit s gone))
    ∧ (∀ a sc, w.instr = .elapp (.rel sc) a →
      (w.malformed = 0 → ∃ n, first n ∧ Makes unit s (moved { w with live := n, malformed := 1 }))
      ∧ (w.malformed ≠ 0 → w.done < es.length → w.live = w.done + 1 → Makes unit s (moved { w with done := w.done + 1 }))
      ∧ (w.malformed ≠ 0 → es.length ≤ w.done → w.live = 0 → Makes unit s gone)
      ∧ (w.malformed ≠ 0 → es.length ≤ w.done → w.live ≠ 0 → c.entryPoison off true = none → e.live = true → e.isLocal = false → w.later = [] → ∀ u pg,
        (reaches u pg → Makes unit s (kept (written u pg) { w with live := 0 }))
        ∧ (A.toNat % 64 + e.size ≤ 64 → s.translate c.ctx A .write = (u, .ok pg) →
          (∃ p ∈ u.core.ops, p.order < w.order ∧ (match p.kind with | .fence _ | .handle => False | _ => True)) →
          Makes unit s s)))
    ∧ (∀ d a x, w.instr = .ellen d a → w.done < es.length → c.entryPoison off false = some x →
      Makes (.elStop c.num) s { s with core := { c with
        work := { w with stopped := true } :: r
        pending := insertPending c.pending ⟨6, w.order, .plain 19#5 x
          (w.handle.setWidth 64 ||| BitVec.ofNat 64 w.done <<< 16) 0#64, .el⟩ } }
      ∧ Makes unit s s)
    ∧ ∀ k o, Ready s k o → o.kind = .handle → (∀ i p, i < k → c.ops[i]? = some p → p.kind ≠ .handle) →
      Makes (.listHandleWrite c.num) s { s with core := (c.without k).lateX o.order o.dst o.data }

/-! ### The engines -/

/-- The lattice, sketch and copy commands and QDROP at their issue (R56, R193, R208 to R212, R231, R258, R261, R282, R315 to
R319): a command whose operands pass their checks joins its queue with the pages that it pins, or waits for a place. That 128 bytes are
the local extent of an ASAVE and of an ARES that is checked at issue (logs 69 and 108), and that an empty extent is not checked (log
104), are the model's own readings. -/
def Obligations.EngineCommandsIssue : Prop :=
  ∀ (s u : State) (e : CopyEng) (demand flag : Bool) (bound : BitVec 20) (fmt : FmtCode) (d a b c : Reg) (pins : List Page),
    let x := s.core.getX
    let n := (x c).toNat
    let on := fun (w : Word) (k : Nat) => w.toNat % k = 0
    let sketch := fun w : Word => on w 64 ∧ w ≠ 0#64 ∧ w.getLsbD 63 = false
    let half := fun w : Word => w.extractLsb' 32 32 = 0#32
    let pinned := fun l : List (Word × Nat × Acc) => if demand then u = s ∧ pins = [] else Pins s l u pins
    let none_ := u = s ∧ pins = []
    let sink := fieldNat (s.core.qfmt[0]) 8 5 = 0
    s.executes [d, a, b, c] → (s.core.super = true ∨ bound ≠ 0#20) → s.core.collecting = false →
    (9 ≤ (x b).toNat → (x b).toNat ≤ 63 → on (x a) 64 → Inside (x a) 128 → pinned [(x a, 128, .read)] →
      Enqueues (.amap demand bound a b) s u .l bound 0#6 a b 0#6 pins)
    ∧ (on (x a) 64 → Inside (x a) 64 → pinned [(x a, 64, .read)] →
      Enqueues (.aang demand bound a b) s u .l bound 0#6 a b 0#6 pins)
    ∧ (x a &&& ~~~0x3FF03#64 = 0#64 → none_ → Enqueues (.acfg bound a b) s u .l bound 0#6 a b 0#6 pins)
    ∧ (sink → none_ → Enqueues (.arun bound a) s u .l bound 0#6 a 0#6 0#6 pins
        ∧ Enqueues (.agrad bound a) s u .l bound 0#6 a 0#6 0#6 pins)
    ∧ (fmt.toNat ≤ 12 ∨ fmt = 15#5 ∨ fmt = 18#5 → on (x a) 64 → on (x b) 64 → Inside (x a) (n * runvBytes fmt.toNat) →
      Inside (x b) (512 * n) → pinned [(x a, n * runvBytes fmt.toNat, .read), (x b, 512 * n, .write)] →
      Enqueues (.arunv demand bound fmt a b c) s u .l bound 0#6 a b c pins)
    ∧ (let rows := fieldNat (x b) 0 8
      let cols := fieldNat (x b) 8 8
      (x b).extractLsb' 16 48 = 0#48 → 1 ≤ rows → rows ≤ 128 → 1 ≤ cols → cols ≤ 128 → on (x a) 64 → on (x c) 4 →
      (x a).getLsbD 63 = true → Inside (x a) (512 * (rows - 1) + 4 * cols) →
      (x c ≠ 0#64 → Inside (x c) (4 * vecCount rows cols)) →
      pinned (if x c = 0#64 then [] else [(x c, 4 * vecCount rows cols, .write)]) →
      Enqueues (.avec demand bound a b c) s u .l bound 0#6 a b c pins)
    ∧ (let h := shapeOf (x d)
      (x d).extractLsb' 59 5 = 0#5 → h.refused flag ((x c).getLsbD 63) = false → on (x a) 64 → on (x b) 64 →
      (x a).getLsbD 63 = true → (x b).getLsbD 63 = true → Inside (x a) (h.m * pitchOf h.fa h.k) → Inside (x b) h.bytesB →
      (flag = false → Inside (x c) (512 * h.m)) →
      pinned (if flag = true ∨ (x c).getLsbD 63 = true then [] else [(x c, 512 * (h.m - 1) + 4 * h.n, .rmw)]) →
      Enqueues (.aprod demand bound flag d a b c) s u .l bound d a b c pins)
    ∧ (on (x a) 8 → Inside (x a) 16 → pinned [(x a, 16, .write)] →
      Enqueues (.anorm demand bound a) s u .l bound 0#6 a 0#6 0#6 pins)
    ∧ (on (x a) 8 → Inside (x a) 8 → pinned [(x a, 8, .write)] →
      Enqueues (.astat demand bound flag a) s u .l bound 0#6 a 0#6 0#6 pins)
    ∧ (on (x a) 128 → Inside (x a) 128 → none_ → Enqueues (.asave demand bound a) s u .l bound 0#6 a 0#6 0#6 pins)
    ∧ (on (x a) 128 → Inside (x a) 128 → pinned [(x a, 128, .read)] →
      Enqueues (.ares demand bound a) s u .l bound 0#6 a 0#6 0#6 pins)
    ∧ (sketch (x d) → none_ → Enqueues (.skinit bound d) s u .k bound d 0#6 0#6 0#6 pins)
    ∧ (half (x b) → sketch (x d) → on (x a) 16 → Inside (x a) (16 * (x b).toNat) → pinned [(x a, 16 * (x b).toNat, .read)] →
      Enqueues (.skupd demand bound d a b) s u .k bound d a b 0#6 pins)
    ∧ (half (x c) → sketch (x d) → on (x a) 8 → on (x b) 8 → Inside (x a) (8 * n) → Inside (x b) (8 * n) →
      pinned [(x a, 8 * n, .read), (x b, 8 * n, .write)] →
      Enqueues (.skqry demand bound d a b c) s u .k bound d a b c pins)
    ∧ (let α : Lane := (x c).extractLsb' 0 32
      let β : Lane := (x c).extractLsb' 32 32
      finite32 α = true → finite32 β = true → (x b = 0#64 → β.extractLsb' 0 31 = 0#31) → sketch (x d) → sketch (x a) →
      (x b = 0#64 ∨ sketch (x b)) → none_ → Enqueues (.skadd bound d a b c) s u .k bound d a b c pins)
    ∧ (half (x b) → half (x c) → finite32 ((x c).extractLsb' 0 32) = true → sketch (x d) → on (x a) 16 →
      Inside (x a) (16 * (x b).toNat) → pinned [(x a, 16 * (x b).toNat, .read)] →
      Enqueues (.sksq demand bound d a b c) s u .k bound d a b c pins)
    ∧ (let size := if x b = 0#64 then 0 else 64
      half (x b) → on (x a) 64 → on (x c) 8 → Inside (x a) size → (x c ≠ 0#64 → Inside (x c) 8) →
      pinned ((x a, size, .read) :: if x c = 0#64 then [] else [(x c, 8, .write)]) →
      Enqueues (.skopt demand bound a b c) s u .k bound 0#6 a b c pins)
    ∧ (let k := controlOf (x b)
      let nest := s.core.nest e
      let tag := 1#64 <<< k.tag
      k.reserved (x b) (x d) (x a) nest = false → k.badFormat = false →
      (∀ f ∈ k.sides (x d) (x a) nest, f.skewed = false ∧ f.outside = false) →
      (k.arrive = true → on (x c) 32 ∧ (x c).getLsbD 63 = false) → (k.xf = some .addw → (x d).getLsbD 63 = true) →
      (∃ v, pinSides demand (k.sides (x d) (x a) nest) s = .ok (pins, v) ∧ u = v.forgetWrites) →
      Enqueues (.cpgo e demand bound d a b c) s u (match e with | .ce0 => .c0 | .ce1 => .c1) bound d a b c pins
        (fun m => { m with nest := nest, noted := (u.pkg.written.length, u.core.wrote.length) }) (fun q => { q with
          tags := q.tags &&& ~~~tag, tagdrop := q.tagdrop &&& ~~~tag, tagDiffers := q.tagDiffers &&& ~~~tag
          tagMalformed := q.tagMalformed &&& ~~~tag }))
    ∧ ∀ q : EngineQ, (x a).extractLsb' 16 48 = 0#48 →
      let from_ : BitVec 16 := (x a).extractLsb' 0 16
      let old := s.core.queue q
      let goes := fun m : Cmd =>
        (m.status = .stopped ∨ m.status = .queued ∧ m.begun = false) ∧ (m.seq - from_).toNat < 2 ^ 15
      let gone := old.cmds.filter fun m => decide (goes m)
      let kept := old.cmds.filter fun m => decide (¬goes m)
      ∃ v : State, Goes (.qdrop q a) s v
        ∧ v.core.queue q = { old with cmds := kept }
        ∧ (∀ p, p ≠ q → v.core.queue p = s.core.queue p)
        ∧ (∀ t, t < 64 → v.core.tagdrop.getLsbD t
            = (s.core.tagdrop.getLsbD t || ((q == .c0 || q == .c1) && gone.any fun m => cmdTag m == t)))
        ∧ v = { s with core := { s.core with
            l := v.core.l, c0 := v.core.c0, c1 := v.core.c1, k := v.core.k, tags := v.core.tags, tagdrop := v.core.tagdrop
            pending := v.core.pending, taken := v.core.taken, wfe := v.core.wfe } }

/-- The lattice (R166 to R180, R182, R183, R194, R195, R200, R204, R205, R207 to R211): a command begins, passes a vector, or takes
a pair back, eliminates one pivot, adds one K-chunk, retires, and stops on invalid content with its code in LSTAT and its trap
pending. The arithmetic stands in exact values that are rounded once; cosine, sine and the angle of a pair that is no multiple of
an eighth of a turn are the model's `coef` and `pairAngle` (log 12). -/
def Obligations.LatticeSteps : Prop :=
  (∀ (a x y : Lane) (p : Word) (l : List (XVal × XVal)) (li : List (Int × Int)),
    let neg := fun v : Lane => v ^^^ 0x80000000#32
    let zero := fun v : Lane => v.extractLsb' 0 31 = 0#31
    let inf := 0x7F800000#32
    let minus := 0xFF800000#32
    let finite := fun v : Lane => v.extractLsb' 23 8 ≠ 255#8
    let nan := fun v : Lane => v.extractLsb' 23 8 = 255#8 ∧ v.extractLsb' 0 23 ≠ 0#23
    let times := fun (c : Int) (v : Lane) => (XVal.ofInt c (-30)).mul (ofF32 v)
    let sum := fun v w : XVal => rnF32 (XVal.add .rne v w)
    (coef 0#32 = (2 ^ 30, 0) ∧ coef 0x20000000#32 = (759250125, 759250125) ∧ coef 0x40000000#32 = (0, 2 ^ 30)
      ∧ coef 0x80000000#32 = (-(2 ^ 30), 0) ∧ coef 0xC0000000#32 = (0, -(2 ^ 30)) ∧ coef 0xE0000000#32 = (759250125, -759250125))
    ∧ (applyCell 0#32 x y = (x, y) ∧ applyCell 0x40000000#32 x y = (y, neg x) ∧ applyCell 0x80000000#32 x y = (neg x, neg y)
      ∧ applyCell 0xC0000000#32 x y = (neg y, x))
    ∧ (a.extractLsb' 0 30 ≠ 0#30 →
      let (c, d) := coef a
      applyCell a x y = (sum (times c x) (times d y), sum (times c y) (times d x).neg)
        ∧ (nan x ∨ nan y → applyCell a x y = (0x7FC00000#32, 0x7FC00000#32)))
    ∧ (zero x → zero y → vectorPair x y = (0#32, 0#32, 0#32, true))
    ∧ (nan x ∨ nan y → vectorPair x y = (0#32, 0x7FC00000#32, 0x7FC00000#32, false))
    ∧ (finite y → vectorPair inf y = (0#32, inf, 0#32, false) ∧ vectorPair minus y = (0x80000000#32, inf, 0#32, false))
    ∧ (finite x → vectorPair x inf = (0x40000000#32, inf, 0#32, false) ∧ vectorPair x minus = (0xC0000000#32, inf, 0#32, false))
    ∧ (vectorPair inf inf = (0x20000000#32, inf, 0#32, false) ∧ vectorPair inf minus = (0xE0000000#32, inf, 0#32, false)
      ∧ vectorPair minus inf = (0x60000000#32, inf, 0#32, false) ∧ vectorPair minus minus = (0xA0000000#32, inf, 0#32, false))
    ∧ (finite x → finite y → ¬(zero x ∧ zero y) →
      let v := ofF32 x
      let w := ofF32 y
      vectorPair x y = (pairAngle v w, rnF32 (XVal.sqrt (XVal.add .rne (v.mul v) (w.mul w))), 0#32, false)
        ∧ (zero y → pairAngle v w = if x.getLsbD 31 then 0x80000000#32 else 0#32))
    ∧ angleGrad x y a (p.setWidth 32) = rnF32 ((ofF32 0x40C90FDB#32).mul (ofF32 (sum ((ofF32 a).mul (ofF32 y))
        ((ofF32 (p.setWidth 32)).mul (ofF32 x)).neg)))
    ∧ (∀ e, floatChunk a (e :: l) = sum (ofF32 a) (ofF32 (rnF32
        ((l.map fun e => e.1.mul e.2).foldl (XVal.add .rne) (e.1.mul e.2)))))
    ∧ intChunk a li = a + BitVec.ofInt 32 (li.map fun e => e.1 * e.2).sum)
  ∧ (∀ (t : Stage) (ts : List Stage) (v g acc : VecImg) (as : List VecImg) (n : Word) (k j : Nat) (a : Lane), k < 128 →
    let σ := t.par.getD k 0#32
    let at_ := fun (f : Lane → Lane → Lane → Lane × Lane) (w : VecImg) (b : Lane) =>
      f b (laneOf w k) (laneOf w (partner t.map k))
    let out := fun w : VecImg => (laneOf w k, laneOf w (partner t.map k))
    let back := Stage.reverse t v g acc
    let x := rnF32 (XVal.div (ofF32 (laneOf v k)) (ofF32 σ))
    (t.scale = true → laneOf (Stage.forward t v) k = rnF32 ((ofF32 σ).mul (ofF32 (laneOf v k)))
      ∧ laneOf back.1 k = x ∧ laneOf back.2.1 k = rnF32 ((ofF32 σ).mul (ofF32 (laneOf g k)))
      ∧ laneOf back.2.2 k = rnF32 (XVal.add .rne (ofF32 (laneOf acc k)) (ofF32 (rnF32 ((ofF32 (laneOf g k)).mul (ofF32 x))))))
    ∧ (t.scale = false → mapValid t.map = true →
      (partner t.map k = k → laneOf (Stage.forward t v) k = laneOf v k ∧ laneOf back.1 k = laneOf v k ∧ laneOf back.2.1 k = laneOf g k)
      ∧ ((mapCells t.map)[j]? = some k → t.par[j]? = some a →
        out (Stage.forward t v) = at_ applyCell v a ∧ out back.1 = at_ applyCell v (0#32 - a)
          ∧ out back.2.1 = at_ applyCell g (0#32 - a)
          ∧ laneOf back.2.2 j = rnF32 (XVal.add .rne (ofF32 (laneOf acc j))
            (ofF32 (angleGrad (laneOf v k) (laneOf v (partner t.map k)) (laneOf g k) (laneOf g (partner t.map k)))))))
    ∧ (forwardPass [] v = v ∧ forwardPass (t :: ts) v = forwardPass ts (Stage.forward t v))
    ∧ (reversePass [] [] (v, g) = ((v, g), []))
    ∧ (let after := reversePass ts as (v, g)
      let one := Stage.reverse t after.1.1 after.1.2 acc
      reversePass (t :: ts) (acc :: as) (v, g) = ((one.1, one.2.1), one.2.2 :: after.2))
    ∧ normAdd n v = ((List.range 128).map fun k => ofF32 (laneOf v k)).foldl (fun n x => to64 (XVal.add .rne (of64 n) (x.mul x))) n)
  ∧ ∀ (s : State) (m : Cmd) (r : List Cmd) (o : Nat), m.sweep.resumed = none →
    let c := s.core
    let began := fun (f : Cmd → Cmd) => c.withHead .l (f (m.beginning c (c.qfmt[0]))) r true
    let once : Core := began fun x => { x with sweep := { x.sweep with done := 1 } }
    (s.mayBegin .l m r → m.begun = false →
      ((∃ dm n a b d, m.instr = .avec dm n a b d) ∨ (∃ dm n t d a b x, m.instr = .aprod dm n t d a b x) →
        Makes (.latticeCommandBegin c.num) s { s with core := began id })
      ∧ (m.sweep.done = 0 → m.sweep.reload = false → ∀ n a b, m.instr = .acfg n a b →
        Makes (.latticeCommandBegin c.num) s { s with core := { (once) with lat := { c.lat with config := m.a, sketch := m.b } } })
      ∧ (m.sweep.done = 0 → m.sweep.reload = false → ∀ dm n a, m.instr = .asave dm n a →
        Makes (.latticeCommandBegin c.num) s { s with core := { (once) with lat := { c.lat with save := m.a } } })
      ∧ (m.sweep.done = 0 → m.sweep.reload = false → ∀ dm n a b, m.instr = .amap dm n a b → Plain s m.a 128 o →
        m.olds = [] → c.unseenAt (c.locOf o) 128 = false → m.b.toNat < 64 →
        let v : BitVec 1024 := BitVec.ofNat 1024 (leNat (c.scratch.bytes o 128))
        mapValid v = true → ∃ u, Makes (.latticeCommandBegin c.num) s u ∧ u.core.l = once.l ∧ u.core.scratch = c.scratch
          ∧ u.core.lat = { c.lat with maps := c.lat.maps.setIfInBounds m.b.toNat v }))
    ∧ (s.hasRunning .l m r →
      (∀ n a b f k stages e img, m.instr = .arun n a → m.sweep.done < m.a.toNat → m.sweep.stages = some stages →
        fieldNat m.qfmt 8 5 = 0 → c.lat.binding = some b → rangeOf b.stages c.lat.range = some (f, k) → 1 ≤ k → k ≤ 16 →
        c.lat.config.extractLsb' 0 2 = 0#2 → c.visible 0#3 = some (e, img) → e.poison = 0#64 → (c.queues[1]).length < 32 →
        ∃ u x, Makes (.latticeQueueTransfer c.num) s u ∧ u.core.l = { c.l with cmds := x :: r }
          ∧ x.sweep.done = m.sweep.done + 1 ∧ u.core.queues[0] = (c.queues[0]).tail
          ∧ u.core.queues[1] = c.queues[1] ++ [⟨c.ticket, some (forwardPass stages (deliverAs m.qfmt img)), 0#64⟩]
          ∧ x.sweep.nout = normAdd (if m.sweep.done = 0 then 0#64 else m.sweep.nout) (forwardPass stages (deliverAs m.qfmt img)))
      ∧ (∀ n a b f k stages e i e' i' l, m.instr = .agrad n a → m.sweep.done < m.a.toNat → m.sweep.stages = some stages →
        fieldNat m.qfmt 8 5 = 0 → c.lat.binding = some b → rangeOf b.stages c.lat.range = some (f, k) → 1 ≤ k → k ≤ 16 →
        c.queues[0] = e :: e' :: l → e.img = some i → e'.img = some i' → e.poison = 0#64 → e'.poison = 0#64 →
        (c.queues[1]).length < 31 →
        let acc := if m.sweep.done = 0 then stages.map fun _ => 0#4096 else m.sweep.acc
        let back := reversePass stages acc (deliverAs m.qfmt i, deliverAs m.qfmt i')
        ∃ u x t, Makes (.latticeQueueTransfer c.num) s u ∧ u.core.l = { c.l with cmds := x :: r }
          ∧ x.sweep.done = m.sweep.done + 1 ∧ x.sweep.acc = back.2 ∧ u.core.queues[0] = l
          ∧ u.core.queues[1] = c.queues[1] ++ [⟨c.ticket, some back.1.1, 0#64⟩, ⟨t, some back.1.2, 0#64⟩])
      ∧ (∀ dm n a b d i j p, m.instr = .avec dm n a b d → m.c = 0#64 →
        let rows := vecRows m.b
        let cols := vecCols m.b
        j < i → i < rows → j < cols →
        m.sweep.done = ((List.range j).map fun t => rows - 1 - t).sum + (rows - 1 - i) →
        m.sweep.done + 1 < m.vecTotal → m.sweep.out.length < 127 → m.olds = [] →
        let row := fun q : Nat => m.a + BitVec.ofNat 64 (512 * q + 4 * j)
        let len := 4 * (cols - j)
        Plain s (row (i - 1)) len o → Plain s (row i) len p → (o + len ≤ p ∨ p + len ≤ o) → o % 4 = 0 → p % 4 = 0 →
        c.unseenAt (c.locOf o) len = false → c.unseenAt (c.locOf p) len = false →
        let word := fun (q : Nat) => (BitVec.ofNat 32 (leNat (c.scratch.bytes q 4)) : Lane)
        let v := vectorPair (word o) (word p)
        let turned := fun t : Nat => if t = 0 then (v.2.1, v.2.2.1) else applyCell v.1 (word (o + 4 * t)) (word (p + 4 * t))
        ∃ u x, Makes (.latticeQueueTransfer c.num) s u ∧ u.core.l = { c.l with cmds := x :: r } ∧ x.sweep.done = m.sweep.done + 1
          ∧ x.sweep.out = m.sweep.out ++ [v.1]
          ∧ (∀ t, t < cols - j → u.core.scratch.bytes (o + 4 * t) 4 = natBytes 4 (turned t).1.toNat
            ∧ u.core.scratch.bytes (p + 4 * t) 4 = natBytes 4 (turned t).2.toNat)
          ∧ (∀ q, (q < o ∨ o + len ≤ q) → (q < p ∨ p + len ≤ q) → u.core.scratch.read q = c.scratch.read q)
          ∧ u.core.lat.nullPairs = if v.2.2.2 ∧ c.lat.nullPairs ≠ 0xFFFF#16 then c.lat.nullPairs + 1#16 else c.lat.nullPairs)
      ∧ (∀ dm n t d a b x (oa ob : Nat → Nat), m.instr = .aprod dm n t d a b x →
        let h := shapeOf m.d
        let j := m.sweep.done
        let count := min 8 (h.k - 8 * j)
        let rows := min 16 (h.m - 16 * m.sweep.panel)
        h.grouped = false → (h.fa ≤ 7 ∧ h.fb ≤ 7 ∨ 8 ≤ h.fa ∧ h.fa ≤ 12 ∧ 8 ≤ h.fb ∧ h.fb ≤ 12) → 16 * m.sweep.panel < h.m →
        m.sweep.skipped = 0 → 8 * j < h.k → (j = 0 → h.c0 = false) → (0 < j → m.sweep.acc.length = rows) → m.olds = [] →
        (∀ i, i < rows → Plain s (m.a + BitVec.ofNat 64 ((16 * m.sweep.panel + i) * pitchOf h.fa h.k)) (rowBytes h.fa h.k) (oa i)
          ∧ c.unseenAt (c.locOf (oa i)) (rowBytes h.fa h.k) = false) →
        (∀ i, i < count → Plain s (m.b + BitVec.ofNat 64 ((8 * j + i) * pitchOf h.fb h.n)) (rowBytes h.fb h.n) (ob i)
          ∧ c.unseenAt (c.locOf (ob i)) (rowBytes h.fb h.n) = false) →
        let ea := fun i e => elemAt h.fa (c.scratch.bytes (oa i) (rowBytes h.fa h.k)) (8 * j + e)
        let eb := fun e l => elemAt h.fb (c.scratch.bytes (ob e) (rowBytes h.fb h.n)) l
        let start := fun i l => if j = 0 then 0#32 else laneOf (m.sweep.acc.getD i 0#4096) l
        let whole := fun f (v : Lane) => match intFmt f with
          | some (w, sign) => lowInt v w sign
          | none => 0
        ∃ u y, Makes (.latticeQueueTransfer c.num) s u ∧ u.core.l = { c.l with cmds := y :: r } ∧ y.sweep.done = j + 1
          ∧ y.sweep.acc.length = rows ∧ u.core.scratch = c.scratch
          ∧ ∀ i l, i < rows → l < h.n → laneOf (y.sweep.acc.getD i 0#4096) l
            = if h.fa ≤ 7 then floatChunk (start i l) ((List.range count).map fun e => (readFmt h.fa (ea i e), readFmt h.fb (eb e l)))
              else intChunk (start i l) ((List.range count).map fun e => (whole h.fa (ea i e), whole h.fb (eb e l))))
      ∧ (m.latticeDone = true → (∀ p ∈ s.pkg.partials, p.core ≠ c.num) →
        let runs := latticeKind m.instr = .run ∧ 0 < m.runCount
        Makes (.engineCommandRetire c.num .l) s { s with core := { c with
          l := { c.l with cmds := r }
          lat := { c.lat with
            lastSeq := m.seq
            normin := if runs then m.sweep.nin else c.lat.normin
            normout := if runs then m.sweep.nout else c.lat.normout } } })
      ∧ (∀ n a, m.instr = .arun n a → m.sweep.reload = false → 1 ≤ m.a.toNat → fieldNat m.qfmt 8 5 = 0 →
        c.lat.binding = none → c.lat.save = 0#64 →
        ∃ u x, Makes (.latticeStop c.num) s u ∧ u.core.l = { c.l with cmds := x :: r } ∧ x.status = .stopped ∧ x.seq = m.seq
          ∧ x.instr = m.instr ∧ u.core.lat.fault = 4#8 ∧ u.core.lat.recAlt = false
          ∧ ∃ p, (∀ y ∈ c.pending, y ∈ p) ∧ u.core.pending
            = insertPending p ⟨2, 0, ⟨14#5, true, 0#32 ++ m.seq ++ 0#16, 4#64, 0#64, 0#64⟩, .engine .l⟩))

/-- The copy engines (R2, R104, R260, R283, R314 to R321): a command begins, and the destination of a demand one that does not
stream is undefined from then on; one that writes zeros, or moves bytes, makes its copy as it completes, one that streams pops an
entry and writes it, a finished command leaves its queue and sets its tag, and a stop is told by a trap. -/
def Obligations.CopySteps : Prop :=
  ∀ (s : State) (e : CopyEng) (m : Cmd) (r : List Cmd) (o : Nat),
    let c := s.core
    let q : EngineQ := (match e with | .ce0 => .c0 | .ce1 => .c1)
    let k := controlOf m.b
    let demand := m.word.getLsbD 8
    let only := ∀ l ∈ m.nest, l.count = 1#32
    let put := fun (u : State) (bytes : Nat → Byte) =>
      (∀ p, u.core.scratch.read p = if o ≤ p ∧ p < o + k.len then bytes (p - o) else c.scratch.read p) ∧ u.pkg = s.pkg
    let set := fun (w : Word) (b : Bool) => if b then w ||| (1#64 <<< k.tag) else w
    let last := decide ¬∃ x ∈ (if e = .ce0 then r ++ c.c1.cmds else c.c0.cmds ++ r), cmdTag x = k.tag
    let copies := fun bytes : Nat → Byte => ∃ u : State, put u bytes ∧ u.core.queue q = { c.queue q with cmds := r }
      ∧ u.core.tags = set c.tags last ∧ u.core.tagDiffers = c.tagDiffers ∧ u.core.tagMalformed = c.tagMalformed
      ∧ Makes (.copyComplete c.num e) s u ∧ Makes (.engineCommandRetire c.num q) s u
    (s.mayBegin q m r →
      let fmt := if m.begun then m.qfmt else if k.sq = 0 then 0#64 else c.qfmt[(endpoint k.sq).toNat]'(endpoint k.sq).isLt
      let begun : State := { s with core := c.withHead q (m.beginning c fmt) r true }
      (k.streams = true ∨ demand = false → Makes (.copyCommandBegin c.num e) s begun)
      ∧ (k.streams = false → demand = true → k.xf ≠ some .addw → only → Plain s m.d k.written o →
        ∃ u, Makes (.copyCommandBegin c.num e) s u ∧ u.core.queue q = begun.core.queue q ∧ u.pkg = s.pkg
          ∧ (∀ p, u.core.scratch.read p
            = if o ≤ p ∧ p < o + k.written then Config.freeByte (s.fresh + (p - o)) else c.scratch.read p)
          ∧ u.fresh = s.fresh + k.written))
    ∧ (s.hasRunning q m r →
      (∀ y img, k.sq ≠ 0 → k.dq = 0 → k.xf = some .none → k.len = 512 → m.sweep.done < copiesOf m.nest → demand = false →
        c.visible (endpoint k.sq) = some (y, img) → y.poison = 0#64 → Plain s (m.d + (offsetsAt m.nest m.sweep.done).2) 512 o →
        ∃ u x, Makes (.streamCopyStart c.num e) s u ∧ put u (fun i => byteOf (deliverAs m.qfmt img) i)
          ∧ u.core.queue q = { c.queue q with cmds := x :: r } ∧ x.sweep.done = m.sweep.done + 1
          ∧ u.core.entries (endpoint k.sq) = (c.entries (endpoint k.sq)).tail)
      ∧ (k.streams = false → k.arrive = false → k.dbl = false → demand = false → only → m.sweep.done = 0 →
        Plain s m.d k.len o →
        (k.xf = some .zero → copies fun _ => 0#8)
        ∧ ∀ p, k.xf = some .none → Plain s m.a k.len p → (p + k.len ≤ o ∨ o + k.len ≤ p) → m.olds = [] →
          c.unseenAt (c.locOf p) k.len = false → copies fun i => c.scratch.read (p + i))
      ∧ (k.arrive = false → copiesOf m.nest ≤ m.sweep.done → (k.dq = 0 ∨ demand = false) →
        let status := m.sweep.skipped
        let left := c.setQueue q { c.queue q with cmds := r }
        let u : State := { s with core := { left with
          tags := set c.tags last
          tagDiffers := set c.tagDiffers (decide (status % 2 = 1))
          tagMalformed := set c.tagMalformed (decide (status / 2 = 1)) } }
        Makes (.copyComplete c.num e) s u ∧ Makes (.engineCommandRetire c.num q) s u))
    ∧ ∀ t, m.refused = some t → (c.queue q).cmds = m :: r → s.engineRuns = true → m.status = .queued → m.since = none →
      ((c.queue q).last = some m.order ∨ ∀ n, (c.queue q).began = some n → n + c.gap q ≤ c.cycle) → c.ops = [] → c.work = [] →
      Makes (.copyStop c.num e) s { s with core := { c.withHead q { m with status := .stopped, hold := [], olds := [] } r false with
        pending := insertPending c.pending ⟨stopRank q, 0, t, .engine q⟩ } }

/-- The K engine (R216, R219, R220, R226, R232 to R235): a command begins with its sketches opened, makes one element after another
at the mortars, and leaves its queue; a stop is told by a trap. An update's value is quantised once, ties to even; each row's counter
takes it exactly, with its sign, or is clamped, its clip bit set and the header's clips counted; a zero and a poisoned pair change
nothing. That clips stays at its greatest value is the model's own choice (log 106). -/
def Obligations.SketchSteps : Prop :=
  ∀ (s : State) (m : Cmd) (r : List Cmd) (o : Nat),
    let c := s.core
    (s.mayBegin .k m r →
      (m.emptyCount = true →
        let x := { m.beginning c m.qfmt with sweep := { m.sweep with out := [] }, hold := [] }
        Makes (.sketchCommandBegin c.num) s { s with core := c.withHead .k x r true })
      ∧ (∀ lines pages u, m.emptyCount = false → Eng.openCommand m s = .ok (lines, pages) u →
        let x := { m.beginning u.core m.qfmt with sweep := { m.sweep with out := lines }, hold := pages }
        ∃ v, Makes (.sketchCommandBegin c.num) s v ∧ v.pkg = u.pkg
          ∧ v.core.k = { u.core.k with cmds := x :: u.core.k.cmds.tail, began := some u.core.cycle, last := some m.order }))
    ∧ (s.hasRunning .k m r →
      let next : Cmd := { m with sweep := { m.sweep with done := m.sweep.done + 1 } }
      let steps := fun f : State → State => ∃ t v, Becomes s t ∧ Makes (.mortarUpdate c.num) s v
        ∧ v.core.k.cmds.map Cmd.bare = (next :: r).map Cmd.bare ∧ v.core.k = { c.k with cmds := v.core.k.cmds }
        ∧ v.pkg = (f t).pkg
      (∀ n d, m.instr = .skinit n d → m.sweep.done = 0 → steps fun t => t.initSketch m.hold (m.sketch 0 m.d))
      ∧ (∀ dm n d a b, m.instr = .skupd dm n d a b → m.sweep.done < m.b.toNat →
        Plain s (m.a + 16#64 * BitVec.ofNat 64 m.sweep.done) 16 o → o % 16 = 0 →
        m.olds = [] → c.unseenAt (c.locOf o) 16 = false →
        let index : Word := BitVec.ofNat 64 (leNat (c.scratch.bytes o 8))
        let value : Lane := BitVec.ofNat 32 (leNat (c.scratch.bytes (o + 8) 4))
        steps fun t => t.sketchUpdate .k m.hold (m.sketch 0 m.d) index (ofF32 value))
      ∧ (∀ dm n d a b, m.instr = .skupd dm n d a b → m.b.toNat ≤ m.sweep.done →
        Makes (.engineCommandRetire c.num .k) s { s with core := { c with k := { c.k with cmds := r } } }))
    ∧ (∀ t, m.refused = some t → c.k.cmds = m :: r → s.engineRuns = true → m.status = .queued → m.since = none →
      (c.k.last = some m.order ∨ ∀ n, c.k.began = some n → n + c.gap .k ≤ c.cycle) → c.ops = [] → c.work = [] →
      Makes (.sketchStop c.num) s { s with core := { c.withHead .k { m with status := .stopped, hold := [], olds := [] } r false with
        pending := insertPending c.pending ⟨5, 0, t, .engine .k⟩ } })
    ∧ ∀ (w : State) (h : SketchHdr) (i : Word) (q : Int) (j : Nat) (pages : List Page) (pc pb ph : Page) (x : XVal) (z : Cmd),
      let n := h.place j i
      let counter := pc.pa (h.counterVa n)
      let clip := pb.pa (h.clipVa n)
      let field := ph.pa (h.addr + 0x28)
      (w.core.head .k = some z → z.olds = [] → pageFor pages (h.counterVa n) = some pc → pageFor pages (h.clipVa n) = some pb →
        pageFor pages (h.addr + 0x28) = some ph →
        w.pkg.hostLines = [] → w.pkg.mem.wf = true → counter % 4 = 0 → field % 8 = 0 →
        counter / 64 ≠ clip / 64 → counter / 64 ≠ field / 64 → clip / 64 ≠ field / 64 →
        (∀ a ∈ [counter, clip, field], w.pkg.reach a = .served ∧ w.stashOwner a = none) →
        let u := w.updateRow .k pages h i q j
        let old : Int := (BitVec.ofNat 32 (leNat (w.pkg.peeks pc.key counter 4))).toInt
        let bits := w.pkg.peek pb.key clip
        let count := leNat (w.pkg.peeks ph.key field 8)
        let set := bits ||| (1#8 <<< (n % 8))
        let told := if bits.getLsbD (n % 8) then count else min (count + 1) (2 ^ 64 - 1)
        let sum := old + if h.negative j i then -q else q
        let holds := fun (v : Int) (b : Byte) (k : Nat) =>
          u.pkg.peeks pc.key counter 4 = natBytes 4 (BitVec.ofInt 32 v).toNat ∧ u.pkg.peek pb.key clip = b
            ∧ u.pkg.peeks ph.key field 8 = natBytes 8 k
        let bad := w.pkg.poisonedAt counter 4 = true ∨ w.pkg.poisonedAt clip 1 = true
        (bad → u.pkg.mem = w.pkg.mem ∧ u.pkg.errorCount = w.pkg.errorCount + 1)
        ∧ (¬bad → q = 0 → u.pkg.mem = w.pkg.mem ∧ u.pkg.errorCount = w.pkg.errorCount)
        ∧ (¬bad → q ≠ 0 →
          (-(2 ^ 31 - 1) ≤ sum → sum ≤ 2 ^ 31 - 1 → holds sum bits count)
          ∧ (2 ^ 31 - 1 < sum → holds (2 ^ 31 - 1) set told) ∧ (sum < -(2 ^ 31 - 1) → holds (-(2 ^ 31 - 1)) set told)))
      ∧ (let v := w.mapCore fun c => c.bump 42 1
        let inside := (i - h.ibase).toNat < h.icount.toNat
        (∀ neg m e, inside → x = .fin neg m e false →
          let d := e - h.e
          let top := m * 2 ^ d.toNat
          let under := 2 ^ (-d).toNat
          ∃ z : Int, w.sketchUpdate .k pages h i x = (List.range h.rows).foldl (fun s j => s.updateRow .k pages h i z j) v
            ∧ (z ≠ 0 → (z < 0 ↔ neg = true))
            ∧ 2 * (z.natAbs * under) ≤ 2 * top + under ∧ 2 * top ≤ 2 * (z.natAbs * under) + under
            ∧ (2 * (z.natAbs * under) = 2 * top + under ∨ 2 * top = 2 * (z.natAbs * under) + under → z.natAbs % 2 = 0))
        ∧ (¬inside ∨ x = .nan ∨ (∃ neg, x = .inf neg) → w.sketchUpdate .k pages h i x = v.raiseField .k pages h 0x20))

/-- R197, R259, R381, R382: a command whose bound has run out stops with cause 13, and a demand fault of a sketch command is
served by its hub in hardware mode, after which the command goes on. -/
def Obligations.BoundsAndFills : Prop :=
  ∀ (s u f : State) (q : EngineQ) (m : Cmd) (r : List Cmd) (t : Trap),
    let c := s.core
    (s.hasOverrun q m r → (q = .l → c.lat.save = 0#64) →
      ∃ v x, ∃ cond : BitVec 3, Makes (.boundOverrun c.num q) s v
        ∧ (v.core.queue q).cmds.map Cmd.bare = (x :: r).map Cmd.bare ∧ x.status = .stopped
        ∧ x.seq = m.seq ∧ x.instr = m.instr
        ∧ ∃ p, (∀ y ∈ c.pending, y ∈ p) ∧ v.core.pending = insertPending p
            ⟨(match q with | .l => 2 | .c0 => 3 | .c1 => 4 | .k => 5), 0,
              ⟨13#5, true, 0#29 ++ cond ++ m.seq ++ 0#14 ++ q.code, 0#64, 0#64, 0#64⟩, .engine q⟩)
    ∧ (s.hasRunning q m r → Makes (.boundOverrun c.num q) s s)
    ∧ (s.hasRunning .k m r → s.nextStop .k = some (m, t, u) → m.refused = none → t.cause = 10#5 →
      (s.pkg.ctx c.ctx).hardware 0 = true →
      (u.demandFill t.info0 = (f, true) → Makes (.demandFill c.num .k) s f ∧ Makes (.sketchStop c.num) s s)
      ∧ (u.demandFill t.info0 = (f, false) →
        Makes (.demandFill c.num .k) s (f.mapCore fun d => d.stopHead .k m t)))

/-- Split-K merges (R184 to R186): partials of an element are applied in ascending index whatever order they arrive in, a
partial that fits none poisons the target, a lost hub discards one, and a merge open for 2³² hub cycles is closed with an error
record. That an early partial is always held is the model's own choice (log 63), that the poison covers the target's line and which
partials a poisoned merge counts its own reading (log 21), and so is that each partial is added by its own kind, under the key of
partial 0 (log 100). -/
def Obligations.MergesApplyInOrder : Prop :=
  ∀ (s : State) (k line : Nat) (q : Partial), s.pkg.partials[k]? = some q → line = q.pa / 64 →
    (∀ e ∈ s.pkg.hostLines, e.1 ≠ line) →
    let arrives := Instr.splitkPartialArrival k
    let serves := paHome q.pa ≠ 0 ∨ s.pkg.dieServes (homeHub q.pa) = true
    let t := State.reachFor { s with pkg := { s.pkg with partials := s.pkg.partials.eraseIdx k } } q.ctx q.pa
    let v := t.reachFor q.ctx q.pa
    let join := fun (int : Bool) (x y : Lane) => if int then x + y else toF32 .rne false (XVal.add .rne (ofF32 x) (ofF32 y))
    let others := t.pkg.merges.filter fun m => !(m.ctx == q.ctx && m.pa == q.pa)
    let old : Lane := BitVec.ofNat 32 (leNat (v.look q.pa 4 q.key).1)
    let sender := (q.core, q.order)
    let writes := fun (senders : List (Nat × Nat)) (x : Lane) => ∃ w : State,
      exec arrives s = .next { w with pkg := { w.pkg with
        merges := w.pkg.merges.filter fun m => !(m.ctx == q.ctx && m.pa == q.pa) } }
      ∧ w = (v.reachFor q.ctx q.pa).put (.home senders) q.pa (natBytes 4 x.toNat) q.key
    (¬serves → exec arrives s = .next t)
    ∧ (serves → t.pkg.mergeAt q.ctx q.pa = none →
      (q.n = 1 → q.index = 0 → (v.look q.pa 4 q.key).2 = false → writes [sender] (join q.int old q.value))
      ∧ (2 ≤ q.n → q.index < q.n → 1 ≤ q.index →
        exec arrives s = .next { t with pkg := { t.pkg with merges := others ++
          [⟨q.ctx, q.pa, q.key, q.n, [q.index], [⟨q.index, q.int, q.key, q.value⟩], 0, 0#32, 0,
            if t.preempted q.ctx then none else some s.pkg.now, false, [sender]⟩] } }))
    ∧ (∀ m w int key, serves → t.pkg.mergeAt q.ctx q.pa = some m → m.n = 2 → q.n = 2 → q.index = 0 → m.received = [1] →
      m.held = [⟨1, int, key, w⟩] → m.next = 0 → m.poisoned = false → (v.look q.pa 4 q.key).2 = false →
      writes (if sender ∈ m.senders then m.senders else m.senders ++ [sender]) (join int (join q.int old q.value) w))
    ∧ (∀ m, serves → t.pkg.mergeAt q.ctx q.pa = some m → m.poisoned = false → q.n ≠ m.n ∨ m.n ≤ q.index ∨ q.index ∈ m.received →
      s.stashOwner q.pa = none → s.pkg.reach q.pa = .served →
      ∃ w, exec arrives s = .next w ∧ line ∈ w.pkg.poison
        ∧ ∀ x ∈ w.pkg.merges, x.ctx = q.ctx → x.pa = q.pa → x.poisoned = true ∧ x.held = [])
    ∧ ∀ j m, s.pkg.merges[j]? = some m → s.stashOwner m.pa = none → s.pkg.reach m.pa = .served →
      (∀ e ∈ s.pkg.hostLines, e.1 ≠ m.pa / 64) →
      let open_ := m.age + (match m.since with | some n => s.pkg.now - n | none => 0)
      (open_ < 2 ^ 32 * Config.cycleUnits 22 → exec (.splitkMergeTimeout j) s = .next s)
      ∧ (2 ^ 32 * Config.cycleUnits 22 ≤ open_ → m.poisoned = false →
        ∃ w, exec (.splitkMergeTimeout j) s = .next w ∧ m.pa / 64 ∈ w.pkg.poison ∧ w.pkg.errorCount = s.pkg.errorCount + 1
          ∧ w.pkg.merges = s.pkg.merges.filter fun x => !(x.ctx == m.ctx && x.pa == m.pa))

/-! ### The host and lost state -/

/-- The host at the homes of the pool (R297, R298, R423, R425), pre-emption (R391, R446), a lost die (R20, R397) and an
uncorrectable error (R395, R396). The model's own choices or readings here are that the strands of a context leave in one step once
all are in user mode (log 53), that a gang's reserved core is freed by the scheduled event alone (log 54), that no context is
resident on the core afterwards (log 75), which sizes a host access has and that a list holds what its loads return (log 89); that
a load of the host makes what engines wrote there reach others is how it reads R289 (log 97).
That a context with host-assisted die-loss handling is held and taken off is the model's own reading too (log 27); the statement
says nothing of it. -/
def Obligations.HostAndLosses : Prop :=
  ∀ (s : State) (a : HostAccess) (line ctx die : Nat) (r : Reg), s.pkg.mem.wf = true → s.pkg.errors.wf = true →
    let p := s.pkg
    let key := p.hostkey
    let access := Instr.hostBar4Access a
    let at_ := a.pa / 64
    let off := a.pa % 64
    (p.decodes a = false → exec access s = .next s)
    ∧ (p.decodes a = true →
      (a.action = .storeBarrier ∨ a.action = .loadBarrier ∨ a.action = .fullFence → exec access s = .next s)
      ∧ (p.hostCopy at_ = none → p.reach a.pa = .served → s.stashOwner a.pa = none →
        (a.action = .plainStore ∨ a.action = .storeRelease → a.poisoned = false → a.keepModified = false →
          ∃ u, exec access s = .next u ∧ u.pkg.peeks key a.pa a.size = natBytes a.size a.data.toNat
            ∧ (∀ b, (b < a.pa ∨ a.pa + a.size ≤ b) → u.pkg.peek key b = p.peek key b)
            ∧ (∀ k b, b / 64 ≠ at_ → u.pkg.peek k b = p.peek k b) ∧ u.pkg.hostLines = p.hostLines)
        ∧ (a.action = .plainStore ∨ a.action = .storeRelease → a.poisoned = true →
          ∃ u, exec access s = .next u ∧ at_ ∈ u.pkg.poison)
        ∧ (a.action = .plainStore ∨ a.action = .storeRelease → a.poisoned = false → a.keepModified = true →
          p.poisonedAt (64 * at_) 64 = false →
          p.reach (64 * at_) = .served → s.stashOwner (64 * at_) = none →
          ∃ u v, exec access s = .next u ∧ u.pkg.hostCopy at_ = some v ∧ u.pkg.mem = p.mem ∧ u.core.bare = s.core.bare
            ∧ ∀ i, i < 64 → byteOf v i
              = if off ≤ i ∧ i < off + a.size then byteOf a.data (i - off) else p.peek key (64 * at_ + i))
        ∧ (a.action = .plainLoad ∨ a.action = .loadAcquire →
          let v := if p.poisonedAt a.pa a.size then none else some (BitVec.ofNat 512 (leNat (p.peeks key a.pa a.size)))
          let shown := fun y : Unseen => if y.meets a.pa a.size then { y with shown := true } else y
          let read := fun x : Core => { x with unseen := x.unseen.map shown }
          exec access s = .next { s with
            core := read s.core, parked := s.parked.map read, pkg := { p with hostLoads := p.hostLoads ++ [(a.fn, v)] } })))
    ∧ (p.hostCopy line = none → exec (.hostWriteback line) s = .next s
      ∧ exec (.backInvalidateResponse line) s
        = .next { s with pkg := { p with snoops := p.snoops.filter fun l => l != line } })
    ∧ (∀ v, p.hostCopy line = some v → exec (.backInvalidateResponse line) s = .next s
      ∧ (p.reach (64 * line) = .served → s.stashOwner (64 * line) = none →
        ∃ u, exec (.hostWriteback line) s = .next u ∧ u.pkg.hostCopy line = none
          ∧ ∀ i, i < 64 → u.pkg.peek key (64 * line + i) = byteOf v i))
    ∧ (s.coresOf ctx = [] ∨ (s.askedOff ctx = false ∧ s.gangNeeds ctx = false) ∨ s.allUser ctx = false →
      exec (.preemption ctx) s = .next s)
    ∧ (s.coresOf ctx ≠ [] → s.askedOff ctx = true ∨ s.gangNeeds ctx = true → s.allUser ctx = true →
      exec (.preemption ctx) s = .next (s.takeOff ctx))
    ∧ (∀ n, let t := s.preemptCore n
      t.core.strand = none ∧ t.core.resident = none ∧ t.core.super = true ∧ t.core.pending = [] ∧ t.core.ops = [])
    ∧ (10 ≤ die ∨ p.dieServes die = false → exec (.dieLoss die) s = .next s)
    ∧ (die < 10 → p.dieServes die = true →
      (∀ c, c < 64 → (p.ctx c).touched.getLsbD die = true → (p.ctx c).hardware 4 = true) →
      ∃ u, exec (.dieLoss die) s = .next u ∧ u.pkg.dieen = p.dieen &&& ~~~(1#10 <<< die)
        ∧ (die < 8 → ∀ c ∈ u.cores, dieOf c.num = die → c.strand = none)
        ∧ (dieOf s.core.num ≠ die → s.core.strand.isSome = true → s.core.resident = some ctx → ctx < 64 →
          (p.ctx ctx).touched.getLsbD die = true →
          ⟨0, 0, .plain 20#5 (BitVec.ofNat 64 die) ((p.dieen &&& ~~~(1#10 <<< die)).setWidth 64) 0#64, .none⟩
            ∈ u.core.pending))
    ∧ (r ≠ 0#6 → s.core.num < 128 → ∃ u, exec (.uncorrectableError (.scalar s.core.num r)) s = .next u
      ∧ Granule.x r ∈ u.core.poison ∧ u.core = { s.core with poison := u.core.poison } ∧ u.pkg.errorCount = p.errorCount + 1)
    ∧ ∀ b : BitVec 8, b = 4#8 ∨ b = 5#8 ∨ b = 7#8 → a.pa < 2 ^ 64 →
      let e := 32 * (p.errorCount % 1024)
      ∃ u, exec (.uncorrectableError (.line a.pa b)) s = .next u ∧ at_ ∈ u.pkg.poison ∧ u.pkg.mem = p.mem
        ∧ u.pkg.errors.bytes e 3 = [b, BitVec.ofNat 8 (homeHub a.pa), 0xFF#8] ∧ u.pkg.errors.nat (e + 8) 8 = a.pa
        ∧ u.pkg.errorCount = p.errorCount + 1

/-! ### The management window -/

/-- Ownership, registers, records, commands and attestation (R379, R380, R370, R371, R383, R385, R398, R423, R430 to R436,
R446, R447, R451): what a write of the window does for its owner, and what becomes of a write of anyone else. The model's own
choices or readings here are that a decoder which would take the package beyond its 24 TiB is refused with event 0x11 (log 40), the
fresh signature of a report (log 46), that the subject of event 0x14 is the command's (log 47), that a restore first takes strands
off (log 52), that strands leave in one step (log 53), what a lapse keeps (log 56), which registers an image shows (log 78), that
hub dies can be halted (log 88), that a change of a decoder moves no byte (log 95), that weights keep 16 bits (log 45), that a
checkpoint at a base off 64 bytes is refused and that a refused command changes its status alone (log 101), and that a descriptor
written while strands of an invalidated one run on waits for them (log 102); that event 0x11 names the record's number, or for
DOMAIN the master, that the power block answers with subject 0, that a write of the command block's status or result is discarded
without an event, that the holes of the power block are read-only, and that a halt of a die that does not exist is a refused debug
command (log 111). -/
def Obligations.ManagementWindow : Prop :=
  ∀ (s : State) (m : Nat),
    let p := s.pkg
    let set := fun q : Package => ({ s with pkg := q } : State)
    let makes := fun (i : Instr) (q : Package) => exec i s = .next (set q)
    let up := p.masterUp m = true ∧ p.recovery = false
    (∀ n, p.masterUp m = true → makes (.mgclaim m n)
      (if p.ownerValid then p else { p with ownerNonce := n, ownerValid := true, owner := BitVec.ofNat 8 m }))
    ∧ makes .ownershipLapse (if p.ownerValid then { p with ownerValid := false }.raise 0x13 p.owner.toNat else p)
    ∧ (∀ off data, p.masterUp m = false → makes (.managementWrite m off data) p)
    ∧ (∀ off data, up → data ≠ [] → off + data.length ≤ 0x100000 → attField off = none → off < 8 ∨ 0x10 ≤ off →
      (p.owns m = false → makes (.managementWrite m off data) (p.raise 0x12 m))
      ∧ (p.owns m = true → writeShape off data.length = false → makes (.managementWrite m off data) (p.raise 0x18 m)))
    ∧ (up → p.owns m = true →
      (∀ t n, t.toNat ≤ 8 → makes (.mghand m t n) { p with ownerNonce := n, ownerValid := true, owner := t })
      ∧ (∀ n, makes (.mghand m 0xFF#8 n) { p with ownerNonce := 0#32, ownerValid := false, owner := 0xFF#8 })
      ∧ (∀ v, v.extractLsb' 6 2 = 0#2 → v.extractLsb' 14 50 = 0#50 →
        makes (.domainWrite m v) (if p.linkTrained then p.raise 0x11 m else { p with domain := v }))
      ∧ (∀ v : Word, makes (.bar4sizeWrite m v)
        (if 30 ≤ v.toNat ∧ v.toNat ≤ 45 then { p with bar4size := v.setWidth 6 } else p.raise 0x18 m))
      ∧ (∀ v : Word, makes (.hostordWrite m v)
        (if v.toNat < 256 then { p with hostord := v.setWidth 8 } else p.raise 0x18 m))
      ∧ (∀ k data, k < 64 → data.length = 64 →
        let x := p.ctx k
        let d := setBytes x.desc 0 data
        let new : Context := { x with desc := d }
        let write := Instr.contextDescriptorWrite m (0x1000 + 64 * k) data
        let flags : BitVec 512 := 7#512 <<< 24
        (x.closing = true →
          let was : Context := { x with desc := x.shown }
          let refused := (was.valid = true ∧ d &&& ~~~flags ≠ was.desc &&& ~~~flags)
            ∨ (was.valid = false ∧ new.valid = true ∧ (p.descRefused k d = true ∨ p.gangOutside k new.part = true))
          (refused → makes write (p.raise 0x11 k))
          ∧ (¬refused → makes write (p.setCtx k fun _ => { x with rewritten := some d })))
        ∧ (x.closing = false → x.rewritten = none →
        (x.valid = false → makes write (if new.valid = true ∧ (p.descRefused k d = true ∨ p.gangOutside k new.part = true)
          then p.raise 0x11 k else p.setCtx k fun _ => { new with touched := 0#10 }))
        ∧ (x.valid = true → d &&& ~~~flags ≠ x.desc &&& ~~~flags → makes write (p.raise 0x11 k))
        ∧ (x.valid = true → d &&& ~~~flags = x.desc &&& ~~~flags →
          (new.valid = true → makes write (p.setCtx k fun _ => new))
          ∧ (new.valid = false → exec write s
            = .next ((set (p.setCtx k fun _ => { new with held := true, closing := true })).takeOffWhenUser k)))))
      ∧ (∀ k data, k < 16 → data.length = 8 → ∀ half, half < 2 →
        let new := setBytes (p.partition k) (8 * half) data
        makes (.partitionRecordWrite m (0x2000 + 16 * k + 8 * half) data) (if p.partRefused k new = true then p.raise 0x11 k
          else { p with
            partitions := p.partitions.setIfInBounds k new
            floors := p.floors.setIfInBounds k (if partDefined new then partFloor new else 0) }))
      ∧ (∀ k data, k < 16 → data.length = 8 → ∀ part, part < 4 →
        let new := setBytes (p.decoders.getD k 0#256) (8 * part) data
        makes (.poolDecoderWrite m (0x2100 + 32 * k + 8 * part) data)
          (if decRefused new = true ∨ (decValid new = true ∧ 24 * 2 ^ 40 < p.poolBytes k new) then p.raise 0x11 k
            else { p with decoders := p.decoders.setIfInBounds k new }))
      ∧ (∀ x, x < 64 → p.cmdStatus ≠ 1 → p.command.extractLsb' 16 16 = 0#16 →
        let given := fun op : Byte => ({ p with command := setBytes p.command 0 [op, BitVec.ofNat 8 x] } : Package)
        let tells := fun (q : Package) (n : Nat) => ({ q with command := setBytes q.command 4 (natBytes 4 n) } : Package)
        let ends := fun (q : Package) (op : Byte) (n : Nat) => (tells q n).raise 0x16 op.toNat
        let takesOff := fun (i : Instr) (q : Package) => exec i s = .next ((set q).takeOffWhenUser x)
        let refused := fun op : Byte => (tells p 3).raise 0x16 op.toNat
        let denied := (tells p 3).raise 0x14 x
        let reads := fun (q : Package) (pa : Nat) => if p.reach pa = .undecoded then q.raise 0x31 x else q
        let passes := fun (i : Instr) (q : Package) (P : State → Prop) =>
          ∃ u, exec i s = .next u ∧ u.pkg = { q with now := u.pkg.now } ∧ P u
        ((p.ctx x).held = true → makes (.preemptAndHold m x) (ends (given 1#8) 1#8 2))
        ∧ ((p.ctx x).held = false →
          takesOff (.preemptAndHold m x) ((tells (given 1#8) 1).setCtx x fun c => { c with held := true }))
        ∧ ((p.ctx x).held = false → makes (.endHold m x) (ends (given 2#8) 2#8 2))
        ∧ ((p.ctx x).held = true → (p.ctx x).valid = false → makes (.endHold m x) (refused 2#8))
        ∧ ((p.ctx x).held = true → (p.ctx x).valid = true → exec (.endHold m x) s
          = .next (((set ((given 2#8).setCtx x fun c => { c with held := false, resumedAt := p.now })).settleMerges x).mapPkg
            fun q => ends q 2#8 2))
        ∧ (p.cmdArg0 % 64 = 0 → takesOff (.checkpoint m x) (tells (given 3#8) 1))
        ∧ (p.cmdArg0 % 64 ≠ 0 → makes (.checkpoint m x) (refused 3#8))
        ∧ (s.checkpointOf x p.cmdArg0 p.cmdArg1 = none → makes (.restoreCheckpoint m x) (reads (refused 4#8) p.cmdArg0))
        ∧ (s.checkpointOf x p.cmdArg0 p.cmdArg1 ≠ none →
          takesOff (.restoreCheckpoint m x) (reads (tells (given 4#8) 1) p.cmdArg0))
        ∧ (p.debugs x = false → makes (.debugReadMemory m x) denied ∧ makes (.debugWriteMemory m x) denied
          ∧ makes (.debugReadRegister m x) denied)
        ∧ (p.debugs x = true →
          let a := fun i : Nat => BitVec.ofNat 64 (p.cmdArg0 + i)
          let pa := fun (pg : Page) (i : Nat) => pg.pa (a i).toNat
          let quiet := fun (v : State) (acc : Acc) (pg : Page) (i : Nat) =>
            v.translate x (a i) acc = (v, .ok pg) ∧ v.reachFor x (pa pg i) = v
          (∃ u, exec (.debugReadMemory m x) s = .next u ∧ (u.pkg.cmdStatus = 2 ∨ u.pkg.cmdStatus = 3))
          ∧ (∃ u, exec (.debugWriteMemory m x) s = .next u ∧ (u.pkg.cmdStatus = 2 ∨ u.pkg.cmdStatus = 3))
          ∧ (∀ v e, (set (given 5#8)).translate x (a 0) .read = (v, .error e) → makes (.debugReadMemory m x) (refused 5#8))
          ∧ (∀ v e, (set (given 6#8)).translate x (a 0) .write = (v, .error e) → makes (.debugWriteMemory m x) (refused 6#8))
          ∧ (∀ pg, p.hostLines = [] →
            let taken := fun k : Nat => (List.range k).foldl (fun w i => (w.showTo none (pa pg i) 1).mapPkg fun q =>
              { q with command := setBytes q.command (0x20 + i) (w.look (pa pg i) 1 pg.key).1 }) (set (given 5#8))
            (∀ i, i < 8 → quiet (taken i) .read pg i) →
            ∃ c u, exec (.debugReadMemory m x) s = .next u ∧ u.pkg = ends { given 5#8 with command := c } 5#8 2
              ∧ u.core.bare = s.core.bare ∧ u.parked.map Core.bare = s.parked.map Core.bare
              ∧ ∀ i, i < 64 → byteOf c i = if 0x20 ≤ i ∧ i < 0x28 then (s.look (pa pg (i - 0x20)) 1 pg.key).1.headD 0#8
                else byteOf (given 5#8).command i)
          ∧ (∀ pg, p.hostLines = [] → p.mem.wf = true →
            let b := fun i : Nat => byteOf p.command (0x20 + i)
            let stored := fun k : Nat =>
              (List.range k).foldl (fun w i => w.put .other (pa pg i) [b i] pg.key) (set (given 6#8))
            (∀ i, i < 8 → quiet (stored i) .write pg i ∧ p.reach (pa pg i) = .served ∧ s.stashOwner (pa pg i) = none) →
            ∃ u, exec (.debugWriteMemory m x) s = .next u ∧ u.pkg.cmdStatus = 2 ∧ u.core.x = s.core.x
              ∧ (∀ i, i < 8 → u.pkg.peek pg.key (pa pg i) = b i)
              ∧ (∀ k c, (∀ i, i < 8 → c / 64 ≠ pa pg i / 64) → u.pkg.peek k c = p.peek k c)
              ∧ ∀ c, (∀ i, i < 8 → c ≠ pa pg i) → u.pkg.peek pg.key c = p.peek pg.key c)
          ∧ ((∀ q ∈ (p.ctx x).paused, q.core ≠ p.cmdArg1) → makes (.debugReadRegister m x) (refused 7#8))
          ∧ (∀ q ∈ (p.ctx x).paused, q.core = p.cmdArg1 → ∀ v,
            (set (given 7#8)).imageRegister x p.cmdArg1 p.cmdArg0 = some v → makes (.debugReadRegister m x)
              (let q := reads (given 7#8) ((p.ctx x).imageAt p.cmdArg1)
              ends { q with command := setBytes q.command 0x20 (natBytes 8 v.toNat) } 7#8 2)))
        ∧ (s.haltAdmitted x = true → let halts := p.halted ||| (1#10 <<< x)
          passes (.haltDie m x) (ends { given 8#8 with
            halted := halts
            contexts := p.contexts.map fun c =>
              if c.touched &&& p.halted = 0#10 ∧ c.touched &&& halts ≠ 0#10 then { c with frozenAt := p.now } else c } 8#8 2)
          fun u => s.core.strand.isSome = true → s.core.wait = none → s.heldBy halts = false → u.core = s.core)
        ∧ (s.haltAdmitted x = false → makes (.haltDie m x) denied)
        ∧ (x < 10 → p.halted.getLsbD x = false → passes (.resumeDie m x)
          (ends { given 9#8 with halted := p.halted &&& ~~~(1#10 <<< x) } 9#8 2)
          fun u => s.core.strand.isSome = true → s.core.wait = none → s.heldBy p.halted = false → u.core = s.core)
        ∧ (x < 10 → p.halted.getLsbD x = true → passes (.resumeDie m x)
          (ends { given 9#8 with halted := p.halted &&& ~~~(1#10 <<< x) } 9#8 2)
          fun u => dieOf s.core.num = x → s.core.strand.isSome = true → u.core.step = true → debugTrap 3#64 ∈ u.core.pending))
      ∧ (let writes := fun (off : Nat) (data : List Byte) => makes (.managementWrite m off data)
        let sent := fun n (v : Word) => natBytes n v.toNat
        (∀ v : Word, (v.toNat < 64 → writes 0x18 (sent 8 v) { p with hostkey := v.setWidth 6 })
          ∧ (64 ≤ v.toNat → writes 0x18 (sent 8 v) (p.raise 0x18 m))
          ∧ writes 0x20 (sent 8 v) { p with ringHead := v }
          ∧ writes 0x00 (sent 8 v) (p.raise 0x18 m) ∧ writes 0x28 (sent 8 v) (p.raise 0x18 m))
        ∧ (∀ (n : BitVec 32) (t : Byte) (v : Word),
          exec (.managementWrite m 0x08 (natBytes 4 0 ++ natBytes 4 n.toNat)) s = exec (.mgclaim m n) s
          ∧ exec (.managementWrite m 0x10 (natBytes 4 t.toNat ++ natBytes 4 n.toNat)) s = exec (.mghand m t n) s
          ∧ exec (.managementWrite m 0x30 (sent 8 v)) s = exec (.bar4sizeWrite m v) s
          ∧ exec (.managementWrite m 0x38 (sent 8 v)) s = exec (.domainWrite m v) s
          ∧ exec (.managementWrite m 0x80 (sent 8 v)) s = exec (.hostordWrite m v) s
          ∧ exec (.managementWrite m 0x3000 (natBytes 4 n.toNat)) s = exec (.powerCapWrite m n) s
          ∧ exec (.managementWrite m 0x3020 (sent 8 v)) s = exec (.fwaddrWrite m v) s)
        ∧ (∀ off data, writeShape off data.length = true →
          let end_ := off + data.length
          (0x1000 ≤ off → off < 0x2000 →
            exec (.managementWrite m off data) s = exec (.contextDescriptorWrite m off data) s)
          ∧ (0x2000 ≤ off → off < 0x2100 → exec (.managementWrite m off data) s = exec (.partitionRecordWrite m off data) s)
          ∧ (0x2100 ≤ off → off < 0x2300 → exec (.managementWrite m off data) s = exec (.poolDecoderWrite m off data) s)
          ∧ (off < 0x40 → data.length ≠ 8 → off < 0x08 ∨ 0x10 ≤ off → writes off data (p.raise 0x18 m))
          ∧ ((0x48 ≤ off ∧ end_ ≤ 0x58) ∨ (0x60 ≤ off ∧ end_ ≤ 0x80) → p.command.extractLsb' 16 16 = 0#16 →
            writes off data { p with command := setBytes p.command (off - 0x40) data })
          ∧ ((0x44 ≤ off ∧ end_ ≤ 0x48) ∨ (0x58 ≤ off ∧ end_ ≤ 0x60) → writes off data p)
          ∧ ((0x3004 ≤ off ∧ end_ ≤ 0x3020) ∨ (0x302C ≤ off ∧ end_ ≤ 0x3100) ∨ (0x31C0 ≤ off ∧ end_ ≤ 0x3200) →
            writes off data (p.raise 0x15 0))
          ∧ ((0x4000 ≤ off ∧ end_ ≤ 0x11000) → writes off data (p.raise 0x18 m))
          ∧ (0x11020 ≤ off → end_ ≤ 0x11040 → p.attState ≠ 1#2 →
            writes off data { p with attNonce := setBytes p.attNonce (off - 0x11020) data }))
        ∧ ∀ (k : Nat) (v : BitVec 32), k < 48 →
          writes (0x3100 + 4 * k) (natBytes 4 v.toNat) { p with weights := p.weights.setIfInBounds k (v.setWidth 16) }))
    ∧ (up → ∀ v : Word, v.extractLsb' 33 31 = 0#31 →
      (p.attState = 1#2 → makes (.attestationRequest m v) p)
      ∧ (p.attState ≠ 1#2 → makes (.attestationRequest m v) (if v.getLsbD 32 then
          { p with
            attRequest := v
            attMaster := BitVec.ofNat 8 m
            attState := if fieldNat v 0 32 = 0xFFFFFFFF ∨ (fieldNat v 0 32 < 64 ∧ (p.ctx (fieldNat v 0 32)).valid = true)
              then 1#2 else 3#2 }
        else { p with attRequest := v })))
    ∧ (p.attState ≠ 1#2 → exec .attestationReportReady s = .next s)
    ∧ (p.attState = 1#2 → ∃ u, exec .attestationReportReady s = .next u ∧ u.pkg.attState = 2#2 ∧ u.fresh = s.fresh + 1
      ∧ ∀ i, i < p.reportHead.length → u.pkg.attReport.read i = p.reportHead.getD i 0#8)

/-! ### Power, firmware, ports -/

/-- The power block and the ports (R422, R423, R425 to R429, R437 to R440, R442 to R444): caps and clocks, heat, firmware and
the reset of the package, training, failures, flits and the rules of acknowledgement. The model's own choices or readings here are
that the machine stops without power (log 2), one step of all clocks per window and whole watts (log 29), that a misaligned fwaddr
is a malformed image (log 57), that numbers begin at 0 with training, that an acknowledgement names a flit that is held and that no
width is left below x2 (log 60), that a die's window ends at the first event after 128 of its cycles (log 93), that a halt keeps a
core from what its clock would pass (log 84), and that event 0x15 has subject 0 (log 111). What stays in
memory without power is the model's choice and not stated here. -/
def Obligations.PowerAndPorts : Prop :=
  ∀ (s : State) (m k lanes : Nat) (seq : BitVec 12) (fast wide : Bool),
    let p := s.pkg
    let makes := fun (i : Instr) (q : Package) => exec i s = .next { s with pkg := q }
    let l := p.link k
    let links := fun x : SlathenPort => ({ p with slathen := p.slathen.setIfInBounds k x } : Package)
    let pools := fun x : PoolPort => ({ p with poolPorts := p.poolPorts.setIfInBounds k x } : Package)
    let fails := fun (f : GOp → Bool) (o : GOp) => if f o then { o with lost := true } else o
    let down := fun (i : Instr) => ∃ u, exec i s = .next u
      ∧ u.pkg = (links { l with up := false, lanes := 0, held := [], waiting := [] }).raise 0x41 k
      ∧ u.core = { s.core with ops := s.core.ops.map (fails fun o => s.requesting o && p.carries k o) }
    let lawful := fun (q : Package) => (∀ c ∈ q.clocks, 10 ≤ c.toNat ∧ c.toNat ≤ 33)
      ∧ (∀ c ∈ q.partClocks, 10 ≤ c.toNat ∧ c.toNat ≤ 33) ∧ (∀ c ∈ q.bareClocks, 10 ≤ c.toNat ∧ c.toNat ≤ 33)
      ∧ ∀ c ∈ q.thermalClocks, 10 ≤ c.toNat ∧ c.toNat ≤ 33
    let picks := fun (i : Instr) (q : Package) => ∃ u, exec i s = .next u ∧ u.pkg = { q with bar4 := u.pkg.bar4 } ∧ u.core = s.core
      ∧ (30 ≤ q.bar4offered.toNat → 30 ≤ u.pkg.bar4.toNat ∧ u.pkg.bar4.toNat ≤ q.bar4offered.toNat)
    let staged := (List.range p.fwlen.toNat).map fun i => (s.lookHome (p.fwaddr.toNat + i) 1 0#6).1.headD 0#8
    let verifies := fun (r : FirmwareResult) (stat : BitVec 32) (flash : Option (BitVec 256)) =>
      (∃ u, exec (.firmwareVerifyComplete r) s = .next u ∧ u.pkg.fwstat = stat ∧ u.pkg.fwFlash = flash ∧ u.core.x = s.core.x)
      ∧ (p.hostLines = [] → (∀ a, p.fwaddr.toNat ≤ a → a < p.fwaddr.toNat + p.fwlen.toNat → p.reach a ≠ .undecoded) →
        makes (.firmwareVerifyComplete r) { p with fwstat := stat, fwFlash := flash })
    (p.masterUp m = true → p.owns m = true →
      (∀ w, makes (.powerCapWrite m w) { p with cap := w, capDue := true })
      ∧ (∀ a, makes (.fwaddrWrite m a) (if p.fwstat = 1#32 then p.raise 0x15 0 else { p with fwaddr := a, fwstat := 1#32 })))
    ∧ (p.capDue = false → makes .capResolve p)
    ∧ (p.capDue = true → let c := max 310 (min 2400 p.cap.toNat)
      ∃ u, exec .capResolve s = .next u ∧ u.pkg.capDue = false ∧ u.pkg.effcap.toNat = c ∧ u.core = s.core
        ∧ (u.pkg.clamped = true ↔ p.cap.toNat < 310) ∧ (u.pkg.scaled = true ↔ c < p.floorSum)
        ∧ ∀ j, j < 16 → partDefined (p.partition j) = true → u.pkg.floors.getD j 0
          = if c < p.floorSum then partFloor (p.partition j) * c / p.floorSum else partFloor (p.partition j))
    ∧ (let n := s.passTime p.halted
      let lasted := fun (q : Package) (d : Nat) => q.now - q.windowStart.getD d 0
      let ended := fun (q : Package) (d : Nat) => 0 < lasted q d ∧ 128 * q.period d ≤ lasted q d
      ((∀ d, d < 8 → ¬ended p d) → exec .activityWindow s = .next s)
      ∧ ((∃ d, d < 8 ∧ ended p d) → ∃ u, exec .activityWindow s = .next u ∧ u.pkg.now = n.pkg.now
        ∧ (∀ (d : Nat) (h : d < 8),
          (ended n.pkg d → u.pkg.weightsUsed[d] = n.pkg.weights ∧ u.pkg.windowStart[d] = n.pkg.now
            ∧ ∀ c ∈ u.cores, dieOf c.num = d → c.activity = Vector.replicate 48 0)
          ∧ (¬ended n.pkg d → u.pkg.weightsUsed[d] = n.pkg.weightsUsed[d] ∧ u.pkg.windowStart[d] = n.pkg.windowStart[d]
            ∧ ∀ c ∈ n.cores, dieOf c.num = d → c ∈ u.cores))
        ∧ (∀ (k : Nat) (h : k < 128),
          let d := dieOf k
          let weight := fun e : Nat => ((n.pkg.weightsUsed.getD d (Vector.replicate 48 0#16)).getD e 0#16).toNat
          let energy := (match n.listed k with
            | some c => ((List.range 48).map fun e => weight e *
                if e ∈ [30, 31, 36, 37] then Config.hiddenCounts n.fresh k e else c.activity.getD e 0).foldl (· + ·) 0
            | none => weight 47 * (lasted n.pkg d / n.pkg.period d))
          u.pkg.draws[k] = if ended n.pkg d then
              (if n.pkg.enabled k then energy * (128 * Config.timeUnits) / lasted n.pkg d else 0)
            else n.pkg.draws[k])
        ∧ u.pkg.estimate = BitVec.ofNat 32 (310 + u.pkg.draws.toList.foldl (· + ·) 0 / 1280000)))
    ∧ (∃ u, exec .clockThrottleWindow s = .next u
      ∧ (s.core.strand.isSome = true → s.core.wait = none → s.heldBy p.halted = false → u.core = s.core)
      ∧ (lawful p → lawful u.pkg)
      ∧ ∀ (d : Nat) (h : d < 8),
        let now := p.clocks[d]
        let rise := p.estimate.toNat * 100 < p.effcap.toNat * 95
        let heated := p.hot.getLsbD d = true ∨ p.hot.getLsbD 8 = true ∨ p.hot.getLsbD 9 = true
        (u.pkg.clocks[d] = now ∨ (10 < now.toNat ∧ u.pkg.clocks[d] = now - 1#8) ∨ (now.toNat ≤ 10 ∧ u.pkg.clocks[d] = 10#8)
          ∨ (rise ∧ now.toNat < 33 ∧ u.pkg.clocks[d] = now + 1#8))
        ∧ (heated → 10 < now.toNat → u.pkg.clocks[d] = now - 1#8))
    ∧ (k < 10 → makes (.thermalLimit k) { p with hot := p.hot ||| (1#10 <<< k) })
    ∧ makes (.temperatureFallsBelowLimit k) { p with hot := p.hot &&& ~~~(1#10 <<< k) }
    ∧ (∃ u, exec .thermalShutdown s = .next u ∧ u.pkg.powered = false ∧ u.pkg.dieen = 0#10 ∧ u.pkg.hostPort.up = false
      ∧ ∀ c ∈ u.cores, c.strand = none)
    ∧ (p.powered = false → s.schedule = [] → step s = .fault .powerRemoved)
    ∧ (∀ r, p.fwstat ≠ 1#32 → makes (.firmwareVerifyComplete r) p)
    ∧ (p.fwstat = 1#32 →
      (if p.fwaddr.toNat % 4096 = 0 then verifies .accepted 2#32 (some (sha3 staged)) else verifies .accepted 4#32 p.fwFlash)
      ∧ verifies .signatureRefused 3#32 p.fwFlash ∧ verifies .malformed 4#32 p.fwFlash)
    ∧ (∃ u, exec (.packageReset fast) s = .next u ∧ u.pkg.recovery = !fast ∧ u.pkg.coreen = p.coreen ∧ u.pkg.powered = true
      ∧ (fast = true → u.pkg.fwRunning = p.fwFlash) ∧ u.pkg.fwFlash = p.fwFlash ∧ ∀ c ∈ u.cores, c.strand = none)
    ∧ (p.powered = true → lanes = 16 ∨ lanes = 8 ∨ lanes = 4 →
      (picks (.hostPortTraining wide lanes true) { p with hostPort := ⟨true, wide, lanes, !p.recovery⟩ })
      ∧ picks (.hostPortTraining wide lanes false) (Package.raise { p with hostPort := ⟨true, wide, lanes, false⟩ } 0x21 0)
      ∧ makes (.poolPortTraining k wide lanes) (pools ⟨true, wide, lanes⟩))
    ∧ picks .hostPortConventionalReset { p with bar4offered := p.bar4size }
    ∧ ((p.pool k).up = true →
      (∃ u, exec (.poolPortDown k) s = .next u ∧ u.pkg = (pools { p.pool k with up := false, lanes := 0 }).raise 0x32 k
        ∧ u.core = { s.core with ops := s.core.ops.map (fails fun o =>
            s.requesting o && decide (paHome o.pa = 0 ∧ p.poolPort o.pa = some k)) })
      ∧ (lanes = 16 ∨ lanes = 8 ∨ lanes = 4 → lanes < (p.pool k).lanes →
        makes (.poolPortNarrowed k lanes) ((pools { p.pool k with lanes := lanes }).raise 0x33 k)))
    ∧ (p.powered = true → makes (.slathenPortTraining k fast) (links ⟨true, true, 8, fast, 0#12, [], [], 0#12, 0, l.carried, l.sent⟩))
    ∧ (l.up = true →
      makes (.slathenFlitReceive k l.expect true)
        (links { l with
          expect := l.expect + 1#12, accepted := l.accepted + 1, carried := l.carried + 1, sent := l.sent ++ [.ack l.expect] })
      ∧ makes (.slathenFlitReceive k seq false) (links { l with sent := l.sent ++ [.nak l.expect] })
      ∧ (seq ≠ l.expect → makes (.slathenFlitReceive k seq true)
        (if 2048 ≤ (seq - l.expect).toNat then links l else links { l with sent := l.sent ++ [.nak l.expect] }))
      ∧ (∀ before f after, l.held = before ++ f :: after → (∀ g ∈ before, g.seq ≠ f.seq) →
        makes (.slathenNakReceive k f.seq) (links { l with sent := l.sent ++ (f :: after).map fun g => .data g (l.expect - 1#12) })
        ∧ (l.waiting = [] → makes (.slathenAckReceive k f.seq) (links { l with held := after }))
        ∧ ∀ x, l.waiting = [x] → after.length < 1024 →
          let next : Flit := ⟨l.next, x⟩
          makes (.slathenAckReceive k f.seq) (links { l with
            next := l.next + 1#12, held := after ++ [next], waiting := [], sent := l.sent ++ [.data next (l.expect - 1#12)] }))
      ∧ ((∀ g ∈ l.held, g.seq ≠ seq) →
        makes (.slathenNakReceive k seq) (links l) ∧ makes (.slathenAckReceive k seq) (links l))
      ∧ (2 < l.lanes → makes (.slathenLaneFailure k)
        ((links { l with lanes := l.lanes / 2, sent := l.sent ++ l.held.map fun g => .data g (l.expect - 1#12) }).raise 0x40 k))
      ∧ down (.slathenLinkDown k) ∧ (l.lanes ≤ 2 → down (.slathenLaneFailure k))
      ∧ ∀ (x : Transaction) (pa : Nat),
        (1024 ≤ l.held.length → l.send x = { l with waiting := l.waiting ++ [x] })
        ∧ (l.held.length < 1024 → l.send x = { l with
          next := l.next + 1#12, held := l.held ++ [⟨l.next, x⟩], sent := l.sent ++ [.data ⟨l.next, x⟩ (l.expect - 1#12)] })
        ∧ (p.requestLink pa = some k → p.request pa = links (l.send (.request pa))))
    ∧ ∀ (place : Nat) (x : SlathenSend) (f : Flit) (e : BitVec 12),
      (x.bytes k place).length = 256 ∧ leNat (((x.bytes k place).drop 2).take 2) < 4096
      ∧ leNat (((SlathenSend.data f e).bytes k place).take 2) = f.seq.toNat + 0x1000
      ∧ leNat ((((SlathenSend.data f e).bytes k place).drop 2).take 2) = e.toNat
      ∧ leNat (((SlathenSend.nak e).bytes k place).take 2) = e.toNat + 0x2000
      ∧ leNat ((((SlathenSend.ack e).bytes k place).take 2)) / 0x1000 = 0
      ∧ leNat ((((SlathenSend.ack e).bytes k place).drop 2).take 2) = e.toNat

/-! ### The machine -/

/-- Nothing stops the machine while its dies have power: an instruction or an event answers a next state in every state.
LOOP (R113) and PHASE (R264, R265) go where they transfer to, or on; SYSC (R402), BKPT (R408) and a pending trap in user mode
(R386 to R388) reach the handler; an access of the host, its write-back and its snoop response (R297, R298, R423), a
pre-emption (R391), the loss of a die (R20, R397) and an uncorrectable error (R395) leave the registers of the core in front,
or do what is said here. That a pre-emption takes all strands of a context in one step (log 53), and that one for a gang happens as
the scheduled event alone (log 54), are the model's own readings. -/
def Obligations.StepsComplete : Prop :=
  (∀ (i : Instr) (s : State), ∃ t, exec i s = .next t)
  ∧ ∀ (s v : State) (a : Reg) (off : BitVec 32) (entry : Word) (imm : BitVec 16) (p : Pending) (r : List Pending)
      (h : HostAccess) (line ctx die : Nat) (site : ErrorSite),
    let n := s.core.getX a
    let there := s.core.pc + off.signExtend 64 <<< 3
    let q := s.pkg
    (s.transfers [a] → n.toNat ≤ 1 ∨ codeAddress there → Completes (.loop a off) s fun t =>
      t.core.pc = (if n.toNat ≤ 1 then s.core.pc + 8#64 else there) ∧ t.core.issued = s.core.issued + 1 ∧ t.core.wait = none)
    ∧ (s.transfers [a] → s.PhaseTakes there n v entry → codeAddress entry → Completes (.phase a off) s fun t =>
      t.core.pc = entry ∧ t.core.issued = s.core.issued + 1 ∧ t.core.wait = none)
    ∧ (s.core.block = none → Completes (.sysc imm) s (AtHandler s (.plain 23#5 (0#48 ++ imm) 0#64 0#64)))
    ∧ (s.core.lane0 = true → Completes (.bkpt imm) s (AtHandler s (.plain 22#5 1#64 0#64 0#64)))
    ∧ (s.core.strand.isSome = true → s.core.super = false → s.core.wait = none → s.core.wfe = none → s.standsHalted = false →
      s.core.pending = p :: r → Completes (.trapEntry s.core.num) s fun t => AtHandler s p.trap t ∧ t.core.pending = r)
    ∧ Completes (.hostBar4Access h) s (fun t => t.core.x = s.core.x ∧ t.core.pc = s.core.pc ∧ t.schedule = s.schedule)
    ∧ Completes (.backInvalidateResponse line) s (fun t => t.core = s.core ∧ t.pkg.mem = q.mem ∧ t.pkg.hostLines = q.hostLines)
    ∧ Completes (.hostWriteback line) s (fun t =>
      t.pkg.hostCopy line = none ∧ t.core.x = s.core.x ∧ t.core.pc = s.core.pc ∧ t.schedule = s.schedule)
    ∧ Completes (.preemption ctx) s (fun t =>
      t = if s.coresOf ctx ≠ [] ∧ (s.askedOff ctx = true ∨ s.gangNeeds ctx = true) ∧ s.allUser ctx = true then s.takeOff ctx
        else s)
    ∧ Completes (.dieLoss die) s (fun t =>
      (die < 10 → q.dieServes die = true →
        (∀ c, c < 64 → (q.ctx c).touched.getLsbD die = true → (q.ctx c).hardware 4 = true) →
        t.pkg.dieen = q.dieen &&& ~~~(1#10 <<< die) ∧ t.pkg.dieServes die = false)
      ∧ (10 ≤ die ∨ q.dieServes die = false → t = s))
    ∧ Completes (.uncorrectableError site) s (fun t =>
      t.pkg.mem = q.mem ∧ t.core.x = s.core.x ∧ t.core.pc = s.core.pc ∧ t.schedule = s.schedule)

/-- A step runs the decoded instruction (R47, R48, R58, R60, R129, R388): the 8 bytes at the program counter of the core whose
issue is next, read through its translation, are decoded, and the step is exec of what they decode to; what does not decode
raises cause 1 or 2, and a pending trap comes first in user mode. That a schedule in the state says which core issues next is
the model's own choice (log 2). -/
def Obligations.StepRunsTheDecodedInstruction : Prop :=
  ∀ (s t u v : State) (n : Nat) (r : List Choice) (w : Word) (i : Instr) (pg : Page) (bs : List Byte) (e : Trap),
    s.schedule = .issue n :: r → t = ({ s with schedule := r } : State).focus n →
    (t.mayIssue = false → step s = .next { s with schedule := r })
    ∧ (t.mayIssue = true → u = (if t.core.wait.isSome then t.heldUntilNow else t) →
      (u.core.trapsFirst = true → step s = .next u.takePending)
      ∧ (u.core.trapsFirst = false →
        (u.fetch = (v, .ok w) →
          (decode w = .ok i → step s = exec i v)
          ∧ (decode w = .error .illegal → step s = .next (v.takeTrap (.plain 1#5 w 0#64 0#64)))
          ∧ (decode w = .error .reserved → step s = .next (v.takeTrap (.plain 2#5 w 0#64 0#64))))
        ∧ (u.fetch = (v, .error e) → step s = .next (v.takeTrap e))))
    ∧ (t.core.pc.extractLsb' 0 3 ≠ 0#3 → t.fetch = (t, .error (.plain 5#5 t.core.pc 0#64 0#64)))
    ∧ (t.core.pc.extractLsb' 0 3 = 0#3 → t.core.pc.getLsbD 63 = true →
      t.fetch = (t, .error (.plain 6#5 t.core.pc 0#64 0#64)))
    ∧ (t.core.pc.extractLsb' 0 3 = 0#3 → t.core.pc.getLsbD 63 = false →
      (t.translate t.core.ctx t.core.pc .fetch = (v, .error e) → t.fetch = (v, .error e))
      ∧ (t.translate t.core.ctx t.core.pc .fetch = (v, .ok pg) →
        let pa := pg.pa t.core.pc.toNat
        let x := (v.recall (pa / 64)).reachFor v.core.ctx pa
        (x.look pa 8 pg.key = (bs, false) → (∀ o ∈ x.pkg.stale, o.pa ≠ pa) → t.fetch = (x, .ok (BitVec.ofNat 64 (leNat bs))))
        ∧ (x.look pa 8 pg.key = (bs, true) → t.fetch = (x, .error (.plain 19#5 t.core.pc t.core.pc 0#64)))))

/-- Words that the specification writes out stand for the instructions that it gives them for (R65, R130, R239, R277). -/
def Obligations.DecodesTheSpecsWords : Prop :=
  decode 0x2428A30000000000#64 = .ok (.mul 5#6 5#6 6#6)
    ∧ decode 0x06286D0000000200#64 = .ok (.brc .bits 5#6 (.imm 3#6) 2#32)
    ∧ decode 0x4048400C00000100#64 = .ok (.ld .d 9#6 2#6 16#24)
    ∧ decode 0x2628A0C000000000#64 = .ok (.limmh 5#6 5#6 0x80000000#32)
    ∧ decode 0xE051660020004000#64 = .ok (.skupd false 32#20 10#6 11#6 12#6)
    ∧ decode 0x1A00000004000043#64 = .ok (.gbar (.imm 3#6))
    ∧ decode 0x1C00E00002000001#64 = .ok (.qdrop .c0 7#6)
    ∧ decode 0xC000C38020001400#64 = .ok (.aang false 10#20 6#6 7#6)
    ∧ decode 0xE800A00006000003#64 = .ok (.elapp (.rel .package) 5#6)
    ∧ decode 0x1E41420000000180#64 = .ok (.tlbinv .page 8#6 10#6 3#6)
    ∧ decode 0x6008418806000000#64 = .ok (.vfma .rne false (.reg 1#6) (.reg 2#6) (.reg 3#6) (.reg 4#6))
    ∧ decode 0x7028E40400000000#64 = .ok (.vlds (.reg 5#6) 7#6 (.reg 0#24 8#6))

/-- No bit of an encoding is dropped: what a well-formed instruction encodes to decodes to it. -/
def Obligations.DecodeOfEncode : Prop :=
  ∀ (i : Instr) (w : Word), i.wf = true → encode i = some w → decode w = .ok i

/-- Each word has one meaning: a word that decodes is the encoding of the well-formed instruction that it decodes to. -/
def Obligations.EncodeOfDecode : Prop :=
  ∀ (i : Instr) (w : Word), decode w = .ok i → i.wf = true ∧ encode i = some w

/-- Every step keeps the memory of the package in its canonical form. -/
def Obligations.MemoryStaysCanonical : Prop :=
  ∀ s t : State, s.pkg.mem.wf = true → step s = .next t → t.pkg.mem.wf = true

/-- What a package reset leaves (R11, R44, R297, R389, R423, R437): no strand runs, every die serves, the registers of the power
and firmware block and of the management window hold the values that their tables give, and the memories are in canonical
form. The values that the tables leave to the part are not stated. -/
def Obligations.ResetState : Prop :=
  let s := State.reset
  let c := s.core
  let p := s.pkg
  (∀ d ∈ s.cores, d.strand = none) ∧ p.dieen = 0x3FF#10
    ∧ p.mem.wf = true ∧ p.ring.wf = true ∧ p.errors.wf = true ∧ p.attReport.wf = true ∧ c.scratch.wf = true
    ∧ p.cap = 2400#32 ∧ p.effcap = 2400#32 ∧ p.powerStatus = 0 ∧ p.estimate = 0#32 ∧ (∀ d (h : d < 8), p.clocks[d] = 33#8)
    ∧ p.fwaddr = 0#64 ∧ p.fwlen = 0#32 ∧ p.fwstat = 0#32 ∧ p.bar4size = 45#6 ∧ p.hostord = 0#8
    ∧ c.trapcause = 0#64 ∧ c.trappc = 0#64 ∧ (∀ n (h : n < 4), c.trapinfo[n] = 0#64) ∧ c.step = false ∧ c.collect = false
end

