-- ==== Sys2Proof/Laws/State.lean ====
section
/-! SUPPORT. One lemma per field for the updates through which every meaning changes the state: none of them needs a record
update unfolded. -/

namespace Sys2Proof.Machine

/-! ### The state -/

@[simp] theorem State.mapCore_core (s : State) (g : Core → Core) : (s.mapCore g).core = g s.core := rfl
@[simp] theorem State.mapCore_parked (s : State) (g : Core → Core) : (s.mapCore g).parked = s.parked := rfl
@[simp] theorem State.mapCore_pkg (s : State) (g : Core → Core) : (s.mapCore g).pkg = s.pkg := rfl
@[simp] theorem State.mapCore_schedule (s : State) (g : Core → Core) : (s.mapCore g).schedule = s.schedule := rfl
@[simp] theorem State.mapCore_fresh (s : State) (g : Core → Core) : (s.mapCore g).fresh = s.fresh := rfl
@[simp] theorem State.mapPkg_core (s : State) (g : Package → Package) : (s.mapPkg g).core = s.core := rfl
@[simp] theorem State.mapPkg_parked (s : State) (g : Package → Package) : (s.mapPkg g).parked = s.parked := rfl
@[simp] theorem State.mapPkg_pkg (s : State) (g : Package → Package) : (s.mapPkg g).pkg = g s.pkg := rfl
@[simp] theorem State.mapPkg_schedule (s : State) (g : Package → Package) : (s.mapPkg g).schedule = s.schedule := rfl
@[simp] theorem State.mapPkg_fresh (s : State) (g : Package → Package) : (s.mapPkg g).fresh = s.fresh := rfl
@[simp] theorem State.mapCore_mapCore (s : State) (f g : Core → Core) : (s.mapCore f).mapCore g = s.mapCore fun c => g (f c) := rfl

/-! ### bump -/

@[simp] theorem Core.bump_num (c : Core) (e n : Nat) : (c.bump e n).num = c.num := rfl
@[simp] theorem Core.bump_strand (c : Core) (e n : Nat) : (c.bump e n).strand = c.strand := rfl
@[simp] theorem Core.bump_pc (c : Core) (e n : Nat) : (c.bump e n).pc = c.pc := rfl
@[simp] theorem Core.bump_cycle (c : Core) (e n : Nat) : (c.bump e n).cycle = c.cycle := rfl
@[simp] theorem Core.bump_meter (c : Core) (e n : Nat) : (c.bump e n).meter = c.meter := rfl
@[simp] theorem Core.bump_time (c : Core) (e n : Nat) : (c.bump e n).time = c.time := rfl
@[simp] theorem Core.bump_issued (c : Core) (e n : Nat) : (c.bump e n).issued = c.issued := rfl
@[simp] theorem Core.bump_x (c : Core) (e n : Nat) : (c.bump e n).x = c.x := rfl
@[simp] theorem Core.bump_v (c : Core) (e n : Nat) : (c.bump e n).v = c.v := rfl
@[simp] theorem Core.bump_p (c : Core) (e n : Nat) : (c.bump e n).p = c.p := rfl
@[simp] theorem Core.bump_vage (c : Core) (e n : Nat) : (c.bump e n).vage = c.vage := rfl
@[simp] theorem Core.bump_page (c : Core) (e n : Nat) : (c.bump e n).page = c.page := rfl
@[simp] theorem Core.bump_flight (c : Core) (e n : Nat) : (c.bump e n).flight = c.flight := rfl
@[simp] theorem Core.bump_landed (c : Core) (e n : Nat) : (c.bump e n).landed = c.landed := rfl
@[simp] theorem Core.bump_queues (c : Core) (e n : Nat) : (c.bump e n).queues = c.queues := rfl
@[simp] theorem Core.bump_ticket (c : Core) (e n : Nat) : (c.bump e n).ticket = c.ticket := rfl
@[simp] theorem Core.bump_buffer (c : Core) (e n : Nat) : (c.bump e n).buffer = c.buffer := rfl
@[simp] theorem Core.bump_block (c : Core) (e n : Nat) : (c.bump e n).block = c.block := rfl
@[simp] theorem Core.bump_super (c : Core) (e n : Nat) : (c.bump e n).super = c.super := rfl
@[simp] theorem Core.bump_collect (c : Core) (e n : Nat) : (c.bump e n).collect = c.collect := rfl
@[simp] theorem Core.bump_pblkPred (c : Core) (e n : Nat) : (c.bump e n).pblkPred = c.pblkPred := rfl
@[simp] theorem Core.bump_pblkCount (c : Core) (e n : Nat) : (c.bump e n).pblkCount = c.pblkCount := rfl
@[simp] theorem Core.bump_pblkPat (c : Core) (e n : Nat) : (c.bump e n).pblkPat = c.pblkPat := rfl
@[simp] theorem Core.bump_vbase (c : Core) (e n : Nat) : (c.bump e n).vbase = c.vbase := rfl
@[simp] theorem Core.bump_pbase (c : Core) (e n : Nat) : (c.bump e n).pbase = c.pbase := rfl
@[simp] theorem Core.bump_vdepth (c : Core) (e n : Nat) : (c.bump e n).vdepth = c.vdepth := rfl
@[simp] theorem Core.bump_pdepth (c : Core) (e n : Nat) : (c.bump e n).pdepth = c.pdepth := rfl
@[simp] theorem Core.bump_tags (c : Core) (e n : Nat) : (c.bump e n).tags = c.tags := rfl
@[simp] theorem Core.bump_tagdrop (c : Core) (e n : Nat) : (c.bump e n).tagdrop = c.tagdrop := rfl
@[simp] theorem Core.bump_tagDiffers (c : Core) (e n : Nat) : (c.bump e n).tagDiffers = c.tagDiffers := rfl
@[simp] theorem Core.bump_tagMalformed (c : Core) (e n : Nat) : (c.bump e n).tagMalformed = c.tagMalformed := rfl
@[simp] theorem Core.bump_frame (c : Core) (e n : Nat) : (c.bump e n).frame = c.frame := rfl
@[simp] theorem Core.bump_strandReg (c : Core) (e n : Nat) : (c.bump e n).strandReg = c.strandReg := rfl
@[simp] theorem Core.bump_elbase (c : Core) (e n : Nat) : (c.bump e n).elbase = c.elbase := rfl
@[simp] theorem Core.bump_elcap (c : Core) (e n : Nat) : (c.bump e n).elcap = c.elcap := rfl
@[simp] theorem Core.bump_qfmt (c : Core) (e n : Nat) : (c.bump e n).qfmt = c.qfmt := rfl
@[simp] theorem Core.bump_pace (c : Core) (e n : Nat) : (c.bump e n).pace = c.pace := rfl
@[simp] theorem Core.bump_trapcause (c : Core) (e n : Nat) : (c.bump e n).trapcause = c.trapcause := rfl
@[simp] theorem Core.bump_trappc (c : Core) (e n : Nat) : (c.bump e n).trappc = c.trappc := rfl
@[simp] theorem Core.bump_trapinfo (c : Core) (e n : Nat) : (c.bump e n).trapinfo = c.trapinfo := rfl
@[simp] theorem Core.bump_trapvec (c : Core) (e n : Nat) : (c.bump e n).trapvec = c.trapvec := rfl
@[simp] theorem Core.bump_step (c : Core) (e n : Nat) : (c.bump e n).step = c.step := rfl
@[simp] theorem Core.bump_pending (c : Core) (e n : Nat) : (c.bump e n).pending = c.pending := rfl
@[simp] theorem Core.bump_taken (c : Core) (e n : Nat) : (c.bump e n).taken = c.taken := rfl
@[simp] theorem Core.bump_ops (c : Core) (e n : Nat) : (c.bump e n).ops = c.ops := rfl
@[simp] theorem Core.bump_lastLoad (c : Core) (e n : Nat) : (c.bump e n).lastLoad = c.lastLoad := rfl
@[simp] theorem Core.bump_wait (c : Core) (e n : Nat) : (c.bump e n).wait = c.wait := rfl
@[simp] theorem Core.bump_wfe (c : Core) (e n : Nat) : (c.bump e n).wfe = c.wfe := rfl
@[simp] theorem Core.bump_gbar (c : Core) (e n : Nat) : (c.bump e n).gbar = c.gbar := rfl
@[simp] theorem Core.bump_barwt (c : Core) (e n : Nat) : (c.bump e n).barwt = c.barwt := rfl
@[simp] theorem Core.bump_groups (c : Core) (e n : Nat) : (c.bump e n).groups = c.groups := rfl
@[simp] theorem Core.bump_joinDue (c : Core) (e n : Nat) : (c.bump e n).joinDue = c.joinDue := rfl
@[simp] theorem Core.bump_filled (c : Core) (e n : Nat) : (c.bump e n).filled = c.filled := rfl
@[simp] theorem Core.bump_l (c : Core) (e n : Nat) : (c.bump e n).l = c.l := rfl
@[simp] theorem Core.bump_c0 (c : Core) (e n : Nat) : (c.bump e n).c0 = c.c0 := rfl
@[simp] theorem Core.bump_c1 (c : Core) (e n : Nat) : (c.bump e n).c1 = c.c1 := rfl
@[simp] theorem Core.bump_k (c : Core) (e n : Nat) : (c.bump e n).k = c.k := rfl
@[simp] theorem Core.bump_nest0 (c : Core) (e n : Nat) : (c.bump e n).nest0 = c.nest0 := rfl
@[simp] theorem Core.bump_nest1 (c : Core) (e n : Nat) : (c.bump e n).nest1 = c.nest1 := rfl
@[simp] theorem Core.bump_wins (c : Core) (e n : Nat) : (c.bump e n).wins = c.wins := rfl
@[simp] theorem Core.bump_lat (c : Core) (e n : Nat) : (c.bump e n).lat = c.lat := rfl
@[simp] theorem Core.bump_stats (c : Core) (e n : Nat) : (c.bump e n).stats = c.stats := rfl
@[simp] theorem Core.bump_scratch (c : Core) (e n : Nat) : (c.bump e n).scratch = c.scratch := rfl
@[simp] theorem Core.bump_wrote (c : Core) (e n : Nat) : (c.bump e n).wrote = c.wrote := rfl
@[simp] theorem Core.bump_unseen (c : Core) (e n : Nat) : (c.bump e n).unseen = c.unseen := rfl
@[simp] theorem Core.bump_slots (c : Core) (e n : Nat) : (c.bump e n).slots = c.slots := rfl
@[simp] theorem Core.bump_opened (c : Core) (e n : Nat) : (c.bump e n).opened = c.opened := rfl
@[simp] theorem Core.bump_work (c : Core) (e n : Nat) : (c.bump e n).work = c.work := rfl
@[simp] theorem Core.bump_resident (c : Core) (e n : Nat) : (c.bump e n).resident = c.resident := rfl
@[simp] theorem Core.bump_served (c : Core) (e n : Nat) : (c.bump e n).served = c.served := rfl
@[simp] theorem Core.bump_poison (c : Core) (e n : Nat) : (c.bump e n).poison = c.poison := rfl
@[simp] theorem Core.bump_activity (c : Core) (e n : Nat) : (c.bump e n).activity = c.activity.setIfInBounds e (c.activity.getD e 0 + n) := rfl

/-! ### send -/

@[simp] theorem Core.send_num (c : Core) (n : Nat) (d : Landing) : (c.send n d).num = c.num := rfl
@[simp] theorem Core.send_strand (c : Core) (n : Nat) (d : Landing) : (c.send n d).strand = c.strand := rfl
@[simp] theorem Core.send_pc (c : Core) (n : Nat) (d : Landing) : (c.send n d).pc = c.pc := rfl
@[simp] theorem Core.send_cycle (c : Core) (n : Nat) (d : Landing) : (c.send n d).cycle = c.cycle := rfl
@[simp] theorem Core.send_meter (c : Core) (n : Nat) (d : Landing) : (c.send n d).meter = c.meter := rfl
@[simp] theorem Core.send_time (c : Core) (n : Nat) (d : Landing) : (c.send n d).time = c.time := rfl
@[simp] theorem Core.send_issued (c : Core) (n : Nat) (d : Landing) : (c.send n d).issued = c.issued := rfl
@[simp] theorem Core.send_x (c : Core) (n : Nat) (d : Landing) : (c.send n d).x = c.x := rfl
@[simp] theorem Core.send_v (c : Core) (n : Nat) (d : Landing) : (c.send n d).v = c.v := rfl
@[simp] theorem Core.send_p (c : Core) (n : Nat) (d : Landing) : (c.send n d).p = c.p := rfl
@[simp] theorem Core.send_vage (c : Core) (n : Nat) (d : Landing) : (c.send n d).vage = c.vage := rfl
@[simp] theorem Core.send_page (c : Core) (n : Nat) (d : Landing) : (c.send n d).page = c.page := rfl
@[simp] theorem Core.send_flight (c : Core) (n : Nat) (d : Landing) : (c.send n d).flight = c.flight ++ [⟨c.cycle + n, c.issued, d⟩] := rfl
@[simp] theorem Core.send_landed (c : Core) (n : Nat) (d : Landing) : (c.send n d).landed = c.landed := rfl
@[simp] theorem Core.send_queues (c : Core) (n : Nat) (d : Landing) : (c.send n d).queues = c.queues := rfl
@[simp] theorem Core.send_ticket (c : Core) (n : Nat) (d : Landing) : (c.send n d).ticket = c.ticket := rfl
@[simp] theorem Core.send_buffer (c : Core) (n : Nat) (d : Landing) : (c.send n d).buffer = c.buffer := rfl
@[simp] theorem Core.send_block (c : Core) (n : Nat) (d : Landing) : (c.send n d).block = c.block := rfl
@[simp] theorem Core.send_super (c : Core) (n : Nat) (d : Landing) : (c.send n d).super = c.super := rfl
@[simp] theorem Core.send_collect (c : Core) (n : Nat) (d : Landing) : (c.send n d).collect = c.collect := rfl
@[simp] theorem Core.send_pblkPred (c : Core) (n : Nat) (d : Landing) : (c.send n d).pblkPred = c.pblkPred := rfl
@[simp] theorem Core.send_pblkCount (c : Core) (n : Nat) (d : Landing) : (c.send n d).pblkCount = c.pblkCount := rfl
@[simp] theorem Core.send_pblkPat (c : Core) (n : Nat) (d : Landing) : (c.send n d).pblkPat = c.pblkPat := rfl
@[simp] theorem Core.send_vbase (c : Core) (n : Nat) (d : Landing) : (c.send n d).vbase = c.vbase := rfl
@[simp] theorem Core.send_pbase (c : Core) (n : Nat) (d : Landing) : (c.send n d).pbase = c.pbase := rfl
@[simp] theorem Core.send_vdepth (c : Core) (n : Nat) (d : Landing) : (c.send n d).vdepth = c.vdepth := rfl
@[simp] theorem Core.send_pdepth (c : Core) (n : Nat) (d : Landing) : (c.send n d).pdepth = c.pdepth := rfl
@[simp] theorem Core.send_tags (c : Core) (n : Nat) (d : Landing) : (c.send n d).tags = c.tags := rfl
@[simp] theorem Core.send_tagdrop (c : Core) (n : Nat) (d : Landing) : (c.send n d).tagdrop = c.tagdrop := rfl
@[simp] theorem Core.send_tagDiffers (c : Core) (n : Nat) (d : Landing) : (c.send n d).tagDiffers = c.tagDiffers := rfl
@[simp] theorem Core.send_tagMalformed (c : Core) (n : Nat) (d : Landing) : (c.send n d).tagMalformed = c.tagMalformed := rfl
@[simp] theorem Core.send_frame (c : Core) (n : Nat) (d : Landing) : (c.send n d).frame = c.frame := rfl
@[simp] theorem Core.send_strandReg (c : Core) (n : Nat) (d : Landing) : (c.send n d).strandReg = c.strandReg := rfl
@[simp] theorem Core.send_elbase (c : Core) (n : Nat) (d : Landing) : (c.send n d).elbase = c.elbase := rfl
@[simp] theorem Core.send_elcap (c : Core) (n : Nat) (d : Landing) : (c.send n d).elcap = c.elcap := rfl
@[simp] theorem Core.send_qfmt (c : Core) (n : Nat) (d : Landing) : (c.send n d).qfmt = c.qfmt := rfl
@[simp] theorem Core.send_pace (c : Core) (n : Nat) (d : Landing) : (c.send n d).pace = c.pace := rfl
@[simp] theorem Core.send_trapcause (c : Core) (n : Nat) (d : Landing) : (c.send n d).trapcause = c.trapcause := rfl
@[simp] theorem Core.send_trappc (c : Core) (n : Nat) (d : Landing) : (c.send n d).trappc = c.trappc := rfl
@[simp] theorem Core.send_trapinfo (c : Core) (n : Nat) (d : Landing) : (c.send n d).trapinfo = c.trapinfo := rfl
@[simp] theorem Core.send_trapvec (c : Core) (n : Nat) (d : Landing) : (c.send n d).trapvec = c.trapvec := rfl
@[simp] theorem Core.send_step (c : Core) (n : Nat) (d : Landing) : (c.send n d).step = c.step := rfl
@[simp] theorem Core.send_pending (c : Core) (n : Nat) (d : Landing) : (c.send n d).pending = c.pending := rfl
@[simp] theorem Core.send_taken (c : Core) (n : Nat) (d : Landing) : (c.send n d).taken = c.taken := rfl
@[simp] theorem Core.send_ops (c : Core) (n : Nat) (d : Landing) : (c.send n d).ops = c.ops := rfl
@[simp] theorem Core.send_lastLoad (c : Core) (n : Nat) (d : Landing) : (c.send n d).lastLoad = c.lastLoad := rfl
@[simp] theorem Core.send_wait (c : Core) (n : Nat) (d : Landing) : (c.send n d).wait = c.wait := rfl
@[simp] theorem Core.send_wfe (c : Core) (n : Nat) (d : Landing) : (c.send n d).wfe = c.wfe := rfl
@[simp] theorem Core.send_gbar (c : Core) (n : Nat) (d : Landing) : (c.send n d).gbar = c.gbar := rfl
@[simp] theorem Core.send_barwt (c : Core) (n : Nat) (d : Landing) : (c.send n d).barwt = c.barwt := rfl
@[simp] theorem Core.send_groups (c : Core) (n : Nat) (d : Landing) : (c.send n d).groups = c.groups := rfl
@[simp] theorem Core.send_joinDue (c : Core) (n : Nat) (d : Landing) : (c.send n d).joinDue = c.joinDue := rfl
@[simp] theorem Core.send_filled (c : Core) (n : Nat) (d : Landing) : (c.send n d).filled = c.filled := rfl
@[simp] theorem Core.send_l (c : Core) (n : Nat) (d : Landing) : (c.send n d).l = c.l := rfl
@[simp] theorem Core.send_c0 (c : Core) (n : Nat) (d : Landing) : (c.send n d).c0 = c.c0 := rfl
@[simp] theorem Core.send_c1 (c : Core) (n : Nat) (d : Landing) : (c.send n d).c1 = c.c1 := rfl
@[simp] theorem Core.send_k (c : Core) (n : Nat) (d : Landing) : (c.send n d).k = c.k := rfl
@[simp] theorem Core.send_nest0 (c : Core) (n : Nat) (d : Landing) : (c.send n d).nest0 = c.nest0 := rfl
@[simp] theorem Core.send_nest1 (c : Core) (n : Nat) (d : Landing) : (c.send n d).nest1 = c.nest1 := rfl
@[simp] theorem Core.send_wins (c : Core) (n : Nat) (d : Landing) : (c.send n d).wins = c.wins := rfl
@[simp] theorem Core.send_lat (c : Core) (n : Nat) (d : Landing) : (c.send n d).lat = c.lat := rfl
@[simp] theorem Core.send_stats (c : Core) (n : Nat) (d : Landing) : (c.send n d).stats = c.stats := rfl
@[simp] theorem Core.send_scratch (c : Core) (n : Nat) (d : Landing) : (c.send n d).scratch = c.scratch := rfl
@[simp] theorem Core.send_wrote (c : Core) (n : Nat) (d : Landing) : (c.send n d).wrote = c.wrote := rfl
@[simp] theorem Core.send_unseen (c : Core) (n : Nat) (d : Landing) : (c.send n d).unseen = c.unseen := rfl
@[simp] theorem Core.send_slots (c : Core) (n : Nat) (d : Landing) : (c.send n d).slots = c.slots := rfl
@[simp] theorem Core.send_opened (c : Core) (n : Nat) (d : Landing) : (c.send n d).opened = c.opened := rfl
@[simp] theorem Core.send_work (c : Core) (n : Nat) (d : Landing) : (c.send n d).work = c.work := rfl
@[simp] theorem Core.send_resident (c : Core) (n : Nat) (d : Landing) : (c.send n d).resident = c.resident := rfl
@[simp] theorem Core.send_served (c : Core) (n : Nat) (d : Landing) : (c.send n d).served = c.served := rfl
@[simp] theorem Core.send_poison (c : Core) (n : Nat) (d : Landing) : (c.send n d).poison = c.poison := rfl
@[simp] theorem Core.send_activity (c : Core) (n : Nat) (d : Landing) : (c.send n d).activity = c.activity := rfl

/-! ### A scalar destination -/

@[simp] theorem Core.putX_eq (c : Core) (r : Reg) (n : Nat) (v : Word) : c.putX r n v = c.send n (.x r v) := rfl

theorem Core.getX_zero (c : Core) : c.getX 0#6 = 0#64 := rfl

theorem Core.getX_congr {c d : Core} (h : c.x = d.x) (r : Reg) : c.getX r = d.getX r := by simp [Core.getX, h]

end Sys2Proof.Machine
end

