-- ==== Sys2Proof/Laws/Cycles.lean ====
section
/-! SUPPORT. What the passing of cycles changes (R22, R23): everything that `tick` and `advance` can do, and where a scalar write
in flight lands. -/

namespace Sys2Proof.Machine

/-! ### What a landing changes -/

/-- The core with what landings write taken from another: registers, ages, queues, poison and system registers. -/
def Core.landedFrom (c d : Core) : Core :=
  { c with
    x := d.x, v := d.v, p := d.p, vage := d.vage, page := d.page, queues := d.queues, poison := d.poison
    pblkPred := d.pblkPred, pblkCount := d.pblkCount, pblkPat := d.pblkPat, vbase := d.vbase, pbase := d.pbase
    vdepth := d.vdepth, pdepth := d.pdepth, frame := d.frame, elbase := d.elbase, elcap := d.elcap, qfmt := d.qfmt
    pace := d.pace, trapcause := d.trapcause, trappc := d.trappc, trapinfo := d.trapinfo, trapvec := d.trapvec
    step := d.step, landed := d.landed }

theorem Core.land_frame (c : Core) (l : Landing) : c.land l = c.landedFrom (c.land l) := by
  cases l with
  | x r v => simp only [land, setX]; split <;> rfl
  | v slot mask img => rfl
  | p slot mask img => simp only [land, setP]; split <;> rfl
  | fill q t img => rfl
  | sys r v => cases r <;> rfl

theorem Core.landAll_frame (l : List InFlight) (c : Core) :
    l.foldl (fun d f => d.land f.dest) c = c.landedFrom (l.foldl (fun d f => d.land f.dest) c) := by
  induction l generalizing c with
  | nil => rfl
  | cons f r ih =>
    rw [List.foldl_cons, ih, Core.land_frame c]
    rfl

/-- Landing the writes that are due changes what landings write, and takes them out of flight. -/
theorem Core.landDue_frame (c : Core) :
    c.landDue = { c.landedFrom c.landDue with flight := c.flight.filter fun f => c.cycle < f.land } := by
  have h := Core.landAll_frame (c.flight.filter fun f => f.land ≤ c.cycle)
    { c with
      flight := c.flight.filter fun f => c.cycle < f.land
      landed := c.landed ++ c.flight.filter fun f => f.land ≤ c.cycle }
  simp only [Core.landDue]
  rw [h]
  rfl

/-- One cycle: landings, the clock and the package's time; nothing else. -/
theorem State.tick_frame (s : State) :
    s.tick = { s with
      core := { s.core.landedFrom s.tick.core with
        flight := s.core.flight.filter fun f => s.core.cycle + 1 < f.land
        cycle := s.core.cycle + 1, meter := s.tick.core.meter, time := s.tick.core.time }
      pkg := { s.pkg with now := s.tick.pkg.now } } := by
  simp only [State.tick]
  rw [Core.landDue_frame]
  rfl

/-- n cycles: what n ticks can change. -/
theorem State.advance_frame (n : Nat) (s : State) :
    s.advance n = { s with
      core := { s.core.landedFrom (s.advance n).core with
        flight := (s.advance n).core.flight
        cycle := s.core.cycle + n, meter := (s.advance n).core.meter, time := (s.advance n).core.time }
      pkg := { s.pkg with now := (s.advance n).pkg.now } } := by
  induction n generalizing s with
  | zero => rfl
  | succ n ih =>
    simp only [State.advance]
    rw [ih s.tick]
    rw [State.tick_frame s]
    simp only [Core.landedFrom, Nat.add_assoc, Nat.add_comm 1 n]

theorem State.advance_succ (s : State) (n : Nat) : s.advance (n + 1) = s.tick.advance n := rfl

theorem State.advance_tick (s : State) (n : Nat) : (s.advance n).tick = s.advance (n + 1) := by
  induction n generalizing s with
  | zero => rfl
  | succ n ih => rw [State.advance_succ, ih, ← State.advance_succ]

theorem State.advance_add (s : State) (m n : Nat) : (s.advance m).advance n = s.advance (m + n) := by
  induction m generalizing s with
  | zero => simp [State.advance]
  | succ m ih => rw [State.advance_succ, ih, Nat.succ_add, State.advance_succ]

/-! ### Fields that cycles leave alone -/

section
variable (s : State) (n : Nat)

@[simp] theorem State.advance_parked : (s.advance n).parked = s.parked := by rw [State.advance_frame]
@[simp] theorem State.advance_schedule : (s.advance n).schedule = s.schedule := by rw [State.advance_frame]
@[simp] theorem State.advance_fresh : (s.advance n).fresh = s.fresh := by rw [State.advance_frame]
@[simp] theorem State.advance_cycle : (s.advance n).core.cycle = s.core.cycle + n := by rw [State.advance_frame]
@[simp] theorem State.advance_pc : (s.advance n).core.pc = s.core.pc := by rw [State.advance_frame]; rfl
@[simp] theorem State.advance_num : (s.advance n).core.num = s.core.num := by rw [State.advance_frame]; rfl
@[simp] theorem State.advance_super : (s.advance n).core.super = s.core.super := by rw [State.advance_frame]; rfl
@[simp] theorem State.advance_block : (s.advance n).core.block = s.core.block := by rw [State.advance_frame]; rfl
@[simp] theorem State.advance_issued : (s.advance n).core.issued = s.core.issued := by rw [State.advance_frame]; rfl
@[simp] theorem State.advance_wait : (s.advance n).core.wait = s.core.wait := by rw [State.advance_frame]; rfl
@[simp] theorem State.advance_filled : (s.advance n).core.filled = s.core.filled := by rw [State.advance_frame]; rfl
@[simp] theorem State.advance_wfe : (s.advance n).core.wfe = s.core.wfe := by rw [State.advance_frame]; rfl
@[simp] theorem State.advance_gbar : (s.advance n).core.gbar = s.core.gbar := by rw [State.advance_frame]; rfl
@[simp] theorem State.advance_barwt : (s.advance n).core.barwt = s.core.barwt := by rw [State.advance_frame]; rfl
@[simp] theorem State.advance_joinDue : (s.advance n).core.joinDue = s.core.joinDue := by rw [State.advance_frame]; rfl
@[simp] theorem State.advance_pending : (s.advance n).core.pending = s.core.pending := by rw [State.advance_frame]; rfl
@[simp] theorem State.advance_ops : (s.advance n).core.ops = s.core.ops := by rw [State.advance_frame]; rfl
@[simp] theorem State.advance_work : (s.advance n).core.work = s.core.work := by rw [State.advance_frame]; rfl
@[simp] theorem State.advance_scratch : (s.advance n).core.scratch = s.core.scratch := by rw [State.advance_frame]; rfl
@[simp] theorem State.advance_l : (s.advance n).core.l = s.core.l := by rw [State.advance_frame]; rfl
@[simp] theorem State.advance_c0 : (s.advance n).core.c0 = s.core.c0 := by rw [State.advance_frame]; rfl
@[simp] theorem State.advance_c1 : (s.advance n).core.c1 = s.core.c1 := by rw [State.advance_frame]; rfl
@[simp] theorem State.advance_k : (s.advance n).core.k = s.core.k := by rw [State.advance_frame]; rfl
@[simp] theorem State.advance_mem : (s.advance n).pkg.mem = s.pkg.mem := by rw [State.advance_frame]

end

end Sys2Proof.Machine
end

