-- ==== Sys2Proof/Laws/Landing.lean ====
section
/-! SUPPORT. When a write of a scalar register lands (R22, R23): the registers of a core whose flight holds one more write
are those of the core without it until its cycle, and differ in its register alone from then on. -/

namespace Sys2Proof.Machine

/-- Scalar registers after one landing. -/
def landX (x : Vector Word 64) : Landing → Vector Word 64
  | .x r v => if r = 0#6 then x else x.set r.toNat v r.isLt
  | _ => x

theorem Core.land_x (c : Core) (l : Landing) : (c.land l).x = landX c.x l := by
  cases l with
  | x r v => simp only [land, setX, landX]; split <;> rfl
  | v slot mask img => rfl
  | p slot mask img => simp only [land, setP]; split <;> rfl
  | fill q t img => rfl
  | sys r v => cases r <;> rfl

theorem Core.landAll_x (l : List InFlight) (c : Core) :
    (l.foldl (fun d f => d.land f.dest) c).x = l.foldl (fun x f => landX x f.dest) c.x := by
  induction l generalizing c with
  | nil => rfl
  | cons f r ih => rw [List.foldl_cons, ih, Core.land_x]; rfl

theorem State.tick_x (s : State) :
    s.tick.core.x
      = (s.core.flight.filter fun f => f.land ≤ s.core.cycle + 1).foldl (fun x f => landX x f.dest) s.core.x := by
  simp only [State.tick, Core.landDue]
  rw [Core.landAll_x]

@[simp] theorem State.tick_flight (s : State) :
    s.tick.core.flight = s.core.flight.filter fun f => s.core.cycle + 1 < f.land := by rw [State.tick_frame]

@[simp] theorem State.tick_cycle (s : State) : s.tick.core.cycle = s.core.cycle + 1 := by rw [State.tick_frame]

/-- Registers that agree but for d. -/
def SameX (d : Reg) (x y : Vector Word 64) : Prop := ∀ r : Reg, r ≠ d → x[r.toNat]'r.isLt = y[r.toNat]'r.isLt

theorem SameX.land {d : Reg} {x y : Vector Word 64} (l : Landing) (h : SameX d x y) : SameX d (landX x l) (landX y l) := by
  intro r hr
  cases l <;> simp only [landX] <;> try exact h r hr
  split
  · exact h r hr
  · simp only [Vector.getElem_set]
    split
    · rfl
    · exact h r hr

theorem SameX.landAll {d : Reg} (l : List InFlight) {x y : Vector Word 64} (h : SameX d x y) :
    SameX d (l.foldl (fun x f => landX x f.dest) x) (l.foldl (fun x f => landX x f.dest) y) := by
  induction l generalizing x y with
  | nil => exact h
  | cons f r ih => exact ih (h.land f.dest)

/-- b is a with a write of d with v in flight, the last to be issued, that lands in cycle L. -/
def OneMore (d : Reg) (v : Word) (L : Nat) (a b : State) : Prop :=
  b.core.cycle = a.core.cycle ∧ b.core.x = a.core.x ∧ ∃ n, b.core.flight = a.core.flight ++ [⟨L, n, .x d v⟩]

/-- b is a but for register d. -/
def Landed (d : Reg) (a b : State) : Prop :=
  b.core.cycle = a.core.cycle ∧ SameX d b.core.x a.core.x ∧ b.core.flight = a.core.flight

section
variable {d : Reg} {v : Word} {L : Nat} {a b : State}

theorem OneMore.tick (h : OneMore d v L a b) (hl : a.core.cycle + 1 < L) : OneMore d v L a.tick b.tick := by
  obtain ⟨h1, h2, k, h3⟩ := h
  have hn : ¬ L ≤ a.core.cycle + 1 := by omega
  refine ⟨by simp [h1], ?_, k, ?_⟩
  · rw [State.tick_x, State.tick_x, h1, h2, h3]; simp [List.filter_append, hn]
  · rw [State.tick_flight, State.tick_flight, h1, h3]; simp [List.filter_append, hl]

theorem OneMore.lands (h : OneMore d v L a b) (hl : L = a.core.cycle + 1) :
    Landed d a.tick b.tick ∧ (d ≠ 0#6 → b.tick.core.getX d = v) := by
  obtain ⟨h1, h2, k, h3⟩ := h
  have key : b.tick.core.x = landX a.tick.core.x (.x d v) := by
    rw [State.tick_x, State.tick_x, h1, h2, h3, hl]; simp [List.filter_append, List.foldl_append]
  refine ⟨⟨by simp [h1], ?_, ?_⟩, ?_⟩
  · rw [key]
    intro r hr
    simp only [landX]
    split
    · rfl
    · rw [Vector.getElem_set_ne]
      exact fun h => hr (BitVec.eq_of_toNat_eq h.symm)
  · rw [State.tick_flight, State.tick_flight, h1, h3, hl]; simp [List.filter_append]
  · intro hd; simp [Core.getX, hd, key, landX]

theorem Landed.tick (h : Landed d a b) : Landed d a.tick b.tick := by
  obtain ⟨h1, h2, h3⟩ := h
  refine ⟨by simp [h1], ?_, by rw [State.tick_flight, State.tick_flight, h1, h3]⟩
  rw [State.tick_x, State.tick_x, h1, h3]
  exact h2.landAll _

theorem OneMore.advance (n : Nat) (h : OneMore d v L a b) (hl : a.core.cycle + n < L) :
    OneMore d v L (a.advance n) (b.advance n) := by
  induction n generalizing a b with
  | zero => exact h
  | succ n ih => exact ih (h.tick (by omega)) (by rw [State.tick_cycle]; omega)

theorem Landed.advance (n : Nat) (h : Landed d a b) : Landed d (a.advance n) (b.advance n) := by
  induction n generalizing a b with
  | zero => exact h
  | succ n ih => exact ih h.tick

/-- From the cycle of its landing on, the write shows in its register alone. -/
theorem OneMore.after (h : OneMore d v L a b) (hl : a.core.cycle < L) (n : Nat) (hn : L ≤ a.core.cycle + n) :
    Landed d (a.advance n) (b.advance n) := by
  obtain ⟨m, rfl⟩ : ∃ m, L = a.core.cycle + m + 1 := ⟨L - a.core.cycle - 1, by omega⟩
  obtain ⟨k, rfl⟩ : ∃ k, n = m + 1 + k := ⟨n - (m + 1), by omega⟩
  rw [← State.advance_add, ← State.advance_add b, ← State.advance_tick, ← State.advance_tick]
  exact ((h.advance m (by omega)).lands (by simp)).1.advance k

/-- In the cycle of its landing the register holds the value, whatever else lands then. -/
theorem OneMore.value (h : OneMore d v L a b) (hl : a.core.cycle < L) (hd : d ≠ 0#6) :
    (b.advance (L - a.core.cycle)).core.getX d = v := by
  obtain ⟨m, rfl⟩ : ∃ m, L = a.core.cycle + m + 1 := ⟨L - a.core.cycle - 1, by omega⟩
  rw [show a.core.cycle + m + 1 - a.core.cycle = m + 1 by omega, ← State.advance_tick]
  exact ((h.advance m (by omega)).lands (by simp)).2 hd

theorem Landed.getX (h : Landed d a b) (r : Reg) (hr : r ≠ d ∨ d = 0#6) : b.core.getX r = a.core.getX r := by
  by_cases h0 : r = 0#6
  · subst h0; rfl
  · have hd : r ≠ d := by
      rcases hr with h | h
      · exact h
      · exact fun e => h0 (e.trans h)
    simp only [Core.getX, h0, if_false]
    exact h.2.1 r hd

theorem OneMore.getX (h : OneMore d v L a b) (r : Reg) : b.core.getX r = a.core.getX r := Core.getX_congr h.2.1 r

end

end Sys2Proof.Machine
end

