-- ==== Sys2Proof/Laws/Issue.lean ====
section
/-! SUPPORT. How an issue ends: everything that `done`, `settle`, `issue` and `takeTrap` can do (R24, R28, R47, R386). -/

namespace Sys2Proof.Machine

/-- The core at the end of an issue from s, before cycles pass. -/
def Core.atEnd (c : Core) (s : State) (target : Option Word) : Core :=
  let c := { c with
    block := match s.core.block with
      | some b => b.next
      | none => c.block
    wait := none
    filled := []
    gbar := leaveBars s.core.super c.gbar
    joinDue := if s.core.super then c.joinDue else none
    barwt := c.barwt.filter fun r => r.super != s.core.super
    issued := c.issued + 1
    pc := target.getD (s.core.pc + 8#64) }
  let c := c.bump 0 1
  let c := if target.isSome then c.bump 1 1 else c
  if s.stepped then c.pend (debugTrap 2#64) else c

theorem State.done_eq (t s : State) (target : Option Word) (n : Nat) :
    t.done s target n = (t.mapCore fun c => c.atEnd s target).advance n := rfl

/-- An issue's end changes what every issue may change. -/
theorem Core.atEnd_frame (c : Core) (s : State) (target : Option Word) : c.atEnd s target = c.issuedAs (c.atEnd s target) := by
  unfold Core.atEnd
  cases s.stepped <;> cases target <;> rfl

section
variable (c : Core) (s : State) (target : Option Word)

@[simp] theorem Core.atEnd_pc : (c.atEnd s target).pc = target.getD (s.core.pc + 8#64) := by
  unfold Core.atEnd
  cases s.stepped <;> cases target <;> rfl

@[simp] theorem Core.atEnd_issued : (c.atEnd s target).issued = c.issued + 1 := by
  unfold Core.atEnd
  cases s.stepped <;> cases target <;> rfl

@[simp] theorem Core.atEnd_wait : (c.atEnd s target).wait = none := by
  unfold Core.atEnd
  cases s.stepped <;> cases target <;> rfl

@[simp] theorem Core.atEnd_filled : (c.atEnd s target).filled = [] := by
  unfold Core.atEnd
  cases s.stepped <;> cases target <;> rfl

@[simp] theorem Core.atEnd_gbar : (c.atEnd s target).gbar = leaveBars s.core.super c.gbar := by
  unfold Core.atEnd
  cases s.stepped <;> cases target <;> rfl

@[simp] theorem Core.atEnd_barwt : (c.atEnd s target).barwt = c.barwt.filter fun r => r.super != s.core.super := by
  unfold Core.atEnd
  cases s.stepped <;> cases target <;> rfl

@[simp] theorem Core.atEnd_joinDue : (c.atEnd s target).joinDue = if s.core.super then c.joinDue else none := by
  unfold Core.atEnd
  cases s.stepped <;> cases target <;> rfl

theorem Core.atEnd_block : (c.atEnd s target).block = match s.core.block with
    | some b => b.next
    | none => c.block := by
  unfold Core.atEnd
  cases s.stepped <;> cases target <;> rfl

theorem Core.atEnd_pending (h : s.stepped = false) :
    (c.atEnd s target).pending = c.pending ∧ (c.atEnd s target).wfe = c.wfe := by
  unfold Core.atEnd
  rw [h]
  cases target <;> exact ⟨rfl, rfl⟩

end

/-! ### Cycles after an issue -/

/-- b is a but for what every issue may change. -/
def Like (a b : Core) : Prop := b = a.issuedAs b

theorem Like.elim {a b : Core} (h : Like a b) : ∃ (pc : Word) (block : Option Block) (wait : Option Wait)
    (gbar : List GbarRec) (barwt : List BarwtRec) (joinDue : Option Word) (wfe : Option WfeRec) (issued : Nat)
    (pending : List Pending) (activity : Vector Nat 48) (filled : List (Nat × Nat)),
    b = { a with
      pc := pc, block := block, wait := wait, gbar := gbar, barwt := barwt, joinDue := joinDue, wfe := wfe, issued := issued, pending := pending
      activity := activity, filled := filled } :=
  ⟨_, _, _, _, _, _, _, _, _, _, _, h⟩

theorem Like.land {a b : Core} (h : Like a b) (l : Landing) : Like (a.land l) (b.land l) := by
  obtain ⟨pc, block, wait, gbar, barwt, joinDue, wfe, issued, pending, activity, filled, rfl⟩ := h.elim
  cases l with
  | x r v => simp only [Core.land, Core.setX]; split <;> rfl
  | v slot mask img => rfl
  | p slot mask img => simp only [Core.land, Core.setP]; split <;> rfl
  | fill q t img => rfl
  | sys r v => cases r <;> rfl

theorem Like.landAll {a b : Core} (l : List InFlight) (h : Like a b) :
    Like (l.foldl (fun d f => d.land f.dest) a) (l.foldl (fun d f => d.land f.dest) b) := by
  induction l generalizing a b with
  | nil => exact h
  | cons f r ih => exact ih (h.land f.dest)

theorem Like.tick {a b : State} (h : Like a.core b.core) (hp : b.pkg = a.pkg) :
    Like a.tick.core b.tick.core ∧ b.tick.pkg = a.tick.pkg := by
  obtain ⟨pc, block, wait, gbar, barwt, joinDue, wfe, issued, pending, activity, filled, hb⟩ := h.elim
  have hm : b.metered 1 = a.metered 1 := by simp only [State.metered, State.frozen, hp, hb]; rfl
  refine ⟨?_, by simp only [State.tick, hp, hb]⟩
  simp only [State.tick, Core.landDue, hm, hp]
  rw [hb]
  exact Like.landAll _ (by rw [Like]; rfl)

/-- Cycles pass over both alike. -/
theorem Like.advance (n : Nat) {a b : State} (h : Like a.core b.core) (hp : b.pkg = a.pkg) :
    Like (a.advance n).core (b.advance n).core ∧ (b.advance n).pkg = (a.advance n).pkg := by
  induction n generalizing a b with
  | zero => exact ⟨h, hp⟩
  | succ n ih => exact ih (h.tick hp).1 (h.tick hp).2

/-- Everything that the end of an issue can do. -/
theorem State.done_after (s u : State) (target : Option Word) (n : Nat) (hi : u.core.issued = s.core.issued) :
    After s u (target.getD (s.core.pc + 8#64)) n (u.done s target n) := by
  rw [State.done_eq]
  have hl : Like u.core (u.mapCore fun c => c.atEnd s target).core := Core.atEnd_frame u.core s target
  obtain ⟨h1, h2⟩ := hl.advance n (a := u) rfl
  refine ⟨by simp, by simp [hi], by simp, by simp, ?_, by simp, by simp, by simp, ?_, ?_, by simp, by simp, by simp, ?_, ⟨?_, ?_⟩, h1⟩
  · rw [State.advance_block, State.mapCore_core, Core.atEnd_block]
    cases s.core.block <;> rfl
  · intro h
    simpa using Core.atEnd_pending u.core s target h
  · intro h
    simp only [State.advance_pending, State.mapCore_core]
    unfold Core.atEnd
    rw [h]
    cases target <;> rfl
  · rw [State.advance_frame, h2]; rfl
  · intro key a
    rw [State.advance_frame]; rfl
  · intro o
    rw [State.advance_scratch, State.mapCore_core, Core.atEnd_frame]; rfl

/-- An instruction whose issue ends so goes on at the next word. -/
theorem goes_of {i : Instr} {s u : State} (hi : u.core.issued = s.core.issued) (h : exec i s = .next (u.done s none 1)) :
    Goes i s u :=
  ⟨_, h, State.done_after s u none 1 hi⟩

theorem issues_of {i : Instr} {s u : State} {t : Word} {n : Nat} (hi : u.core.issued = s.core.issued)
    (h : exec i s = .next (u.done s (some t) n)) : Issues i s u t n :=
  ⟨_, h, State.done_after s u (some t) n hi⟩

/-- Activity counts play no part. -/
theorem After.congr {s u v : State} {pc : Word} {n : Nat} {t : State} (h : After s u pc n t) (hl : Like v.core u.core)
    (hr : u = { v with core := u.core }) (hb : u.core.block = v.core.block) (hg : u.core.gbar = v.core.gbar)
    (hb' : u.core.barwt = v.core.barwt) (hj : u.core.joinDue = v.core.joinDue)
    (hw : u.core.wfe = v.core.wfe) (hp : u.core.pending = v.core.pending) : After s v pc n t := by
  obtain ⟨h1, h2, h3, h3a, h4, h5, h5a, h5b, h6, h7, h8, h9, h10, h11, h12, h13⟩ := h
  have hpk : u.pkg = v.pkg := by rw [hr]
  obtain ⟨k1, k2⟩ := hl.advance n (a := v) hpk
  refine ⟨h1, h2, h3, h3a, hb ▸ h4, hg ▸ h5, hb' ▸ h5a, hj ▸ h5b, hw ▸ hp ▸ h6, hp ▸ h7, ?_, ?_, ?_, ?_, ⟨?_, ?_⟩, ?_⟩
  · rw [h8, hr]
  · rw [h9, hr]
  · rw [h10, hr]
  · rw [h11, hpk, k2]
  · intro key a; rw [h12.1, hpk]
  · intro o; rw [h12.2, hl]; rfl
  · rw [h13, k1]; rfl

/-! ### The checks at an issue -/

/-- Registers other than x0 that hold no poison are consumed. -/
theorem Core.useX_any {c : Core} {rs : List Reg} (h : ∀ r ∈ rs, r ≠ 0#6 → Granule.x r ∉ c.poison) : c.useX rs = .ok () := by
  have : (rs.any fun r => r != 0#6 && c.poison.contains (.x r)) = false := by
    simp only [List.any_eq_false, Bool.and_eq_true, bne_iff_ne, List.contains_iff_mem]
    exact fun r hr k => h r hr k.1 k.2
  rw [Core.useX, this]
  rfl

theorem Core.useX_ok {c : Core} {rs : List Reg} (h : ∀ r ∈ rs, Granule.x r ∉ c.poison) : c.useX rs = .ok () :=
  Core.useX_any fun r hr _ => h r hr

theorem issue_ok {s : State} (h : s.core.lane0 = true) (body : State → Res State) : issue s body = s.settle (body s) := by
  simp [issue, h]

/-- An instruction that a closed lane 0 covers ends its issue and does nothing (R62). -/
theorem issue_skips {s : State} (h : s.core.lane0 = false) (body : State → Res State) :
    issue s body = .next (s.done s none 1) := by
  simp [issue, h]

theorem issueTransfer_ok {s : State} (i : Instr) (h : s.core.block = none)
    (body : State → Res (State × Option Word × Nat)) : issueTransfer i s body = s.settleTo (body s) := by
  simp [issueTransfer, h]

/-- A transfer that a block covers raises cause 4 (R63). -/
theorem issueTransfer_covered {s : State} (i : Instr) (h : s.core.block.isSome = true)
    (body : State → Res (State × Option Word × Nat)) :
    issueTransfer i s body = .next (s.takeTrap (trapW i 4#5 0#64)) := by
  simp [issueTransfer, h]

theorem checkTarget_ok {t : Word} (h : codeAddress t) : checkTarget t = .ok () := by
  obtain ⟨h1, h2, h3⟩ := h
  unfold checkTarget
  rw [if_neg (fun h => h h1), h2, if_neg (by decide), if_neg (fun h => h h3)]

end Sys2Proof.Machine
end

