-- ==== Sys2Proof/Laws/Memory.lean ====
section
/-! SUPPORT. Memory in canonical form: every operation over a memory keeps the form, and a read after a write gives the byte
written at its address and the byte that stood everywhere else. -/

namespace Sys2Proof.Machine

/-! ### The canonical form -/

/-- Addresses strictly rising, no zero byte listed. -/
def CellsForm (l : List Host.Cell) : Prop := l.Pairwise (fun c d => c.1 < d.1) ∧ ∀ c ∈ l, c.2 ≠ 0#8

theorem CellsForm.tail {c : Host.Cell} {r : List Host.Cell} (h : CellsForm (c :: r)) : CellsForm r :=
  ⟨(List.pairwise_cons.mp h.1).2, fun d hd => h.2 d (List.mem_cons_of_mem _ hd)⟩

theorem CellsForm.head {c : Host.Cell} {r : List Host.Cell} (h : CellsForm (c :: r)) : ∀ d ∈ r, c.1 < d.1 :=
  (List.pairwise_cons.mp h.1).1

theorem CellsForm.cons {c : Host.Cell} {r : List Host.Cell} (h : CellsForm r) (hc : c.2 ≠ 0#8) (hr : ∀ d ∈ r, c.1 < d.1) :
    CellsForm (c :: r) :=
  ⟨List.pairwise_cons.mpr ⟨hr, h.1⟩, fun d hd => by
    rcases List.mem_cons.mp hd with rfl | hd
    · exact hc
    · exact h.2 d hd⟩

theorem cellsWf_iff (l : List Host.Cell) : cellsWf l = true ↔ CellsForm l := by
  induction l with
  | nil => simp [cellsWf, CellsForm]
  | cons c r ih =>
    cases r with
    | nil => simp [cellsWf, CellsForm]
    | cons d r =>
      simp only [cellsWf, Bool.and_eq_true, bne_iff_ne, decide_eq_true_eq, ih]
      constructor
      · rintro ⟨⟨hc, hd⟩, h⟩
        refine h.cons hc fun e he => ?_
        rcases List.mem_cons.mp he with rfl | he
        · exact hd
        · exact Nat.lt_trans hd (h.head e he)
      · intro h
        exact ⟨⟨h.2 c (List.mem_cons_self ..), h.head d (List.mem_cons_self ..)⟩, h.tail⟩

theorem CellsForm.filter {l : List Host.Cell} (h : CellsForm l) (p : Host.Cell → Bool) : CellsForm (l.filter p) :=
  ⟨h.1.filter p, fun c hc => h.2 c ((List.mem_filter.mp hc).1)⟩

theorem CellsForm.append {l r : List Host.Cell} (hl : CellsForm l) (hr : CellsForm r) (h : ∀ c ∈ l, ∀ d ∈ r, c.1 < d.1) :
    CellsForm (l ++ r) :=
  ⟨List.pairwise_append.mpr ⟨hl.1, hr.1, h⟩, fun c hc => (List.mem_append.mp hc).elim (hl.2 c) (hr.2 c)⟩

/-! ### One byte -/

theorem cellsWrite_mem {l : List Host.Cell} {a : Nat} {b : Byte} {c : Host.Cell} (h : c ∈ cellsWrite l a b) :
    c ∈ l ∨ c = (a, b) := by
  induction l with
  | nil =>
    simp only [cellsWrite] at h
    split at h
    · cases h
    · exact .inr (List.mem_singleton.mp h)
  | cons d r ih =>
    simp only [cellsWrite] at h
    split at h
    · rcases List.mem_cons.mp h with rfl | h
      · exact .inl (List.mem_cons_self ..)
      · exact (ih h).imp_left (List.mem_cons_of_mem _)
    · split at h <;> split at h
      · exact .inl (List.mem_cons_of_mem _ h)
      · exact (List.mem_cons.mp h).symm.imp_left (List.mem_cons_of_mem _)
      · exact .inl h
      · exact (List.mem_cons.mp h).symm

theorem CellsForm.write {l : List Host.Cell} (h : CellsForm l) (a : Nat) (b : Byte) : CellsForm (cellsWrite l a b) := by
  induction l with
  | nil =>
    simp only [cellsWrite]
    split
    · exact h
    · exact h.cons ‹_› (by simp)
  | cons c r ih =>
    simp only [cellsWrite]
    split
    · refine (ih h.tail).cons (h.2 c (List.mem_cons_self ..)) fun d hd => ?_
      rcases cellsWrite_mem hd with hd | rfl
      · exact h.head d hd
      · assumption
    · split <;> split
      · exact h.tail
      · refine h.tail.cons ‹_› fun d hd => ?_
        have := h.head d hd
        simp_all
      · exact h
      · refine h.cons ‹_› fun d hd => ?_
        rcases List.mem_cons.mp hd with rfl | hd
        · simp only; omega
        · have := h.head d hd
          simp only; omega

/-- An address below every cell is unlisted. -/
theorem cellsRead_below {l : List Host.Cell} {a : Nat} (h : ∀ c ∈ l, a < c.1) : cellsRead l a = 0#8 := by
  induction l with
  | nil => rfl
  | cons c r ih =>
    have hc := h c (List.mem_cons_self ..)
    simp only [cellsRead, if_neg (show ¬ c.1 = a by omega)]
    exact ih fun d hd => h d (List.mem_cons_of_mem _ hd)

theorem cellsRead_write {l : List Host.Cell} (h : CellsForm l) (a : Nat) (b : Byte) (x : Nat) :
    cellsRead (cellsWrite l a b) x = if x = a then b else cellsRead l x := by
  induction l with
  | nil => by_cases hb : b = 0#8 <;> by_cases hx : x = a <;> simp [cellsWrite, cellsRead, hb, hx, Ne.symm]
  | cons c r ih =>
    have hr := cellsRead_below h.head
    simp only [cellsWrite]
    split
    · by_cases hx : c.1 = x
      · subst hx
        simp [cellsRead, show ¬ c.1 = a by omega]
      · simp [cellsRead, hx, ih h.tail]
    · split
      · next hc =>
        subst hc
        by_cases hb : b = 0#8 <;> by_cases hx : x = c.1
        · subst hx; simp [hb, hr]
        · simp [hb, hx, cellsRead, Ne.symm hx]
        · subst hx; simp [hb, cellsRead]
        · simp [hb, hx, cellsRead, Ne.symm hx]
      · have ha : ∀ d ∈ c :: r, a < d.1 := fun d hd => by
          rcases List.mem_cons.mp hd with rfl | hd
          · omega
          · have := h.head d hd; omega
        by_cases hb : b = 0#8 <;> by_cases hx : x = a
        · subst hx; simp [hb, cellsRead_below ha]
        · simp [hb, hx]
        · subst hx; simp [hb, cellsRead]
        · simp [hb, hx, cellsRead, Ne.symm hx]

theorem Memory.write_wf {m : Memory} (h : m.wf = true) (a : Nat) (b : Byte) : (m.write a b).wf = true :=
  (cellsWf_iff _).mpr (((cellsWf_iff _).mp h).write a b)

/-- A write shows at its address and nowhere else. -/
theorem Memory.read_write {m : Memory} (h : m.wf = true) (a : Nat) (b : Byte) (x : Nat) :
    (m.write a b).read x = if x = a then b else m.read x :=
  cellsRead_write ((cellsWf_iff _).mp h) a b x

@[simp] theorem Memory.empty_wf : Memory.empty.wf = true := rfl

@[simp] theorem Memory.empty_read (a : Nat) : Memory.empty.read a = 0#8 := rfl

/-! ### Many bytes -/

theorem cellsOf_mem {a : Nat} {bs : List Byte} {c : Host.Cell} (h : c ∈ cellsOf a bs) :
    a ≤ c.1 ∧ c.1 < a + bs.length ∧ c.2 ≠ 0#8 := by
  induction bs generalizing a with
  | nil => cases h
  | cons b r ih =>
    simp only [cellsOf] at h
    have key : c ∈ cellsOf (a + 1) r → a ≤ c.1 ∧ c.1 < a + (b :: r).length ∧ c.2 ≠ 0#8 := fun h => by
      have ⟨h1, h2, h3⟩ := ih h
      exact ⟨by omega, by simp only [List.length_cons]; omega, h3⟩
    split at h
    · exact key h
    · rcases List.mem_cons.mp h with rfl | h
      · exact ⟨Nat.le_refl _, by simp, ‹_›⟩
      · exact key h

theorem cellsOf_form (a : Nat) (bs : List Byte) : CellsForm (cellsOf a bs) := by
  induction bs generalizing a with
  | nil => exact ⟨.nil, fun c hc => by cases hc⟩
  | cons b r ih =>
    simp only [cellsOf]
    split
    · exact ih _
    · exact (ih _).cons ‹_› fun d hd => (cellsOf_mem hd).1

theorem Memory.writeBytes_wf {m : Memory} (h : m.wf = true) (a : Nat) (bs : List Byte) : (m.writeBytes a bs).wf = true := by
  unfold Memory.writeBytes
  split
  · exact h
  · have hf := (cellsWf_iff _).mp h
    refine (cellsWf_iff _).mpr ((hf.filter _).append ((cellsOf_form a bs).append (hf.filter _) ?_) ?_)
    · intro c hc d hd
      have := (cellsOf_mem hc).2.1
      have := (List.mem_filter.mp hd).2
      simp only [decide_eq_true_eq] at this
      omega
    · intro c hc d hd
      have := (List.mem_filter.mp hc).2
      simp only [decide_eq_true_eq] at this
      rcases List.mem_append.mp hd with hd | hd
      · have := (cellsOf_mem hd).1; omega
      · have := (List.mem_filter.mp hd).2
        simp only [decide_eq_true_eq] at this
        omega

theorem Memory.writeNat_wf {m : Memory} (h : m.wf = true) (a n v : Nat) : (m.writeNat a n v).wf = true :=
  Memory.writeBytes_wf h a _

theorem Memory.clear_wf {m : Memory} (h : m.wf = true) (lo hi : Nat) : (m.clear lo hi).wf = true :=
  (cellsWf_iff _).mpr (((cellsWf_iff _).mp h).filter _)

theorem Memory.writeCells_wf {m : Memory} (h : m.wf = true) (base dst : Nat) (l : List Host.Cell) :
    (m.writeCells base dst l).wf = true := by
  induction l generalizing m with
  | nil => exact h
  | cons c r ih => exact ih (Memory.write_wf h _ _)

theorem Memory.copyIn_wf {m : Memory} (h : m.wf = true) (dst : Nat) (src : Memory) (base n : Nat) :
    (m.copyIn dst src base n).wf = true :=
  Memory.writeCells_wf (Memory.clear_wf h _ _) _ _ _

theorem cellsRead_of_mem {l : List Host.Cell} (h : CellsForm l) {c : Host.Cell} (hc : c ∈ l) : cellsRead l c.1 = c.2 := by
  induction l with
  | nil => cases hc
  | cons d r ih =>
    rcases List.mem_cons.mp hc with rfl | hc
    · simp [cellsRead]
    · have := h.head c hc
      simp only [cellsRead, if_neg (show ¬ d.1 = c.1 by omega)]
      exact ih h.tail hc

theorem cellsRead_filter (l : List Host.Cell) (p : Nat → Bool) (x : Nat) :
    cellsRead (l.filter fun c => p c.1) x = if p x then cellsRead l x else 0#8 := by
  induction l with
  | nil => simp [cellsRead]
  | cons c r ih =>
    by_cases hp : p c.1 = true <;> by_cases hx : c.1 = x
    · subst hx; simp [hp, cellsRead]
    · simp [hp, cellsRead, hx, ih]
    · subst hx; simp [hp, ih]
    · simp [hp, cellsRead, hx, ih]

theorem cellsRead_append {l r : List Host.Cell} (x : Nat) (h : ∀ c ∈ l, c.1 ≠ x) :
    cellsRead (l ++ r) x = cellsRead r x := by
  induction l with
  | nil => rfl
  | cons c l ih =>
    simp only [List.cons_append, cellsRead, if_neg (h c (List.mem_cons_self ..))]
    exact ih fun d hd => h d (List.mem_cons_of_mem _ hd)

theorem cellsRead_append_left {l r : List Host.Cell} (x : Nat) (h : ∀ c ∈ r, c.1 ≠ x) :
    cellsRead (l ++ r) x = cellsRead l x := by
  induction l with
  | nil =>
    have := cellsRead_append (l := r) (r := []) x h
    simpa [cellsRead] using this
  | cons c l ih => simp only [List.cons_append, cellsRead, ih]

theorem cellsRead_cellsOf (a : Nat) (bs : List Byte) (i : Nat) (hi : i < bs.length) :
    cellsRead (cellsOf a bs) (a + i) = bs.getD i 0#8 := by
  induction bs generalizing a i with
  | nil => cases hi
  | cons b r ih =>
    cases i with
    | zero =>
      simp only [cellsOf]
      split
      · have := cellsRead_below (l := cellsOf (a + 1) r) (a := a) fun c hc => (cellsOf_mem hc).1
        simp_all
      · simp [cellsRead]
    | succ i =>
      have := ih (a + 1) i (by simpa using hi)
      rw [show a + 1 + i = a + (i + 1) by omega] at this
      simp only [cellsOf]
      split
      · simpa using this
      · simpa [cellsRead] using this

theorem cellsBytes_getD (l : List Host.Cell) (a n i : Nat) (hi : i < n) :
    (cellsBytes l a n).getD i 0#8 = cellsRead l (a + i) := by
  induction n generalizing a i with
  | zero => cases hi
  | succ n ih =>
    cases i with
    | zero => rfl
    | succ i =>
      have := ih (a + 1) i (by omega)
      simp only [cellsBytes, List.getD_cons_succ, this]
      congr 1
      omega

@[simp] theorem cellsBytes_length (l : List Host.Cell) (a n : Nat) : (cellsBytes l a n).length = n := by
  induction n generalizing a with
  | zero => rfl
  | succ n ih => simp [cellsBytes, ih]

@[simp] theorem Memory.bytes_length (m : Memory) (a n : Nat) : (m.bytes a n).length = n := cellsBytes_length _ _ _

/-- Byte i of n bytes read at an address is the byte at that address and i. -/
theorem Memory.bytes_getD (m : Memory) (a n i : Nat) (hi : i < n) : (m.bytes a n).getD i 0#8 = m.read (a + i) := by
  unfold Memory.bytes cellsIn
  rw [cellsBytes_getD _ _ _ _ hi, cellsRead_filter m.cells (fun x => a ≤ x && x < a + n) (a + i)]
  simp [Memory.read, show a + i < a + n by omega]

/-- Bytes written show at their addresses. -/
theorem Memory.read_writeBytes (m : Memory) (a : Nat) (bs : List Byte) (i : Nat) (hi : i < bs.length) :
    (m.writeBytes a bs).read (a + i) = bs.getD i 0#8 := by
  unfold Memory.writeBytes
  split
  · next h =>
    have := Memory.bytes_getD m a bs.length i hi
    rw [h] at this
    exact this.symm
  · simp only [Memory.read]
    rw [cellsRead_append, cellsRead_append_left, cellsRead_cellsOf a bs i hi]
    · intro c hc
      have := (List.mem_filter.mp hc).2
      simp only [decide_eq_true_eq] at this
      omega
    · intro c hc
      have := (List.mem_filter.mp hc).2
      simp only [decide_eq_true_eq] at this
      omega

/-- Bytes written show nowhere else. -/
theorem Memory.read_writeBytes_other (m : Memory) (a : Nat) (bs : List Byte) (x : Nat) (hx : x < a ∨ a + bs.length ≤ x) :
    (m.writeBytes a bs).read x = m.read x := by
  unfold Memory.writeBytes
  split
  · rfl
  · simp only [Memory.read]
    have hof : ∀ c ∈ cellsOf a bs, c.1 ≠ x := fun c hc => by
      have := cellsOf_mem hc; omega
    rcases hx with hx | hx
    · rw [cellsRead_append_left, cellsRead_filter m.cells (fun y => y < a) x]
      · simp [hx]
      · intro c hc
        rcases List.mem_append.mp hc with hc | hc
        · exact hof c hc
        · have := (List.mem_filter.mp hc).2
          simp only [decide_eq_true_eq] at this
          omega
    · rw [cellsRead_append, cellsRead_append x hof, cellsRead_filter m.cells (fun y => a + bs.length ≤ y) x]
      · simp [hx]
      · intro c hc
        have := (List.mem_filter.mp hc).2
        simp only [decide_eq_true_eq] at this
        omega

end Sys2Proof.Machine
end

