-- ==== Sys2Proof/Laws/Own.lean ====
section
/-! SUPPORT. What a read of the core may find of its engines' unacquired writes, and when nothing of them is met. -/

namespace Sys2Proof.Machine

theorem Unseen.within_length (u : Unseen) (loc : Nat) (bs : List Byte) : (u.within loc bs).length = bs.length := by
  simp [Unseen.within]

/-- A byte with an older value in place is the old one or what stood there. -/
theorem Unseen.within_getElem? (u : Unseen) (loc i : Nat) (bs : List Byte) (h : i < bs.length) :
    (u.within loc bs)[i]? = bs[i]? ∨ (u.loc ≤ loc + i ∧ (u.within loc bs)[i]? = u.old[loc + i - u.loc]?) := by
  have e : (u.within loc bs)[i]? = some (if u.loc ≤ loc + i then (u.old[loc + i - u.loc]?).getD bs[i] else bs[i]) := by
    simp [Unseen.within, h]
  rw [e]
  split
  · next hl =>
    cases ho : u.old[loc + i - u.loc]? with
    | none => exact .inl (by simp [h])
    | some b => exact .inr ⟨hl, rfl⟩
  · exact .inl (by simp [h])

/-- What `findBytes` finds: as many bytes, each as it stood or of an entry of the list, and entries of the list left. -/
theorem findBytes_spec (skip : Option EngineQ) (loc : Nat) (l found : List Unseen) (f : Nat) (bs : List Byte) :
    let r := findBytes skip loc l found f bs
    (∀ x ∈ r.1, x ∈ l) ∧ r.2.2.length = bs.length
      ∧ ∀ i, i < bs.length → r.2.2[i]? = bs[i]? ∨ ∃ x ∈ l, x.loc ≤ loc + i ∧ r.2.2[i]? = x.old[loc + i - x.loc]? := by
  induction l generalizing found f bs with
  | nil => exact ⟨fun _ h => h, rfl, fun _ _ => .inl rfl⟩
  | cons u r ih =>
    have keep : ∀ {f found}, let t := findBytes skip loc r found f bs
        (∀ x ∈ t.1, x ∈ u :: r) ∧ t.2.2.length = bs.length
          ∧ ∀ i, i < bs.length → t.2.2[i]? = bs[i]? ∨ ∃ x ∈ u :: r, x.loc ≤ loc + i ∧ t.2.2[i]? = x.old[loc + i - x.loc]? := by
      intro f found
      obtain ⟨a, b, c⟩ := ih found f bs
      exact ⟨fun x h => .tail _ (a x h), b, fun i h => (c i h).imp id fun ⟨x, m, e⟩ => ⟨x, .tail _ m, e⟩⟩
    have stay : ∀ {x : Unseen} {t : List Unseen}, (∀ y ∈ t, y ∈ u :: r) → x ∈ u :: t → x ∈ u :: r := by
      intro x t h m
      cases m with
      | head => exact .head _
      | tail _ m => exact h x m
    simp only [findBytes]
    split
    · exact keep
    · split
      · exact ⟨fun x => stay keep.1, keep.2⟩
      · split
        · exact keep
        · split
          · obtain ⟨a, b, c⟩ := ih found (f + 1) (u.within loc bs)
            rw [Unseen.within_length] at b c
            refine ⟨fun x => stay fun y h => .tail _ (a y h), b, fun i h => ?_⟩
            rcases c i h with e | ⟨x, m, e⟩
            · rcases u.within_getElem? loc i bs h with k | ⟨k, k'⟩
              · exact .inl (e.trans k)
              · exact .inr ⟨u, .head _, k, e.trans k'⟩
            · exact .inr ⟨x, .tail _ m, e⟩
          · exact keep

/-- A load of the control core finds what it may find, and leaves the rest of the state. -/
theorem State.findLoad_spec (s : State) (loc : Nat) (bs : List Byte) :
    s.MayFind loc bs (s.findLoad loc bs).1 ∧ Found s (s.findLoad loc bs).2 := by
  cases h : s.core.unseenAt loc bs.length with
  | false => simp [State.findLoad, h, State.MayFind, Found]
  | true =>
    obtain ⟨a, b, c⟩ := findBytes_spec none loc s.core.unseen [] s.fresh bs
    simp only [State.findLoad, h, Bool.not_true, Bool.false_eq_true, if_false]
    exact ⟨⟨b, fun k => by simp [h] at k, c⟩, rfl, a, rfl, rfl⟩

/-- Where no unacquired write is met, a load finds what stands. -/
theorem State.findLoad_seen {s : State} {loc : Nat} {bs : List Byte} (h : s.core.unseenAt loc bs.length = false) :
    s.findLoad loc bs = (bs, s) := by simp [State.findLoad, h]

theorem Core.pass_seen {c : Core} {loc n : Nat} (h : c.unseenAt loc n = false) : c.pass loc n = c := by simp [Core.pass, h]

theorem Core.reveal_seen {c : Core} {loc n : Nat} (h : c.unseenAt loc n = false) : c.reveal loc n = c := by
  simp [Core.reveal, h]

/-- An engine finds what stands where no unacquired write is met. -/
theorem State.findEngine_seen {s : State} {q : EngineQ} {loc : Nat} {bs : List Byte} (h : s.core.unseenAt loc bs.length = false) :
    s.findEngine q loc bs = (bs, s) := by simp [State.findEngine, h]

/-- Outside every window nothing is due before a local access. -/
theorem State.settleAt_outside {s : State} {kind : GKind} {o n : Nat} (h : s.core.windowAt o = none) : s.settleAt kind o n = s := by
  simp [State.settleAt, h]

theorem State.settleRead_outside {s : State} {o n : Nat} (h : s.core.windowAt o = none) : s.settleRead o n = s :=
  State.settleAt_outside h

theorem State.settleWrite_outside {s : State} {o n : Nat} (h : s.core.windowAt o = none) : s.settleWrite o n = s :=
  State.settleAt_outside h

/-- Where no operation holds b back, none must be made for it. -/
theorem chainTo_eq_nil {b : GOp} {l : List GOp} (h : heldBack b l = false) : chainTo b l = [] := by
  induction l with
  | nil => rfl
  | cons a r ih =>
    simp only [heldBack, Bool.or_eq_false_iff] at h
    simp [chainTo, ih h.2, h.1]

/-- Where nothing is due, a local access is made on the state as it stands. -/
theorem State.settleFor_quiet {s : State} {b : GOp} (h : s.holds b s.core.ops = false) (n : Nat) : settleFor b n s = s := by
  simp only [State.holds, Bool.or_eq_false_iff, Bool.and_eq_false_iff] at h
  have c := chainTo_eq_nil h.1
  cases n with
  | zero => rfl
  | succ n =>
    have e : (!s.core.elStands && s.elFirst b []) = false := by
      rcases h.2 with k | k
      · simp [k.2]
      · have z : s.elFirst b [] = false := by simpa [State.elFirst] using k
        simp [z]
    simp [State.settleFor, c, e]

theorem State.settleAt_quiet {s : State} {kind : GKind} {o n w l : Nat} (hw : s.core.windowAt o = some (w, l))
    (h : s.holds { s.core.newOp s.pkg.serial kind with pa := s.core.windowPa w o, size := n } s.core.ops = false) :
    s.settleAt kind o n = s := by
  simp only [State.settleAt, hw]
  exact State.settleFor_quiet h _

/-- The bytes of the scratchpad are no memory: a read of them pins nothing. -/
theorem State.pinFound_scratch {s : State} {order o : Nat} {cells : List (Byte × Bool)} :
    s.pinFound order (scratchLoc o) cells = s := by
  simp only [State.pinFound, scratchLoc]
  exact if_neg (by omega)

end Sys2Proof.Machine
end

