-- ==== Sys2Proof/Laws/Scalar.lean ====
section
/-! SUPPORT. What an issue that writes one scalar register does, everything of it: the form that `scalar`, MOVSR, TICK and the
readers of vectors and tags share. -/

namespace Sys2Proof.Machine

/-- An issue whose one effect is a scalar write lat cycles on, counted by event e, writes that register alone. -/
theorem writesX_of {i : Instr} {s : State} {d : Reg} {lat : Nat} {v : Word} (e n : Nat) (hlat : 1 ≤ lat)
    (hex : exec i s = .next ((s.mapCore fun c => (c.putX d lat v).bump e n).done s none 1)) : WritesX i s d lat v := by
  have ha := State.done_after s (s.mapCore fun c => (c.putX d lat v).bump e n) none 1 rfl
  refine ⟨_, hex, ha.congr rfl rfl rfl rfl rfl rfl rfl rfl, ha.2.2.2.2.2.2.2.2.2.2.2.2.2.2.1, ?_, ?_⟩
  all_goals
    rw [State.done_eq, State.mapCore_mapCore]
    have hpre : OneMore d v (s.core.cycle + lat) s (s.mapCore fun c => ((c.putX d lat v).bump e n).atEnd s none) := by
      refine ⟨?_, ?_, s.core.issued, ?_⟩ <;> rw [State.mapCore_core, Core.atEnd_frame] <;> rfl
  · intro hd0
    rw [State.advance_add, show 1 + (lat - 1) = s.core.cycle + lat - s.core.cycle by omega]
    exact hpre.value (by omega) hd0
  · intro r k hr
    rw [State.advance_add]
    by_cases hk : 1 + k < lat
    · exact (hpre.advance (1 + k) (by omega)).getX r
    · refine (hpre.after (by omega) (1 + k) (by omega)).getX r ?_
      rcases hr with h | h | h
      · exact .inl h
      · exact .inr h
      · omega

/-- The scalar families: what `scalar` does when its instruction executes. -/
theorem scalar_writes {i : Instr} {s : State} {e : Nat} {rs : List Reg} {d : Reg} {lat : Nat} {f : Core → Word}
    (hi : exec i s = scalar e rs d lat f s) (h : s.executes rs) (hlat : 1 ≤ lat) : WritesX i s d lat (f s.core) := by
  refine writesX_of e 1 hlat ?_
  rw [hi, scalar, issue_ok h.1]
  simp only [Core.useX_ok h.2]
  rfl

end Sys2Proof.Machine
end

