-- ==== Sys2Proof/Laws/Translate.lean ====
section
/-! SUPPORT. What a translation and an access that is not served can change (R378, R397, R407): the pending traps of cores, the
counts of activity and the package; nothing else of a core. -/

namespace Sys2Proof.Machine

/-- A core that has been told of a loss, or has counted activity. -/
def Told (a b : Core) : Prop := b = { a with pending := b.pending, wfe := b.wfe, activity := b.activity }

theorem Told.refl (a : Core) : Told a a := rfl

theorem Told.trans {a b c : Core} (h : Told a b) (k : Told b c) : Told a c := by
  rw [Told] at *; rw [k, h]

theorem Core.pend_told (c : Core) (t : Pending) : Told c (c.pend t) := rfl

theorem Core.bump_told (c : Core) (e n : Nat) : Told c (c.bump e n) := rfl

/-- A state whose cores have been told at most, and whose schedule stands. -/
def Reached (s t : State) : Prop := Told s.core t.core ∧ t.schedule = s.schedule

theorem Reached.refl (s : State) : Reached s s := ⟨rfl, rfl⟩

theorem Reached.trans {a b c : State} (h : Reached a b) (k : Reached b c) : Reached a c :=
  ⟨h.1.trans k.1, k.2.trans h.2⟩

theorem State.tellLoss_reached (s : State) (ctx die : Nat) : Reached s (s.tellLoss ctx die) := by
  refine ⟨?_, rfl⟩
  simp only [tellLoss, mapCores, mapPkg]
  split
  · exact Core.pend_told _ _
  · exact Told.refl _

theorem State.settleMerges_reached (s : State) (ctx : Nat) : Reached s (s.settleMerges ctx) := ⟨rfl, rfl⟩

theorem State.reachFor_reached (s : State) (ctx pa : Nat) : Reached s (s.reachFor ctx pa) := by
  simp only [reachFor, unserved]
  split
  · exact ⟨rfl, rfl⟩
  · exact ⟨rfl, rfl⟩
  · exact ⟨rfl, rfl⟩
  · rename_i hub _
    let u := (s.mapPkg fun p => (p.touch ctx pa).request pa).mapPkg fun p => (p.touchHub ctx hub).holdForLoss ctx
    exact ((Reached.trans (b := u) ⟨rfl, rfl⟩ (State.tellLoss_reached u ctx hub)).trans (State.settleMerges_reached _ ctx))

theorem State.recall_none {s : State} (line : Nat) (h : s.pkg.hostLines = []) : s.recall line = s := by
  simp [State.recall, h]

theorem Package.setCtx_hostLines (p : Package) (ctx : Nat) (f : Context → Context) :
    (p.setCtx ctx f).hostLines = p.hostLines := rfl

theorem Package.touchHub_hostLines (p : Package) (ctx hub : Nat) : (p.touchHub ctx hub).hostLines = p.hostLines :=
  Package.setCtx_hostLines _ _ _

theorem Package.holdForLoss_hostLines (p : Package) (ctx : Nat) : (p.holdForLoss ctx).hostLines = p.hostLines := by
  unfold Package.holdForLoss; split <;> rfl

theorem State.settleMerges_hostLines (s : State) (ctx : Nat) : (s.settleMerges ctx).pkg.hostLines = s.pkg.hostLines := rfl

theorem State.tellLoss_hostLines (s : State) (ctx die : Nat) : (s.tellLoss ctx die).pkg.hostLines = s.pkg.hostLines :=
  Package.setCtx_hostLines _ _ _

theorem Package.request_hostLines (p : Package) (pa : Nat) : (p.request pa).hostLines = p.hostLines := by
  unfold Package.request; split <;> rfl

theorem State.reachFor_hostLines (s : State) (ctx pa : Nat) : (s.reachFor ctx pa).pkg.hostLines = s.pkg.hostLines := by
  have ht : ((s.pkg.touch ctx pa).request pa).hostLines = s.pkg.hostLines := by
    refine (Package.request_hostLines _ _).trans ?_
    unfold Package.touch; split
    · exact Package.touchHub_hostLines _ _ _
    · rfl
  have hr : ∀ p : Package, (p.raise 0x31 ctx).hostLines = p.hostLines := fun p => by unfold Package.raise; split <;> rfl
  simp only [reachFor, unserved]
  split
  · exact ht
  · exact (hr _).trans ht
  · exact ht
  · exact (State.settleMerges_hostLines _ _).trans <| (State.tellLoss_hostLines _ _ _).trans
      ((Package.holdForLoss_hostLines _ _).trans ((Package.touchHub_hostLines _ _ _).trans ht))

/-- The accesses of a walk, while the host holds no line modified. -/
theorem State.reachAll_reached (l : List Nat) (ctx : Nat) (s : State) (h : s.pkg.hostLines = []) :
    Reached s (l.foldl (fun t a => (t.recall (a / 64)).reachFor ctx a) s) := by
  induction l generalizing s with
  | nil => exact Reached.refl s
  | cons a r ih =>
    rw [List.foldl_cons, State.recall_none _ h]
    exact (State.reachFor_reached s ctx a).trans (ih _ ((State.reachFor_hostLines s ctx a).trans h))

theorem State.walkNow_reached (s : State) (ctx : Nat) (va : Word) (acc : Acc) (hl : s.pkg.hostLines = []) :
    Reached s (State.translate.walkNow ctx va acc s).1 := by
  have h : Reached s (((s.walkFor ctx va.toNat).1.foldl (fun t a => (t.recall (a / 64)).reachFor ctx a) s).mapCore fun c => c.bump 40 1) :=
    (State.reachAll_reached _ ctx s hl).trans ⟨Core.bump_told _ _ _, rfl⟩
  unfold State.translate.walkNow
  cases s.checkWalk ctx va acc with
  | error t => exact h
  | ok pg => exact h.trans ⟨rfl, rfl⟩

theorem Reached.freshen (s : State) (n : Nat) : Reached s { s with fresh := n } := ⟨rfl, rfl⟩

/-- Everything that a translation can change of the core in `core`, while the host holds no line modified. (A line that it
holds comes back first, which also writes the stash window that the line may stand in.) -/
theorem State.translate_reached (s : State) (ctx : Nat) (va : Word) (acc : Acc) (hl : s.pkg.hostLines = []) :
    Reached s (s.translate ctx va acc).1 := by
  unfold State.translate
  by_cases h : 2 ^ 57 ≤ va.toNat
  · rw [if_pos h]; exact Reached.refl s
  · rw [if_neg h]
    cases s.pkg.held.find? fun pg => pg.ctx == ctx && pg.covers va.toNat with
    | none => exact State.walkNow_reached s ctx va acc hl
    | some pg =>
      by_cases h1 : givesPage (s.checkWalk ctx va acc) pg = true
      · simp only [h1, if_true]; exact Reached.refl s
      · by_cases h2 : Config.usesHeld s.fresh = true
        · simp only [h1, h2, if_true]; exact Reached.freshen s _
        · simp only [h1, h2]
          exact (Reached.freshen s _).trans (State.walkNow_reached _ ctx va acc hl)

theorem Reached.of_translate {s u : State} {ctx : Nat} {va : Word} {acc : Acc} {r : Except Trap Page}
    (hl : s.pkg.hostLines = []) (h : s.translate ctx va acc = (u, r)) : Reached s u := by
  have := State.translate_reached s ctx va acc hl
  rwa [h] at this

/-! ### Areas read by a hub -/

/-- The state with the contexts replaced. -/
def State.withContexts (s : State) (x : Vector Context 64) : State := { s with pkg := { s.pkg with contexts := x } }

/-- An access to an address of this package or of the host whose home serves touches contexts alone. -/
theorem State.reachFor_served {s : State} {ctx pa : Nat} (h2 : paHome pa ≠ 2) (h : s.pkg.reach pa = .served) :
    ∃ x, s.reachFor ctx pa = s.withContexts x := by
  have key : ∃ x, s.pkg.touch ctx pa = { s.pkg with contexts := x } := by
    unfold Package.touch Package.touchHub Package.setCtx
    split
    · exact ⟨_, rfl⟩
    · exact ⟨s.pkg.contexts, rfl⟩
  obtain ⟨x, hx⟩ := key
  refine ⟨x, ?_⟩
  have hr : ({ s.pkg with contexts := x } : Package).reach pa = .served := h
  have hq : ({ s.pkg with contexts := x } : Package).request pa = { s.pkg with contexts := x } := by
    simp only [Package.request, Package.requestLink, if_neg h2]
  simp only [reachFor, unserved, mapPkg, hx, hq, hr]
  rfl

/-- Accesses to addresses that serve, while the host holds no line modified, touch contexts alone. -/
theorem State.touchAll_served {s : State} (ctx : Nat) (l : List (Nat × Nat)) (hl : s.pkg.hostLines = [])
    (h : ∀ p ∈ l, paHome p.1 ≠ 2 ∧ s.pkg.reach p.1 = .served) (y : Vector Context 64) :
    ∃ x, l.foldl (fun t p => (t.recall (p.1 / 64)).reachFor ctx p.1) (s.withContexts y) = s.withContexts x := by
  induction l generalizing y with
  | nil => exact ⟨y, rfl⟩
  | cons p r ih =>
    obtain ⟨x, hx⟩ := State.reachFor_served (s := s.withContexts y) (ctx := ctx) (pa := p.1)
      (h p (List.mem_cons_self ..)).1 (h p (List.mem_cons_self ..)).2
    rw [List.foldl_cons, State.recall_none (s := s.withContexts y) _ hl, hx]
    exact ih (fun q hq => h q (List.mem_cons_of_mem _ hq)) x

theorem pieces_mem {g a n : Nat} {p : Nat × Nat} (fuel : Nat) (h : p ∈ pieces g a fuel n) : a ≤ p.1 ∧ p.1 < a + n := by
  induction fuel generalizing a n with
  | zero => cases h
  | succ k ih =>
    simp only [pieces] at h
    split at h
    · cases h
    · rcases List.mem_cons.mp h with rfl | h
      · exact ⟨Nat.le_refl _, by omega⟩
      · have := ih h
        omega

/-- An area whose homes serve is read with nothing changed but what contexts have touched. -/
theorem State.recallArea_served {s : State} {ctx pa n : Nat} (hl : s.pkg.hostLines = [])
    (h : ∀ a, pa ≤ a → a < pa + n → paHome a ≠ 2 ∧ s.pkg.reach a = .served) :
    ∃ x, s.recallArea ctx pa n = s.withContexts x :=
  State.touchAll_served ctx _ hl (fun p hp => h p.1 (pieces_mem _ hp).1 (pieces_mem _ hp).2) s.pkg.contexts

section
variable {s t : State}

theorem Reached.issued (h : Reached s t) : t.core.issued = s.core.issued := by rw [h.1]
theorem Reached.pc (h : Reached s t) : t.core.pc = s.core.pc := by rw [h.1]
theorem Reached.num (h : Reached s t) : t.core.num = s.core.num := by rw [h.1]
theorem Reached.cycle (h : Reached s t) : t.core.cycle = s.core.cycle := by rw [h.1]
theorem Reached.x (h : Reached s t) : t.core.x = s.core.x := by rw [h.1]
theorem Reached.getX (h : Reached s t) (r : Reg) : t.core.getX r = s.core.getX r := Core.getX_congr h.x r
theorem Reached.collecting (h : Reached s t) : t.core.collecting = s.core.collecting := by rw [h.1]; rfl
theorem Reached.collect (h : Reached s t) : t.core.collect = s.core.collect := by rw [h.1]
theorem Reached.wins (h : Reached s t) : t.core.wins = s.core.wins := by rw [h.1]
theorem Reached.scratch (h : Reached s t) : t.core.scratch = s.core.scratch := by rw [h.1]
theorem Reached.super (h : Reached s t) : t.core.super = s.core.super := by rw [h.1]

end

end Sys2Proof.Machine
end

