-- ==== Sys2Proof/Machine/WindowRead.lean ====
section
/-! DEFINITION. What the windows of the host port read as: the management window, which every master may read at any size and
alignment and which no read changes (R379, R430, R451), and the launch windows (R424). -/

namespace Sys2Proof.Machine

/-- The 8-byte registers at offsets 0 to 0x38 (R379, R423, R430, R435, R436). What is only written reads as zero. -/
def Package.windowRegister (p : Package) (k : Nat) : Word :=
  match k with
  | 0 => p.mgowner
  | 3 => p.hostkey.setWidth 64
  | 4 => p.ringHead
  | 5 => p.ringTail
  | 6 => p.bar4size.setWidth 64
  | 7 => p.domain
  | _ => 0#64

/-- A byte of the power and firmware block (R437). -/
def Package.powerByte (p : Package) (o : Nat) : Byte :=
  if o < 0x04 then byteOf p.cap o
  else if o < 0x08 then byteOf p.effcap (o - 0x04)
  else if o < 0x0C then byteOf (BitVec.ofNat 32 p.powerStatus) (o - 0x08)
  else if o < 0x10 then byteOf p.estimate (o - 0x0C)
  else if o < 0x20 then p.clocks.getD (o - 0x10) 0#8
  else if o < 0x28 then byteOf p.fwaddr (o - 0x20)
  else if o < 0x2C then byteOf p.fwlen (o - 0x28)
  else if o < 0x30 then byteOf p.fwstat (o - 0x2C)
  else if o < 0x50 then byteOf p.fwdig (o - 0x30)
  else if 0x100 ≤ o && o < 0x1C0 then
    if (o - 0x100) % 4 < 2 then byteOf (p.weights.getD ((o - 0x100) / 4) 0#16) ((o - 0x100) % 4) else 0#8
  else 0#8

/-- The length of the vendor certificate (R434). -/
def certLength : Nat := Config.certificateLength % 2777

/-- A byte of the attestation area (R434). -/
def Package.attByte (p : Package) (o : Nat) : Byte :=
  if o < 0x520 then Config.identityKey p.fwdig o
  else if o < 0x528 then byteOf (BitVec.ofNat 64 certLength) (o - 0x520)
  else if o < 0x1000 then (if o - 0x528 < certLength then Config.certificate (o - 0x528) else 0#8)
  else if o < 0x1008 then byteOf p.attRequest (o - 0x1000)
  else if o < 0x1010 then byteOf (p.attState.setWidth 64 ||| p.attMaster.setWidth 64 <<< 8 : Word) (o - 0x1008)
  else if 0x1020 ≤ o && o < 0x1040 then byteOf p.attNonce (o - 0x1020)
  else if 0x1040 ≤ o && o < 0x1A44 then p.attReport.read (o - 0x1040)
  else 0#8

/-- A byte of the management window (R430). In recovery it shows what R444 leaves open. -/
def Package.windowByte (p : Package) (off : Nat) : Byte :=
  if p.recovery && !openInRecovery off then 0#8
  else if off < 0x40 then byteOf (p.windowRegister (off / 8)) (off % 8)
  else if off < 0x80 then byteOf p.command (off - 0x40)
  else if off < 0x88 then byteOf (p.hostord.setWidth 64 : Word) (off - 0x80)
  else if off < 0x1000 then 0#8
  else if off < 0x2000 then byteOf (p.ctx ((off - 0x1000) / 64)).shown (off % 64)
  else if off < 0x2100 then byteOf (p.partition ((off - 0x2000) / 16)) (off % 16)
  else if off < 0x2300 then byteOf (p.decoders.getD ((off - 0x2100) / 32) 0#256) ((off - 0x2100) % 32)
  else if off < 0x3000 then 0#8
  else if off < 0x3200 then p.powerByte (off - 0x3000)
  else if off < 0x4000 then 0#8
  else if off < 0x8000 then p.ring.read (off - 0x4000)
  else if off < 0x10000 then p.errors.read (off - 0x8000)
  else if off < 0x12000 then p.attByte (off - 0x10000)
  else 0#8

/-- A read of n bytes of the management window (R451). -/
def Package.windowRead (p : Package) (off n : Nat) : List Byte := (List.range n).map fun i => p.windowByte (off + i)

/-- A read of a launch window (R424). -/
def launchRead (n : Nat) : List Byte := List.replicate n 0#8

end Sys2Proof.Machine
end

