-- ==== Sys2Proof/Tests/Slice0.lean ====
section
/-! SUPPORT. Tests of single steps against the specification's words, and for each statement states that meet its
hypotheses. -/

set_option maxRecDepth 100000
set_option exponentiation.threshold 4100

namespace Sys2Proof.Tests

open Sys2Proof Sys2Proof.Machine

/-! ### Ill-formed terms that `Instr.wf` refuses -/

/-- R61: no pattern bit stands above the words covered. R407: fields of TLBINV that its kind does not use are zero. R314:
levels 6 and 7 of a nest. R211: the base of an APROD that delivers to q1. -/
theorem test_wf_refuses_fields :
    (Instr.pblk 1#4 0#3 2#8).wf = false ∧ (Instr.tlbinv .ctx 1#6 2#6 0#6).wf = false
      ∧ (Instr.tlbinv .all 1#6 0#6 3#6).wf = false ∧ (Instr.cpset .ce0 6#3 1#6 2#6 3#6).wf = false
      ∧ (Instr.aprod false 1#20 true 1#6 2#6 3#6 4#6).wf = false := by decide

/-- R30: no vector register from v48 up, as source, destination or count. -/
theorem test_wf_refuses_registers :
    (Instr.vadd .rne false (.reg 48#6) (.reg 0#6) (.reg 0#6)).wf = false ∧ (Instr.vmin (.reg 0#6) (.reg 63#6) (.reg 0#6)).wf = false
      ∧ (Instr.vshl (.reg 0#6) (.reg 0#6) (.lanes (.reg 48#6))).wf = false ∧ (Instr.vpush (.reg 48#6) 0#4).wf = false
      ∧ (Instr.vld (.reg 48#6) 1#6 0#24).wf = false := by decide

/-- Parts that do not exist: a core (R9), a context (R370), a master (R379), a die (R6), a port (R425, R427), a size. -/
theorem test_wf_refuses_parts :
    (Instr.waitEnd 128).wf = false ∧ (Instr.preemption 64).wf = false ∧ (Instr.mgclaim 9 0#32).wf = false
      ∧ (Instr.dieLoss 10).wf = false ∧ (Instr.poolPortDown 24).wf = false ∧ (Instr.slathenLinkDown 18).wf = false
      ∧ (Instr.hostPortTraining true 5 true).wf = false
      ∧ (Instr.hostBar4Access ⟨0, .plainLoad, 2, 4, 0#512, false, false⟩).wf = false
      ∧ (Instr.uncorrectableError (.vector 0 48 0)).wf = false ∧ (Instr.stashLineFill 0 8 0).wf = false
      ∧ (Instr.launchWindowWrite (.host 0 4090 [0#8, 0#8, 0#8, 0#8, 0#8, 0#8, 0#8])).wf = false
      ∧ (Instr.managementWrite 0 0x100000 [0#8]).wf = false := by decide

/-! ### Words written out from the encodings of the specification -/

theorem test_decode_control :
    decode 0x06286D0000000200#64 = .ok (.brc .bits 5#6 (.imm 3#6) 2#32)
      ∧ decode 0x0E3000FFFFFFFF00#64 = .ok (.loop 6#6 0xFFFFFFFF#32)
      ∧ decode 0x0A00000000000000#64 = .ok .ret ∧ decode 0x1000000000000400#64 = .ok (.callc 0#6 4#32)
      ∧ decode 0x1200A00000000200#64 = .ok (.phase 5#6 4#32) :=
  ⟨rfl, rfl, rfl, rfl, rfl⟩

theorem test_decode_scalar :
    decode 0x2428A30000000000#64 = .ok (.mul 5#6 5#6 6#6) ∧ decode 0x2630000000000180#64 = .ok (.limm 6#6 3#32)
      ∧ decode 0x2628A0C000000000#64 = .ok (.limmh 5#6 5#6 0x80000000#32)
      ∧ decode 0x4048400C00000100#64 = .ok (.ld .d 9#6 2#6 16#24) :=
  ⟨rfl, rfl, rfl, rfl⟩

theorem test_decode_strands :
    decode 0x1401600000000000#64 = .ok (.spawn 11#6) ∧ decode 0x1600000000000000#64 = .ok .done
      ∧ decode 0x1801400000000000#64 = .ok (.launch 10#6) ∧ decode 0x1A00000004000043#64 = .ok (.gbar (.imm 3#6))
      ∧ decode 0x1A40000006000043#64 = .ok (.gsize 8#6 (.imm 3#6)) ∧ decode 0x1C00000000000000#64 = .ok .rvz
      ∧ decode 0x1C00E00002000001#64 = .ok (.qdrop .c0 7#6) ∧ decode 0x1C48000004000000#64 = .ok (.tickRead 9#6) :=
  ⟨rfl, rfl, rfl, rfl, rfl, rfl, rfl, rfl⟩

theorem test_decode_engines :
    decode 0xE051660020004000#64 = .ok (.skupd false 32#20 10#6 11#6 12#6)
      ∧ decode 0xE000A30EA0008000#64 = .ok (.skopt false 64#20 5#6 6#6 7#6)
      ∧ decode 0xC001458000000400#64 = .ok (.amap false 2#20 10#6 11#6)
      ∧ decode 0xC000C38020001400#64 = .ok (.aang false 10#20 6#6 7#6)
      ∧ decode 0xC200A00000000800#64 = .ok (.arun 4#20 5#6) :=
  ⟨rfl, rfl, rfl, rfl, rfl⟩

theorem test_decode_lists :
    decode 0xE838A30000000000#64 = .ok (.elcat 7#6 5#6 6#6) ∧ decode 0xE800A00006000000#64 = .ok (.elapp .plain 5#6)
      ∧ decode 0xE800A00006000003#64 = .ok (.elapp (.rel .package) 5#6)
      ∧ decode 0xE848A3000C000000#64 = .ok (.elget 9#6 5#6 6#6) :=
  ⟨rfl, rfl, rfl, rfl⟩

theorem test_decode_system :
    decode 0x1E00000000000280#64 = .ok (.sysc 5#16) ∧ decode 0x1E00008000000000#64 = .ok (.tret false)
      ∧ decode 0x1E41420000000180#64 = .ok (.tlbinv .page 8#6 10#6 3#6)
      ∧ decode 0x1E28C3000001F400#64 = .ok (.wfe 5#6 6#6 1000#32) ∧ decode 0x1E00E38000000280#64 = .ok (.keyset 7#6 5#6)
      ∧ decode 0x1E00028000000380#64 = .ok (.bkpt 7#16) ∧ decode 0x1E01210000000000#64 = .ok (.ctxsv 9#6) :=
  ⟨rfl, rfl, rfl, rfl, rfl, rfl, rfl⟩

theorem test_decode_vector :
    decode 0x6008418806000000#64 = .ok (.vfma .rne false (.reg 1#6) (.reg 2#6) (.reg 3#6) (.reg 4#6))
      ∧ decode 0x64A2AB2E12000096#64 = .ok (.vlut3 (.reg 20#6) (.reg 21#6) (.reg 22#6) (.reg 23#6) 0x96#8)
      ∧ decode 0x6608418000000002#64 = .ok (.vfcmp .lt 1#4 (.reg 2#6) (.reg 3#6))
      ∧ decode 0x7028E40400000000#64 = .ok (.vlds (.reg 5#6) 7#6 (.reg 0#24 8#6)) :=
  ⟨rfl, rfl, rfl, rfl⟩

/-- R56 and the reserved fields of R51: a word of an opcode without a row is illegal, a reserved bit set is reserved. -/
theorem test_decode_refuses :
    decode 0xFE00000000000000#64 = .error .illegal ∧ decode 0x0A00000000000001#64 = .error .reserved :=
  ⟨rfl, rfl⟩


/-! ### Small states -/

/-- Core 0 runs a strand of context 0 in supervisor mode at address 0; the first GiB of the pool is mapped to itself. -/
def running : State := State.reset.booted

/-- The same state with another core. -/
def withCore (f : Core → Core) : State := { running with core := f running.core }

def user : State := withCore fun c => { c with super := false }

/-- Registers x1, x2 and x3 hold these words. -/
def regs (a b c : Word) : Core → Core := fun k => { k with x := ((k.x.set 1 a).set 2 b).set 3 c }

def loaded3 (a b c : Word) : State := withCore (regs a b c)

/-- An open block over two words whose lane 0 passes, or does not. -/
def covered (passes : Bool) : State :=
  withCore fun c => { c with block := some ⟨1#4, if passes then 1#128 else 0#128, 2, 1#8⟩ }

theorem window_none {s : State} {hit : Option (Nat × Nat)} {w : Bool} (h : hit = none) : WindowOpen s hit w := by
  intro a b e
  rw [h] at e
  cases e

/-- What a translation ends in. -/
def pageOf (s : State) (a : Word) (acc : Acc) : Option Page :=
  match s.translate s.core.ctx a acc with
  | (_, .ok pg) => some pg
  | (_, .error _) => none

theorem window_open {s : State} {hit : Option (Nat × Nat)} {w : Bool}
    (h : (hit.all fun e => (!w || s.core.lineWritable e.1 e.2) && s.core.stashed e.1 e.2) = true) : WindowOpen s hit w := by
  intro a b e
  subst e
  simp only [Option.all_some, Bool.and_eq_true, Bool.or_eq_true, Bool.not_eq_true'] at h
  exact ⟨fun t => h.1.resolve_left (by rw [t]; decide), h.2⟩

theorem at_global {s : State} {a : Word} {n : Nat} {acc : Acc} {pg : Page} (l : a.getLsbD 63 = false) (m : a.toNat % n = 0)
    (h : pageOf s a acc = some pg) : AtGlobal s a n acc (s.translate s.core.ctx a acc).1 pg := by
  refine ⟨l, m, ?_⟩
  unfold pageOf at h
  split at h
  · next e => cases h; rw [e]
  · cases h

/-- The page of the first GiB. -/
def page0 : Page := ⟨0, 0, 30, 0, 0#6, 0#6, true, true, true, true⟩

/-- Window 0 over the second stripe of the scratchpad and 0x4000 of memory, its first line stashed. -/
def window0 : StashWin := ⟨1984, 0x4000#64, 1984, [page0], [⟨0, true⟩]⟩

def windowed (f : Core → Core) : State := withCore fun c => { f c with wins := c.wins.setIfInBounds 0 (some window0) }

/-- A list of one entry in the stripe at 0 is open. -/
def listing (super : Bool) (f : Core → Core) : State := withCore fun c =>
  { f c with
    super := super, collect := true, elcap := 1984#22, opened := some ⟨0#4, 0, 1, 0⟩
    slots := c.slots.set 0 ⟨1#12, .opened, []⟩ }

/-- An outstanding operation on the 8 bytes at 0x100. -/
def anOp (kind : GKind) : GOp :=
  { running.core.newOp 0 kind with page := some page0, va := 0x100#64, pa := 0x100, size := 8, dst := 4#6 }

def withOps (ops : List GOp) : State := withCore fun c => { c with ops := ops }

/-- Partition 0 holds every core. -/
def parted (s : State) : State := { s with pkg := { s.pkg with partitions := s.pkg.partitions.set 0 0x17F00#128 } }

theorem delivers_of {s : State} {srcs : List VSrc} (h : (decide (srcs.filterMap VSrc.queue).Nodup
    && srcs.all fun v => !s.core.srcPoisoned v && (VSrc.queue v).all fun q => q != 0#3 && q != 4#3 && (s.core.visible q).isSome) = true) :
    s.delivers srcs := by
  simp only [Bool.and_eq_true, decide_eq_true_eq, List.all_eq_true, Bool.not_eq_true'] at h
  refine ⟨h.1, fun v m => ⟨(h.2 v m).1, fun q e => ?_⟩⟩
  have k := (h.2 v m).2
  rw [e] at k
  simp only [Option.all_some, Bool.and_eq_true, bne_iff_ne, ne_eq] at k
  exact ⟨k.1.1, k.1.2, k.2⟩

/-- A command with the operands d, a, b and c. -/
def aCmd (i : Instr) (st : CmdStatus) (d a b c : Word) : Cmd :=
  { word := 0#64, instr := i, d := d, a := a, b := b, c := c, seq := 0#16, nth := 0, order := 0, left := none, since := none, pins := []
    hold := [], nest := nestStart, qfmt := 0#64, noted := (0, 0), spoilt := false, olds := [], status := st
    sweep := Sweep.start, begun := false, refused := none, stop := none }

/-- A copy command whose control word names a tag. -/
def aCopy (tag : Nat) : Cmd := aCmd (.cpgo .ce0 false 1#20 1#6 2#6 3#6 0#6) .queued 0#64 0#64 (BitVec.ofNat 64 tag <<< 34) 0#64

/-- A command at the head of a queue. -/
def heading (q : EngineQ) (m : Cmd) (f : Core → Core) : State := withCore fun c => (f c).setQueue q ⟨[m], 1#16, none, none, 1⟩

theorem begins_of {s : State} {q : EngineQ} {m : Cmd} {r : List Cmd} (h : (s.core.queue q).cmds = m :: r ∧ s.engineRuns = true
    ∧ m.status = .queued ∧ m.refused = none ∧ (s.core.queue q).began = none ∧ s.core.ops = [] ∧ s.core.work = []) :
    s.mayBegin q m r := by
  refine ⟨h.1, h.2.1, h.2.2.1, h.2.2.2.1, .inr fun t e => ?_, fun o k => ?_, fun w k => ?_⟩
  · rw [h.2.2.2.2.1] at e; cases e
  · rw [h.2.2.2.2.2.1] at k; cases k
  · rw [h.2.2.2.2.2.2] at k; cases k

theorem runs_of {s : State} {q : EngineQ} {m : Cmd} {r : List Cmd} (h : (s.core.queue q).cmds = m :: r ∧ s.engineRuns = true
    ∧ m.status = .running ∧ m.left = none) : s.hasRunning q m r := by
  refine ⟨h.1, h.2.1, h.2.2.1, fun n e => ?_⟩
  rw [h.2.2.2] at e; cases e

theorem plain_of {s : State} {a : Word} {n o : Nat} (h : a.getLsbD 63 = true ∧ a.extractLsb' 22 41 = 0#41
    ∧ o = (a.extractLsb' 0 22).toNat ∧ o + n ≤ Config.scratchBytes ∧ s.core.wins = Vector.replicate 8 none
    ∧ s.core.scratchPoisoned o n = false) : Plain s a n o := by
  refine ⟨h.1, h.2.1, h.2.2.1, h.2.2.2.1, fun k _ => ?_, h.2.2.2.2.2⟩
  unfold Core.windowAt
  rw [h.2.2.2.2.1]
  rfl

def trapA : Trap := .plain 25#5 1#64 2#64 3#64

/-! ### Hypotheses met: scalar families -/

theorem meets_ScalarAluResults :
    (covered true).executes [1#6, 2#6] ∧ running.executes [1#6, 2#6, 3#6] ∧ user.executes [63#6] := by
  unfold State.executes; decide

theorem meets_ImmediateResults : user.executes [1#6] ∧ (covered true).executes [] ∧ (loaded3 (0#64 - 64#64) 0#64 0#64).executes [1#6] := by
  unfold State.executes; decide

theorem meets_MultiplyDivideResults : (loaded3 0x8000000000000000#64 (0#64 - 1#64) 0#64).executes [1#6, 2#6]
    ∧ (loaded3 5#64 0#64 0#64).executes [1#6, 2#6] := by
  unfold State.executes; decide

theorem meets_SystemRegisterReads : running.executes [] ∧ running.core.super = true ∧ user.executes []
    ∧ running.core.l.cmds.length ≤ 32
    ∧ SysReg.status.code.toNat < 0x100 ∧ (SysReg.part).code.toNat ≥ 0x100 := by
  unfold State.executes; decide

/-- A write that supervisor mode makes, one that user mode makes, one that user mode does not make, and a refused one. -/
theorem meets_SystemRegisterWrites :
    (running.executes [1#6] ∧ running.core.super = true ∧ user.executes [1#6] ∧ user.core.super = false)
      ∧ (SysReg.frame.code.toNat < 0x100 ∧ SysReg.tags.code.toNat < 0x100 ∧ (SysReg.qfmt 7#3).code.toNat < 0x100)
      ∧ (badPair (fieldNat 0x1F1F#64 0 5) (fieldNat 0x1F1F#64 8 5) = true) ∧ (loaded3 0x1F1F#64 0#64 0#64).core.getX 1#6 = 0x1F1F#64 := by
  unfold State.executes; decide

theorem meets_PrivilegeTraps_user : user.core.super = false ∧ 0x100 ≤ SysReg.trapcause.code.toNat := by decide

theorem meets_ClosedLaneSkips :
    let s := covered false
    laneZero (.add 1#6 2#6 3#6) = true ∧ laneZero .rvz = true ∧ s.core.block = some ⟨1#4, 0#128, 2, 1#8⟩
      ∧ (0#128).getLsbD 0 ≠ (1#8).getLsbD 0 ∧ s.core.super = true ∧ forUser (.add 1#6 2#6 3#6) = true := by decide

/-- x1 = 16, x2 = 16: a condition that holds and its opposites; a call relative to pc and to a register; a return. -/
theorem meets_BranchesTransfer :
    let s := loaded3 16#64 16#64 0#64
    (s.executes [] ∧ s.core.block = none ∧ s.core.predPoisoned 1#4 = false)
      ∧ (s.transfers [] ∧ s.transfers [1#6, 2#6] ∧ s.transfers [1#6] ∧ s.core.collect = false)
      ∧ (codeAddress (s.core.pc + (2#32).signExtend 64 <<< 3) ∧ codeAddress (s.core.getX 1#6 + (0xFFFFFFFF#32).signExtend 64 <<< 3)
        ∧ codeAddress (s.core.getX 1#6))
      ∧ s.core.getX 1#6 = s.core.getX 2#6 ∧ ¬s.core.getX 1#6 ≠ s.core.getX 2#6 := by
  unfold State.executes State.transfers codeAddress; decide

/-- Counts 0 and 1 end a loop, 2 goes on, to a target before pc. -/
theorem meets_Loop :
    let t := fun n : Word => loaded3 n 0#64 0#64
    (t 0#64).transfers [1#6] ∧ (t 1#64).transfers [1#6] ∧ (t 2#64).transfers [1#6] ∧ (t 2#64).core.getX 1#6 - 1#64 ≠ 0#64
      ∧ codeAddress (0x100#64 + (0xFFFFFFFF#32).signExtend 64 <<< 3) := by
  unfold State.transfers codeAddress; decide

/-- A phase table of one pair at 0x20: size 6, entry 0x40. -/
def phased (x : Word) : State :=
  let s := loaded3 x 0#64 0#64
  { s with pkg := { s.pkg with mem := ((s.pkg.mem.writeNat 0x20 8 1).writeNat 0x28 8 6).writeNat 0x30 8 0x40 } }

def phaseHead (x : Word) : State × List Word := ((phased x).codeWords 0x20#64 1).getD (phased x, [])
def phaseRows (x : Word) : State × List Word := ((phaseHead x).1.codeWords 0x28#64 2).getD (phased x, [])

/-- A count of the pair's size, and a lower one. -/
theorem meets_LoopAndPhase (x : Word) (h : x = 6#64 ∨ x = 1#64) :
    (phased x).transfers [1#6] ∧ (phased x).core.getX 1#6 = x ∧ codeAddress 0x40#64
      ∧ (phased x).PhaseTakes ((phased x).core.pc + (4#32).signExtend 64 <<< 3) x (phaseRows x).1 0x40#64 := by
  have key : ∀ y : Word, y = 6#64 ∨ y = 1#64 → (phased y).PhaseTakes 0x20#64 y (phaseRows y).1 0x40#64 := by
    intro y hy
    refine ⟨(phaseHead y).1, 1#64, [6#64, 0x40#64], 0, by decide, by decide, ?_, by decide, by decide, ?_, by decide, ?_, ?_,
      ?_, rfl⟩
    · rcases hy with rfl | rfl <;> rfl
    · rcases hy with rfl | rfl <;> rfl
    · rcases hy with rfl | rfl <;> decide
    · intro j hj; omega
    · intro j h1 h2; simp at h2; omega
  refine ⟨?_, ?_, ?_, ?_⟩
  · rcases h with rfl | rfl <;> (unfold State.transfers; decide)
  · rcases h with rfl | rfl <;> decide
  · unfold codeAddress; decide
  · rcases h with rfl | rfl
    · exact key 6#64 (.inl rfl)
    · exact key 1#64 (.inr rfl)

/-- pc or a register off a word's boundary, in the local space, beyond the virtual addresses; the loop's count above 1. -/
theorem meets_PrivilegeAndTransferTraps :
    ((covered true).core.block.isSome = true ∧ (covered true).core.super = true)
      ∧ (running.transfers [] ∧ (loaded3 4#64 4#64 0#64).transfers [1#6, 2#6])
      ∧ (let at_ := fun p : Word => (withCore fun c => regs 2#64 2#64 0#64 { c with pc := p })
        (at_ 4#64).transfers [1#6] ∧ (at_ 4#64).core.pc.extractLsb' 0 3 ≠ 0#3 ∧ 1 < ((at_ 4#64).core.getX 1#6).toNat
          ∧ (at_ 4#64).core.getX 1#6 = (at_ 4#64).core.getX 2#6)
      ∧ (loaded3 0x8000000000000000#64 0#64 0#64).core.getX 1#6 ≠ Config.retireToken
      ∧ (0x8000000000000000#64 : Word).extractLsb' 0 3 = 0#3 ∧ (0x8000000000000000#64 : Word).getLsbD 63 = true
      ∧ (0x0200000000000000#64 : Word).extractLsb' 57 6 ≠ 0#6 ∧ (0x0200000000000000#64 : Word).getLsbD 63 = false := by
  unfold State.transfers; decide

/-! ### Hypotheses met: traps -/

def pendingIn (super : Bool) : State :=
  { withCore fun c => { c with super := super, pending := [⟨3, 0, trapA, .engine .c0⟩] } with schedule := [.issue 0] }

theorem meets_PendingTrapsTaken :
    (running.core.block = none ∧ (covered true).core.lane0 = true)
      ∧ (let s := pendingIn false
        s.core.strand.isSome = true ∧ s.core.wait = none ∧ s.core.wfe = none ∧ s.standsHalted = false
          ∧ s.core.pending = ⟨3, 0, trapA, .engine .c0⟩ :: [] ∧ s.core.super = false
          ∧ s.mayIssue = true ∧ s.schedule = .issue s.core.num :: [])
      ∧ (pendingIn true).core.super = true ∧ (pendingIn true).core.strand.isSome = true := by decide

/-- TRAPPC 0x40 with a block of 8 words to open again; TRET.skip with none. -/
theorem meets_TrapReturn :
    let s := fun n : BitVec 4 => withCore fun c => { c with trappc := 0x40#64, pblkCount := n, taken := [.engine .l] }
    (∀ n ∈ [0#4, 1#4, 8#4], (s n).core.super = true ∧ (s n).core.block = none ∧ (s n).core.pblkCount.toNat ≤ 8)
      ∧ codeAddress (s 8#4).core.trappc ∧ codeAddress ((s 8#4).core.trappc + 8#64) := by
  unfold codeAddress; decide

/-! ### Hypotheses met: accesses of the control core -/

/-- The last doubleword of the scratchpad. -/
theorem meets_LocalAccesses :
    let s := loaded3 0x80000000003DFFF8#64 7#64 0#64
    (s.executes [1#6, 2#6] ∧ s.executes [1#6] ∧ AtLocal (s.core.getX 1#6 + (0#24).signExtend 64) 8 4063224
      ∧ s.core.collecting = false ∧ s.core.scratchPoisoned 4063224 8 = false ∧ s.core.inOpenStorage 4063224 8 = false)
      ∧ WindowOpen s (s.core.windowAt 4063224) false
      ∧ WindowOpen s (s.core.windowAt 4063224) true := by
  unfold State.executes AtLocal
  exact ⟨by decide, window_none (by decide), window_none (by decide)⟩

theorem nothing_due {s : State} {kind : GKind} {o n : Nat} (h : s.core.windowAt o = none) : s.NothingDue kind o n := by
  intro w l e
  rw [h] at e
  cases e

/-- No window, so that nothing is due, and no unseen write. -/
theorem meets_LocalAccesses_settled :
    let s := loaded3 0x80000000003DFFF8#64 7#64 0#64
    (∀ kind, s.NothingDue kind 4063224 8) ∧ s.core.unseenAt (s.core.locOf 4063224) 8 = false :=
  ⟨fun _ => nothing_due (by decide), by decide⟩

theorem nothing_due_at {s : State} {kind : GKind} {o n w l : Nat} (e : s.core.windowAt o = some (w, l))
    (h : s.holds { s.core.newOp 0 kind with pa := s.core.windowPa w o, size := n } s.core.ops = false) : s.NothingDue kind o n := by
  intro v k e'
  rw [e] at e'
  cases e'
  exact h

/-- Nothing holds back an access of the window's first line; the write of an ELAPP and an operation on the same bytes do. -/
theorem meets_LocalAccesses_due :
    let s := windowed (regs 0x80000000000007C0#64 7#64 0#64)
    s.NothingDue (.load .d) 1984 8 ∧ s.NothingDue .store 1984 8
      ∧ (let t := windowed fun c => { c with ops := [{ anOp .barInit with pa := 0x4000, size := 32 }] }
        ¬t.NothingDue (.load .d) 1984 8) :=
  ⟨nothing_due_at (w := 0) (l := 0) (by decide) (by decide), nothing_due_at (w := 0) (l := 0) (by decide) (by decide),
    fun h => absurd (h 0 0 (by decide)) (by decide)⟩

/-- A stashed line of a window. -/
theorem meets_LocalAccesses_window :
    let s := windowed (regs 0x80000000000007C0#64 7#64 0#64)
    (s.executes [1#6, 2#6] ∧ s.core.windowAt 1984 = some (0, 0) ∧ AtLocal (s.core.getX 1#6 + (0#24).signExtend 64) 8 1984)
      ∧ WindowOpen s (s.core.windowAt 1984) true := by
  unfold State.executes AtLocal
  exact ⟨by decide, window_open (by decide)⟩

/-- A load of an open list's storage in supervisor mode. -/
theorem meets_LocalAccesses_list :
    let s := listing true (regs 0x8000000000000048#64 0#64 0#64)
    (s.executes [1#6] ∧ AtLocal (s.core.getX 1#6 + (0#24).signExtend 64) 8 72 ∧ s.core.collecting = false
      ∧ s.core.scratchPoisoned 72 8 = false ∧ s.core.inOpenStorage 72 8 = true)
      ∧ WindowOpen s (s.core.windowAt 72) false := by
  unfold State.executes AtLocal
  exact ⟨by decide, window_none (by decide)⟩

/-- The last doubleword of the page: a load, a store, an atomic operation; a core with 4,094 outstanding operations of a
class is below the limit. -/
theorem meets_GlobalAccessesIssue :
    let s := loaded3 0x3FFFFFF8#64 7#64 0#64
    (s.executes [1#6] ∧ s.executes [1#6, 2#6] ∧ s.core.classG < 4095 ∧ s.core.classS < 4095 ∧ s.core.collecting = false
      ∧ s.core.windowOf 0x3FFFFFF8 = none)
      ∧ AtGlobal s 0x3FFFFFF8#64 8 .read (s.translate s.core.ctx 0x3FFFFFF8#64 .read).1 page0
      ∧ AtGlobal s 0x3FFFFFF8#64 8 .write (s.translate s.core.ctx 0x3FFFFFF8#64 .write).1 page0 := by
  unfold State.executes
  exact ⟨by decide, at_global (by decide) (by decide) (by decide), at_global (by decide) (by decide) (by decide)⟩

/-- The same through a stashed line. -/
theorem meets_GlobalAccessesIssue_window :
    let s := windowed (regs 0x4038#64 7#64 0#64)
    let u := (s.translate s.core.ctx 0x4038#64 .write).1
    let o : GOp := { u.core.newOp 0 .store with page := some page0, va := 0x4038#64, pa := 0x4038, size := 8, data := 7#64 }
    (s.executes [1#6, 2#6] ∧ u.core.windowOf 0x4038 = some (0, 0) ∧ u.holds o u.core.ops = false) ∧ AtGlobal s 0x4038#64 8 .write u page0
      ∧ WindowOpen u (u.core.windowOf 0x4038) true := by
  unfold State.executes
  exact ⟨by decide, at_global (by decide) (by decide) (by decide), window_open (by decide)⟩

/-- The line lies over the storage of an open list. -/
theorem meets_GlobalAccessesIssue_list :
    let s := (listing true fun c => { regs 0x4000#64 7#64 0#64 c with wins := c.wins.setIfInBounds 0 (some { window0 with loc := 0 }) })
    let u := (s.translate s.core.ctx 0x4000#64 .read).1
    (u.core.windowOf 0x4000 = some (0, 0) ∧ u.core.inOpenStorage (u.core.stashOffset 0 0 0x4000) 8 = true
      ∧ u.core.inOpenStorage (u.core.stashOffset 0 0 0x4020) 32 = true)
      ∧ WindowOpen u (u.core.windowOf 0x4000) false := ⟨by decide, window_open (by decide)⟩

theorem meets_Atomics :
    let s := loaded3 0x80000000003DFFF8#64 7#64 0#64
    (s.executes [1#6, 2#6] ∧ s.executes [1#6, 2#6, 3#6] ∧ s.core.collecting = false
      ∧ AtLocal (s.core.getX 1#6 + (0#24).signExtend 64) 8 4063224 ∧ s.core.scratchPoisoned 4063224 8 = false)
      ∧ WindowOpen s (s.core.windowAt 4063224) true
      ∧ (let g := loaded3 0x3FFFFFF8#64 7#64 0#64
        AtGlobal g 0x3FFFFFF8#64 8 .rmw (g.translate g.core.ctx 0x3FFFFFF8#64 .rmw).1 page0)
      ∧ leNat (natBytes 4 0x80000000) = (0x80000000#32).toNat ∧ leNat (natBytes 8 0x8000000000000000) = (0x8000000000000000#64).toNat := by
  unfold State.executes AtLocal
  exact ⟨by decide, window_none (by decide), at_global (by decide) (by decide) (by decide), by decide, by decide⟩

theorem meets_Atomics_seen :
    let s := loaded3 0x80000000003DFFF8#64 7#64 0#64
    ((s.settleWrite 4063224 8).mapCore fun c => c.pass (c.locOf 4063224) 8).core.scratchPoisoned 4063224 8 = false := by decide

/-- A misaligned address, the first local address beyond the scratchpad, and an address that no table maps. -/
theorem meets_AccessAddressTraps :
    let s := loaded3 0x80000000003E0000#64 7#64 0#64
    (s.executes [1#6, 2#6] ∧ s.core.classG < 4095 ∧ s.core.classS < 4095)
      ∧ ((s.core.getX 1#6 + (4#24).signExtend 64).toNat % 8 ≠ 0)
      ∧ ((s.core.getX 1#6).toNat % 8 = 0 ∧ (s.core.getX 1#6).getLsbD 63 = true ∧ Config.scratchBytes ≤ ((s.core.getX 1#6).extractLsb' 0 22).toNat)
      ∧ (pageOf s 0x40000000#64 .read = none ∧ pageOf s 0x40000000#64 .write = none ∧ (0x40000000#64 : Word).getLsbD 63 = false) := by
  unfold State.executes
  decide

/-! ### Hypotheses met: order and completion of accesses -/

/-- Nothing outstanding; an outstanding store. -/
theorem meets_FencesAndWaits :
    let q := running
    let b := withOps [anOp .store]
    (q.executes [] ∧ q.core.ops = [] ∧ q.core.work = [] ∧ q.core.l.cmds = [] ∧ q.core.c0.cmds = [] ∧ q.core.c1.cmds = []
      ∧ q.core.k.cmds = [] ∧ q.core.classS ≤ (0#4).toNat)
      ∧ (b.executes [] ∧ b.core.ops ≠ [] ∧ ¬((0#4 : BitVec 4) = 15#4 ∨ b.core.classS ≤ (0#4).toNat)) := by
  unfold State.executes
  decide

/-- An engine write that has been shown, and one that has not: 14 commands later, and 15. -/
def anUnseen (nth : Nat) (shown : Bool) : Unseen := ⟨.c1, nth, 0, scratchLoc 64, [1#8], [(0x100, 5#32)], shown⟩

theorem meets_FencesAndWaits_acquired :
    let s := withCore fun c => { c with unseen := [anUnseen 0 false, anUnseen 1 false, anUnseen 2 true], c1 := ⟨[], 16#16, none, none, 16⟩ }
    ((s.core.acquire fun u => u.shown || (14#4 != 15#4 && u.nth + 1 + (14#4 : BitVec 4).toNat ≤ (s.core.queue u.queue).count)).unseen
        = [])
      ∧ s.core.observeShown.unseen = [anUnseen 0 false, anUnseen 1 false] := by decide

theorem meets_OrderOfAccesses :
    (match (anOp .store).kind with | .fence _ => False | _ => True) ∧ (anOp .store).kind ≠ .handle ∧ (anOp (.load .d)).kind ≠ .handle ∧ mustPrecede (anOp .store) (anOp (.load .d)) [] = true :=
  ⟨trivial, by decide, by decide, by decide⟩

/-- The last byte of a line, and a whole line. -/
theorem meets_HomeWritesReadBack :
    running.pkg.mem.wf = true ∧ ([7#8] : List Byte) ≠ [] ∧ 63 % 64 + [7#8].length ≤ 64
      ∧ 64 % 64 + (List.replicate 64 7#8).length ≤ 64 := by decide

/-- A load, atomic operations, stores and a write-back that may be made; a poisoned line; a line that the host holds. -/
theorem meets_AccessesComplete :
    (∀ k ∈ [GKind.load .d, .amo .add .dword, .cas .dword 0#64, .store],
      (withOps [anOp k]).core.ops[0]? = some (anOp k) ∧ (withOps [anOp k]).holds (anOp k) [] = false)
      ∧ (let s := withOps [anOp (.load .d)]
        (anOp (.load .d)).got = none ∧ (anOp (.load .d)).tainted = false ∧ (anOp (.load .d)).overlay = [] ∧ s.hostHolds (0x100 / 64) = false ∧ ((s.reachFor s.core.ctx 0x100).look 0x100 8 0#6).2 = false)
      ∧ (let s := { withOps [anOp (.load .d)] with pkg := { running.pkg with poison := [4] } }
        s.hostHolds (0x100 / 64) = false ∧ ((s.reachFor s.core.ctx 0x100).look 0x100 8 0#6).2 = true)
      ∧ { withOps [anOp (.load .d)] with pkg := { running.pkg with hostLines := [(4, 0#512)] } }.hostHolds (0x100 / 64) = true
      ∧ (let o : GOp := { anOp .writeback with size := 0 }
        (withOps [o]).core.ops[0]? = some o ∧ (withOps [o]).holds o [] = false ∧ (withOps [o]).remoteStash 0 o = false) := by
  decide

/-- The operation's line is stashed by another core. -/
theorem meets_AccessesComplete_remote :
    let o : GOp := { anOp .store with va := 0x4000#64, pa := 0x4000 }
    let s := { withOps [o] with parked := [{ Core.reset 1 with wins := #v[some window0, none, none, none, none, none, none, none] }] }
    s.core.ops[0]? = some o ∧ s.holds o [] = false ∧ s.remoteStash 0 o = true ∧ o.kind = .store ∧ o.size ≠ 0
      ∧ s.hostHolds (o.pa / 64) = false := by decide

theorem meets_StepsActOnTheirCore : Instr.waitEnd 0 ∈ [Instr.registerWriteLanding 0, .waitEnd 0] := by decide

/-! ### Hypotheses met: windows, tags, barriers, groups -/

/-- The widest window, over the whole scratchpad; and one whose number is open already. -/
theorem meets_StashWindows :
    let s := loaded3 0x8000000000000000#64 0x4000#64 4063232#64
    (s.executes [1#6, 2#6, 3#6] ∧ s.core.collecting = false ∧ s.core.wins.getD 7 none = none
      ∧ s.core.wins.toList.filterMap id = [])
      ∧ (match s.translateExtent s.core.ctx 0x4000 4063232 .probe with | (_, .ok pages) => pages == [page0] | _ => false) = true
      ∧ ((s.core.getX 1#6).getLsbD 63 = true ∧ (s.core.getX 1#6).extractLsb' 22 41 = 0#41 ∧ 0 % 1984 = 0 ∧ 0x4000 % 64 = 0
        ∧ 4063232 % 1984 = 0 ∧ 0 + 4063232 ≤ 4063232)
      ∧ (page0.r = true ∧ page0.c = true ∧ paHome page0.pbase ≠ 1)
      ∧ (let w := windowed id
        w.executes [] ∧ (w.core.wins.getD 0 none).isSome = true ∧ w.core.dirty (selected (.one 0#3)) = true ∧ w.core.classS < 4095) := by
  unfold State.executes
  decide

/-- A window that meets an open one in the scratchpad; of no length; over a page that is not cached. -/
theorem meets_StashWindows_codes :
    (let s := windowed (regs 0x80000000000007C0#64 0x8000#64 1984#64);
      s.executes [1#6, 2#6, 3#6] ∧ s.core.collecting = false ∧ s.core.wins.getD 7 none = none
        ∧ (match s.translateExtent s.core.ctx 0x8000 1984 .probe with | (_, .ok pages) => pages == [page0] | _ => false) = true
        ∧ s.core.wins.toList.filterMap id = [window0] ∧ window0.len ≠ 0 ∧ ¬(1984 + 1984 ≤ window0.loc ∨ window0.loc + window0.len ≤ 1984))
      ∧ (let s := loaded3 0x8000000000000000#64 0x4000#64 0#64
        (s.core.getX 3#6).toNat = 0
          ∧ (match s.translateExtent s.core.ctx 0x4000 0 .probe with | (_, .ok pages) => pages == [] | _ => false) = true)
      ∧ (let s := (loaded3 0x8000000000000000#64 0x4000#64 4063232#64).mapPkg fun p => { p with mem := p.mem.write 0x3000 0x0F#8 }
        (match s.translateExtent s.core.ctx 0x4000 4063232 .probe with
          | (_, .ok pages) => pages.all (fun pg => pg.r && pg.c) == false | _ => false) = true) := by
  unfold State.executes
  refine ⟨⟨by decide, by decide, by decide, by decide, by decide, by decide, by decide⟩, ⟨by decide, by decide⟩, by decide⟩

/-- A wait for line 1 of the window, whose home is free, or held by the host. -/
theorem meets_StashLinesMove :
    let s := windowed fun c => { c with wait := some (.stash 0 1) }
    (s.core.wins.getD 0 none = some window0 ∧ 64 * 1 < window0.len ∧ s.core.linePa 0 1 = some (0x4040, page0)
      ∧ s.core.wait = some (.stash 0 1) ∧ s.core.stashed 0 1 = false ∧ s.stashOwner 0x4040 = none ∧ s.hostHolds (0x4040 / 64) = false
      ∧ ((s.reachFor s.core.ctx 0x4040).look 0x4040 64 0#6).2 = false)
      ∧ { s with pkg := { s.pkg with snoops := [0x101] } }.hostHolds (0x4040 / 64) = true := by decide

/-- Another core waits for a line that this one has stashed. -/
theorem meets_StashLinesMove_asked :
    let other := { Core.reset 1 with
      wins := #v[some { window0 with lines := [] }, none, none, none, none, none, none, none], wait := some (.stash 0 0) }
    let s := { windowed id with parked := [other] }
    s.core.linePa 0 0 = some (0x4000, page0) ∧ s.core.stashed 0 0 = true ∧ s.askedFor s.core.num 0x4000 = true
      ∧ s.core.wait ≠ some (.stash 0 0) ∧ s.core.ops = [] := by decide

theorem meets_StashLinesMove_writeBack :
    let s := windowed id
    window0.page 0 = some page0 ∧ page0.pa (window0.glob.toNat + 64 * 0) = 0x4000 ∧ s.pkg.mem.wf = true ∧ s.core.scratch.wf = true
      ∧ 0x4000 % 64 = 0 ∧ (s.reachFor s.core.ctx 0x4000).pkg.reach 0x4000 = .served := by decide

theorem meets_StashLinesMove_more :
    0x4040 % 64 = 0 ∧ (0, 0) ∉ (windowed id).core.filled ∧ (∀ p, Granule.pair p ∉ (windowed id).core.poison) :=
  ⟨by decide, by decide, fun p h => nomatch (show Granule.pair p ∈ ([] : List Granule) from h)⟩

/-- Tags 0 and 63: one set, one that a copy sets, and one that nothing sets. -/
theorem meets_TagsAndNests :
    let s := withCore fun c => { regs 0x8000000000000001#64 0#64 0#64 c with tags := 0x8000000000000000#64 }
    let d := withCore fun c => { regs 0x8000000000000000#64 0#64 0#64 c with c1 := ⟨[aCopy 63], 1#16, none, none, 1⟩ }
    let n := loaded3 0x8000000000000000#64 0#64 0#64
    (s.executes [1#6] ∧ s.executes [1#6, 2#6, 3#6] ∧ s.core.tags &&& s.core.getX 1#6 ≠ 0#64
      ∧ (s.core.tags &&& s.core.getX 1#6).getLsbD 63 = true ∧ (∀ k, k < 63 → (s.core.tags &&& s.core.getX 1#6).getLsbD k = false)
      ∧ (∀ k ∈ s.core.c0.cmds ++ s.core.c1.cmds, cmdTag k ≠ 0) ∧ (s.core.getX 1#6).getLsbD 0 = true ∧ s.core.tags.getLsbD 0 = false)
      ∧ (d.core.tags &&& d.core.getX 1#6 = 0#64 ∧ (d.core.getX 1#6).getLsbD 63 = true ∧ (∃ k ∈ d.core.c0.cmds ++ d.core.c1.cmds, cmdTag k = 63)
        ∧ d.core.tags &&& d.core.getX 1#6 ≠ d.core.getX 1#6)
      ∧ (n.core.getX 1#6 ≠ 0#64 ∧ n.core.tags &&& n.core.getX 1#6 = 0#64 ∧ (∀ t, t < 64 → (n.core.getX 1#6).getLsbD t = true →
        ¬∃ k ∈ n.core.c0.cmds ++ n.core.c1.cmds, cmdTag k = t))
      ∧ (running.executes [1#6, 2#6, 3#6] ∧ (running.core.getX 1#6).extractLsb' 32 32 = 0#32 ∧ running.core.collecting = false) := by
  unfold State.executes
  decide

/-- A barrier object in the last place of the page; its line is free. -/
theorem meets_BarriersIssue :
    let s := loaded3 0x3FFFFFE0#64 7#64 0#64
    s.core.waitingOn 0x3FFFFFE0 7#32 = none ∧ (s.core.classS < 4095 ∧ s.core.classG < 4095 ∧ s.executes [1#6, 2#6] ∧ s.executes [1#6] ∧ s.core.collecting = false)
      ∧ AtGlobal s 0x3FFFFFE0#64 32 .write (s.translate s.core.ctx 0x3FFFFFE0#64 .write).1 page0
      ∧ AtGlobal s 0x3FFFFFE0#64 32 .rmw (s.translate s.core.ctx 0x3FFFFFE0#64 .rmw).1 page0
      ∧ AtGlobal s 0x3FFFFFE0#64 32 .read (s.translate s.core.ctx 0x3FFFFFE0#64 .read).1 page0 := by
  unfold State.executes
  exact ⟨by decide, by decide, at_global (by decide) (by decide) (by decide), at_global (by decide) (by decide) (by decide),
    at_global (by decide) (by decide) (by decide)⟩

/-- The generations 1 and 2³¹ - 1 ahead, 0 ahead and 2³¹ ahead of the one presented. -/
theorem meets_BarriersIssue_generations :
    let gen := fun g : Nat =>
      { loaded3 0x100#64 0#64 0#64 with pkg := { running.pkg with mem := running.pkg.mem.writeNat 0x110 4 g } }
    let o : GOp := { running.core.newOp 0 .barGen with page := some page0, va := 0x100#64, pa := 0x100, size := 32 }
    (∀ g ∈ [0, 1, 2 ^ 31 - 1, 2 ^ 31],
      let u := ((gen g).translate 0 0x100#64 .read).1
      u.holds o u.core.ops = false ∧ u.hostHolds (0x100 / 64) = false
        ∧ ((u.reachFor 0 0x100).look 0x100 32 0#6).2 = false
        ∧ leNat ((((u.reachFor 0 0x100).look 0x100 32 0#6).1.drop 16).take 4) = g) := by
  decide

/-- A wait that the object's home has answered. -/
theorem meets_BarriersIssue_answered :
    let s := withCore fun c => { regs 0x100#64 0#64 0#64 c with barwt := [⟨c.pc, true, 0x100, 0#32, some 1#32⟩] }
    s.core.waitingOn 0x100 0#32 = some ⟨0#64, true, 0x100, 0#32, some 1#32⟩ := by decide

def barrierOp (kind : GKind) (size : Nat) : GOp := { anOp kind with size := size }

/-- An object that expects 2 of which 1 has arrived, another's arrival on its way; the generation about to be read. -/
theorem meets_BarrierObjects :
    let mem := ((running.pkg.mem.writeNat 0x100 8 2).writeNat 0x108 8 1).writeNat 0x110 4 5
    let s := fun o : GOp => { withOps [o] with pkg := { running.pkg with mem := mem } }
    (∀ kind ∈ [GKind.barInit, .barExp, .barArv],
      (s (barrierOp kind 32)).core.ops[0]? = some (barrierOp kind 32) ∧ (s (barrierOp kind 32)).holds (barrierOp kind 32) [] = false)
      ∧ (let t := s (barrierOp .barArv 32)
        t.hostHolds (0x100 / 64) = false ∧ ((t.reachFor 0 0x100).look 0x100 32 0#6).2 = false
          ∧ ((t.reachFor 0 0x100).look 0x100 32 0#6).1
            = natBytes 8 2 ++ natBytes 8 1 ++ natBytes 4 5 ++ 0#8 :: List.replicate 11 0#8)
      ∧ (let t := s (barrierOp .barGen 4)
        (barrierOp .barGen 4).got = none ∧ (barrierOp .barGen 4).overlay = [] ∧ ((t.reachFor 0 0x100).look 0x100 4 0#6).2 = false) := by
  decide

/-- Waits for generation 5 of a core in front and of a parked one. -/
theorem meets_BarrierObjects_waits :
    let w : BarwtRec := ⟨0#64, true, 0x100, 5#32, none⟩
    let t := { withCore (fun c => { c with barwt := [w] }) with parked := [{ Core.reset 1 with barwt := [w] }] }
    w ∈ t.core.barwt ∧ (∃ c, t.parked[0]? = some c ∧ w ∈ c.barwt) ∧ 1 ≤ ((6#32 : BitVec 32) - w.gen).toNat := by
  exact ⟨by decide, ⟨_, rfl, by decide⟩, by decide⟩

/-- Ranks 0 and 1 of a gang run on cores 0 and 1; rank 0 is a member of group 63 or not. -/
def aGang (groups : List Group) : Gang :=
  ⟨0, 0, 0#512, 0, false, 0, [⟨0, 0, .running⟩, ⟨1, 1, .running⟩], groups⟩

def ganged (groups : Word) (ops : List GOp) (gs : List Group) : State :=
  let s := withCore fun c => { regs 63#64 64#64 0#64 c with
    strand := some ⟨0#64, 0xFF#8, some 0, 0#2, 0#32⟩, groups := groups, ops := ops }
  { s with pkg := { s.pkg with gangs := [aGang gs] } }

theorem meets_GroupsIssue :
    let inside := ganged (1#64 <<< 63) [] []
    let outside := ganged 0#64 [] []
    (∀ s ∈ [inside, outside, running], s.executes [1#6] ∧ s.executes [] ∧ s.core.classS < 4095 ∧ s.core.classG < 4095
      ∧ s.core.collecting = false ∧ s.core.waitingBar = none)
      ∧ (inside.core.strand.bind fun t => t.gang) = some 0 ∧ (running.core.strand.bind fun t => t.gang) = none
      ∧ inside.core.groups.getLsbD (inside.core.getX 1#6).toNat = true ∧ outside.core.groups.getLsbD 63 = false
      ∧ (inside.core.getX 1#6).toNat < 64 ∧ 64 ≤ (inside.core.getX 2#6).toNat := by
  unfold State.executes
  decide

/-- Each operation at the home of a group, with no episode open, with one that awaits the other rank, with the last
arrival of one. -/
theorem meets_GroupsAtHome :
    let g63 := fun a : Option (List Nat) => [(⟨63, [0, 1], a, [], []⟩ : Group)]
    (∀ kind ∈ [GKind.gsize 63, .grank 63, .gjoin 63, .gleave 63, .gbar 63],
      let s := ganged (1#64 <<< 63) [anOp kind] (g63 none)
      s.core.ops[0]? = some (anOp kind) ∧ s.holds (anOp kind) [] = false ∧ (s.core.strand.bind fun t => t.gang) = some 0
        ∧ (s.pkg.gangs.find? fun x => x.id == 0) = some (aGang (g63 none)) ∧ (aGang (g63 none)).rankOf s.core.num = 0)
      ∧ (((aGang (g63 none)).group 63).awaited = none
        ∧ (((aGang (g63 none)).group 63).members.filter fun y => y != 0) ≠ [])
      ∧ (((aGang (g63 (some [0]))).group 63).awaited = some [0] ∧ ((aGang (g63 (some [0]))).group 63).next = [])
      ∧ pktPackages (aGang (g63 none)).packet = 1
      ∧ (let s := { ganged (1#64 <<< 63) [] [] with
          core := { (ganged (1#64 <<< 63) [] []).core with gbar := [⟨some 0#64, 63, true, true⟩] } }
        s.core.waitingBar.any (fun b => b.finished) = true ∧ s.core.collecting = false ∧ s.core.lane0 = true) := by
  decide

/-! ### Hypotheses met: scheduling -/

/-- A record of code address 0x40 with no preference; one with a reserved flag. -/
def aRecord : BitVec 256 := 0x40#256 ||| (0xFF#256 <<< 200)

def badRecord : BitVec 256 := aRecord ||| (1#256 <<< 208)

/-- A spread and a gang of one strand. -/
def aPacket (kind : Nat) : Line := BitVec.ofNat 512 kind ||| (0xFF#512 <<< 16) ||| (1#512 <<< 32) ||| (0x40#512 <<< 64)

def recordAt (r : BitVec 256) : State := withCore fun c => { regs 0x80000000003DFFE0#64 0#64 0#64 c with
  scratch := ⟨(0x3DFFE0, r.extractLsb' 0 8) :: (0x3DFFF9, r.extractLsb' 200 8)
    :: if r.extractLsb' 208 8 = 0#8 then [] else [(0x3DFFFA, r.extractLsb' 208 8)]⟩ }

theorem meets_RecordsIssue_spawn :
    (∀ b ∈ [false, true], let r := if b then badRecord else aRecord
      (recordAt r).executes [1#6] ∧ (recordAt r).core.classS < 4095
      ∧ (recordAt r).core.collecting = false ∧ AtLocal ((recordAt r).core.getX 1#6) 32 0x3DFFE0
      ∧ (recordAt r).core.scratchPoisoned 0x3DFFE0 32 = false ∧ (recordAt r).core.inOpenStorage 0x3DFFE0 32 = false
      ∧ leNat ((recordAt r).core.scratch.bytes 0x3DFFE0 32) = r.toNat)
      ∧ running.pkg.recordCode 0 (recImage aRecord) = none ∧ running.pkg.recordCode 0 (recImage badRecord) = some 0x11
      ∧ (recordAt aRecord).core.windowAt 0x3DFFE0 = none := by
  unfold State.executes AtLocal
  decide

def packetAt (k : Line) : State := parted <| withCore fun c => { regs 0x80000000003DFFC0#64 0#64 0#64 c with
  scratch := ⟨[(0x3DFFC0, k.extractLsb' 0 8), (0x3DFFC2, 0xFF#8), (0x3DFFC4, 1#8), (0x3DFFC8, 0x40#8)]
    ++ if k.extractLsb' 384 16 = 0#16 then [] else [(0x3DFFF1, k.extractLsb' 392 8)]⟩ }

theorem meets_RecordsIssue_launch :
    (∀ kind ∈ [1, 2, 3], let k := aPacket kind
      (packetAt k).executes [1#6] ∧ AtLocal ((packetAt k).core.getX 1#6) 64 0x3DFFC0
      ∧ leNat ((packetAt k).core.scratch.bytes 0x3DFFC0 64) = k.toNat ∧ pktStatus k = 0#64)
      ∧ (packetAt (aPacket 1)).packetCode 0 (aPacket 1) true = none ∧ (packetAt (aPacket 2)).packetCode 0 (aPacket 2) true = none
      ∧ (packetAt (aPacket 3)).packetCode 0 (aPacket 3) true = some 0x10
      ∧ (packetAt (aPacket 1)).core.windowAt 0x3DFFC0 = none := by
  unfold State.executes AtLocal
  decide

theorem meets_RecordsIssue_status :
    let k := aPacket 1 ||| (0x100#512 <<< 384)
    let s := packetAt k
    let v := s.mapCore fun c => c.bump 13 1
    pktStatus k = 0x100#64 ∧ AtGlobal v 0x100#64 8 .write (v.translate v.core.ctx 0x100#64 .write).1 page0
      ∧ (v.translate v.core.ctx 0x100#64 .write).1.packetCode 0 k true = none :=
  ⟨by decide, at_global (by decide) (by decide) (by decide), by decide⟩

/-- Context 0 with room for 64 records or for none. -/
def roomy (full : Bool) (o : GOp) : State :=
  let x : Context := { (running.pkg.ctx 0) with
    desc := (running.pkg.ctx 0).desc ||| (64#512 <<< 320)
    queues := if full then Vector.replicate 4 (List.replicate 64 (recImage aRecord).record) else Vector.replicate 4 [] }
  { withOps [o] with pkg := { running.pkg with contexts := running.pkg.contexts.set 0 x, hostPort := ⟨true, true, 16, true⟩ } }

theorem meets_PushesAccepted :
    (∀ kind ∈ [GKind.spawn aRecord, .launch (aPacket 1)], ∀ full ∈ [false, true],
      (roomy full (anOp kind)).core.ops[0]? = some (anOp kind) ∧ (roomy full (anOp kind)).holds (anOp kind) [] = false)
      ∧ (roomy false (anOp .store)).core.ctx < 64 ∧ ((roomy false (anOp .store)).pkg.ctx 0).valid = true
      ∧ (((roomy false (anOp .store)).pkg.ctx 0).queue 0#2).length + 1 ≤ ((roomy false (anOp .store)).pkg.ctx 0).cqcap
      ∧ ¬(((roomy true (anOp .store)).pkg.ctx 0).queue 0#2).length + 1 ≤ ((roomy true (anOp .store)).pkg.ctx 0).cqcap
      ∧ (pktKind (aPacket 1) = 1 ∧ pktStatus (aPacket 1) = 0#64
        ∧ (roomy false (anOp .store)).packetCode 0 (aPacket 1) true = none)
      ∧ ((roomy false (anOp .store)).pkg.hostPort.up = true ∧ (roomy false (anOp .store)).pkg.recovery = false
        ∧ ((roomy false (anOp .store)).pkg.ctx 0).valid = true ∧ ((roomy false (anOp .store)).pkg.ctx 63).valid = false
        ∧ (64 : Nat) < 4096 ∧ 64 % 64 = 0 ∧ (natBytes 64 (aPacket 1).toNat).length = 64) := by
  decide

/-- A free core, one record of each level, the lowest passed over 1,024 times or never. -/
def waiting (h : Nat) : State :=
  let r := (recImage aRecord).record
  let x : Context := { running.pkg.ctx 0 with
    desc := (running.pkg.ctx 0).desc ||| (64#512 <<< 320), queues := Vector.replicate 4 [r], h := #v[h, 0, 0] }
  let s := parted State.reset
  { s with pkg := { s.pkg.booted with contexts := s.pkg.contexts.set 0 x, partitions := s.pkg.partitions } }

theorem meets_StrandsStart_pop :
    ∃ r y, ((waiting 1024).pkg.ctx 0).pop = some (r, y) := ⟨_, _, rfl⟩

theorem meets_StrandsStart :
    let s := waiting 0
    0 < 128 ∧ s.chosen 0 = some 0 ∧ s.outranked 0 = false ∧ s.resumable 0 0 = none
      ∧ ((s.pkg.ctx 0).pop.map fun r => r.1) = some (recImage aRecord).record := by
  decide

theorem meets_StrandsStart_first : (waiting 0).beaten 0 0 (recImage aRecord).record = false := by decide

/-- A gang of one whose member is due on core 5. -/
def due : State :=
  let s := waiting 0
  { s with pkg := { s.pkg with gangs := [⟨0, 0, aPacket 2, 0, false, 0, [⟨0, 5, .reserved⟩], []⟩] } }

theorem meets_StrandsStart_gang :
    due.pkg.nextGang 5 = some (⟨0, 0, aPacket 2, 0, false, 0, [⟨0, 5, .reserved⟩], []⟩, ⟨0, 5, .reserved⟩) ∧ due.isFree 5 = true
      ∧ (due.pkg.ctx 0).valid = true ∧ (due.pkg.ctx 0).held = false ∧ 0 ≤ due.pkg.tick := by decide

/-- The gang's packet arrives, or is accepted at the window. -/
theorem meets_StrandsStart_packet :
    let s := parted (withOps [anOp (.launch (aPacket 2))])
    pktN (aPacket 2) / pktPackages (aPacket 2) = 1 ∧ (s.readPlacement 0 (aPacket 2)).placement 0 1 = some [0] ∧ (s.pkg.ctx 0).valid = true
      ∧ s.pkg.takesPart (aPacket 2) = true ∧ s.core.ops[0]? = some (anOp (.launch (aPacket 2)))
      ∧ s.holds (anOp (.launch (aPacket 2))) [] = false ∧ pktKind (aPacket 2) = 2 ∧ pktPackages (aPacket 2) = 1
      ∧ s.packetCode 0 (aPacket 2) true = none := by decide

/-- A port has accepted the flit of a packet that arrives. -/
theorem meets_StrandsStart_arrival :
    let s := (parted running).mapPkg fun p => { p with slathen := p.slathen.set 17 { p.slathen[17] with carried := 1 } }
    s.pkg.carrier = some 17 ∧ (s.readPlacement 0 (aPacket 2)).placement 0 1 = some [0] ∧ (s.pkg.ctx 0).valid = true ∧ s.pkg.takesPart (aPacket 2) = true := by
  decide

/-- A strand whose record names the join block at 0x100, or none, on a quiet core. -/
def retiring (join : Word) (f : Core → Core) : State := parted <| withCore fun c =>
  { f c with strand := some ⟨join, 0xFF#8, none, 0#2, 0#32⟩, x := c.x.set 1 0x7FFFFFFFFFFFFFF8#64 }

theorem meets_StrandsRetire :
    (let s := retiring 0#64 id;
      s.core.block = none ∧ s.core.collecting = false ∧ s.core.wins = Vector.replicate 8 none ∧ s.core.joinDue = none)
      ∧ (retiring 0x100#64 id).core.strand = some ⟨0x100#64, 0xFF#8, none, 0#2, 0#32⟩ ∧ (0x100#64 : Word) ≠ 0#64 := by decide

/-- The three ways to retire, quiet and not. -/
theorem meets_StrandsRetire_ways :
    let s := retiring 0#64 id
    (s.core.strand = some ⟨0#64, 0xFF#8, none, 0#2, 0#32⟩ ∧ s.core.ops = [] ∧ s.core.work = [] ∧ s.core.l.cmds = []
      ∧ s.core.c0.cmds = [] ∧ s.core.c1.cmds = [] ∧ s.core.k.cmds = [] ∧ s.core.getX 1#6 = 0x7FFFFFFFFFFFFFF8#64
      ∧ Granule.x 1#6 ∉ s.core.poison ∧ s.core.flight = [])
      ∧ (let w := retiring 0#64 fun c => { c with wait := some .retire }
        w.core.wait = some .retire ∧ w.core.time = w.pkg.now ∧ w.standsHalted = false ∧ w.core.super = true)
      ∧ (retiring 0#64 fun c => { c with ops := [anOp .store] }).core.ops ≠ [] := by decide

/-- Rank 0 of a gang leaves group 63, whose episode awaits it alone, or the other rank as well. -/
theorem meets_StrandsRetire_groups :
    let s := fun l : List Nat => ganged (1#64 <<< 63) [] [⟨63, [0, 1], some l, [], []⟩]
    ∀ l ∈ [[0], [0, 1]],
      let g := aGang [⟨63, [0, 1], some l, [], []⟩]
      ((s l).core.strand.bind fun t => t.gang) = some 0 ∧ ((s l).pkg.gangs.find? fun x => x.id == 0) = some g
        ∧ (g.groups.map fun x => x.id).Nodup ∧ (s l).core.joinDue ≠ some (s l).core.pc
        ∧ (g.group 63).awaited = some l ∧ g.rankOf (s l).core.num ∈ (g.group 63).members
        ∧ ((g.group 63).members.filter fun q => q != g.rankOf (s l).core.num) ≠ [] ∧ (g.group 63).next = [] := by decide

/-- Join counts 0, 1 and 2: the state after the first translation and after the second. -/
def joining (n : Byte) : State × State :=
  let s := (retiring 0x100#64 id).mapPkg fun p => { p with
    contexts := p.contexts.set 0 { p.ctx 0 with desc := (p.ctx 0).desc ||| (64#512 <<< 320) }
    mem := ⟨(if n = 0#8 then [] else [(0x100, n)]) ++ [(0x120, 0x40#8), (0x139, 0xFF#8)] ++ p.mem.cells⟩ }
  let empty := s.mapCore fun c => { c with
    queues := Vector.replicate 8 [], buffer := []
    poison := c.poison.filter fun g => match g with | .buffer _ => false | _ => true }
  let left := (((List.range 8).foldl State.closeWindow empty).leaveGroups).mapCore fun c => { c with joinDue := some s.core.pc }
  let v := ((left.translate 0 0x100#64 .rmw).1.recall 4).reachFor 0 0x100
  let z := ((v.translate 0 0x120#64 .read).1.recall 4).reachFor 0 0x120
  (v, z)

theorem meets_StrandsRetire_join :
    (∀ n ∈ [0, 1, 2],
      let v := (joining (BitVec.ofNat 8 n)).1
      pageOf v 0x100#64 .rmw = some page0 ∧ v.core.ctx = 0 ∧ (v.look 0x100 4 0#6).2 = false
        ∧ leNat (v.look 0x100 4 0#6).1 = n ∧ pageOf v 0x120#64 .read = some page0)
      ∧ (let z := (joining 1#8).2
        let cont := recImage (BitVec.ofNat 256 (leNat (z.look 0x120 32 0#6).1))
        (z.look 0x120 32 0#6).2 = false ∧ z.pkg.recordCode 0 cont = none
          ∧ (z.pkg.pushRecords 0 cont.record.prio [cont.record]).isSome = true) := by
  decide

/-! ### Hypotheses met: the vector unit -/

/-- No rounding and the least; the greatest code of the narrowest format, and the infinity of F32. -/
theorem meets_RoundingModes :
    ((2 : Int) ≤ 2 ∧ (2 : Int) < 3 ∧ 15 < 2 ^ fE2M1.width ∧ 0x7F800000 < 2 ^ fF32.width)
      ∧ fE2M1 ∈ [fF32, fBF16, fF16, fE5M2, fE4M3, fE3M2, fE2M3, fE2M1, fF64] ∧ fE2M1.decode 15 ≠ .nan
      ∧ fF32.decode 0x7F800000 ≠ .nan :=
  ⟨by decide, by simp, nofun, nofun⟩

/-- Headers with a scale and without, and one that is refused; operands in and past the range of the quotient. -/
theorem meets_RoundingModes_headers :
    (isNaN32 0xFF800000#32 = false ∧ (0xFF800000#32 : Lane).getLsbD 31 = true ∧ (0xFF800000#32 : Lane) ≠ 0x80000000#32)
      ∧ ((0x0007F000#32 : Lane).extractLsb' 28 4 = 0#4 ∧ (0x0007F000#32 : Lane).extractLsb' 12 8 ≠ 0#8
        ∧ (0x0007F000#32 : Lane).extractLsb' 12 8 ≠ 0xFF#8 ∧ (0x0FF00000#32 : Lane).extractLsb' 12 8 = 0#8
        ∧ (0x10000000#32 : Lane).extractLsb' 28 4 ≠ 0#4)
      ∧ (2 ^ 32 * (4096 * 2 ^ 0) < 1 * 2 ^ 45 ∧ 1 * 2 ^ 44 ≤ 2 ^ 32 * (4096 * 2 ^ 0)) := by decide

/-- Queue 1 shows an entry, q7 has 31. -/
def queued : State := withCore fun c => { c with
  queues := #v[[], [⟨0, some 1#4096, 0#64⟩], [], [], [], [], [], List.replicate 31 ⟨1, some 0#4096, 0#64⟩] }

/-- Registers, a popped queue, a peeked one; a register and a queue with one place left as destinations. -/
theorem meets_FloatVectors :
    (queued.delivers [.reg 0#6, .reg 47#6] ∧ queued.delivers [.pop 1#3, .reg 16#6, .reg 1#6] ∧ queued.delivers [.peek 1#3])
      ∧ (queued.accepts [.reg 0#6, .reg 47#6] (.reg 47#6) ∧ queued.accepts [.pop 1#3] (.push 7#3) ∧ queued.accepts [] (.push 0#3))
      ∧ (queued.core.predPoisoned 15#4 = false ∧ (quantFmt (8#5).toNat).isSome = true ∧ badPair 0 1 = false ∧ badPair 31 0 = true
        ∧ ((21#5 : FmtCode) = 0#5 ∨ (21#5 : FmtCode) = 21#5)) := by
  unfold State.accepts
  exact ⟨⟨delivers_of (by decide), delivers_of (by decide), delivers_of (by decide)⟩, ⟨trivial, by decide, by decide⟩, by decide⟩

theorem meets_IntegerVectors :
    (queued.delivers [.reg 0#6, .reg 47#6] ∧ queued.delivers [.pop 1#3, .reg 16#6, .reg 1#6] ∧ queued.delivers [.peek 1#3])
      ∧ (queued.accepts [.pop 1#3] (.push 7#3) ∧ queued.accepts [] (.reg 16#6))
      ∧ (∀ q ∈ [1#6, 2#6], Granule.x q ∉ queued.core.poison) := by
  unfold State.accepts
  exact ⟨⟨delivers_of (by decide), delivers_of (by decide), delivers_of (by decide)⟩, ⟨by decide, trivial⟩, by decide⟩

/-- p1 governs a block or not; p15 written and p15 governing. -/
theorem meets_PredicatesAndScalars :
    (running.delivers [.reg 0#6, .reg 47#6] ∧ (covered false).delivers [.reg 0#6])
      ∧ ((∀ k, (covered true).core.block = some k → k.pred ≠ 15#4) ∧ ¬∀ k, (covered true).core.block = some k → k.pred ≠ 1#4)
      ∧ ((∀ k ∈ [1#4, 2#4, 15#4], running.core.predPoisoned k = false) ∧ (covered true).core.lane0 = true
        ∧ (covered false).core.lane0 = false ∧ running.executes [63#6])
      ∧ (isNaN32 0x7FC00000#32 = true ∧ isNaN32 0#32 = false) := by
  unfold State.executes
  refine ⟨⟨delivers_of (by decide), delivers_of (by decide)⟩, ⟨?_, ?_⟩, by decide, by decide⟩
  · intro k e; cases e; decide
  · intro h; exact h _ rfl rfl

/-- The last lane and the last register, whose slot is older than the depth. -/
theorem meets_VectorWritesLand :
    let c := { running.core with vdepth := 32#6, vage := Vector.replicate 32 32#6 }
    127 < 128 ∧ (47#6 : BitVec 6).toNat < 48 ∧ 16 ≤ (47#6 : BitVec 6).toNat ∧ c.vdepth ≠ 0#6
      ∧ c.vdepth.toNat ≤ (c.vage.getD (c.vslot 47#6 - 16) 0#6).toNat := by decide

/-- The last eight words of the scratchpad. -/
theorem meets_VectorMemory :
    let s := loaded3 0x80000000003DFE00#64 1#64 0#64
    s.WordsAt (s.core.getX 1#6 + (0#24).signExtend 64) 1 (fun i => 4062720 + 64 * i) true
      ∧ (s.delivers [.reg 47#6] ∧ s.accepts [] (.reg 47#6))
      ∧ ((∀ q ∈ [1#6, 2#6], Granule.x q ∉ s.core.poison) ∧ s.core.collecting = false)
      ∧ ∀ k, k < 8 → s.core.scratchPoisoned (4062720 + 64 * k) 64 = false ∧ s.core.inOpenStorage (4062720 + 64 * k) 64 = false := by
  refine ⟨⟨⟨4062720, ?_, fun i _ => by dsimp only; omega⟩, ?_, ?_, ?_⟩, ⟨delivers_of (by decide), trivial⟩, by decide, by decide⟩
  · unfold AtLocal; decide
  · intro i h; have := h.1; show 4062720 + 64 * i + 64 ≤ 4063232; omega
  · intro i j h k n; have := h.1; have := k.1; dsimp only; omega
  · intro i h
    have : ∀ k, k < 8 → (loaded3 0x80000000003DFE00#64 1#64 0#64).core.windowAt (4062720 + 64 * k) = none := by decide
    exact window_none (this i h.1)

/-- Nothing is due and no write is unseen. -/
theorem meets_VectorMemory_settled :
    let s := loaded3 0x80000000003DFE00#64 1#64 0#64
    (∀ kind k n, s.NothingDue kind (4062720 + 64 * k) n)
      ∧ ∀ k, k < 8 → s.core.unseenAt (s.core.locOf (4062720 + 64 * k)) 64 = false := by
  refine ⟨fun kind k n => nothing_due ?_, by decide⟩
  unfold Core.windowAt
  rw [show (loaded3 0x80000000003DFE00#64 1#64 0#64).core.wins = Vector.replicate 8 none from rfl]
  rfl

/-- A stride of 31 words. -/
theorem meets_VectorMemory_banks :
    let s := loaded3 0x8000000000000000#64 31#64 0#64
    (s.accepts [] (.reg 0#6)) ∧ ((∀ q ∈ [1#6, 2#6], Granule.x q ∉ s.core.poison) ∧ AtLocal (s.core.getX 1#6 + (0#24).signExtend 64) 64 0
      ∧ s.core.block = none ∧ (∀ i : Nat, i < 8 → 0 ≤ (0 / 64 : Int) + i * 31 ∧ (0 / 64 : Int) + i * 31 ≤ 63487)
      ∧ (s.core.getX 2#6).toInt % 31 = 0) := by
  unfold AtLocal
  exact ⟨trivial, by decide⟩

theorem no_window {s : State} (h : s.core.wins = Vector.replicate 8 none) (o : Nat) : s.core.windowAt o = none := by
  unfold Core.windowAt
  rw [h]
  rfl

/-- No window is open and nothing is outstanding. -/
theorem meets_VectorMemory_outside :
    let s := loaded3 0x80000000003DFE00#64 1#64 0#64
    (∀ k m, s.core.windowAt (4062720 + 64 * k + m) = none) ∧ s.core.work = []
      ∧ ∀ k m n, s.NothingDue .store (4062720 + 64 * k + m) n :=
  ⟨fun _ _ => no_window rfl _, rfl, fun _ _ _ => nothing_due (no_window rfl _)⟩

/-- The last statistics entry; buffers of 127 lanes, with and without room in q4; an entry to pop. -/
theorem meets_StatisticsAndStreams :
    let full := withCore fun c => { c with
      buffer := List.replicate 127 0#32, queues := c.queues.set 4 (List.replicate 32 ⟨0, some 0#4096, 0#64⟩) }
    let free := withCore fun c => { c with buffer := List.replicate 127 0#32 }
    (running.delivers [.reg 47#6] ∧ running.accepts [] (.reg 47#6))
      ∧ ((loaded3 1023#64 7#64 0#64).executes [1#6, 2#6] ∧ (loaded3 1023#64 7#64 0#64).core.getX 1#6 = 1023#64
        ∧ (∀ g, g < 4 → Granule.stat 1023 g ∉ running.core.poison) ∧ Granule.x 1#6 ∉ running.core.poison)
      ∧ (running.core.predPoisoned 15#4 = false ∧ free.core.buffer.length < 128 ∧ (free.core.queues[4]).length < 32
        ∧ ¬(full.core.queues[4]).length < 32 ∧ free.core.buffer ≠ [])
      ∧ (free.core.visible 4#3 = none ∧ (full.core.visible 4#3).isSome = true)
      ∧ ∀ g, Granule.buffer g ∉ free.core.poison := by
  unfold State.executes
  exact ⟨⟨delivers_of (by decide), trivial⟩, by decide, by decide, by decide, fun g h => nomatch (show Granule.buffer g ∈ ([] : List Granule) from h)⟩

/-- An entry of one value 2.0 before another 3.0; one whose maximum is infinite; a NaN. -/
theorem meets_StatisticsAndStreams_values :
    let e : StatEntry := ⟨1#32, 0x40000000#32, 0x40800000#32, 0x40000000#32, 0x3F800000#32, 0#32, 0#32, 0#32⟩
    let x := fun l : Lane => e.accumulate 1#128 (ofLanes fun _ => l)
    (finite32 (x 0x40400000#32).m = true ∧ isNaN32 (x 0x40400000#32).m = false ∧ e.n ≠ 0#32)
      ∧ ((match ofF32 (x 0x7F800000#32).m with | .inf false => true | _ => false) = true)
      ∧ isNaN32 (x 0x7FC00000#32).m = true := by decide

/-! ### Hypotheses met: waits, the system family, effect lists -/

/-- A WFE about to issue, watching nothing or the line of 0x100; one that has seen an event, or whose timeout is over. -/
theorem meets_EventsAndWaits_wfe :
    let s := loaded3 0x100#64 0#64 0#64
    let waits := fun r : WfeRec => withCore fun c => { c with wfe := some r }
    (s.executes [1#6] ∧ s.core.wfe = none ∧ running.core.getX 1#6 = 0#64 ∧ s.core.getX 1#6 = 0x100#64)
      ∧ (pageOf s 0x100#64 .read = some page0 ∧ (s.translate 0 0x100#64 .read).1.core.lastLoad ≠ some (4, true))
      ∧ (let t := withCore fun c => { regs 0x100#64 0#64 0#64 c with lastLoad := some (4, true) }
        (t.translate 0 0x100#64 .read).1.core.lastLoad = some (4, true))
      ∧ ((waits ⟨2#6, 0, 0, none, 4#5⟩).executes [] ∧ (4#5 : BitVec 5) ≠ 0#5)
      ∧ (Config.ticksOf running.core.time = 0 ∧ ¬((1 : Nat) ≠ 0 ∧ 0 + 1 ≤ Config.ticksOf running.core.time)) := by
  unfold State.executes
  decide

/-- A wait that ends, one that does not, and a write in flight. -/
theorem meets_EventsAndWaits_end :
    let s := fun w => withCore fun c => { c with wait := some w, flight := [⟨c.cycle + 3, 0, .x 5#6 7#64⟩] }
    ((s (.entry 1#3)).core.time = (s (.entry 1#3)).pkg.now ∧ ((s (.entry 1#3)).core.visible 1#3).isSome = false
      ∧ (s (.entry 1#3)).core.wait = some (.entry 1#3))
      ∧ (s (.classes 0#4 15#4 0#4 0#4 0#4)).core.classG ≤ (0#4).toNat
      ∧ ((s .drain).core.ops = [] ∧ (s .drain).core.work = [] ∧ (s .drain).core.l.cmds = [])
      ∧ (∀ f ∈ (s .drain).core.flight, (s .drain).core.cycle ≤ f.land ∧ ∀ g ∈ (s .drain).core.flight, f.land ≤ g.land)
      ∧ running.core.wait = none := by
  refine ⟨by decide, by decide, by decide, ?_, by decide⟩
  intro f m
  cases m with
  | head => exact ⟨by decide, fun g k => by cases k with | head => exact Nat.le_refl _ | tail _ h => cases h⟩
  | tail _ h => cases h

/-- An image of context 0 at 0x100000. -/
def imaged (f : Core → Core) : State :=
  let s := withCore fun c => f (regs 0x100000#64 0x100004#64 0#64 c)
  { s with pkg := { s.pkg with mem := ⟨s.pkg.mem.cells ++ [(0x100000, 1#8), (0x100002, 1#8)]⟩ } }

/-- The pool's first GiB serves. -/
theorem low_serves {pa : Nat} (h : pa < 2 ^ 30) : (imaged id).pkg.reach pa = .served := by
  have hs : homeSlice pa < 256 := by
    have h8 : ∀ a b : Nat, a < 2 ^ 8 → b < 2 ^ 8 → a ^^^ b < 2 ^ 8 := fun a b => Nat.xor_lt_two_pow
    simp only [homeSlice, List.range, List.range.loop, List.foldl]
    repeat' refine h8 _ _ ?_ ?_
    all_goals first | exact Nat.mod_lt _ (by decide) | decide
  have hh : homeHub pa = 8 ∨ homeHub pa = 9 := by unfold homeHub; omega
  have hd : (imaged id).pkg.dieServes (homeHub pa) = true := by rcases hh with h | h <;> rw [h] <;> decide
  have hc : decCovers bootDecoder pa = true := by
    simp only [decCovers, show decValid bootDecoder = true by decide, show decBase bootDecoder = 0 by decide,
      show decSize bootDecoder = 2 ^ 30 by decide, Bool.true_and, Bool.and_eq_true, decide_eq_true_eq]
    omega
  have h0 : decCovers 0#256 pa = false := by
    simp only [decCovers, show decValid 0#256 = false by decide, Bool.false_and]
  have hl : (imaged id).pkg.decoders.toList = bootDecoder :: List.replicate 15 0#256 := by decide
  have hf : (imaged id).pkg.decoders.toList.filter (fun d => decCovers d pa) = [bootDecoder] := by
    rw [hl, List.filter_cons, if_pos hc, List.filter_replicate_of_neg (by simp [h0])]
  have hp : (imaged id).pkg.poolPort pa = some 0 := by
    simp only [Package.poolPort, hf, show decBase bootDecoder = 0 by decide, show decWays bootDecoder = 1 by decide,
      Nat.mod_one]
    decide
  simp only [Package.reach, hp, hd, show paHome pa = 0 by unfold paHome; omega]
  rfl

theorem meets_SystemInstructions_image :
    let s := imaged id
    let w := (s.advance (s.core.lastLanding - s.core.cycle)).recallArea s.core.ctx 0x100000 Config.imageBytes
    (s.core.super = true ∧ s.executes [1#6] ∧ (s.core.getX 1#6).toNat % 4096 = 0 ∧ (s.core.getX 1#6).toNat < 2 ^ 52
      ∧ s.core.ops = [] ∧ s.core.work = [] ∧ s.core.flight = [] ∧ (s.core.getX 2#6).toNat % 4096 ≠ 0)
      ∧ (w.spoiledImage 0x100000 0#6 = none ∧ w.physNat (0x100000 + 2) 1 0#6 % 2 = 1 ∧ w.physNat (0x100000 + 0) 2 0#6 = 1
        ∧ w.physNat (0x100000 + 4) 1 0#6 = s.core.ctx ∧ w.physNat (0x100000 + 3) 1 0#6 % 2 = 0 ∧ (s.pkg.ctx s.core.ctx).ptkey = 0#6)
      ∧ (imaged fun c => { c with ops := [anOp .store] }).core.ops ≠ [] := by
  refine ⟨by unfold State.executes; decide, ?_, by decide⟩
  obtain ⟨x, hx⟩ := State.recallArea_served (s := imaged id) (ctx := 0) (pa := 0x100000) (n := Config.imageBytes) rfl fun a _ h =>
    have h0 : a < 2 ^ 30 := Nat.lt_trans h (by decide)
    ⟨by unfold paHome; omega, low_serves h0⟩
  show (State.recallArea ((imaged id).advance ((imaged id).core.lastLanding - (imaged id).core.cycle)) 0 0x100000 Config.imageBytes).spoiledImage 0x100000 0#6 = none ∧ _
  rw [show (imaged id).advance ((imaged id).core.lastLanding - (imaged id).core.cycle) = imaged id from rfl,
    show (imaged id).core.ctx = 0 from rfl, hx]
  have hn : ∀ a n, ((imaged id).withContexts x).physNat a n 0#6 = (imaged id).physNat a n 0#6 := fun _ _ => rfl
  rw [hn, hn, hn, hn]
  refine ⟨?_, by decide, by decide, by decide, by decide, by decide⟩
  simp only [State.spoiledImage, List.findSome?_eq_none_iff, List.find?_eq_none]
  intro r hr o ho
  simp only [Bool.and_eq_true, decide_eq_true_eq, not_and, Bool.not_eq_true]
  intro hb
  simp only [State.physBad, List.any_eq_false, Bool.not_eq_true]
  intro p hp
  have := pieces_mem _ hp
  have hv : r.1 + r.2 ≤ 2 ^ 28 := (show ∀ r ∈ vitalRegions, r.1 + r.2 ≤ 2 ^ 28 by decide) r hr
  have h2 : ((imaged id).withContexts x).stashOwner p.1 = none := by
    rfl
  have h3 : ((imaged id).withContexts x).pkg.reach p.1 = .served := low_serves (by omega)
  simp only [State.look, h2, h3]
  rfl

/-- A quiet core, and one with an entry in a queue and a command in another: what CTXSV saves, in an area that serves. -/
theorem meets_SystemInstructions_save :
    let s := imaged id
    (s.core.settling = false ∧ s.dropsShared = false ∧ s.drains = true ∧ s.core.wins = Vector.replicate 8 none
      ∧ s.pkg.hostLines = [] ∧ s.pkg.mem.wf = true ∧ s.core.vdead 47 = false)
      ∧ (∀ b, 0x100000 ≤ b → b < 0x100000 + Config.imageBytes → s.pkg.reach b = .served ∧ s.stashOwner b = none)
      ∧ (let t := imaged fun c => { c with queues := c.queues.set 7 [⟨0, some 1#4096, 0#64⟩], k := ⟨[aCmd (.skinit 1#20 1#6) .queued 0#64 0#64 0#64 0#64], 1#16, none, none, 1⟩ }
        (t.core.queues.getD 7 [])[0]? = some ⟨0, some 1#4096, 0#64⟩ ∧ (t.core.queue .k).cmds[0]? = some (aCmd (.skinit 1#20 1#6) .queued 0#64 0#64 0#64 0#64)
          ∧ t.core.settling = false ∧ t.dropsShared = false ∧ t.drains = true)
      ∧ (imaged fun c => { c with work := [⟨.eldrop 1#6, [], 0#64, 0#64, 0#16, 0#64, 0, 0, 0, 0, false, []⟩] }).core.settling = true := by
  refine ⟨by decide, fun b h k => ⟨low_serves (Nat.lt_trans k (by decide)), rfl⟩, ⟨rfl, rfl, rfl, rfl, by decide⟩, by decide⟩

theorem meets_SystemInstructions_steps :
    let t := anOp (.tlbinv .page 0)
    let held := { withOps [t] with pkg := { running.pkg with held := [page0] } }
    let used := (withOps [t, { anOp .store with page := some page0 }])
    (held.core.ops[0]? = some t ∧ held.holds t [] = false ∧ (∀ g ∈ held.core.countedPages, ¬(g.ctx = 0 ∧ g.covers 0x100 = true)))
      ∧ used.core.ops[0]? = some t
      ∧ (let k := anOp (.keyset 63#6 5#512)
        (withOps [k]).core.ops[0]? = some k ∧ (withOps [k]).holds k [] = false) := by decide

/-- The pages that a window or a running command counts hold a TLBINV back. -/
theorem meets_SystemInstructions_counted :
    let s := windowed fun c => { c with ops := [anOp (.tlbinv .ctx 0)] }
    s.core.ops[0]? = some (anOp (.tlbinv .ctx 0)) ∧ s.holds (anOp (.tlbinv .ctx 0)) [] = false
      ∧ ∃ g ∈ s.core.countedPages, g.ctx = 0 := by decide

/-- The last line of the scratchpad holds a key pair; identifier 63 may be used, and 0 not. -/
theorem meets_SystemInstructions_keyset :
    let s := (loaded3 0x80000000003DFFC0#64 0#64 0#64).mapPkg fun p => { p with
      contexts := p.contexts.set 0 { p.ctx 0 with desc := (p.ctx 0).desc ||| (1#512 <<< 191) } }
    (s.core.super = true ∧ s.executes [1#6] ∧ s.core.classS < 4095 ∧ (s.pkg.ctx s.core.ctx).keymask.getLsbD 63 = true
      ∧ (s.pkg.ctx s.core.ctx).keymask.getLsbD 62 = false ∧ AtLocal (s.core.getX 1#6) 64 4063168
      ∧ s.core.scratchPoisoned 4063168 64 = false ∧ s.core.inOpenStorage 4063168 64 = false)
      ∧ WindowOpen s (s.core.windowAt 4063168) true := by
  unfold State.executes AtLocal
  exact ⟨by decide, window_none (by decide)⟩

/-- A region at the end of the scratchpad, and one that does not start on a stripe. -/
theorem meets_CollectingCalls_call :
    let s := withCore fun c => { regs 0x40#64 0#64 0#64 c with elbase := 4061248#22, elcap := 1984#22 }
    let t := withCore fun c => { regs 0x40#64 0#64 0#64 c with elbase := 64#22, elcap := 1984#22 }
    (s.transfers [1#6] ∧ codeAddress (s.core.getX 1#6 + (4#32).signExtend 64 <<< 3) ∧ s.core.collect = false
      ∧ 4061248 % 1984 = 0 ∧ 1984 % 1984 = 0 ∧ s.core.elbase.toNat + s.core.elcap.toNat ≤ 4063232
      ∧ (s.core.slots[0]).state = .free ∧ ∀ l ∈ s.core.slots.toList, l.state ≠ .live)
      ∧ (t.transfers [1#6] ∧ t.core.elbase.toNat % 1984 ≠ 0) := by
  unfold State.transfers codeAddress
  decide

/-- A collecting strand at depths 0, 254 and 255; its next store is the last that its storage takes, or the first that it
does not. -/
theorem meets_CollectingCalls_list :
    let s := fun n d : Nat => (listing false (regs 0x40#64 0x80000000000007C0#64 0#64)).mapCore fun c => { c with
      opened := some ⟨0#4, 0, n, d⟩ }
    (∀ d ∈ [0, 254, 255], (s 0 d).core.opened = some ⟨0#4, 0, 0, d⟩ ∧ (s 0 d).core.collect = true ∧ (s 0 d).core.super = false
      ∧ (s 0 d).transfers [1#6] ∧ codeAddress ((s 0 d).core.getX 1#6))
      ∧ ((s 0 0).core.capacity ⟨0#4, 0, 23, 0⟩ = 24 ∧ (s 0 0).core.capacity ⟨0#4, 0, 24, 0⟩ = 24)
      ∧ ((s 23 0).executes [1#6, 2#6] ∧ AtLocal ((s 23 0).core.getX 2#6 + (0#24).signExtend 64) 8 1984
        ∧ (s 23 0).core.windowAt 1984 = none ∧ (s 23 0).core.scratchPoisoned 1984 8 = false
        ∧ (s 23 0).core.inOpenStorage 1984 8 = false ∧ (s 23 0).core.unseenAt ((s 23 0).core.locOf 1984) 8 = false) := by
  unfold State.executes State.transfers codeAddress AtLocal
  decide

/-- A collecting strand stores to the page's last doubleword, or 512 bytes to the end of the scratchpad. -/
def gathering (n : Nat) : State :=
  (listing false (regs 0x3FFFFFF8#64 0x80000000003DFE00#64 1#64)).mapCore fun c => { c with opened := some ⟨0#4, 0, n, 0⟩ }

theorem meets_CollectingCalls_global :
    let u := fun n : Nat => ((gathering n).translate (gathering n).core.ctx 0x3FFFFFF8#64 .write).1
    (∀ n ∈ [23, 24], (gathering n).executes [1#6, 2#6] ∧ (u n).core.collecting = true ∧ (u n).core.opened = some ⟨0#4, 0, n, 0⟩
        ∧ (u n).core.capacity ⟨0#4, 0, n, 0⟩ = 24 ∧ (gathering n).core.classS < 4095)
      ∧ AtGlobal (gathering 23) 0x3FFFFFF8#64 8 .write (u 23) page0
      ∧ (u 23).core.Appends ⟨0#4, 0, 23, 0⟩ 1 := by
  refine ⟨?_, at_global (by decide) (by decide) (by decide), fun p _ _ => no_window rfl p⟩
  unfold State.executes
  decide

theorem meets_CollectingCalls_vector :
    let s := gathering 16
    (s.delivers [.reg 47#6] ∧ s.accepts [] (.reg 47#6) ∧ Granule.x 2#6 ∉ s.core.poison)
      ∧ (∀ writes, s.WordsAt (s.core.getX 2#6 + (0#24).signExtend 64) 1 (fun i => 4062720 + 64 * i) writes)
      ∧ s.core.Appends ⟨0#4, 0, 16, 0⟩ 8
      ∧ s.Runs ((List.range 8).map fun i => (i, 0, 16))
      ∧ (∀ k, s.core.windowAt (4062720 + 64 * k) = none)
      ∧ ∀ k, k < 8 → s.core.unseenAt (s.core.locOf (4062720 + 64 * k)) 64 = false ∧ s.core.inOpenStorage (4062720 + 64 * k) 64 = false
        ∧ s.core.scratchPoisoned (4062720 + 64 * k) 64 = false
        ∧ s.core.mergedPoison (BitVec.ofNat 64 (2 ^ 63 + (4062720 + 64 * k))) 64 = false := by
  have all : ∀ k : Nat, k < 128 → (gathering 16).core.passMask.getLsbD k = true := by decide
  refine ⟨⟨delivers_of (by decide), trivial, by decide⟩, fun writes => ⟨⟨4062720, ?_, fun i _ => by dsimp only; omega⟩, ?_, ?_, ?_⟩,
    fun p _ _ => no_window rfl p, ⟨?_, ?_⟩, fun k => no_window rfl _, by decide⟩
  · unfold AtLocal; decide
  · intro i h; have := h.1; show 4062720 + 64 * i + 64 ≤ 4063232; omega
  · intro i j h k n; have := h.1; have := k.1; dsimp only; omega
  · intro i _; exact window_none (no_window rfl _)
  · decide
  · intro i r m
    simp only [List.mem_map, List.mem_range, Prod.mk.injEq]
    constructor
    · rintro ⟨k, hk, rfl, rfl, rfl⟩
      exact ⟨hk, by decide, by decide, fun j hj => all _ (by omega), .inl rfl, .inl rfl⟩
    · rintro ⟨hi, hm, hr, _, hl, hu⟩
      have h0 : r = 0 := hl.resolve_right fun h => h (all _ (by omega))
      have h1 : r + m = 16 := by
        rcases hu with h | h
        · exact h
        · exact Decidable.byContradiction fun k => h (all _ (by omega))
      exact ⟨i, hi, rfl, h0.symm, by omega⟩

/-- Slots 0 and 15 hold live lists of one and two entries, of generations 1 and 4,095. -/
def listed (f : Core → Core) : State := withCore fun c => f { regs 0x10#64 0xFFFF#64 0x20#64 c with
  slots := (c.slots.set 0 ⟨1#12, .live, [(0, 1)]⟩).set 15 ⟨4095#12, .live, [(1984, 2)]⟩ }

/-- Two live handles, one that is not live, one with reserved bits. -/
theorem meets_ListsIssue :
    let s := listed id
    (s.executes [1#6, 2#6, 3#6] ∧ s.executes [1#6] ∧ s.core.classG < 4095 ∧ s.core.classS < 4095 ∧ s.core.collecting = false)
      ∧ ((s.core.getX 1#6).extractLsb' 16 48 = 0#48 ∧ (s.core.getX 1#6).extractLsb' 0 4 = 0#4 ∧ (s.core.slots[0]).state = .live
        ∧ (s.core.slots[0]).gen = (s.core.getX 1#6).extractLsb' 4 12 ∧ (s.core.getX 1#6).extractLsb' 4 12 ≠ 0#12)
      ∧ ((s.core.getX 2#6).extractLsb' 0 4 = 15#4 ∧ (s.core.slots[15]).gen = (s.core.getX 2#6).extractLsb' 4 12)
      ∧ (s.core.getX 1#6 ≠ s.core.getX 2#6 ∧ (s.core.slots[0]).entries + (s.core.slots[15]).entries ≤ 4096
        ∧ (s.core.slots[0]).segs.length + (s.core.slots[15]).segs.length ≤ 16)
      ∧ ((s.core.getX 3#6).extractLsb' 16 48 = 0#48 ∧ (s.core.slots[0]).gen ≠ (s.core.getX 3#6).extractLsb' 4 12)
      ∧ (0x10010#64 : Word).extractLsb' 16 48 ≠ 0#48 := by
  unfold State.executes
  decide

/-- The unit's head: an instruction on the list of one entry at 0, whose entry stores 8 bytes at 1984 of the scratchpad, or
is void. -/
def unitAt (i : Instr) (void : Bool) (done : Nat) (f : Core → Core) : State := withCore fun c => f { c with
  scratch := ⟨[(0, 0xC0#8), (1, 7#8), (6, 8#8), (9, if void then 0xC0#8 else 0x80#8), (16, 5#8)]⟩
  work := [⟨i, [(0, 1)], 0#64, 0xFFFFFFFFFFFFFFFF#64, 0x10#16, 0#64, 0, done, 0, 0, false, []⟩] }

theorem meets_ListUnit :
    (∀ i ∈ [Instr.elcat 1#6 2#6 3#6, .elget 1#6 2#6 3#6, .eldrop 1#6, .ellen 1#6 2#6, .elflt 1#6 2#6 3#6, .elrbs 1#6 2#6 3#6,
        .elapp .plain 1#6],
      ((unitAt i false 0 id).core.work.map fun w => (w.instr, w.stopped)) = [(i, false)] ∧ (unitAt i false 0 id).engineRuns = true)
      ∧ (let s := unitAt (.elapp .plain 1#6) false 0 id
        let e := s.core.entryAt 0
        segEntries [(0, 1)] = [0] ∧ 0 < (segEntries [(0, 1)]).length ∧ s.core.entryPoison 0 false = none ∧ s.core.entryPoison 0 true = none
          ∧ s.core.windowAt 0 = none ∧ e.live = true ∧ e.isLocal = true ∧ e.addr = 1984 ∧ e.size = 8
          ∧ e.addr + e.size ≤ Config.scratchBytes ∧ s.core.windowAt e.addr = none)
      ∧ ((unitAt (.elapp .plain 1#6) true 0 id).core.entryAt 0).live = false
      ∧ (segEntries [(0, 1)]).length ≤ 1 := by decide

/-- The entry is kept, or lies outside; its new address is a local one; it is poisoned. -/
theorem meets_ListUnit_entries :
    let e := (unitAt (.elflt 1#6 2#6 3#6) false 0 id).core.entryAt 0
    ((0#64).toNat ≤ e.address.toNat ∧ e.address.toNat + e.size ≤ (0xFFFFFFFFFFFFFFFF#64).toNat)
      ∧ ¬(e.live = false ∨ ((0#64).toNat ≤ e.address.toNat ∧ e.address.toNat + e.size ≤ (0x8000000000000000#64).toNat))
      ∧ ((e.address - 0#64 + 0#64).getLsbD 63 = true ∧ (e.address - 0#64 + 0#64).extractLsb' 22 41 = 0#41)
      ∧ ((unitAt (.ellen 1#6 2#6) false 0 fun c => { c with poison := [.scratch 1] }).core.entryPoison 0 false).isSome = true
      ∧ (let h : GOp := { anOp .handle with dst := 5#6, data := 0x10#64 }
        (withOps [h]).core.ops[0]? = some h ∧ (withOps [h]).holds h [] = false) := by decide

/-- The unit's head: an ELAPP of the list of one entry at 0, which stores 8 bytes at 0x100 of memory. -/
def applying (r : ElRelease) (done live malformed : Nat) (f : Core → Core) : State := withCore fun c => f { c with
  issued := 9
  scratch := ⟨[(1, 1#8), (6, 8#8), (16, 5#8)]⟩
  work := [⟨.elapp r 1#6, [(0, 1)], 0#64, 0#64, 0x10#16, 0#64, 5, done, live, malformed, false, []⟩] }

/-- A translation that tells the core of nothing. -/
theorem quiet_translation {s : State} {ctx : Nat} {va : Word} {acc : Acc} (hl : s.pkg.hostLines = [])
    (h : let u := (s.translate ctx va acc).1; u.core.pending = s.core.pending ∧ u.core.wfe = s.core.wfe) :
    let u := (s.translate ctx va acc).1
    u.core = { s.core with activity := u.core.activity } := by
  have k := (State.translate_reached s ctx va acc hl).1
  rw [Told, h.1, h.2] at k
  exact k

/-- The unit's ELAPP in both forms, the release form before its scan, at its last live entry, past it, and after every entry with
that one left and with none. -/
theorem meets_ListUnit_global :
    let s := applying .plain 0 0 0 id
    let e := s.core.entryAt 0
    (e.live = true ∧ e.isLocal = false ∧ e.address = 0x100#64 ∧ e.size = 8 ∧ s.core.entryPoison 0 true = none)
      ∧ (∀ x ∈ [(ElRelease.plain, 0, 0, 0), (.rel .package, 0, 0, 0), (.rel .package, 0, 1, 1), (.rel .package, 1, 1, 1), (.rel .package, 1, 0, 1)],
        let t := applying x.1 x.2.1 x.2.2.1 x.2.2.2 id
        let u := (t.translate t.core.ctx 0x100#64 .write).1
        t.engineRuns = true ∧ (t.core.work.map fun w => w.stopped) = [false] ∧ pageOf t 0x100#64 .write = some page0
          ∧ t.pkg.hostLines = [] ∧ u.core.pending = t.core.pending ∧ u.core.wfe = t.core.wfe ∧ t.core.windowOf 0x100 = none
          ∧ t.core.ops = [] ∧ u.pkg.linkFull 0x100 = false)
      ∧ (let t := applying (.rel .package) 1 1 1 fun c => { c with ops := [{ anOp .store with order := 3 }] }
        pageOf t 0x100#64 .write = some page0
          ∧ ((t.translate t.core.ctx 0x100#64 .write).1.core.ops.any fun p => decide (p.order < 5)) = true) := by
  decide

/-! ### Hypotheses met: the engines -/

/-- Operands in x1, x2, x3 and x4. -/
def operands (a b c d : Word) : State := withCore fun k => { regs a b c k with x := (regs a b c k).x.set 4 d }

/-- What every command needs; in user mode its bound is not zero. -/
theorem meets_EngineCommandsIssue :
    let s := operands 0#64 0#64 0#64 0#64
    (s.executes [4#6, 1#6, 2#6, 3#6] ∧ s.core.super = true ∧ s.core.collecting = false)
      ∧ (user.executes [4#6, 1#6, 2#6, 3#6] ∧ user.core.super = false ∧ (1#20 : BitVec 20) ≠ 0#20) := by
  unfold State.executes
  decide

/-- AMAP to the last entry from the last 128 bytes; AANG; ACFG; ARUN; ASAVE; ASTAT: local areas, so no page is pinned. -/
theorem meets_EngineCommandsIssue_local :
    let x := (operands 0x80000000003DFF80#64 63#64 0#64 0#64).core.getX
    (9 ≤ (x 2#6).toNat ∧ (x 2#6).toNat ≤ 63 ∧ (x 1#6).toNat % 128 = 0 ∧ (x 1#6).getLsbD 63 = true
      ∧ (x 1#6).extractLsb' 22 41 = 0#41 ∧ ((x 1#6).extractLsb' 0 22).toNat + 128 ≤ Config.scratchBytes
      ∧ 0x3FF03#64 &&& ~~~0x3FF03#64 = 0#64 ∧ fieldNat (running.core.qfmt[0]) 8 5 = 0)
      ∧ Pins running [(0x80000000003DFF80#64, 128, .read)] running [] :=
  ⟨by decide, ⟨running, [], [], rfl, ⟨rfl, rfl⟩, rfl, rfl⟩⟩

/-- ARUNV of format 12 from the scratchpad to memory: the pages of its destination are pinned. -/
theorem meets_EngineCommandsIssue_pins :
    let x := (operands 0x8000000000000000#64 0x4000#64 1#64 0#64).core.getX
    let u := (running.translateExtent 0 0x4000 512 .write).1
    ((12#5 : FmtCode).toNat ≤ 12 ∧ (x 1#6).toNat % 64 = 0 ∧ (x 2#6).toNat % 64 = 0 ∧ (x 2#6).getLsbD 63 = false)
      ∧ Pins running [(0x8000000000000000#64, 1 * runvBytes 12, .read), (0x4000#64, 512, .write)] u [page0] :=
  ⟨by decide, running, [], [page0], rfl, ⟨_, [page0], [], rfl, ⟨rfl, rfl⟩, rfl⟩, rfl, rfl⟩

/-- AVEC of 128 rows and columns with no output; APROD of one element of F32 each, to q1 and to a local C. -/
theorem meets_EngineCommandsIssue_matrices :
    let x := (operands 0x8000000000000000#64 0x8080#64 0#64 0#64).core.getX
    let h := shapeOf 0#64
    ((x 2#6).extractLsb' 16 48 = 0#48 ∧ fieldNat (x 2#6) 0 8 = 128 ∧ fieldNat (x 2#6) 8 8 = 128
      ∧ 512 * (128 - 1) + 4 * 128 ≤ Config.scratchBytes)
      ∧ (h.refused true false = false ∧ h.refused false true = false ∧ h.m * pitchOf h.fa h.k ≤ Config.scratchBytes
        ∧ h.bytesB ≤ Config.scratchBytes ∧ (0#64 : Word).extractLsb' 59 5 = 0#5) := by decide

/-- A sketch address, counts, coefficients. -/
theorem meets_EngineCommandsIssue_sketches :
    ((0x10000#64 : Word).toNat % 64 = 0 ∧ (0x10000#64 : Word).getLsbD 63 = false ∧ (0xFFFFFFFF#64 : Word).extractLsb' 32 32 = 0#32)
      ∧ (finite32 0x7F7FFFFF#32 = true ∧ finite32 0x80000000#32 = true ∧ (0x80000000#32 : Lane).extractLsb' 0 31 = 0#31) := by decide

/-- A copy of 512 bytes within the scratchpad under tag 63, with its arrival; its sides pin nothing. -/
theorem meets_EngineCommandsIssue_copy :
    let w : Word := 512#64 ||| (63#64 <<< 34)
    let k := controlOf w
    let sides := k.sides 0x80000000003DFE00#64 0x8000000000000000#64 nestStart
    (k.reserved w 0x80000000003DFE00#64 0x8000000000000000#64 nestStart = false ∧ k.badFormat = false ∧ k.tag = 63
      ∧ (sides.all fun f => !f.skewed && !f.outside) = true ∧ k.arrive = false ∧ k.xf = some .none)
      ∧ (match pinSides false sides running with | .ok (p, _) => p == [] | .error _ => false) = true := by decide

theorem meets_EngineCommandsIssue_qdrop : (0xFFFF#64 : Word).extractLsb' 16 48 = 0#48 := by decide

theorem meets_LatticeSteps_begin :
    (heading .l (aCmd (.acfg 1#20 1#6 2#6) .queued 0#64 0#64 0#64 0#64) id).mayBegin .l
        (aCmd (.acfg 1#20 1#6 2#6) .queued 0#64 0#64 0#64 0#64) []
      ∧ (heading .l (aCmd (.avec false 1#20 1#6 2#6 3#6) .queued 0#64 0#64 0#64 0#64) id).mayBegin .l
        (aCmd (.avec false 1#20 1#6 2#6 3#6) .queued 0#64 0#64 0#64 0#64) []
      ∧ (heading .l (aCmd (.asave false 1#20 1#6) .queued 0#64 0#64 0#64 0#64) id).mayBegin .l
        (aCmd (.asave false 1#20 1#6) .queued 0#64 0#64 0#64 0#64) []
      ∧ (aCmd (.acfg 1#20 1#6 2#6) .queued 0#64 0#64 0#64 0#64).sweep.resumed = none
      ∧ (aCmd (.acfg 1#20 1#6 2#6) .queued 0#64 0#64 0#64 0#64).sweep.done = 0
      ∧ (aCmd (.acfg 1#20 1#6 2#6) .queued 0#64 0#64 0#64 0#64).begun = false :=
  ⟨begins_of (by decide), begins_of (by decide), begins_of (by decide), rfl, rfl, rfl⟩

/-- AMAP of entry 63 from the identity map at the end of the scratchpad. -/
def mapping : State := heading .l (aCmd (.amap false 1#20 1#6 2#6) .queued 0#64 0x80000000003DFF80#64 63#64 0#64) fun c =>
  { c with scratch := ⟨(List.range 127).map fun k => (4063104 + k + 1, BitVec.ofNat 8 (k + 1))⟩ }

theorem meets_LatticeSteps_map :
    mapping.mayBegin .l (aCmd (.amap false 1#20 1#6 2#6) .queued 0#64 0x80000000003DFF80#64 63#64 0#64) []
      ∧ Plain mapping 0x80000000003DFF80#64 128 4063104 ∧ (63#64 : Word).toNat < 64
      ∧ mapping.core.unseenAt (mapping.core.locOf 4063104) 128 = false
      ∧ mapValid (BitVec.ofNat 1024 (leNat (mapping.core.scratch.bytes 4063104 128))) = true :=
  ⟨begins_of (by decide), plain_of (by decide), by decide, by decide, by decide⟩

/-- A run of one vector through a schedule of one stage, fetched already; an entry waits in q0, and q1 has one place. -/
def passing : State :=
  let m := aCmd (.arun 1#20 1#6) .running 0#64 1#64 0#64 0#64
  heading .l { m with sweep := { m.sweep with stages := some [] } } fun c => { c with
    queues := (c.queues.set 0 [⟨0, some 1#4096, 0#64⟩]).set 1 (List.replicate 31 ⟨0, some 0#4096, 0#64⟩)
    lat := { c.lat with binding := some ⟨0#64, 1, false, 0#64, 0#64, 0#64, 0#64⟩ } }

theorem meets_LatticeSteps_pass :
    (∃ m, passing.hasRunning .l m [] ∧ m.sweep.resumed = none ∧ m.sweep.done < m.a.toNat ∧ m.sweep.stages = some []
      ∧ fieldNat m.qfmt 8 5 = 0)
      ∧ passing.core.lat.binding = some ⟨0#64, 1, false, 0#64, 0#64, 0#64, 0#64⟩ ∧ rangeOf 1 passing.core.lat.range = some (0, 1)
      ∧ passing.core.lat.config.extractLsb' 0 2 = 0#2 ∧ (passing.core.visible 0#3).isSome = true
      ∧ (passing.core.queues[1]).length < 32 := by
  refine ⟨⟨_, runs_of ⟨rfl, rfl, rfl, rfl⟩, rfl, by decide, rfl, by decide⟩, by decide, by decide, by decide, by decide, by decide⟩

/-- A lane of each kind; an angle that is no multiple of a quarter turn; a pair of the XOR map 1 and its cell 3, and a map's lane
without a partner. -/
theorem meets_LatticeSteps_lanes :
    (0x80000000#32 : Lane).extractLsb' 0 31 = 0#31 ∧ (0x3F800000#32 : Lane).extractLsb' 23 8 ≠ 255#8
      ∧ (0x7FC00000#32 : Lane).extractLsb' 23 8 = 255#8 ∧ (0x7FC00000#32 : Lane).extractLsb' 0 23 ≠ 0#23
      ∧ (0xC0000001#32 : Lane).extractLsb' 0 30 ≠ 0#30
      ∧ (let v : BitVec 1024 := BitVec.ofNat 1024 (leNat ((List.range 128).map fun k => BitVec.ofNat 8 (k ^^^ 1)))
        mapValid v = true ∧ (mapCells v)[3]? = some 6 ∧ partner v 6 = 7)
      ∧ (let v : BitVec 1024 := BitVec.ofNat 1024 (leNat ((List.range 128).map fun k => BitVec.ofNat 8 k))
        mapValid v = true ∧ partner v 127 = 127) := by decide

/-- A gradient of one vector, with its two entries in q0 and two places in q1. -/
theorem meets_LatticeSteps_gradient :
    let m := aCmd (.agrad 1#20 1#6) .running 0#64 1#64 0#64 0#64
    let m : Cmd := { m with sweep := { m.sweep with stages := some [] } }
    let s := heading .l m fun c => { c with
      queues := (c.queues.set 0 [⟨0, some 1#4096, 0#64⟩, ⟨1, some 2#4096, 0#64⟩]).set 1 (List.replicate 30 ⟨0, some 0#4096, 0#64⟩)
      lat := { c.lat with binding := some ⟨0#64, 1, false, 0#64, 0#64, 0#64, 0#64⟩ } }
    s.hasRunning .l m [] ∧ m.sweep.resumed = none ∧ m.sweep.done < m.a.toNat ∧ fieldNat m.qfmt 8 5 = 0
      ∧ rangeOf 1 s.core.lat.range = some (0, 1)
      ∧ (s.core.queues[0].map fun e => (e.img, e.poison)) = [(some 1#4096, 0#64), (some 2#4096, 0#64)]
      ∧ (s.core.queues[1]).length < 31 :=
  ⟨runs_of ⟨rfl, rfl, rfl, rfl⟩, rfl, by decide, by decide, by decide, by decide, by decide⟩

/-- A tile of 3 rows and 2 columns in the scratchpad's last 1,536 bytes: its first two pivots. -/
theorem meets_LatticeSteps_eliminate :
    ∀ x ∈ [(0, 0, 2), (1, 0, 1)],
      let m := aCmd (.avec false 1#20 1#6 2#6 3#6) .running 0#64 0x80000000003DFA00#64 (3#64 ||| (2#64 <<< 8)) 0#64
      let m : Cmd := { m with sweep := { m.sweep with done := x.1 } }
      let s := heading .l m id
      let row := fun q : Nat => m.a + BitVec.ofNat 64 (512 * q)
      let o := 4061696 + 512 * (x.2.2 - 1)
      s.hasRunning .l m [] ∧ m.sweep.resumed = none ∧ m.c = 0#64 ∧ x.2.1 < x.2.2 ∧ x.2.2 < vecRows m.b ∧ x.2.1 < vecCols m.b
        ∧ x.1 = ((List.range x.2.1).map fun t => vecRows m.b - 1 - t).sum + (vecRows m.b - 1 - x.2.2)
        ∧ m.sweep.done + 1 < m.vecTotal ∧ m.sweep.out.length < 127 ∧ m.olds = []
        ∧ Plain s (row (x.2.2 - 1)) 8 o ∧ Plain s (row x.2.2) 8 (o + 512)
        ∧ s.core.unseenAt (s.core.locOf o) 8 = false ∧ s.core.unseenAt (s.core.locOf (o + 512)) 8 = false := by
  intro x h
  simp only [List.mem_cons, List.not_mem_nil, or_false] at h
  rcases h with rfl | rfl <;>
    exact ⟨runs_of (by decide), rfl, rfl, by decide, by decide, by decide, by decide, by decide, by decide, rfl,
      plain_of (by decide), plain_of (by decide), by decide, by decide⟩

/-- A product of 2 rows, 2 columns and 9 terms, of floats and of integers: its first K-chunk and its last, of one term. -/
theorem meets_LatticeSteps_product :
    ∀ w ∈ [0x20081#64, 0x20081#64 ||| (8#64 <<< 28) ||| (9#64 <<< 33)], ∀ j ∈ [0, 1],
      let m := aCmd (.aprod false 1#20 false 1#6 2#6 3#6 4#6) .running w 0x80000000003DF000#64 0x80000000003DF800#64 0#64
      let m : Cmd := { m with d := w, sweep := { m.sweep with done := j, acc := if j = 0 then [] else [1#4096, 2#4096] } }
      let s := heading .l m id
      let h := shapeOf m.d
      s.hasRunning .l m [] ∧ m.sweep.resumed = none ∧ h.grouped = false
        ∧ (h.fa ≤ 7 ∧ h.fb ≤ 7 ∨ 8 ≤ h.fa ∧ h.fa ≤ 12 ∧ 8 ≤ h.fb ∧ h.fb ≤ 12) ∧ 16 * m.sweep.panel < h.m ∧ m.sweep.skipped = 0
        ∧ 8 * j < h.k ∧ (j = 0 → h.c0 = false) ∧ (0 < j → m.sweep.acc.length = min 16 (h.m - 16 * m.sweep.panel)) ∧ m.olds = []
        ∧ (∀ i, i < min 16 (h.m - 16 * m.sweep.panel) →
          Plain s (m.a + BitVec.ofNat 64 ((16 * m.sweep.panel + i) * pitchOf h.fa h.k)) (rowBytes h.fa h.k) (4059136 + i * pitchOf h.fa h.k)
            ∧ s.core.unseenAt (s.core.locOf (4059136 + i * pitchOf h.fa h.k)) (rowBytes h.fa h.k) = false)
        ∧ ∀ i, i < min 8 (h.k - 8 * j) →
          Plain s (m.b + BitVec.ofNat 64 ((8 * j + i) * pitchOf h.fb h.n)) (rowBytes h.fb h.n) (4061184 + (8 * j + i) * pitchOf h.fb h.n)
            ∧ s.core.unseenAt (s.core.locOf (4061184 + (8 * j + i) * pitchOf h.fb h.n)) (rowBytes h.fb h.n) = false := by
  intro w hw j hj
  simp only [List.mem_cons, List.not_mem_nil, or_false] at hw hj
  rcases hw with rfl | rfl <;> rcases hj with rfl | rfl <;>
    exact ⟨runs_of (by decide), rfl, by decide, by decide, by decide, rfl, by decide, by decide, by decide, rfl,
      fun i h => ⟨plain_of (by revert i; decide), by revert i; decide⟩, fun i h => ⟨plain_of (by revert i; decide), by revert i; decide⟩⟩

theorem meets_LatticeSteps_end :
    let m := aCmd (.acfg 1#20 1#6 2#6) .running 0#64 0#64 0#64 0#64
    let m : Cmd := { m with sweep := { m.sweep with done := 1 } }
    let s := heading .l m id
    s.hasRunning .l m [] ∧ m.latticeDone = true ∧ s.pkg.partials = []
      ∧ (let r := aCmd (.arun 1#20 1#6) .running 0#64 1#64 0#64 0#64
        (heading .l r id).hasRunning .l r [] ∧ r.sweep.reload = false ∧ 1 ≤ r.a.toNat ∧ (heading .l r id).core.lat.binding = none
          ∧ (heading .l r id).core.lat.save = 0#64) :=
  ⟨runs_of (by decide), by decide, by decide, runs_of (by decide), rfl, by decide, by decide, by decide⟩

/-- A copy command of 512 bytes: it zeroes the last 512 bytes; it streams from q5 to them; it is done; it is refused. -/
def zeroing : Cmd := aCmd (.cpgo .ce1 false 1#20 1#6 2#6 3#6 0#6) .queued 0x80000000003DFE00#64 0#64 (512#64 ||| (6#64 <<< 21)) 0#64

def streaming (n : Nat) : Cmd :=
  let m := aCmd (.cpgo .ce1 false 1#20 1#6 2#6 3#6 0#6) .running 0x80000000003DFE00#64 0#64 (512#64 ||| (1#64 <<< 44)) 0#64
  { m with sweep := { m.sweep with done := n } }

def refusedCopy : Cmd := { zeroing with refused := some trapA }

theorem meets_CopySteps :
    ((heading .c1 zeroing id).mayBegin .c1 zeroing [] ∧ (controlOf zeroing.b).dbl = false ∧ (controlOf zeroing.b).streams = false
      ∧ (controlOf zeroing.b).xf = some .zero ∧ zeroing.word.getLsbD 8 = false ∧ (∀ l ∈ zeroing.nest, l.count = 1#32)
      ∧ Plain (heading .c1 zeroing id) zeroing.d (controlOf zeroing.b).len 4062720)
      ∧ (let s := heading .c1 (streaming 0) fun c => { c with queues := c.queues.set 5 [⟨0, some 1#4096, 0#64⟩] }
        s.hasRunning .c1 (streaming 0) [] ∧ (controlOf (streaming 0).b).sq = 1 ∧ (controlOf (streaming 0).b).dq = 0
          ∧ (controlOf (streaming 0).b).xf = some .none ∧ (controlOf (streaming 0).b).len = 512 ∧ 0 < copiesOf (streaming 0).nest
          ∧ (s.core.visible (endpoint 1)).isSome = true
          ∧ Plain s ((streaming 0).d + (offsetsAt (streaming 0).nest 0).2) 512 4062720)
      ∧ ((heading .c1 (streaming 1) id).hasRunning .c1 (streaming 1) [] ∧ (controlOf (streaming 1).b).arrive = false
        ∧ copiesOf (streaming 1).nest ≤ 1 ∧ (controlOf (streaming 1).b).streams = true)
      ∧ ((heading .c1 refusedCopy id).core.c1.cmds = [refusedCopy] ∧ (heading .c1 refusedCopy id).engineRuns = true
        ∧ refusedCopy.status = .queued ∧ (heading .c1 refusedCopy id).core.c1.began = none) :=
  ⟨⟨begins_of (by decide), by decide, by decide, by decide, by decide, by decide, plain_of (by decide)⟩,
    ⟨runs_of (by decide), by decide, by decide, by decide, by decide, by decide, by decide, plain_of (by decide)⟩,
    ⟨runs_of (by decide), by decide, by decide, by decide⟩, by decide⟩

/-- A demand copy of zeros that ends at the scratchpad's end; a copy of the 512 bytes before those it writes. -/
def demanding : Cmd := { zeroing with word := 1#64 <<< 8 }

def copying : Cmd :=
  aCmd (.cpgo .ce1 false 1#20 1#6 2#6 3#6 0#6) .running 0x80000000003DFE00#64 0x80000000003DFC00#64 512#64 0#64

theorem meets_CopySteps_more :
    ((heading .c1 demanding id).mayBegin .c1 demanding [] ∧ (controlOf demanding.b).streams = false ∧ demanding.word.getLsbD 8 = true
      ∧ (controlOf demanding.b).xf ≠ some .addw ∧ (∀ l ∈ demanding.nest, l.count = 1#32)
      ∧ Plain (heading .c1 demanding id) demanding.d (controlOf demanding.b).written 4062720)
      ∧ (let s := heading .c1 copying id
        s.hasRunning .c1 copying [] ∧ (controlOf copying.b).streams = false ∧ (controlOf copying.b).arrive = false
          ∧ (controlOf copying.b).dbl = false ∧ copying.word.getLsbD 8 = false ∧ (∀ l ∈ copying.nest, l.count = 1#32)
          ∧ copying.sweep.done = 0 ∧ (controlOf copying.b).xf = some .none
          ∧ Plain s copying.d (controlOf copying.b).len 4062720 ∧ Plain s copying.a (controlOf copying.b).len 4062208
          ∧ copying.olds = [] ∧ s.core.unseenAt (s.core.locOf 4062208) (controlOf copying.b).len = false)
      ∧ (let m : Cmd := { zeroing with status := .running }
        (heading .c1 m id).hasRunning .c1 m [] ∧ m.word.getLsbD 8 = false ∧ (controlOf m.b).arrive = false)
      ∧ ((controlOf (streaming 1).b).dq = 0 ∧ (streaming 1).word.getLsbD 8 = false) :=
  ⟨⟨begins_of (by decide), by decide, by decide, by decide, by decide, plain_of (by decide)⟩,
    ⟨runs_of (by decide), by decide, by decide, by decide, by decide, by decide, by decide, by decide, plain_of (by decide),
      plain_of (by decide), by decide, by decide⟩,
    ⟨runs_of (by decide), by decide, by decide⟩, by decide⟩

/-- A sketch of kind 1 with 3 rows of 1,024 counters at 0x10000. -/
def sketched (m : Cmd) : State := (heading .k m fun c => { c with scratch := ⟨[(0, 5#8), (8, 1#8)]⟩ }).mapPkg fun p => { p with
  mem := ⟨p.mem.cells ++ [(0x10000, 1#8), (0x10001, 3#8), (0x10002, 10#8), (0x10003, 1#8), (0x10018, 1#8)]⟩ }

def updating (st : CmdStatus) (n done : Nat) : Cmd :=
  let m := aCmd (.skupd false 1#20 1#6 2#6 3#6) st 0x10000#64 0x8000000000000000#64 (BitVec.ofNat 64 n) 0#64
  { m with sweep := { m.sweep with done := done } }

def refusedUpdate : Cmd := { updating .queued 1 0 with refused := some trapA }

theorem meets_SketchSteps :
    ((sketched (updating .queued 0 0)).mayBegin .k (updating .queued 0 0) [] ∧ (updating .queued 0 0).emptyCount = true)
      ∧ ((sketched (updating .queued 1 0)).mayBegin .k (updating .queued 1 0) [] ∧ (updating .queued 1 0).emptyCount = false
        ∧ (match Eng.openCommand (updating .queued 1 0) (sketched (updating .queued 1 0)) with | .ok _ _ => true | _ => false) = true)
      ∧ ((sketched (updating .running 1 0)).hasRunning .k (updating .running 1 0) [] ∧ 0 < (updating .running 1 0).b.toNat
        ∧ Plain (sketched (updating .running 1 0)) ((updating .running 1 0).a + 16#64 * BitVec.ofNat 64 0) 16 0 ∧ 0 % 16 = 0)
      ∧ ((sketched (updating .running 1 1)).hasRunning .k (updating .running 1 1) [] ∧ (updating .running 1 1).b.toNat ≤ 1)
      ∧ (let m := aCmd (.skinit 1#20 1#6) .running 0x10000#64 0#64 0#64 0#64
        (sketched m).hasRunning .k m [] ∧ m.sweep.done = 0)
      ∧ ((sketched refusedUpdate).core.k.cmds = [refusedUpdate] ∧ (sketched refusedUpdate).engineRuns = true
        ∧ refusedUpdate.status = .queued ∧ (sketched refusedUpdate).core.k.began = none) :=
  ⟨⟨begins_of (by decide), by decide⟩, ⟨begins_of (by decide), by decide, by decide⟩,
    ⟨runs_of (by decide), by decide, plain_of (by decide), by decide⟩, ⟨runs_of (by decide), by decide⟩,
    ⟨runs_of (by decide), by decide⟩, by decide⟩

theorem meets_SketchSteps_read :
    let s := sketched (updating .running 1 0)
    s.core.head .k = some (updating .running 1 0) ∧ (updating .running 1 0).olds = []
      ∧ s.core.unseenAt (s.core.locOf 0) 16 = false ∧ (∀ a, s.stashOwner a = none)
      ∧ (let h := sketchHdr 0x10000#64 (s.look 0x10000 64 0#6).1
        ∀ a ∈ [h.counterVa (h.place 2 0#64), h.clipVa (h.place 2 0#64), h.addr + 0x28], s.pkg.reach (page0.pa a) = .served) :=
  ⟨by decide, by decide, by decide, fun a => rfl, by decide⟩

/-- Row 2 of the sketch, element 0: its counter, its clip bit and the clips of the header, in three lines of one page. -/
theorem meets_SketchSteps_row :
    let s := sketched (updating .running 1 0)
    let h := sketchHdr 0x10000#64 (s.look 0x10000 64 0#6).1
    let n := h.place 2 0#64
    let at_ := fun a : Nat => page0.pa a
    (pageFor [page0] (h.counterVa n) = some page0 ∧ pageFor [page0] (h.clipVa n) = some page0
        ∧ pageFor [page0] (h.addr + 0x28) = some page0 ∧ s.pkg.hostLines = [] ∧ s.pkg.mem.wf = true)
      ∧ (at_ (h.counterVa n) % 4 = 0 ∧ at_ (h.addr + 0x28) % 8 = 0 ∧ at_ (h.counterVa n) / 64 ≠ at_ (h.clipVa n) / 64
          ∧ at_ (h.counterVa n) / 64 ≠ at_ (h.addr + 0x28) / 64 ∧ at_ (h.clipVa n) / 64 ≠ at_ (h.addr + 0x28) / 64)
      ∧ (s.pkg.poisonedAt (at_ (h.counterVa n)) 4 = false ∧ (0#64 - h.ibase).toNat < h.icount.toNat) := by
  decide

/-- A bound that has run out, and one with a cycle left. -/
theorem meets_BoundsAndFills_bound :
    let m := aCmd (.acfg 1#20 1#6 2#6) .running 0#64 0#64 0#64 0#64
    let out : Cmd := { m with left := some 16, since := some 0 }
    let s := heading .l out fun c => { c with meter := 16 }
    (s.hasOverrun .l out [] ∧ s.core.lat.save = 0#64)
      ∧ (let t := heading .l out fun c => { c with meter := 15 }
        t.hasRunning .l out []) := by
  refine ⟨⟨⟨rfl, rfl, rfl, rfl, fun _ => .inr (by decide), 16, rfl, by decide⟩, by decide⟩, rfl, rfl, rfl, fun n e => ?_⟩
  cases e
  decide

/-- The second GiB maps one page for demand fill; the context is in hardware mode, with one free frame or none. -/
def faulting (frames : Bool) : State :=
  let m := aCmd (.skinit 1#20 1#6) .queued 0x40000000#64 0#64 0#64 0#64
  (heading .k m id).mapPkg fun p => { p with
    mem := ⟨p.mem.cells ++ [(0x3008, 1#8), (0x3009, 0x50#8), (0x5000, 1#8), (0x5001, 0x60#8), (0x6000, 0x2E#8), (0x6001, 1#8),
      (0x6002, 0x10#8), (0x7000, 1#8), (0x700C, 1#8), (0x7042, 0x20#8)]⟩
    contexts := p.contexts.set 0 { p.ctx 0 with
      desc := (p.ctx 0).desc ||| (1#512 <<< 16) ||| (if frames then 0x7000#512 <<< 384 else 0#512) } }

def faultOf (s : State) : Option (Trap × State) := (s.nextStop .k).map fun r => (r.2.1, r.2.2)

theorem meets_BoundsAndFills_fill :
    (∀ b, ((faultOf (faulting b)).map fun r => (r.1.cause, (r.2.demandFill r.1.info0).2)) = some (10#5, b))
      ∧ ((faulting true).pkg.ctx (faulting true).core.ctx).hardware 0 = true := by
  decide

/-- The walk for the second GiB: an entry that is not valid ends it, or a demand page at level 0; that for the first ends in a
block of level 2; 2⁵⁷ is past the tables. -/
theorem meets_AccessAddressTraps_walk :
    (AtTable running 0 0x123 2 0x3000 ∧ running.Pte 0 0x3000 0x22F#64 ∧ ¬PteRefused 2 0x22F#64
      ∧ (0x22F#64 : Word).getLsbD 9 = true ∧ (0x22F#64 : Word).getLsbD 8 = false)
      ∧ (AtTable running 0 0x40000000 2 0x3000 ∧ running.Pte 0 0x3008 0#64 ∧ PteRefused 2 0#64)
      ∧ (AtTable (faulting true) 0 0x40000000 0 0x6000 ∧ (faulting true).Pte 0 0x6000 0x10012E#64 ∧ ¬PteRefused 0 0x10012E#64
        ∧ (0x10012E#64 : Word).getLsbD 8 = true ∧ (0x10012E#64 : Word).getLsbD 10 = false)
      ∧ (∀ g ∈ running.pkg.held, g.ctx = 0 → g.covers 0x123 = false)
      ∧ ((running.pkg.ctx 0).keymask.getLsbD 0 = true ∧ (running.pkg.ctx 0).keymask.getLsbD 1 = false)
      ∧ (2 ^ 57 ≤ (0x200000000000000#64 : Word).toNat ∧ (0x1FFFFFFFFFFFFFF#64 : Word).toNat < 2 ^ 57) := by
  have step : ∀ {s : State} {va l t u} (e : Word), AtTable s 0 va (l + 1) t →
      s.Pte 0 (t + 8 * (va / 2 ^ (12 + 9 * (l + 1)) % 512)) e → ¬PteRefused (l + 1) e → e.getLsbD 8 = false →
      e.getLsbD 9 = false → s.pkg.ptePa e = u → AtTable s 0 va l u := fun e a b c d f g => g ▸ .next _ _ e a b c d f
  have low : ∀ s : State, s.pkg.ptePa 0x2001#64 = 0x2000 → s.pkg.ptePa 0x3001#64 = 0x3000 → ∀ va,
      4096 * ((s.pkg.ctx 0).ptbase.extractLsb' 12 40).toNat = 0x1000 →
      s.Pte 0 (0x1000 + 8 * (va / 2 ^ (12 + 9 * 4) % 512)) 0x2001#64 →
      s.Pte 0 (0x2000 + 8 * (va / 2 ^ (12 + 9 * 3) % 512)) 0x3001#64 → AtTable s 0 va 2 0x3000 := fun s e f va r a b =>
    step 0x3001#64 (step 0x2001#64 (r ▸ .root) a (by unfold PteRefused; decide) rfl rfl e) b (by unfold PteRefused; decide) rfl rfl f
  have a : AtTable running 0 0x123 2 0x3000 := low _ (by decide) (by decide) _ (by decide) (by unfold State.Pte; decide) (by unfold State.Pte; decide)
  have b : AtTable running 0 0x40000000 2 0x3000 :=
    low _ (by decide) (by decide) _ (by decide) (by unfold State.Pte; decide) (by unfold State.Pte; decide)
  have c : AtTable (faulting true) 0 0x40000000 2 0x3000 :=
    low _ (by decide) (by decide) _ (by decide) (by unfold State.Pte; decide) (by unfold State.Pte; decide)
  have d : AtTable (faulting true) 0 0x40000000 0 0x6000 :=
    step 0x6001#64 (step 0x5001#64 c (by unfold State.Pte; decide) (by unfold PteRefused; decide) rfl rfl (by decide : _ = 0x5000))
      (by unfold State.Pte; decide) (by unfold PteRefused; decide) rfl rfl (by decide)
  exact ⟨⟨a, by unfold State.Pte; decide, by unfold PteRefused; decide, by decide⟩,
    ⟨b, by unfold State.Pte; decide, by unfold PteRefused; decide⟩,
    ⟨d, by unfold State.Pte; decide, by unfold PteRefused; decide, by decide⟩, by decide⟩

/-! ### Hypotheses met: the package -/

def aPartial (n index : Nat) : Partial := ⟨0, 0, 0, 0x100, 0#6, index, n, false, 0x3F800000#32, page0⟩

def aMerge (age : Nat) : Merge := ⟨0, 0x100, 0#6, 2, [1], [⟨1, true, 0#6, 0x40000000#32⟩], 0, 0#32, age, none, false, [(0, 0)]⟩

def merging (ps : List Partial) (ms : List Merge) : State :=
  { running with pkg := { running.pkg with partials := ps, merges := ms } }

/-- A partial that is a merge of its own; the last of two that comes first; the first of two that comes last; one that
declares another count; merges open for one unit less than 2³² hub cycles and for 2³². -/
theorem meets_MergesApplyInOrder :
    ((merging [aPartial 1 0] []).pkg.partials[0]? = some (aPartial 1 0) ∧ (merging [] []).pkg.mergeAt 0 0x100 = none
      ∧ (((merging [] []).reachFor 0 0x100).look 0x100 4 0#6).2 = false ∧ (merging [] []).pkg.hostLines = [])
      ∧ (merging [aPartial 2 1] []).pkg.partials[0]? = some (aPartial 2 1)
      ∧ ((merging [aPartial 2 0] [aMerge 0]).pkg.partials[0]? = some (aPartial 2 0)
        ∧ (merging [] [aMerge 0]).pkg.mergeAt 0 0x100 = some (aMerge 0) ∧ (aMerge 0).n = 2 ∧ (aPartial 2 0).n = 2
        ∧ (aMerge 0).received = [1] ∧ (aMerge 0).next = 0 ∧ (aMerge 0).poisoned = false)
      ∧ ((merging [aPartial 3 0] [aMerge 0]).pkg.partials[0]? = some (aPartial 3 0) ∧ (aPartial 3 0).n ≠ (aMerge 0).n
        ∧ (merging [] [aMerge 0]).stashOwner 0x100 = none)
      ∧ (let a := 2 ^ 32 * Config.cycleUnits 22
        (merging [] [aMerge a]).pkg.merges[0]? = some (aMerge a) ∧ a ≤ (aMerge a).age ∧ (aMerge (a - 1)).age < a) := by decide

/-- The host port of a running package is up. -/
def hosted (f : Package → Package) : State :=
  { running with pkg := f { running.pkg with hostPort := ⟨true, true, 16, true⟩, poolPorts := running.pkg.poolPorts } }

def hostAccess (action : HostAction) (keep : Bool) : HostAccess := ⟨7, action, 0x13C0, 64, 5#512, keep, false⟩

theorem meets_HostAndLosses_access :
    let s := hosted id
    (s.pkg.mem.wf = true ∧ s.pkg.errors.wf = true ∧ running.pkg.decodes (hostAccess .plainLoad false) = false)
      ∧ (s.pkg.decodes (hostAccess .plainStore false) = true ∧ s.pkg.hostCopy (0x13C0 / 64) = none ∧ s.pkg.reach 0x13C0 = .served
        ∧ s.stashOwner 0x13C0 = none ∧ s.pkg.poisonedAt (64 * (0x13C0 / 64)) 64 = false
        ∧ s.pkg.reach (64 * (0x13C0 / 64)) = .served ∧ s.stashOwner (64 * (0x13C0 / 64)) = none)
      ∧ (hosted fun p => { p with hostLines := [(0x4F, 7#512)] }).pkg.hostCopy 0x4F = some 7#512 := by decide

/-- A held context whose strand is in user mode, or in supervisor mode; one that nothing asks off; one with no strand. -/
theorem meets_HostAndLosses_preemption :
    let held := fun p : Package => { p with contexts := p.contexts.set 0 { p.ctx 0 with held := true } }
    (user.mapPkg held).coresOf 0 = [0] ∧ (user.mapPkg held).askedOff 0 = true ∧ (user.mapPkg held).allUser 0 = true
      ∧ (running.mapPkg held).allUser 0 = false ∧ user.askedOff 0 = false ∧ user.gangNeeds 0 = false ∧ user.coresOf 63 = [] := by
  decide

/-- Die 9 is lost, which no context depends on; die 7, which context 0 has touched and tells its strands of. -/
theorem meets_HostAndLosses_die :
    let told := fun p : Package => { p with contexts := p.contexts.set 0 { p.ctx 0 with
      touched := 1#10 <<< 7, desc := (p.ctx 0).desc ||| (1#512 <<< 20) } }
    (9 < 10 ∧ running.pkg.dieServes 9 = true ∧ (∀ c, c < 64 → (running.pkg.ctx c).touched.getLsbD 9 = false))
      ∧ (running.pkg.dieServes 7 = true ∧ dieOf running.core.num ≠ 7 ∧ running.core.strand.isSome = true
        ∧ running.core.resident = some 0 ∧ ((running.mapPkg told).pkg.ctx 0).touched.getLsbD 7 = true
        ∧ ((running.mapPkg told).pkg.ctx 0).hardware 4 = true
        ∧ ∀ c, c < 64 → ((running.mapPkg told).pkg.ctx c).touched.getLsbD 7 = true → ((running.mapPkg told).pkg.ctx c).hardware 4 = true)
      ∧ running.pkg.dieServes 10 = false ∧ (63#6 : Reg) ≠ 0#6 ∧ running.core.num < 128 ∧ 2 ^ 64 - 1 < 2 ^ 64 := by decide

/-- The board controller owns the management window. -/
def owned (f : Package → Package) : State :=
  { running with pkg := f { running.pkg with ownerValid := true, owner := 8#8 } }

theorem meets_ManagementWindow :
    let p := (owned id).pkg
    (p.masterUp 8 = true ∧ p.recovery = false ∧ p.owns 8 = true ∧ p.masterUp 0 = false ∧ p.owns 7 = false
      ∧ (hosted id).pkg.masterUp 7 = true ∧ (hosted id).pkg.owns 7 = false)
      ∧ (0xFFFFC + [1#8, 2#8, 3#8, 4#8].length ≤ 0x100000 ∧ attField 0xFFFFC = none ∧ ¬(0xFFFFC : Nat) < 8
        ∧ writeShape 0xFFFFD 2 = false)
      ∧ ((8#8 : Byte).toNat ≤ 8 ∧ (0x3F3F#64 : Word).extractLsb' 6 2 = 0#2 ∧ (0x3F3F#64 : Word).extractLsb' 14 50 = 0#50)
      ∧ (p.cmdStatus ≠ 1 ∧ p.command.extractLsb' 16 16 = 0#16 ∧ p.attState ≠ 1#2 ∧ (0x1FFFFFFFF#64 : Word).extractLsb' 33 31 = 0#31
        ∧ (owned fun q => { q with attState := 1#2 }).pkg.attState = 1#2) := by decide

/-- Descriptors of a valid and of another context: fixed fields changed or kept, valid kept or cleared. -/
theorem meets_ManagementWindow_descriptors :
    let p := (owned id).pkg
    let flags : BitVec 512 := 7#512 <<< 24
    let d := bootDescriptor
    ((p.ctx 63).valid = false ∧ (p.ctx 0).valid = true ∧ (natBytes 64 d.toNat).length = 64
      ∧ setBytes (p.ctx 0).desc 0 (natBytes 64 d.toNat) = d)
      ∧ ((d ^^^ 1#512) &&& ~~~flags ≠ d &&& ~~~flags ∧ (d &&& ~~~(1#512 <<< 24)) &&& ~~~flags = d &&& ~~~flags
        ∧ d.getLsbD 24 = true ∧ (d &&& ~~~(1#512 <<< 24)).getLsbD 24 = false) := by decide

/-- Context 0 is being invalidated; a descriptor that it takes, and one that changes its fixed fields. -/
theorem meets_ManagementWindow_closing :
    let x : Context := { running.pkg.ctx 0 with desc := bootDescriptor &&& ~~~(1#512 <<< 24), closing := true }
    let p := (parted (owned fun q => q.setCtx 0 fun _ => x)).pkg
    let d := bootDescriptor ||| 64#512 <<< 320 ||| 0x40#512 <<< 448
    ((p.ctx 0).closing = true ∧ (p.ctx 0).shown.getLsbD 24 = false ∧ (p.ctx 63).closing = false ∧ (p.ctx 63).rewritten = none)
      ∧ (p.descRefused 0 d = false ∧ p.descRefused 0 (d ^^^ 1#512) = true ∧ p.gangOutside 0 (p.ctx 0).part = false) := by decide

/-- Context 0 with its hold, its debug flag, a pre-empted strand saved on core 127, a checkpoint whose marker stands at 0. -/
def commanded (held valid debug : Bool) : State := owned fun p =>
  let desc := bootDescriptor &&& ~~~(1#512 <<< 24) ||| (if valid then 1#512 <<< 24 else 0#512)
    ||| (if debug then 1#512 <<< 25 else 0#512)
  { p with
    contexts := p.contexts.set 0 { p.ctx 0 with desc := desc, held := held, paused := [⟨127, none, []⟩] }
    command := 127#512 <<< 128
    mem := p.mem.write 0 127#8
    checkpoints := [⟨0, 127, 0, [], [], [], []⟩]
    halted := 4#10 }

theorem meets_ManagementWindow_commands :
    (∀ h v d, ((commanded h v d).pkg.ctx 0).held = h ∧ ((commanded h v d).pkg.ctx 0).valid = v
      ∧ (commanded h v d).pkg.debugs 0 = (v && d) ∧ (commanded h v d).pkg.cmdStatus ≠ 1)
      ∧ ((commanded true true true).checkpointOf 0 (commanded true true true).pkg.cmdArg0 (commanded true true true).pkg.cmdArg1).isSome
        = true
      ∧ (owned id).checkpointOf 0 (owned id).pkg.cmdArg0 (owned id).pkg.cmdArg1 = none
      ∧ (∃ q ∈ ((commanded true true true).pkg.ctx 0).paused, q.core = (commanded true true true).pkg.cmdArg1)
      ∧ (∀ q ∈ ((owned id).pkg.ctx 0).paused, q.core ≠ (owned id).pkg.cmdArg1)
      ∧ ((commanded true true true).imageRegister 0 127 63).isSome = true
      ∧ (commanded true true true).haltAdmitted 0 = true ∧ (commanded true true false).haltAdmitted 0 = false
      ∧ (commanded true true true).pkg.halted.getLsbD 2 = true ∧ (commanded true true true).pkg.halted.getLsbD 0 = false := by
  decide

/-- The debugger reads and writes the last eight bytes of a line that the context has touched the home of, by a held
translation; at an address past the tables it is refused. -/
theorem meets_ManagementWindow_memory :
    let s := owned fun p => ({ p with
      command := 0x1F8#512 <<< 64 ||| 0x0807060504030201#512 <<< 256
      held := [page0]
      contexts := p.contexts.set 0 { p.ctx 0 with desc := bootDescriptor ||| 1#512 <<< 25, touched := 0x3FF#10 } } : Package)
    let given := fun op : Byte => ({ s with pkg := { s.pkg with command := setBytes s.pkg.command 0 [op, 0#8] } } : State)
    let a := fun i : Nat => BitVec.ofNat 64 (s.pkg.cmdArg0 + i)
    (s.pkg.debugs 0 = true ∧ s.pkg.hostLines = [] ∧ s.pkg.mem.wf = true ∧ s.pkg.cmdArg0 = 0x1F8)
      ∧ (∀ i, i < 8 → ((given 5#8).translate 0 (a i) .read).2.toOption = some page0 ∧ s.pkg.reach (page0.pa (a i).toNat) = .served
        ∧ s.stashOwner (page0.pa (a i).toNat) = none)
      ∧ (let t := s.mapPkg fun p => { p with command := 0xFFFFFFFFFFFFFFF8#512 <<< 64 }
        t.pkg.cmdArg0 = 2 ^ 64 - 8 ∧ pageOf t (BitVec.ofNat 64 t.pkg.cmdArg0) .read = none) := by
  decide

/-- A held page of the context, and the command block. -/
def holding (c : BitVec 512) : State := owned fun p => { p with held := [page0], command := c }

/-- Where nothing is unseen, the states between the bytes of a debugger's read differ from the first in the command block alone. -/
theorem meets_ManagementWindow_taken (l : List Nat) (pa : Nat → Nat) (key : BitVec 6) (c : BitVec 512) :
    ∃ d, l.foldl (fun w i => (w.showTo none (pa i) 1).mapPkg fun q =>
      { q with command := setBytes q.command (0x20 + i) (w.look (pa i) 1 key).1 }) (holding c) = holding d := by
  induction l generalizing c with
  | nil => exact ⟨c, rfl⟩
  | cons a l ih =>
    have h : (holding c).showTo none (pa a) 1 = holding c := by
      unfold State.showTo
      rw [if_neg]
      exact Bool.false_ne_true
    rw [List.foldl_cons, h]
    exact ih _

/-- Shapes of writes of the window: its first registers, a descriptor, the last partition record and decoder, the command
block, the fields of the power region, the read-only regions, the nonce, the last weight. -/
theorem meets_ManagementWindow_writes :
    (∀ w ∈ [(0x18, 8), (0x1FC0, 64), (0x20F8, 8), (0x22F8, 8), (0x48, 8), (0x54, 4), (0x78, 8), (0x44, 4), (0x58, 8), (0x3004, 4),
        (0x3018, 8), (0x30FC, 4), (0x31F8, 8), (0x4000, 64), (0x10FF8, 8), (0x11020, 8), (0x1103C, 4), (0x38, 4)],
      writeShape w.1 w.2 = true)
      ∧ ((0x3F#64 : Word).toNat < 64 ∧ ¬(0x40#64 : Word).toNat < 64 ∧ (47 : Nat) < 48) := by decide

/-- Die 0 is halted while its core runs a strand under single step. -/
theorem meets_ManagementWindow_resume :
    let s := { withCore fun c => { c with step := true } with pkg := (owned fun p => { p with halted := 1#10 }).pkg }
    s.pkg.halted.getLsbD 0 = true ∧ dieOf s.core.num = 0 ∧ s.core.strand.isSome = true ∧ s.core.step = true := by decide

theorem meets_PowerAndPorts :
    let p := running.pkg
    ((owned id).pkg.masterUp 8 = true ∧ (owned id).pkg.owns 8 = true ∧ p.capDue = false ∧ p.powered = true ∧ p.fwstat ≠ 1#32)
      ∧ ({ p with capDue := true, fwstat := 1#32 } : Package).capDue = true
      ∧ (let off : State := { running with pkg := { p with powered := false } }
        off.pkg.powered = false ∧ off.schedule = [])
      ∧ ({ p with hot := 1#10 }.hot.getLsbD 0 = true ∧ 10 < p.clocks[0].toNat)
      ∧ ((p.pool 0).up = true ∧ 4 < (p.pool 0).lanes) := by decide

/-- The clocks of the reset state are lawful, and nothing holds its core. -/
theorem meets_PowerAndPorts_clocks :
    let p := running.pkg
    ((∀ c ∈ p.clocks, 10 ≤ c.toNat ∧ c.toNat ≤ 33) ∧ (∀ c ∈ p.partClocks, 10 ≤ c.toNat ∧ c.toNat ≤ 33)
      ∧ (∀ c ∈ p.bareClocks, 10 ≤ c.toNat ∧ c.toNat ≤ 33) ∧ ∀ c ∈ p.thermalClocks, 10 ≤ c.toNat ∧ c.toNat ≤ 33)
      ∧ running.core.strand.isSome = true ∧ running.core.wait = none ∧ running.heldBy p.halted = false := by
  have k : ∀ {n : Nat} (v : Vector (BitVec 8) n), (∀ c ∈ v.toList, 10 ≤ c.toNat ∧ c.toNat ≤ 33) →
      ∀ c ∈ v, 10 ≤ c.toNat ∧ c.toNat ≤ 33 := fun v h c m => h c (Vector.mem_toList_iff.mpr m)
  exact ⟨⟨k _ (by decide), k _ (by decide), k _ (by decide), k _ (by decide)⟩, by decide⟩

/-- A die whose 128 cycles are over, and one whose are not; firmware in the pool's first bytes. -/
theorem meets_PowerAndPorts_window :
    let p := { running.pkg with now := 128 * running.pkg.period 0, fwlen := 64#32 }
    let n := ({ running with pkg := p } : State).passTime p.halted
    (0 < n.pkg.now - p.windowStart[0] ∧ 128 * p.period 0 ≤ n.pkg.now - p.windowStart[0])
      ∧ (let q := { p with windowStart := p.windowStart.set 0 1 }
        ¬128 * q.period 0 ≤ n.pkg.now - q.windowStart[0])
      ∧ (p.hostLines = [] ∧ ∀ a, a < 64 → p.reach (p.fwaddr.toNat + a) ≠ .undecoded)
      ∧ (30 ≤ p.bar4offered.toNat) := by decide

/-- A trained link that holds one flit; its lanes at 8, or at 2. -/
def linked (lanes : Nat) : Package :=
  { running.pkg with slathen := running.pkg.slathen.set 17 ⟨true, true, lanes, true, 1#12, [⟨0#12, .launch 0 0#512⟩], [], 0xFFF#12, 0, 0, []⟩ }

theorem meets_PowerAndPorts_links :
    let l := (linked 8).link 17
    (l.up = true ∧ l.held = [] ++ ⟨0#12, .launch 0 0#512⟩ :: [] ∧ (∀ g ∈ l.held, g.seq ≠ 1#12) ∧ 2 < l.lanes ∧ ((linked 2).link 17).lanes ≤ 2)
      ∧ ((0x7FF#12 : BitVec 12) ≠ l.expect ∧ 2048 ≤ ((0x7FF#12 : BitVec 12) - l.expect).toNat)
      ∧ ((0x7FE#12 : BitVec 12) ≠ l.expect ∧ ¬2048 ≤ ((0x7FE#12 : BitVec 12) - l.expect).toNat) := by decide

/-- A link with 1,024 flits that wait for their acknowledgement; a request for another package's memory through port 17. -/
theorem meets_PowerAndPorts_requests :
    (let full := { (linked 8).link 17 with held := List.replicate 1024 ⟨0#12, .launch 0 0#512⟩ };
      1024 ≤ full.held.length ∧ ((linked 8).link 17).held.length < 1024)
      ∧ (linked 8).requestLink (2 ^ 53) = some 17 := by
  have h : (List.range 18).filter (linked 8).slathenServes = [17] := by decide
  refine ⟨by decide, ?_⟩
  simp only [Package.requestLink, show paHome (2 ^ 53) = 2 by decide, if_true, h, List.length_singleton, Nat.mod_one]
  rfl

/-! ### Hypotheses met: the machine -/

/-- The word at 0x40 of memory is next. -/
def fetching (w : Word) (f : Core → Core) : State :=
  let s := withCore fun c => f { c with pc := 0x40#64 }
  { s with pkg := { s.pkg with mem := s.pkg.mem.writeNat 0x40 8 w.toNat }, schedule := [.issue 0] }

theorem meets_StepRunsTheDecodedInstruction :
    let s := fetching 0x2428A30000000000#64 id
    let t := ({ s with schedule := [] } : State).focus 0
    (s.schedule = .issue 0 :: [] ∧ t.mayIssue = true ∧ t.core.wait = none ∧ t.core.trapsFirst = false
      ∧ t.core.pc.extractLsb' 0 3 = 0#3 ∧ t.core.pc.getLsbD 63 = false ∧ pageOf t t.core.pc .fetch = some page0)
      ∧ (let v := (t.translate 0 0x40#64 .fetch).1
        ((v.reachFor 0 0x40).look 0x40 8 0#6).2 = false ∧ leNat ((v.reachFor 0 0x40).look 0x40 8 0#6).1 = 0x2428A30000000000
          ∧ (v.reachFor 0 0x40).pkg.stale = [])
      ∧ (match t.fetch with | (_, .ok w) => w == 0x2428A30000000000#64 | _ => false) = true
      ∧ (({ running with schedule := [.issue 127] } : State).focus 127).mayIssue = false := by decide

theorem meets_StepRunsTheDecodedInstruction_traps :
    (match decode 0xFE00000000000000#64 with | .error .illegal => true | _ => false) = true
      ∧ (match decode 0x0A00000000000001#64 with | .error .reserved => true | _ => false) = true
      ∧ (pendingIn false).core.trapsFirst = true := by decide

theorem meets_StepRunsTheDecodedInstruction_target (a : Word × BitVec 5)
    (h : a ∈ [(0x44#64, 5#5), (0x8000000000000000#64, 6#5), (0x40000000#64, 9#5)]) :
    (match (withCore fun c => { c with pc := a.1 }).fetch with | (_, .error e) => e.cause == a.2 | _ => false) = true := by
  simp only [List.mem_cons, List.not_mem_nil, or_false] at h
  rcases h with rfl | rfl | rfl <;> decide

theorem meets_StepRunsTheDecodedInstruction_poison :
    (match (({ fetching 0#64 id with pkg := { (fetching 0#64 id).pkg with poison := [1] } } : State)).fetch with
      | (_, .error e) => e.cause == 19#5 | _ => false) = true := by decide

theorem meets_DecodeOfEncode : (Instr.mul 63#6 5#6 6#6).wf = true ∧ (encode (.mul 63#6 5#6 6#6)).isSome = true := by decide

theorem meets_EncodeOfDecode : decode 0x2428A30000000000#64 = .ok (.mul 5#6 5#6 6#6) := rfl

theorem meets_MemoryStaysCanonical :
    (fetching 0x2428A30000000000#64 id).pkg.mem.wf = true
      ∧ (match step (fetching 0x2428A30000000000#64 id) with | .next t => t.core.pc == 0x48#64 | _ => false) = true := by decide

/-- A loop that goes on and one that ends, a trap that is pending in user mode, a lost die that no context depends on. -/
theorem meets_StepsComplete :
    (let s := loaded3 2#64 0#64 0#64;
      s.transfers [1#6] ∧ ¬(s.core.getX 1#6).toNat ≤ 1 ∧ codeAddress (s.core.pc + (4#32).signExtend 64 <<< 3))
      ∧ ((loaded3 1#64 0#64 0#64).transfers [1#6] ∧ ((loaded3 1#64 0#64 0#64).core.getX 1#6).toNat ≤ 1)
      ∧ (running.core.block = none ∧ (covered true).core.lane0 = true)
      ∧ (let s := pendingIn false
        s.core.strand.isSome = true ∧ s.core.super = false ∧ s.core.wait = none ∧ s.core.wfe = none ∧ s.standsHalted = false
          ∧ s.core.pending = ⟨3, 0, trapA, .engine .c0⟩ :: [])
      ∧ (9 < 10 ∧ running.pkg.dieServes 9 = true ∧ ∀ c, c < 64 → (running.pkg.ctx c).touched.getLsbD 9 = false) := by
  unfold State.transfers codeAddress
  decide

/-! ### Single steps, against values that the specification or a published standard gives -/

/-- What a register holds n cycles after an instruction has issued. -/
def result (i : Instr) (s : State) (n : Nat) (r : Reg) : Option Word :=
  match exec i s with
  | .next t => some ((t.advance n).core.getX r)
  | _ => none

/-- The worked offset of R36: bank 18, row 37 (spec/02_core.md). -/
theorem test_bank :
    result (.bank 5#6 1#6) (loaded3 0x8000000000012345#64 0#64 0#64) 1 5#6 = some 18#64
      ∧ result (.rowof 5#6 1#6) (loaded3 0x8000000000012345#64 0#64 0#64) 1 5#6 = some 37#64 := by decide

/-- The pair of LIMM and LIMMH that forms a local address (spec/06_scalar.md). -/
theorem test_limmh :
    result (.limmh 5#6 1#6 0x80000000#32) (loaded3 0x12345#64 0#64 0#64) 0 5#6 = some 0x8000000000012345#64 := by decide

/-- A zero divisor and the quotient that overflows (R118). -/
theorem test_divide :
    result (.div 5#6 1#6 2#6) (loaded3 7#64 0#64 0#64) 11 5#6 = some (BitVec.allOnes 64)
      ∧ result (.div 5#6 1#6 2#6) (loaded3 0x8000000000000000#64 (BitVec.allOnes 64) 0#64) 11 5#6 = some 0x8000000000000000#64
      ∧ result (.rem 5#6 1#6 2#6) (loaded3 0x8000000000000000#64 (BitVec.allOnes 64) 0#64) 11 5#6 = some 0#64 := by decide

/-- Before its cycle a result has not landed (R22). -/
theorem test_latency : result (.mul 5#6 1#6 2#6) (loaded3 7#64 6#64 0#64) 1 5#6 = some 0#64
    ∧ result (.mul 5#6 1#6 2#6) (loaded3 7#64 6#64 0#64) 2 5#6 = some 42#64 := by decide

/-- The sum and the carry of a full adder (spec/07_vector.md). -/
theorem test_lut3 : lut3 0x96#8 0xF#32 0x33#32 0x55#32 = 0x69#32 ∧ lut3 0xE8#8 0xF#32 0x33#32 0x55#32 = 0x17#32 := by decide

/-- VLOG2 of 1 is +0; VEXP2 of an integer is exact (R139). -/
theorem test_exact_powers : toF32 .rup false (ofF32 0x3F800000#32).log2 = 0#32
    ∧ toF32 .rdn false (ofF32 0x40400000#32).exp2 = 0x41000000#32 := by decide

/-- Two floors of 600 W under caps of 1,000 W and of 200 W (spec/26_package.md). -/
theorem test_cap :
    let p := fun cap => ({ running.pkg with
      cap := cap, capDue := true, partitions := (running.pkg.partitions.set 0 0x25800017F00#128).set 1 0x25800017F00#128 } : Package).resolveCap
    (p 1000#32).effcap = 1000#32 ∧ ((p 1000#32).floors[0], (p 1000#32).floors[1]) = (500, 500)
      ∧ ((p 1000#32).clamped, (p 1000#32).scaled) = (false, true) ∧ (p 1000#32).ringTail = 2#64
      ∧ (p 200#32).effcap = 310#32 ∧ (p 200#32).floors[0] = 155 ∧ (p 200#32).clamped = true ∧ (p 200#32).ringTail = 3#64 := by decide

/-- The substitution of a byte and the mixing of a column as FIPS 197 gives them. -/
theorem test_aes_parts : subByte 0x53#8 = 0xED#8 ∧ unsubByte 0xED#8 = 0x53#8
    ∧ (mixColumns mixRow ([0xDB#8, 0x13#8, 0x53#8, 0x45#8] ++ List.replicate 12 0#8)).take 4 = [0x8E#8, 0x4D#8, 0xA1#8, 0xBC#8] := by
  decide

/-- A run that a TRET resumed goes on from the progress of its record: three vectors are done, and no pass norm is lost (R202,
R203). The record lies at the ASAVE address, 0x1000 of the scratchpad. -/
theorem test_resumes_from_record :
    let m : Cmd := { aCmd (.arun 1#20 1#6) .running 0#64 9#64 0#64 0#64 with sweep := { Sweep.start with reload := true } }
    let s := heading .l m fun c => { c with
      lat := { c.lat with save := 0x8000000000001000#64 }
      scratch := ((c.scratch.writeBytes 0x1000 (natBytes 8 ((encode m.instr).getD 0#64).toNat)).writeBytes 0x1010 (natBytes 8 9)).writeBytes
        0x102A ([1#8, 0#8] ++ natBytes 4 0 ++ natBytes 4 3 ++ natBytes 44 0 ++ natBytes 8 7) }
    (match runPart (Eng.latticePart m) s with
      | .made t => t.core.l.cmds.map fun x => (x.sweep.done, x.sweep.nin, x.sweep.reload, x.sweep.resumed.isSome)
      | _ => []) = [(3, 7#64, false, true)] := by decide

/-- The management window after reset (R379, R423, R430, R437): no owner, BAR4SIZE 45, a cap of 2,400 W, clocks of 3.3 GHz. -/
theorem test_window_reads : State.reset.pkg.windowRead 0 8 = [0xFF#8, 0#8, 0#8, 0#8, 0#8, 0#8, 0#8, 0#8]
    ∧ State.reset.pkg.windowRead 0x2F 2 = [0#8, 45#8] ∧ State.reset.pkg.windowRead 0x3000 4 = [0x60#8, 0x09#8, 0#8, 0#8]
    ∧ State.reset.pkg.windowRead 0x3017 2 = [33#8, 0#8] := by decide

/-- 216 cycles are left, so the record holds 14 units and the command resumes with 224 (R416, R417, R419). -/
theorem test_record_bound :
    let m : Cmd := { aCmd (.arun 1#20 1#6) .running 0#64 9#64 0#64 0#64 with left := some 216 }
    (((Core.reset 0).recordBytes m 8 0#64).drop 0x2C).take 4 = [14#8, 0#8, 0#8, 0#8]
      ∧ recordLeft ((Core.reset 0).recordBytes m 8 0#64) = some 224 := by decide
end Sys2Proof.Tests
end

section
/-! SUPPORT. O47 fails: a streaming copy waits for a link that only another copy of its command takes. A part asks the links of all
copies of its command for room (`Eng.grant`), and the statement fixes where the copy made now goes, not where the others do. -/

namespace Sys2Proof.Machine

/-! ### A step of the core in front -/

theorem State.onCore_front {s : State} {f : State → State} (h : (f s).core.num = s.core.num) :
    s.onCore s.core.num f = f s := by
  simp [State.onCore, State.focus, h]

theorem SameCore.queue_eq {a b : Core} (h : SameCore a b) (q : EngineQ) : b.queue q = a.queue q := by
  rw [h]
  cases q <;> rfl

/-- What a running head that has cycles of its bound left does is its part. -/
theorem State.hasRunning.runs_eq {s : State} {q : EngineQ} {m : Cmd} {r : List Cmd} (h : s.hasRunning q m r) (f : Cmd → State) :
    s.runs q f = f m := by
  obtain ⟨hcmds, hengine, hstatus, hbound⟩ := h
  have hrunner : s.runner q = some m := by simp [State.runner, Core.head, hcmds, hengine, hstatus]
  have hleft : m.leftAt s.core.meter ≠ some 0 := by
    unfold Cmd.leftAt
    cases hl : m.left with
    | none => simp
    | some n =>
      have := hbound n hl
      cases hs : m.since <;> simp [hs] at this ⊢ <;> omega
  simp [State.runs, State.overrun, hrunner, hleft]

/-- An offset that lies in no open window. -/
theorem Core.windowAt_eq_none {c : Core} {o : Nat}
    (outside : ∀ (i : Nat) (w : StashWin), c.wins.getD i none = some w → o < w.loc ∨ w.loc + w.len ≤ o) : c.windowAt o = none := by
  simp only [Core.windowAt, List.findSome?_eq_none_iff, Option.bind_eq_none_iff]
  intro i _ w hw
  have := outside i w hw
  simp
  omega

/-! ### Links that hold all the flits that they may (R428) -/

/-- With one port in service, which is full, the accesses that find no room are those to another package. -/
theorem Package.linkFull_of_only_port {p : Package} {k : Nat} (only : (List.range 18).filter p.slathenServes = [k])
    (full : replaySize ≤ (p.link k).held.length) (pa : Nat) : p.linkFull pa = (paHome pa == 2) := by
  by_cases h : paHome pa = 2 <;> simp [Package.linkFull, Package.requestLink, only, full, h, Nat.mod_one]

theorem Eng.grant_waits {s : State} {q : EngineQ} {m : Cmd} {k : Control}
    (full : ((s.sources m k ++ s.sinks m k).any fun e => s.pkg.linkFull e.1) = true) : Eng.grant q m k s = .error (.wait 4#3) s := by
  simp only [Eng.grant, bind, EStateM.bind, get, getThe, MonadStateOf.get, EStateM.get, full, if_true]
  rfl

/-- A streaming copy to memory whose entries are present waits while a link of some copy of its command is full. -/
theorem Eng.streamOne_waits {s : State} {q : EngineQ} {m : Cmd}
    (entries : (s.core.popped (endpoint (controlOf m.b).sq) ((controlOf m.b).len / 512)).isSome = true)
    (memory : (controlOf m.b).dq = 0)
    (full : ((s.sources m (controlOf m.b) ++ s.sinks m (controlOf m.b)).any fun e => s.pkg.linkFull e.1) = true) :
    Eng.streamOne q m s = .error (.wait 4#3) s := by
  have present : s.core.popped (endpoint (controlOf m.b).sq) ((controlOf m.b).len / 512) ≠ none :=
    Option.isSome_iff_ne_none.mp entries
  simp [Eng.streamOne, bind, EStateM.bind, get, getThe, MonadStateOf.get, EStateM.get, present, memory, Eng.grant_waits full]

/-- A part that waits leaves everything as it was. -/
theorem execStreamCopyStart_waits {s t : State} {e : CopyEng} {m : Cmd} {r : List Cmd} {c : BitVec 3}
    (run : s.hasRunning (CopyEng.queue e) m r) (waits : Eng.streamOne (CopyEng.queue e) m s = .error (.wait c) t) :
    exec (.streamCopyStart s.core.num e) s = .next s := by
  have stays : (s.runs (CopyEng.queue e) fun m =>
      if m.streaming then (runPart (Eng.streamOne (CopyEng.queue e) m) s).after s else s) = s := by
    simp [run.runs_eq, runPart, waits, Part.after]
  have step : exec (.streamCopyStart s.core.num e) s = execStreamCopyStart s.core.num e s := rfl
  rw [step, execStreamCopyStart, State.onCore_front (by rw [stays]), stays]

/-! ### The counterexample -/

/-- A page of another package's memory. -/
def otherPackagePage : Page := ⟨0, 0, 30, paOf 2 0, 0#6, 0#6, true, true, true, true⟩

/-- A window over the second stripe of the scratchpad, whose memory belongs to another package. -/
def otherPackageWindow : StashWin := ⟨1984, 0x4000#64, 1984, [otherPackagePage], []⟩

/-- A port in service that holds all the flits that it may. -/
def fullPort : SlathenPort :=
  { noSlathen with trained := true, up := true, held := List.replicate replaySize ⟨0#12, .request (paOf 2 0)⟩ }

/-- It streams 512 bytes of q5 to the scratchpad's first stripe, and then 512 to the window. -/
def twoStripes : Cmd where
  word := wordOf (.cpgo .ce1 false 0#20 1#6 2#6 3#6 0#6)
  instr := .cpgo .ce1 false 0#20 1#6 2#6 3#6 0#6
  d := 0x8000000000000000#64
  a := 0#64
  b := 512#64 ||| (1#64 <<< 44)
  c := 0#64
  seq := 0#16
  nth := 0
  order := 0
  left := none
  since := some 0
  pins := []
  hold := []
  nest := nestStart.set 0 ⟨2#32, 0#64, 1984#64⟩
  qfmt := 0#64
  noted := (0, 0)
  spoilt := false
  olds := []
  status := .running
  sweep := Sweep.start
  begun := true
  refused := none
  stop := none

/-- The command runs with an entry in q5 for its first copy, while the one port in service is full. -/
def linkBlocked : State :=
  let s := State.reset.booted
  { s with
    core := { s.core with
      c1 := ⟨[twoStripes], 1#16, some 0, some 0, 1⟩
      queues := s.core.queues.set 5 [⟨0, some 1#4096, 0#64⟩]
      wins := s.core.wins.setIfInBounds 0 (some otherPackageWindow) }
    pkg := { s.pkg with slathen := s.pkg.slathen.set 0 fullPort } }

theorem linkBlocked_hasRunning : linkBlocked.hasRunning .c1 twoStripes [] :=
  ⟨rfl, by decide, rfl, fun n e => by cases e⟩

/-- Its only window is the one to the other package. -/
theorem linkBlocked_window {i : Nat} {w : StashWin} (h : linkBlocked.core.wins.getD i none = some w) : w = otherPackageWindow := by
  have wins : linkBlocked.core.wins = (Vector.replicate 8 none).setIfInBounds 0 (some otherPackageWindow) := rfl
  rw [wins] at h
  cases i with
  | zero => exact (Option.some.inj h).symm
  | succ i =>
    simp only [Vector.getD, Vector.toArray_setIfInBounds, Vector.toArray_replicate, Array.getD_eq_getD_getElem?,
      Array.getElem?_setIfInBounds_ne (Nat.succ_ne_zero i).symm, Array.getElem?_replicate] at h
    split at h <;> cases h

/-- The first copy goes to scratchpad bytes that no window holds. -/
theorem linkBlocked_plain : Plain linkBlocked (twoStripes.d + (offsetsAt twoStripes.nest 0).2) 512 0 := by
  refine ⟨by decide, by decide, by decide, by decide, fun k hk => Core.windowAt_eq_none fun i w hw => ?_, by decide⟩
  rw [linkBlocked_window hw]
  exact .inl (show 0 + k < 1984 by omega)

/-- The only port in service is full. -/
theorem linkBlocked_linkFull (pa : Nat) : linkBlocked.pkg.linkFull pa = (paHome pa == 2) := by
  have held : linkBlocked.pkg.link 0 = fullPort := rfl
  exact Package.linkFull_of_only_port (k := 0) (by decide) (by simp [held, fullPort]) pa

theorem linkBlocked_waits : Eng.streamOne .c1 twoStripes linkBlocked = .error (.wait 4#3) linkBlocked := by
  refine Eng.streamOne_waits (by decide) (by decide) ?_
  simp only [linkBlocked_linkFull]
  decide

end Sys2Proof.Machine

section
open Sys2Proof Sys2Proof.Machine

/-- Refutes O47: the clause for a copy that streams does not hold while the command has another copy whose destination lies behind a
full link (R428). In `linkBlocked` the first copy, of an entry that stands in q5 to a plain range of the scratchpad, is not made. -/
theorem not_copySteps : ¬ Obligations.CopySteps := by
  intro h
  obtain ⟨-, running, -⟩ := h linkBlocked .ce1 twoStripes [] 0
  obtain ⟨streams, -⟩ := running linkBlocked_hasRunning
  obtain ⟨u, x, ⟨t, made, same, -⟩, -, queue, done, -⟩ := streams ⟨0, some 1#4096, 0#64⟩ 1#4096 (by decide) (by decide) (by decide)
    (by decide) (by decide) (by decide) rfl rfl linkBlocked_plain
  have stays : exec (.streamCopyStart linkBlocked.core.num .ce1) linkBlocked = .next linkBlocked :=
    execStreamCopyStart_waits linkBlocked_hasRunning linkBlocked_waits
  have unchanged : linkBlocked = t := by
    rw [stays] at made
    exact Host.Outcome.next.inj made
  have head : twoStripes = x := by
    have cmds := congrArg EngQueue.cmds (same.queue_eq .c1)
    rw [← unchanged, queue] at cmds
    exact (List.cons.inj cmds).1
  rw [← head] at done
  exact absurd done (by decide)
end
end

section
/-! SUPPORT. O21: a step that names a core is an action on that core. The machine brings the core to the front, acts, and puts the
core that stood there back (`State.onCore`), so which core stands in front decides only which one stands there afterwards. O60: the
values after a package reset. -/

namespace Sys2Proof.Machine

/-! ### The core in front -/

@[simp] theorem State.coreAt_num (s : State) (n : Nat) : (s.coreAt n).num = n := by
  unfold State.coreAt
  split
  · assumption
  · cases found : s.parked.find? fun c => c.num == n with
    | none => rfl
    | some c =>
      have named := List.find?_some found
      exact beq_iff_eq.mp named

@[simp] theorem State.focus_num (s : State) (n : Nat) : (s.focus n).core.num = n := by
  unfold State.focus
  split
  · assumption
  · exact s.coreAt_num n

theorem State.focus_front {s : State} {n : Nat} (front : s.core.num = n) : s.focus n = s := if_pos front

@[simp] theorem State.focus_focus (s : State) (n : Nat) : (s.focus n).focus n = s.focus n := State.focus_front (s.focus_num n)

/-- With core n in front already, acting on it leaves it in front. -/
theorem State.onCore_focus (s : State) (n : Nat) (f : State → State) : (s.focus n).onCore n f = (f (s.focus n)).focus n := by
  simp [State.onCore]

/-! ### Steps that name a core -/

/-- One change of the state is what the instruction does, whichever core stands in front: it is made with core n there. -/
def ActsOnCore (i : Instr) (n : Nat) : Prop := ∃ f : State → State, ∀ s : State, exec i s = .next (s.onCore n f)

/-- The same change follows with core n in front and with another, and each leaves the core in front that stood there. -/
theorem ActsOnCore.same_change {i : Instr} {n : Nat} (acts : ActsOnCore i n) (s : State) :
    ∃ u : State, exec i (s.focus n) = .next (u.focus n) ∧ exec i s = .next (u.focus s.core.num) := by
  obtain ⟨f, meaning⟩ := acts
  refine ⟨f (s.focus n), ?_, meaning s⟩
  rw [meaning, State.onCore_focus]

end Sys2Proof.Machine

section
open Sys2Proof Sys2Proof.Machine

/-- Settles O21: each of the listed instructions acts on the core that it names (`ActsOnCore`). -/
theorem stepsActOnTheirCore : Obligations.StepsActOnTheirCore := by
  unfold Obligations.StepsActOnTheirCore
  intro s n k w l e q i listed
  suffices acts : ActsOnCore i n from acts.same_change s
  revert i
  simp only [List.forall_mem_cons, iff_true_intro (List.forall_mem_nil _), and_true]
  and_intros <;> exact ⟨_, fun _ => rfl⟩

/-- Settles O60: the registers hold the values that `State.reset` gives them, the memories are empty, and a vector of registers
holds its value at each index. -/
theorem resetState : Obligations.ResetState := by
  unfold Obligations.ResetState
  intro s c p
  have idle : ∀ d ∈ s.cores, d.strand = none := by
    intro d hd
    rw [List.mem_singleton.mp hd]
    rfl
  have clocks : ∀ d (h : d < 8), p.clocks[d] = 33#8 := fun _ h => Vector.getElem_replicate h
  have trapinfo : ∀ n (h : n < 4), c.trapinfo[n] = 0#64 := fun _ h => Vector.getElem_replicate h
  exact ⟨idle, rfl, Memory.empty_wf, Memory.empty_wf, Memory.empty_wf, Memory.empty_wf, Memory.empty_wf, rfl, rfl, rfl, rfl, clocks,
    rfl, rfl, rfl, rfl, rfl, rfl, rfl, trapinfo, rfl, rfl⟩
end
end

section
/-! SUPPORT. O46 fails: an AVEC that a TRET has resumed reads its record before it eliminates again (R203). The part that follows
the return is that read (`Cmd.reloads`), which leaves the count of eliminations as it was. The clause for an elimination does not
ask that the record has been read. -/

namespace Sys2Proof.Machine

/-! ### The part of a resumed lattice command -/

/-- A transfer makes the next part of the running head. -/
theorem execLatticeQueueTransfer_of_running {s : State} {m : Cmd} {r : List Cmd} (run : s.hasRunning .l m r)
    (num : ((runPart (Eng.latticePart m) s).after s).core.num = s.core.num) :
    exec (.latticeQueueTransfer s.core.num) s = .next ((runPart (Eng.latticePart m) s).after s) := by
  have part : (s.runs .l fun m => (runPart (Eng.latticePart m) s).after s) = (runPart (Eng.latticePart m) s).after s := run.runs_eq _
  have step : exec (.latticeQueueTransfer s.core.num) s = execLatticeQueueTransfer s.core.num s := rfl
  rw [step, execLatticeQueueTransfer, State.onCore_front (by rw [part, num]), part]

/-- The next part of a command whose record is to be read is the read of the record. -/
theorem Eng.latticePart_of_reloads {m : Cmd} (reloads : m.reloads = true) (other : latticeKind m.instr ≠ .resume) :
    Eng.latticePart m = Eng.reload m := by
  unfold Eng.latticePart
  split
  · next ares _ => exact absurd (by rw [ares]; rfl) other
  · rw [if_pos reloads]

/-! ### The counterexample -/

/-- Where the tile stands in the scratchpad. -/
def tileAt : Word := 0x8000000000002000#64

/-- The address that an ASAVE has given for records. -/
def recordAt : Word := 0x8000000000001000#64

/-- AVEC of 3 rows and 2 columns, whose angles go to q2. It runs, and the first of its three eliminations is made. -/
def eliminating : Cmd :=
  { State.reset.core.command (.avec false 0#20 1#6 2#6 3#6) .l 0#64 tileAt (3#64 ||| (2#64 <<< 8)) 0#64 [] with
    status := .running, since := some 0, begun := true, sweep := { Sweep.start with done := 1, out := [0#32] } }

/-- A core with a command at the head of L, which has eliminated one zero pair. -/
def withTile (m : Cmd) (scratch : Memory) (poison : List Granule) : State :=
  let s := State.reset.booted
  { s with core := { s.core with
      l := ⟨[m], 1#16, some 0, some 0, 1⟩
      lat := { s.core.lat with save := recordAt, nullPairs := 1#16 }
      scratch := scratch
      poison := poison } }

/-- The second elimination meets poison in the first row of the tile. -/
def poisonedTile : State := withTile eliminating Memory.empty [.scratch 0x400]

/-- The record of the stop that the poison causes. -/
def tileRecord : List Byte := poisonedTile.core.recordBytes eliminating 3 tileAt

/-- The command as a TRET resumes it. -/
def resumedElimination : Cmd := { eliminating with sweep := { eliminating.sweep with reload := true } }

/-- The handler has cleared the poison and a TRET has resumed the command; the record stands where the stop wrote it. -/
def resumedTile : State := withTile resumedElimination (Memory.empty.writeBytes 0x1000 tileRecord) []

set_option maxRecDepth 100000 in
/-- The queue and the scratchpad of `resumedTile` are those that the stop of `poisonedTile` leaves, with the command resumed. -/
theorem poisonedTile_stops : ∃ t, exec (.latticeStop poisonedTile.core.num) poisonedTile = .next t
    ∧ (t.core.resumeStop (.engine .l)).l = resumedTile.core.l ∧ t.core.scratch = resumedTile.core.scratch :=
  ⟨_, rfl, by decide, by decide⟩

theorem resumedTile_hasRunning : resumedTile.hasRunning .l resumedElimination [] :=
  ⟨rfl, by decide, rfl, fun n bound => by cases bound⟩

/-- The rows of the tile from column 0 on stand in scratchpad bytes that no window holds. -/
theorem resumedTile_plain {a : Word} {o : Nat} (row : (a, o) ∈ [(tileAt, 0x2000), (tileAt + 512#64, 0x2200)]) :
    Plain resumedTile a 8 o := by
  have outside : ∀ k, resumedTile.core.windowAt k = none := fun _ => rfl
  simp only [List.mem_cons, List.not_mem_nil, or_false, Prod.mk.injEq] at row
  rcases row with ⟨rfl, rfl⟩ | ⟨rfl, rfl⟩ <;>
    exact ⟨by decide, by decide, by decide, by decide, fun k _ => outside _, by decide⟩

set_option maxRecDepth 100000 in
/-- The part that follows the return reads the record: one elimination is made, as before. -/
theorem resumedTile_part : let t := (runPart (Eng.latticePart resumedElimination) resumedTile).after resumedTile
    t.core.num = resumedTile.core.num ∧ t.core.l.cmds.map (fun x => x.sweep.done) = [1] := by
  rw [Eng.latticePart_of_reloads (by decide) (by decide)]
  decide

end Sys2Proof.Machine

open Sys2Proof Sys2Proof.Machine

/-- Refutes O46: the clause for an elimination does not hold of an AVEC that a TRET has resumed and whose record is not yet read
(R203). In `resumedTile`, where one elimination is made, the transfer reads the record and makes no second one. -/
theorem not_latticeSteps : ¬ Obligations.LatticeSteps := by
  intro h
  obtain ⟨-, -, steps⟩ := h
  obtain ⟨-, running⟩ := steps resumedTile resumedElimination [] 0x2000 rfl
  obtain ⟨-, -, eliminates, -⟩ := running resumedTile_hasRunning
  obtain ⟨u, x, ⟨t, made, same, -⟩, queue, done, -⟩ := eliminates false 0#20 1#6 2#6 3#6 1 0 0x2200 rfl rfl (by decide) (by decide)
    (by decide) (by decide) (by decide) (by decide) rfl (resumedTile_plain (by decide)) (resumedTile_plain (by decide)) (by decide)
    (by decide) (by decide) (by decide) (by decide)
  obtain ⟨num, stands⟩ := resumedTile_part
  rw [execLatticeQueueTransfer_of_running resumedTile_hasRunning num] at made
  have left : t.core.l = { resumedTile.core.l with cmds := [x] } := (same.queue_eq .l).trans queue
  rw [Host.Outcome.next.inj made, left] at stands
  have one : x.sweep.done = 1 := (List.cons.inj stands).1
  exact absurd (done.symm.trans one) (by decide)
end

section
/-! SUPPORT. What accesses to memory keep of every core (R259, R381): its number, its pending traps and its commands. An access may
add a pending trap (R20, R397), and what commands keep of the bytes that a write is about to change (R283, R288); it does nothing
else to a queue. The relation is over all cores, by number, since a line may stand in another core's window (R281). -/

namespace Sys2Proof.Machine

/-! ### One core -/

/-- The core d is c after accesses to memory. -/
structure Core.Accessed (c d : Core) : Prop where
  num : d.num = c.num
  pending : ∀ t ∈ c.pending, t ∈ d.pending
  commands : ∀ q, (d.queue q).cmds.map Cmd.bare = (c.queue q).cmds.map Cmd.bare

theorem Core.Accessed.refl (c : Core) : c.Accessed c := ⟨rfl, fun _ h => h, fun _ => rfl⟩

theorem Core.Accessed.trans {a b c : Core} (h : a.Accessed b) (k : b.Accessed c) : a.Accessed c :=
  ⟨k.num.trans h.num, fun t m => k.pending t (h.pending t m), fun q => (k.commands q).trans (h.commands q)⟩

/-- A change of other fields of the core. -/
theorem Core.Accessed.of_fields {c d : Core}
    (h : (d.num, d.pending, d.l, d.c0, d.c1, d.k) = (c.num, c.pending, c.l, c.c0, c.c1, c.k)) : c.Accessed d := by
  simp only [Prod.mk.injEq] at h
  obtain ⟨num, pending, l, c0, c1, k⟩ := h
  refine ⟨num, fun t m => pending ▸ m, fun q => ?_⟩
  cases q <;> simp only [Core.queue, l, c0, c1, k]

theorem Core.Accessed.foldl {α : Type} {f : Core → α → Core} (each : ∀ (c : Core) (a : α), c.Accessed (f c a)) (l : List α)
    (c : Core) : c.Accessed (l.foldl f c) := by
  induction l generalizing c with
  | nil => exact .refl c
  | cons a r ih => exact (each c a).trans (ih _)

theorem Core.Accessed.ite {c d e : Core} {p : Prop} [Decidable p] (yes : c.Accessed d) (no : c.Accessed e) :
    c.Accessed (if p then d else e) := by
  split
  · exact yes
  · exact no

theorem Core.Accessed.bump {c d : Core} (h : c.Accessed d) (event n : Nat) : c.Accessed (d.bump event n) := h.trans (.of_fields rfl)

theorem mem_insertPending {l : List Pending} {t u : Pending} (h : u ∈ l) : u ∈ insertPending l t := by
  induction l with
  | nil => cases h
  | cons a r ih =>
    unfold insertPending
    split
    · cases h with
      | head => exact .head _
      | tail _ m => exact .tail _ (ih m)
    · exact .tail _ h

theorem Core.pend_accessed (c : Core) (t : Pending) : c.Accessed (c.pend t) :=
  ⟨rfl, fun _ h => mem_insertPending h, fun q => by cases q <;> rfl⟩

/-! ### A core and a write -/

theorem Cmd.keep_bare (m : Cmd) (loc : Nat) (cells : List (Byte × Bool)) (written : Bool) :
    (m.keep loc cells written).bare = m.bare := rfl

/-- A change of what commands keep of bytes leaves them the same commands. -/
theorem Core.mapCmds_accessed (c : Core) {f : Cmd → Cmd} (h : ∀ m, (f m).bare = m.bare) : c.Accessed (c.mapCmds f) := by
  refine ⟨rfl, fun _ k => k, fun q => ?_⟩
  have bare : ∀ l : List Cmd, (l.map f).map Cmd.bare = l.map Cmd.bare := fun l => by simp [h]
  cases q <;> exact bare _

theorem Core.keepFor_accessed (c : Core) (order loc : Nat) (cells : List (Byte × Bool)) (written : Bool) :
    c.Accessed (c.keepFor order loc cells written) := by
  refine .ite (.refl c) (c.mapCmds_accessed fun m => ?_)
  split
  · exact m.keep_bare loc cells written
  · rfl

theorem Core.pass_accessed (c : Core) (loc n : Nat) : c.Accessed (c.pass loc n) := .ite (.of_fields rfl) (.refl c)

theorem Core.reveal_accessed (c : Core) (loc n : Nat) : c.Accessed (c.reveal loc n) := .ite (.of_fields rfl) (.refl c)

theorem Core.addUnseen_accessed (c : Core) (q : EngineQ) (m : Cmd) (loc : Nat) (cells : List (Byte × Bool)) :
    c.Accessed (c.addUnseen q m loc cells) := .of_fields rfl

theorem Core.overWriter_accessed (c : Core) (who : Writer) (loc n : Nat) : c.Accessed (c.overWriter who loc n) := by
  cases who with
  | instr core order => exact .ite (.ite (.refl c) (.of_fields rfl)) (.refl c)
  | _ => exact .refl c

theorem Core.foresee_accessed (c : Core) (who : Writer) (loc : Nat) (cells : List (Byte × Bool)) :
    c.Accessed (c.foresee who loc cells) := by
  cases who with
  | instr n order =>
    exact ((Core.Accessed.ite (c.keepFor_accessed ..) (.refl c)).trans (Core.overWriter_accessed ..)).trans (Core.pass_accessed ..)
  | engine n q m => exact .ite ((c.keepFor_accessed ..).trans (Core.addUnseen_accessed ..)) (c.pass_accessed ..)
  | home cmds =>
    exact (Core.Accessed.foldl (fun d b => .ite (d.keepFor_accessed ..) (.refl d)) cmds c).trans (Core.pass_accessed ..)
  | _ => exact c.pass_accessed ..

/-- What sees a write is a waiting WFE, an operation, or the record of the last load. -/
theorem Core.sawWrite_accessed (c : Core) (who : Writer) (line : Nat) : c.Accessed (c.sawWrite who line) := by
  simp only [Core.sawWrite]
  repeat' split
  all_goals exact .of_fields rfl

theorem Core.scratchWrite_accessed (c : Core) (a : Nat) (bs : List Byte) : c.Accessed (c.scratchWrite a bs) := .of_fields rfl

theorem Core.markDirty_accessed (c : Core) (win line : Nat) : c.Accessed (c.markDirty win line) := .of_fields rfl

theorem Core.scratchPoison_accessed (c : Core) (a n : Nat) : c.Accessed (c.scratchPoison a n) := .ite (.refl c) (.of_fields rfl)

theorem Core.setGranule_accessed (c : Core) (g : Granule) (bad : Bool) : c.Accessed (c.setGranule g bad) := .of_fields rfl

theorem Core.setWins_accessed (c : Core) (wins : Vector (Option StashWin) 8) : c.Accessed { c with wins := wins } := .of_fields rfl

theorem Core.foreseeLocal_accessed (c : Core) (who : Writer) (o : Nat) (bs : List Byte) : c.Accessed (c.foreseeLocal who o bs) := by
  cases who with
  | engine n q m => exact c.addUnseen_accessed ..
  | _ => exact (c.overWriter_accessed ..).trans (Core.pass_accessed ..)

theorem Core.noteLocal_accessed (c : Core) (who : Writer) (o n : Nat) : c.Accessed (c.noteLocal who o n) :=
  .ite (.of_fields rfl) (.refl c)

/-! ### The cores by number -/

/-- The state t is s after accesses to memory: the same core stands in front, and each core is as accesses leave it. -/
structure State.Accessed (s t : State) : Prop where
  front : t.core.num = s.core.num
  cores : ∀ n, (s.coreAt n).Accessed (t.coreAt n)

theorem State.Accessed.refl (s : State) : s.Accessed s := ⟨rfl, fun _ => .refl _⟩

theorem State.Accessed.trans {s t u : State} (h : s.Accessed t) (k : t.Accessed u) : s.Accessed u :=
  ⟨k.front.trans h.front, fun n => (h.cores n).trans (k.cores n)⟩

theorem State.coreAt_front (s : State) : s.coreAt s.core.num = s.core := if_pos rfl

/-- What accesses leave of the core in front. -/
theorem State.Accessed.core {s t : State} (h : s.Accessed t) : s.core.Accessed t.core := by
  have front := h.cores s.core.num
  rwa [s.coreAt_front, ← h.front, t.coreAt_front] at front

theorem State.Accessed.ite {s t u : State} {p : Prop} [Decidable p] (yes : s.Accessed t) (no : s.Accessed u) :
    s.Accessed (if p then t else u) := by
  split
  · exact yes
  · exact no

/-- A change that leaves the cores. -/
theorem State.Accessed.of_cores {s t u : State} (h : s.Accessed t) (core : u.core = t.core) (parked : u.parked = t.parked) :
    s.Accessed u :=
  h.trans ⟨by rw [core], fun n => by simp only [State.coreAt, core, parked]; exact .refl _⟩

/-- A change of the core in front. -/
theorem State.Accessed.of_core {s t u : State} (h : s.Accessed t) (core : t.core.Accessed u.core) (parked : u.parked = t.parked) :
    s.Accessed u := by
  refine h.trans ⟨core.num, fun n => ?_⟩
  simp only [State.coreAt, parked, core.num]
  split
  · exact core
  · exact .refl _

section
variable {s t : State} (h : s.Accessed t)
include h

theorem State.Accessed.foldl {α : Type} {f : State → α → State}
    (each : ∀ (u : State) (a : α), s.Accessed u → s.Accessed (f u a)) (l : List α) : s.Accessed (l.foldl f t) := by
  induction l generalizing t with
  | nil => exact h
  | cons a r ih => exact ih (each t a h)

theorem State.Accessed.mapPkg (f : Package → Package) : s.Accessed (t.mapPkg f) := h.of_cores rfl rfl

theorem State.Accessed.mapCore {f : Core → Core} (each : ∀ c : Core, c.Accessed (f c)) : s.Accessed (t.mapCore f) :=
  h.of_core (each _) rfl

theorem State.Accessed.mapCores {f : Core → Core} (each : ∀ c : Core, c.Accessed (f c)) : s.Accessed (t.mapCores f) := by
  refine h.trans ⟨(each _).num, fun n => ?_⟩
  have parked : (t.mapCores f).parked.find? (fun c => c.num == n) = (t.parked.find? fun c => c.num == n).map f := by
    have same : (fun c : Core => c.num == n) ∘ f = fun c => c.num == n := funext fun c => by simp [(each c).num]
    rw [State.mapCores, List.find?_map, same]
  have front : (t.mapCores f).core.num = t.core.num := (each _).num
  simp only [State.coreAt, parked, front]
  split
  · exact each _
  · cases t.parked.find? fun c => c.num == n with
    | none => exact .refl _
    | some c => exact each c

end

/-! ### Bringing a core to the front -/

theorem find?_insertCore_same (l : List Core) (c : Core) : (insertCore l c).find? (fun d => d.num == c.num) = some c := by
  induction l with
  | nil => simp [insertCore]
  | cons d r ih =>
    unfold insertCore
    split
    · next below => rw [List.find?_cons_of_neg (by simp; omega), ih]
    · simp

theorem find?_insertCore_other (l : List Core) {c : Core} {n : Nat} (h : c.num ≠ n) :
    (insertCore l c).find? (fun d => d.num == n) = l.find? fun d => d.num == n := by
  induction l with
  | nil => simp [insertCore, h]
  | cons d r ih =>
    unfold insertCore
    split
    · simp only [List.find?_cons, ih]
    · rw [List.find?_cons_of_neg (by simpa using h)]

/-- Which core stands in front makes no difference to the core of a number. -/
@[simp] theorem State.coreAt_focus (s : State) (n k : Nat) : (s.focus n).coreAt k = s.coreAt k := by
  by_cases front : s.core.num = n
  · rw [State.focus_front front]
  by_cases named : n = k
  · subst named
    have same : (s.focus n).coreAt n = (s.focus n).core := if_pos (s.focus_num n)
    rw [same, State.focus, if_neg front]
  have other : (s.focus n).coreAt k = ((s.focus n).parked.find? fun c => c.num == k).getD (Core.reset k) :=
    if_neg (by rwa [State.focus_num])
  have parked : (s.focus n).parked = insertCore (s.parked.filter fun c => c.num != n) s.core := by rw [State.focus, if_neg front]
  rw [other, parked]
  by_cases own : s.core.num = k
  · subst own
    rw [find?_insertCore_same, State.coreAt_front, Option.getD_some]
  · rw [find?_insertCore_other _ own, List.find?_filter, State.coreAt, if_neg own]
    congr 2
    funext c
    by_cases c.num = k <;> simp_all [Ne.symm named]

/-- Accesses that are made with another core in front. -/
theorem State.Accessed.onCore {s t : State} (h : s.Accessed t) (n : Nat) {f : State → State}
    (made : ∀ u : State, u.Accessed (f u)) : s.Accessed (t.onCore n f) := by
  refine h.trans ⟨State.focus_num .., fun k => ?_⟩
  rw [State.onCore, State.coreAt_focus, ← t.coreAt_focus n k]
  exact (made _).cores k

section
variable {s t : State} (h : s.Accessed t)
include h

/-! ### Accesses at a home -/

theorem State.Accessed.tellLoss (ctx die : Nat) : s.Accessed (t.tellLoss ctx die) := by
  unfold State.tellLoss
  exact (h.mapCores fun c => .ite (c.pend_accessed _) (.refl c)).mapPkg _

theorem State.Accessed.settleMerges (ctx : Nat) : s.Accessed (t.settleMerges ctx) := by
  unfold State.settleMerges
  exact h.mapPkg _

theorem State.Accessed.unserved (ctx pa : Nat) : s.Accessed (t.unserved ctx pa) := by
  unfold State.unserved
  split
  · exact h
  · exact h.mapPkg _
  · exact h
  · exact ((h.mapPkg _).tellLoss _ _).settleMerges _

theorem State.Accessed.reachFor (ctx pa : Nat) : s.Accessed (t.reachFor ctx pa) := (h.mapPkg _).unserved ctx pa

theorem State.Accessed.foresee (who : Writer) (pa n : Nat) (key : BitVec 6) : s.Accessed (t.foresee who pa n key) := by
  unfold State.foresee
  cases who with
  | instr core order =>
    have stale : s.Accessed (t.noteStale core order pa n key) := .ite h (h.mapPkg _)
    exact stale.mapCores fun c => c.foresee_accessed ..
  | _ => exact h.mapCores fun c => c.foresee_accessed ..

/-- What follows every write to a line: watchers see it, and it is noted. -/
theorem State.Accessed.written (who : Writer) (pa n : Nat) :
    s.Accessed (((t.mapCores fun c => c.sawWrite who (pa / 64)).mapPkg fun p => p.restsSaw (pa / 64)).noteWrite who pa n) := by
  have seen : s.Accessed ((t.mapCores fun c => c.sawWrite who (pa / 64)).mapPkg fun p => p.restsSaw (pa / 64)) :=
    (h.mapCores fun c => c.sawWrite_accessed ..).mapPkg _
  exact .ite (seen.mapPkg _) seen

theorem State.Accessed.put (who : Writer) (pa : Nat) (bs : List Byte) (key : BitVec 6) : s.Accessed (t.put who pa bs key) := by
  have foreseen := h.foresee who pa bs.length key
  unfold State.put
  refine .ite h (.written ?_ ..)
  split
  · exact foreseen.onCore _ fun u =>
      (State.Accessed.refl u).mapCore fun c => (c.scratchWrite_accessed ..).trans (Core.markDirty_accessed ..)
  · exact foreseen.mapPkg _

theorem State.Accessed.recall (line : Nat) : s.Accessed (t.recall line) := by
  unfold State.recall
  split
  · exact h
  · exact ((h.mapPkg _).mapPkg _).put ..

theorem State.Accessed.putPoison (pa n : Nat) : s.Accessed (t.putPoison pa n) := by
  unfold State.putPoison
  split
  · exact h.onCore _ fun u => (State.Accessed.refl u).mapCore fun c => c.scratchPoison_accessed ..
  · exact h.mapPkg _

/-! ### Lines of windows -/

theorem State.Accessed.putHome (pa : Nat) (bs : List Byte) (key : BitVec 6) (poisoned : Bool) :
    s.Accessed (t.putHome pa bs key poisoned) := by
  unfold State.putHome
  split
  · exact h.mapPkg _
  · exact h

theorem State.Accessed.writeBackLine (w : StashWin) (line : Nat) : s.Accessed (t.writeBackLine w line) := by
  unfold State.writeBackLine
  split
  · exact h
  · refine ((h.reachFor ..).putHome ..).mapCore fun c => ?_
    exact ((((Core.Accessed.refl c).bump 35 1).bump 15 1).bump 38 1).bump 39 1

theorem State.Accessed.pairsHome (w : StashWin) (line : Nat) : s.Accessed (t.pairsHome w line) := by
  unfold State.pairsHome
  split
  · exact h
  · exact h.of_core (.foldl (fun c a => (c.setGranule_accessed ..).trans (Core.setGranule_accessed ..)) _ _) rfl

theorem State.Accessed.fillLine (win line : Nat) : s.Accessed (t.fillLine win line) := by
  unfold State.fillLine
  split
  · refine ((h.reachFor ..).mapPkg _).mapCore fun c => ?_
    refine .bump (.bump (.bump (.bump (.trans ?_ (Core.setWins_accessed ..)) ..) ..) ..) ..
    refine .trans ?_ (.foldl (fun d a => d.setGranule_accessed ..) _ _)
    exact (c.scratchWrite_accessed ..).trans (.ite (Core.scratchPoison_accessed ..) (.refl _))
  · exact h

theorem State.Accessed.releaseLine (win line : Nat) : s.Accessed (t.releaseLine win line) := by
  unfold State.releaseLine
  split
  · exact h
  · refine State.Accessed.mapCore (.pairsHome (.ite (h.writeBackLine ..) h) ..) fun c => c.setWins_accessed _

theorem State.Accessed.claimLine (win line : Nat) : s.Accessed (t.claimLine win line) := by
  unfold State.claimLine
  split
  · exact h
  split
  · exact h
  refine .fillLine ?_ ..
  split
  · exact h.onCore _ fun u => (State.Accessed.refl u).releaseLine ..
  · exact h.recall _

theorem State.Accessed.claimAt (hit : Option (Nat × Nat)) : s.Accessed (t.claimAt hit) := by
  cases hit with
  | none => exact h
  | some e => exact h.claimLine ..

theorem State.Accessed.writeLocal (who : Writer) (o : Nat) (bs : List Byte) : s.Accessed (t.writeLocal who o bs) := by
  unfold State.writeLocal
  split
  · refine .written (((h.claimLine ..).foresee ..).mapCore fun c => ?_) ..
    exact ((c.overWriter_accessed ..).trans (Core.scratchWrite_accessed ..)).trans (Core.markDirty_accessed ..)
  · refine h.mapCore fun c => ?_
    exact ((c.foreseeLocal_accessed ..).trans (Core.scratchWrite_accessed ..)).trans (Core.noteLocal_accessed ..)

end

end Sys2Proof.Machine
end

section
/-! SUPPORT. What an engine leaves of every core where the next part of a K command halts (R232, R259): before that it has made
accesses alone. And the accesses of a stop and of a demand fill: the record of the lattice, a destination made undefined, and the
page that a hub fills (R201, R321, R382). -/

namespace Sys2Proof.Machine

/-! ### Accesses of a hub, records and destinations -/

section
variable {s t : State} (h : s.Accessed t)
include h

theorem State.Accessed.hubRead (pa n : Nat) (key : BitVec 6) : s.Accessed (t.hubRead pa n key).1 := (h.recall _).reachFor ..

theorem State.Accessed.fillWrite (pa : Nat) (bs : List Byte) (key : BitVec 6) : s.Accessed (t.fillWrite pa bs key) :=
  ((h.recall _).reachFor ..).put ..

theorem State.Accessed.hubWrite (pa : Nat) (bs : List Byte) (key : BitVec 6) : s.Accessed (t.hubWrite pa bs key) :=
  ((h.recall _).reachFor ..).put ..

theorem State.Accessed.writePhys (pa : Nat) (bs : List Byte) (key : BitVec 6) : s.Accessed (t.writePhys pa bs key) :=
  h.foldl (fun _ _ k => k.hubWrite ..) _

theorem State.Accessed.recordToSave (m : Cmd) (reason : Nat) (faddr : Word) : s.Accessed (t.recordToSave m reason faddr) :=
  h.foldl (fun _ _ k => k.writePhys ..) _

theorem State.Accessed.setStanding (q : EngineQ) (m : Cmd) (p : Nat × Nat) (bs : List Byte) :
    s.Accessed (t.setStanding q m p bs) := by
  unfold State.setStanding
  split
  · exact ((h.recall _).reachFor ..).put ..
  · exact h.writeLocal ..
  · exact h

theorem State.Accessed.undefine (q : EngineQ) (m : Cmd) (p : Nat × Nat) : s.Accessed (t.undefine q m p) :=
  have taken : s.Accessed (t.takeFree p.2).2 := h.of_cores rfl rfl
  .ite (taken.setStanding ..) h

theorem State.Accessed.undefineDst (q : EngineQ) (m : Cmd) (k : Control) : s.Accessed (t.undefineDst q m k) :=
  .ite h (h.foldl (fun _ _ k => k.undefine ..) _)

/-! ### A demand fill (R382) -/

theorem State.Accessed.takeFrame (bits : Nat) : s.Accessed (t.takeFrame bits).1 := by
  have header := h.hubRead (t.pkg.ctx t.core.ctx).frames 64 (t.pkg.ctx t.core.ctx).ptkey
  simp only [State.takeFrame]
  split
  · exact h
  split
  · exact header
  have entry := fun a => header.hubRead a 8 (t.pkg.ctx t.core.ctx).ptkey
  split
  · exact entry _
  · exact (entry _).hubWrite ..

theorem State.Accessed.copyPage (e : Word) (src dst bits : Nat) : s.Accessed (t.copyPage e src dst bits).1 := by
  have source : s.Accessed ((pieces 64 src (2 ^ bits / 64 + 1) (2 ^ bits)).foldl
      (fun s p => (s.recall (p.1 / 64)).reachFor s.core.ctx p.1) t) := h.foldl (fun _ _ k => (k.recall _).reachFor ..) _
  simp only [State.copyPage]
  generalize List.foldl _ t _ = u at source ⊢
  split
  · exact source
  · next bs _ =>
    have filled : s.Accessed ((pieces 64 dst (2 ^ bits / 64 + 1) (2 ^ bits)).foldl
        (fun t p => t.fillWrite p.1 ((bs.drop (p.1 - dst)).take p.2) (pteKey e)) u) := source.foldl (fun _ _ k => k.fillWrite ..) _
    split
    · exact filled
    · exact filled.foldl (fun _ _ k => .ite (k.putPoison ..) k) _

theorem State.Accessed.demandFill (va : Word) : s.Accessed (t.demandFill va).1 := by
  simp only [State.demandFill]
  split
  · exact h
  split
  · next e bits at_ _ =>
    split
    · exact h
    have taken := h.takeFrame bits
    cases found : t.takeFrame bits with
    | mk u frame =>
      rw [found] at taken
      cases frame with
      | none => exact taken
      | some frame =>
        simp only
        have copied := taken.copyPage e (u.pkg.ptePa e / 2 ^ bits * 2 ^ bits)
          (u.pkg.ptePa (presentEntry e frame) / 2 ^ bits * 2 ^ bits) bits
        cases made : u.copyPage e (u.pkg.ptePa e / 2 ^ bits * 2 ^ bits)
            (u.pkg.ptePa (presentEntry e frame) / 2 ^ bits * 2 ^ bits) bits with
        | mk v done =>
          rw [made] at copied
          cases done with
          | false => exact copied
          | true => exact copied.foldl (fun _ _ k => k.hubWrite ..) _
  · exact h

/-! ### Translation (R278) -/

theorem State.Accessed.walkNow (ctx : Nat) (va : Word) (acc : Acc) : s.Accessed (State.translate.walkNow ctx va acc t).1 := by
  have walked : s.Accessed (((t.walkFor ctx va.toNat).1.foldl (fun t a => (t.recall (a / 64)).reachFor ctx a) t).mapCore
      fun c => c.bump 40 1) :=
    (h.foldl (fun _ _ k => (k.recall _).reachFor ..) _).mapCore fun c => (Core.Accessed.refl c).bump ..
  simp only [State.translate.walkNow]
  split
  · exact walked
  · exact walked.of_cores rfl rfl

theorem State.Accessed.translate (ctx : Nat) (va : Word) (acc : Acc) : s.Accessed (t.translate ctx va acc).1 := by
  have fresh : s.Accessed { t with fresh := t.fresh + 1 } := h.of_cores rfl rfl
  unfold State.translate
  split
  · exact h
  split
  · split
    · exact h
    split
    · exact fresh
    · exact fresh.walkNow ..
  · exact h.walkNow ..

/-! ### What an engine finds (R290) -/

theorem State.Accessed.findEngine (q : EngineQ) (loc : Nat) (bs : List Byte) : s.Accessed (t.findEngine q loc bs).2 := by
  unfold State.findEngine
  split
  · exact h
  · exact h.of_core (.of_fields rfl) rfl

theorem State.Accessed.pinFound (order loc : Nat) (cells : List (Byte × Bool)) : s.Accessed (t.pinFound order loc cells) := by
  have kept : s.Accessed (t.mapCore fun c => c.keepFor order loc cells false) := h.mapCore fun c => c.keepFor_accessed ..
  refine .ite ?_ h
  unfold State.showTo
  exact .ite (kept.mapCores fun c => .ite (.refl c) (c.reveal_accessed ..)) kept

theorem State.Accessed.engineView (q : EngineQ) (loc : Nat) (cells : List (Byte × Bool)) : s.Accessed (t.engineView q loc cells).2 :=
  (h.findEngine ..).pinFound ..

end

/-! ### Work of an engine -/

/-- The work halts, where it does, after accesses alone. -/
def Eng.HaltsAccessed {α : Type} (e : Eng α) : Prop := ∀ s halt t, e s = .error halt t → s.Accessed t

/-- The work makes accesses alone, whether it halts or not. -/
structure Eng.Accesses {α : Type} (e : Eng α) : Prop where
  made : ∀ s a t, e s = .ok a t → s.Accessed t
  halts : Eng.HaltsAccessed e

/-- The work never halts. -/
def Eng.Completes {α : Type} (e : Eng α) : Prop := ∀ s halt t, e s ≠ .error halt t

section
variable {α β : Type}

theorem Eng.bind_ok {x : Eng α} {f : α → Eng β} {s u : State} {b : β} (h : (x >>= f) s = .ok b u) :
    ∃ a t, x s = .ok a t ∧ f a t = .ok b u := by
  simp only [bind, EStateM.bind] at h
  cases first : x s with
  | ok a t => exact ⟨a, t, rfl, by rwa [first] at h⟩
  | error halt t => rw [first] at h; cases h

theorem Eng.bind_error {x : Eng α} {f : α → Eng β} {s u : State} {halt : Halt} (h : (x >>= f) s = .error halt u) :
    x s = .error halt u ∨ ∃ a t, x s = .ok a t ∧ f a t = .error halt u := by
  simp only [bind, EStateM.bind] at h
  cases first : x s with
  | ok a t => exact .inr ⟨a, t, rfl, by rwa [first] at h⟩
  | error halt t => rw [first] at h; cases h; exact .inl rfl

theorem Eng.Accesses.haltsBind {x : Eng α} {f : α → Eng β} (first : Eng.Accesses x) (rest : ∀ a, Eng.HaltsAccessed (f a)) :
    Eng.HaltsAccessed (x >>= f) := by
  intro s halt u h
  obtain h | ⟨a, t, ok, h⟩ := Eng.bind_error h
  · exact first.halts _ _ _ h
  · exact (first.made _ _ _ ok).trans (rest a _ _ _ h)

theorem Eng.Accesses.bind {x : Eng α} {f : α → Eng β} (first : Eng.Accesses x) (rest : ∀ a, Eng.Accesses (f a)) :
    Eng.Accesses (x >>= f) := by
  refine ⟨fun s b u h => ?_, first.haltsBind fun a => (rest a).halts⟩
  obtain ⟨a, t, ok, h⟩ := Eng.bind_ok h
  exact (first.made _ _ _ ok).trans ((rest a).made _ _ _ h)

theorem Eng.HaltsAccessed.bind_completes {x : Eng α} {f : α → Eng β} (first : Eng.HaltsAccessed x)
    (rest : ∀ a, Eng.Completes (f a)) : Eng.HaltsAccessed (x >>= f) := by
  intro s halt u h
  obtain h | ⟨a, t, -, h⟩ := Eng.bind_error h
  · exact first _ _ _ h
  · exact absurd h (rest a _ _ _)

theorem Eng.Completes.bind {x : Eng α} {f : α → Eng β} (first : Eng.Completes x) (rest : ∀ a, Eng.Completes (f a)) :
    Eng.Completes (x >>= f) := by
  intro s halt u h
  obtain h | ⟨a, t, -, h⟩ := Eng.bind_error h
  · exact first _ _ _ h
  · exact rest a _ _ _ h

theorem Eng.Completes.halts {e : Eng α} (h : Eng.Completes e) : Eng.HaltsAccessed e := fun _ _ _ k => absurd k (h _ _ _)

theorem Eng.Completes.pure (a : α) : Eng.Completes (pure a : Eng α) := fun _ _ _ h => by cases h

theorem Eng.Completes.modify (f : State → State) : Eng.Completes (modify f : Eng Unit) := fun _ _ _ h => by cases h

theorem Eng.Completes.progress (q : EngineQ) (f : Cmd → Cmd) : Eng.Completes (Eng.progress q f) := .modify _

theorem Eng.Accesses.of_ends {e : Eng α}
    (ends : ∀ s, ∃ t, s.Accessed t ∧ ((∃ a, e s = .ok a t) ∨ ∃ halt, e s = .error halt t)) : Eng.Accesses e := by
  constructor
  · intro s a t h
    obtain ⟨u, accessed, ⟨b, ok⟩ | ⟨halt, error⟩⟩ := ends s
    · cases h.symm.trans ok; exact accessed
    · cases h.symm.trans error
  · intro s halt t h
    obtain ⟨u, accessed, ⟨b, ok⟩ | ⟨halt, error⟩⟩ := ends s
    · cases h.symm.trans ok
    · cases h.symm.trans error; exact accessed

theorem Eng.Accesses.pure (a : α) : Eng.Accesses (pure a : Eng α) :=
  ⟨fun _ _ _ h => by cases h; exact .refl _, (Eng.Completes.pure a).halts⟩

theorem Eng.Accesses.get : Eng.Accesses (get : Eng State) := ⟨fun _ _ _ h => by cases h; exact .refl _, fun _ _ _ h => by cases h⟩

theorem Eng.Accesses.stop (t : Trap) : Eng.Accesses (Eng.stop t : Eng α) :=
  ⟨fun _ _ _ h => (by cases h), fun _ _ _ h => (by cases h; exact .refl _)⟩

theorem Eng.Accesses.wait (cond : BitVec 3) : Eng.Accesses (Eng.wait cond : Eng α) :=
  ⟨fun _ _ _ h => (by cases h), fun _ _ _ h => (by cases h; exact .refl _)⟩

theorem Eng.Accesses.ite {x y : Eng α} {p : Prop} [Decidable p] (yes : Eng.Accesses x) (no : Eng.Accesses y) :
    Eng.Accesses (if p then x else y) := by
  split
  · exact yes
  · exact no

theorem Eng.Accesses.mapM {f : α → Eng β} (each : ∀ a, Eng.Accesses (f a)) (l : List α) : Eng.Accesses (l.mapM f) := by
  induction l with
  | nil => exact .pure _
  | cons a r ih =>
    rw [List.mapM_cons]
    exact (each a).bind fun b => ih.bind fun bs => .pure _

end

/-! ### Reading and finding places -/

theorem Eng.page_accesses (q : EngineQ) (m : Cmd) (a : Word) (acc : Acc) : Eng.Accesses (Eng.page q m a acc) := by
  refine .of_ends fun s => ?_
  cases held : pageFor (m.hold ++ m.pins) a.toNat with
  | some pg =>
    refine ⟨s, .refl s, ?_⟩
    cases allowed : checkPerm a acc pg with
    | ok pg => exact .inl ⟨pg, by simp only [Eng.page, held, allowed]⟩
    | error t => exact .inr ⟨.stop (blame q m t), by simp only [Eng.page, held, allowed]⟩
  | none =>
    have translated := (State.Accessed.refl s).translate s.core.ctx a acc
    cases found : s.translate s.core.ctx a acc with
    | mk u r =>
      rw [found] at translated
      refine ⟨u, translated, ?_⟩
      cases r with
      | ok pg => exact .inl ⟨pg, by simp only [Eng.page, held, found]⟩
      | error t => exact .inr ⟨.stop (blame q m t), by simp only [Eng.page, held, found]⟩

theorem Eng.place_accesses (q : EngineQ) (m : Cmd) (a : Nat) (acc : Acc) : Eng.Accesses (Eng.place q m a acc) :=
  .ite (.pure _) ((Eng.page_accesses ..).bind fun _ => .pure _)

theorem Eng.awaitLine_accesses (q : EngineQ) (hit : Option (Nat × Nat)) (pg : Option Page) (a : Nat) :
    Eng.Accesses (Eng.awaitLine q hit pg a) := by
  refine Eng.Accesses.get.bind fun s => ?_
  have linked : ∀ full : Bool, Eng.Accesses (if full = true then Eng.wait 4#3 else pure () : Eng Unit) :=
    fun _ => .ite (.wait _) (.pure _)
  exact .ite ((Eng.Accesses.wait _).bind fun _ => linked _) (linked _)

theorem Eng.readPiece_accesses (q : EngineQ) (pg : Option Page) (a n : Nat) (counted : Bool) :
    Eng.Accesses (Eng.readPiece q pg a n counted) := by
  refine .of_ends fun s => ?_
  have claimed := fun hit => (State.Accessed.refl s).claimAt hit
  cases pg with
  | none => exact ⟨_, ((claimed _).mapCore fun c => (Core.Accessed.refl c).bump ..).engineView .., .inl ⟨_, rfl⟩⟩
  | some pg =>
    refine ⟨_, .engineView (.ite ?_ ?_) .., .inl ⟨_, rfl⟩⟩
    · exact (((claimed _).recall _).reachFor ..).mapCore fun c => ((Core.Accessed.refl c).bump ..).bump ..
    · exact (claimed _).recall _

theorem Eng.readPieces_accesses (q : EngineQ) (m : Cmd) (cut : List (Nat × Nat)) : Eng.Accesses (Eng.readPieces q m cut) :=
  .mapM (fun _ => (Eng.place_accesses ..).bind fun _ => Eng.Accesses.get.bind fun _ =>
    (Eng.awaitLine_accesses ..).bind fun _ => Eng.readPiece_accesses ..) _

theorem Eng.read_accesses (q : EngineQ) (m : Cmd) (a : Word) (n : Nat) : Eng.Accesses (Eng.read q m a n) := by
  refine (Eng.readPieces_accesses ..).bind fun ps => ?_
  split
  · exact .stop _
  · exact .pure _

theorem Eng.writable_accesses (q : EngineQ) (m : Cmd) (a : Word) (n : Nat) : Eng.Accesses (Eng.writable q m a n) := by
  refine .mapM (fun p => (Eng.place_accesses ..).bind fun pg => Eng.Accesses.get.bind fun s =>
    (Eng.awaitLine_accesses ..).bind fun _ => ?_) _
  split
  · exact .ite (.pure _) (.stop _)
  · exact .pure _

theorem Eng.write_haltsAccessed (q : EngineQ) (m : Cmd) (a : Word) (bs : List Byte) : Eng.HaltsAccessed (Eng.write q m a bs) :=
  (Eng.writable_accesses ..).haltsBind fun _ => (Eng.Completes.modify _).halts

/-! ### The next part of a K command -/

theorem Eng.element_haltsAccessed (m : Cmd) : Eng.HaltsAccessed (Eng.element m) := by
  unfold Eng.element
  split
  · exact (Eng.Completes.modify _).halts
  · exact (Eng.read_accesses ..).haltsBind fun _ => (Eng.Completes.modify _).halts
  · exact (Eng.read_accesses ..).haltsBind fun _ => (Eng.Completes.modify _).halts
  · exact (Eng.read_accesses ..).haltsBind fun _ => (Eng.writable_accesses ..).haltsBind fun _ => (Eng.Completes.modify _).halts
  · exact (Eng.Completes.modify _).halts
  · refine Eng.Accesses.get.haltsBind fun s => ?_
    simp only
    split
    · exact (Eng.read_accesses ..).haltsBind fun _ => (Eng.writable_accesses ..).haltsBind fun _ => (Eng.Completes.modify _).halts
    · exact ((Eng.Completes.modify _).bind fun _ => .progress _ _).halts
  · exact (Eng.Completes.pure _).halts

theorem Eng.sketchPart_haltsAccessed (m : Cmd) : Eng.HaltsAccessed (Eng.sketchPart m) :=
  (Eng.element_haltsAccessed m).bind_completes fun _ => .progress _ _

theorem Eng.retireSketch_haltsAccessed (m : Cmd) : Eng.HaltsAccessed (Eng.retireSketch m) := by
  unfold Eng.retireSketch
  dsimp only
  split
  · exact ((Eng.Completes.modify _).bind fun _ => .modify _).halts
  · split
    · exact (Eng.write_haltsAccessed _ _ _ _).bind_completes fun _ => .modify _
    · exact (Eng.Completes.modify _).halts
  · exact (Eng.Completes.modify _).halts

theorem Eng.sketchNext_haltsAccessed (m : Cmd) : Eng.HaltsAccessed (Eng.sketchNext m) := by
  unfold Eng.sketchNext
  split
  · exact Eng.sketchPart_haltsAccessed m
  · exact Eng.retireSketch_haltsAccessed m

end Sys2Proof.Machine
end

section
/-! SUPPORT. O49: a bound that has run out and a demand fault that the hub serves (R197, R259, R381, R382). Every engine stops its
head as the K engine does, after accesses alone. -/

namespace Sys2Proof.Machine

/-! ### Steps of the core in front -/

theorem Becomes.refl (s : State) : Becomes s s := ⟨rfl, rfl⟩

/-- A step of the core in front that leaves it there makes the state that it acts out. -/
theorem makes_of_onCore {i : Instr} {s u : State} {f : State → State} (meaning : exec i s = .next (s.onCore s.core.num f))
    (acts : f s = u) (front : u.core.num = s.core.num) : Makes i s u := by
  subst acts
  exact ⟨f s, meaning.trans (congrArg _ (State.onCore_front front)), .refl _⟩

/-! ### The bound of a running head -/

theorem State.runner_of_head {s : State} {q : EngineQ} {m : Cmd} {r : List Cmd} (head : (s.core.queue q).cmds = m :: r)
    (engine : s.engineRuns = true) (running : m.status = .running) : s.runner q = some m := by
  simp [State.runner, Core.head, head, engine, running]

theorem State.hasRunning.runner_eq {s : State} {q : EngineQ} {m : Cmd} {r : List Cmd} (h : s.hasRunning q m r) :
    s.runner q = some m := by
  obtain ⟨head, engine, running, -⟩ := h
  exact State.runner_of_head head engine running

/-- A bound is exhausted when it is no longer than the time that the command has run. -/
theorem Cmd.leftAt_eq_zero_iff (m : Cmd) (now : Nat) :
    m.leftAt now = some 0 ↔ ∃ n, m.left = some n ∧ n ≤ match m.since with | some t => now - t | none => 0 := by
  unfold Cmd.leftAt
  cases m.left with
  | none => simp
  | some n => cases m.since <;> simp [Nat.sub_eq_zero_iff_le]

/-- While cycles of its bound remain, a head has not overrun it. -/
theorem State.hasRunning.overrun_eq {s : State} {q : EngineQ} {m : Cmd} {r : List Cmd} (h : s.hasRunning q m r) :
    s.overrun q = none := by
  have remains : m.leftAt s.core.meter ≠ some 0 := by
    rw [Ne, Cmd.leftAt_eq_zero_iff]
    rintro ⟨n, left, exhausted⟩
    obtain ⟨-, -, -, bound⟩ := h
    exact absurd (bound n left) (Nat.not_lt.mpr exhausted)
  simp [State.overrun, h.runner_eq, remains]

theorem State.hasOverrun.overrun_eq {s : State} {q : EngineQ} {m : Cmd} {r : List Cmd} (h : s.hasOverrun q m r) :
    s.overrun q = some m := by
  obtain ⟨head, engine, running, closed, short, exhausted⟩ := h
  have zero : m.leftAt s.core.meter = some 0 := (m.leftAt_eq_zero_iff _).mpr exhausted
  have boundary : m.atStop q = true := by
    by_cases lattice : q = .l
    · rcases short lattice with kind | done
      · simp [Cmd.atStop, Cmd.afterEffect, closed, kind]
      · simp [Cmd.atStop, Cmd.afterEffect, closed, done]
    · simp [Cmd.atStop, closed, lattice]
  simp [State.overrun, State.runner_of_head head engine running, zero, boundary]

/-- The attribution word of R259, field by field. -/
theorem attribution_eq_append (q : EngineQ) (m : Cmd) (cond : BitVec 3) :
    attribution q m cond = 0#29 ++ cond ++ m.seq ++ 0#14 ++ q.code := by
  unfold attribution
  ext i hi
  grind

/-! ### Stops -/

/-- A command as it stands at the head of its queue when it has stopped. -/
def Cmd.stoppedAt (m : Cmd) (now : Nat) : Cmd := { m.freeze now with status := .stopped, hold := [], olds := [] }

theorem Core.stopHead_cmds (c : Core) (q : EngineQ) (m : Cmd) (t : Trap) :
    ((c.stopHead q m t).queue q).cmds = m.stoppedAt c.meter :: (c.queue q).cmds.tail := by
  cases q <;> rfl

theorem Core.stopHead_pending (c : Core) (q : EngineQ) (m : Cmd) (t : Trap) :
    (c.stopHead q m t).pending = insertPending c.pending ⟨stopRank q, 0, t, .engine q⟩ := by
  cases q <;> rfl

theorem Core.stopHead_num (c : Core) (q : EngineQ) (m : Cmd) (t : Trap) : (c.stopHead q m t).num = c.num := by
  cases q <;> rfl

theorem Core.setLat_accessed (c : Core) (f : Lattice → Lattice) : c.Accessed (c.setLat f) := .of_fields rfl

/-- Accesses are made, and then the head m of a queue stops with a trap: x is the command with what its stop changes in it. -/
def StopsAfterAccesses (s : State) (q : EngineQ) (m : Cmd) (t : Trap) (u : State) : Prop :=
  ∃ w x, s.Accessed w ∧ u = w.mapCore (fun c => c.stopHead q x t) ∧ x.seq = m.seq ∧ x.instr = m.instr

/-- A lattice command as it stops: at its boundary, with what its record names (R201). -/
def Cmd.latticeStop (m : Cmd) (now : Nat) (t : Trap) : Cmd :=
  ({ m.atBoundary now with stop := some (stopReason t.cause, faultAddress t) } : Cmd).toReload

/-- The lattice writes its record at the supervisor's area before it stops (R201). -/
theorem State.stopLattice_stops {s : State} {m : Cmd} (t : Trap) (area : s.core.lat.save = 0#64) :
    ∃ u, s.stopLattice m t = some u ∧ StopsAfterAccesses s .l m t u := by
  have written : s.Accessed ((s.recordToSave (m.freeze s.core.meter) (stopReason t.cause) (faultAddress t)).setRecAlt false) :=
    ((State.Accessed.refl s).recordToSave ..).mapCore fun c => c.setLat_accessed _
  have record : ∀ n a, s.writeRecord (m.freeze s.core.meter) n a
      = some ((s.recordToSave (m.freeze s.core.meter) n a).setRecAlt false) := fun n a => if_pos area
  unfold State.stopLattice
  dsimp only
  rw [record, Option.map_some]
  generalize State.setRecAlt _ _ = w at written ⊢
  have faulted : s.Accessed
      (if t.cause = 14#5 then w.mapCore fun c => c.setLat fun l => { l with fault := t.info1.setWidth 8 } else w) :=
    .ite (written.mapCore fun c => c.setLat_accessed _) written
  generalize (if t.cause = 14#5 then _ else w) = v at faulted ⊢
  exact ⟨_, rfl, v, m.latticeStop v.core.meter t, faulted, rfl, rfl, rfl⟩

/-- A copy leaves its destination undefined before it stops, unless it streams (R321). -/
theorem State.stopCopy_stops (s : State) (q : EngineQ) (m : Cmd) (t : Trap) : StopsAfterAccesses s q m t (s.stopCopy q m t) := by
  unfold State.stopCopy
  split
  · exact ⟨s, m, .refl s, rfl, rfl, rfl⟩
  · exact ⟨_, _, (State.Accessed.refl s).undefineDst q m _, rfl, rfl, rfl⟩

theorem State.stopWith_stops {s : State} {q : EngineQ} {m : Cmd} (t : Trap) (area : q = .l → s.core.lat.save = 0#64) :
    ∃ u, s.stopWith q m t = some u ∧ StopsAfterAccesses s q m t u := by
  cases q with
  | l => exact State.stopLattice_stops t (area rfl)
  | c0 => exact ⟨_, rfl, s.stopCopy_stops ..⟩
  | c1 => exact ⟨_, rfl, s.stopCopy_stops ..⟩
  | k => exact ⟨_, rfl, s, m, .refl s, rfl, rfl, rfl⟩

/-- The trap of a bound overrun (R259). -/
def overrunTrap (q : EngineQ) (m : Cmd) (cond : BitVec 3) : Trap :=
  ⟨13#5, true, 0#29 ++ cond ++ m.seq ++ 0#14 ++ q.code, 0#64, 0#64, 0#64⟩

theorem State.hasOverrun.boundStop_stops {s : State} {q : EngineQ} {m : Cmd} {r : List Cmd} (exhausted : s.hasOverrun q m r)
    (area : q = .l → s.core.lat.save = 0#64) : StopsAfterAccesses s q m (overrunTrap q m (s.awaited q)) (s.boundStop q) := by
  obtain ⟨u, stops, after⟩ := State.stopWith_stops (m := { m with stop := some (6, 0#64) }) (overrunTrap q m (s.awaited q)) area
  have step : s.boundStop q = u := by
    rw [overrunTrap, ← attribution_eq_append] at stops
    simp only [State.boundStop, exhausted.overrun_eq, stops, Option.getD_some]
  rw [step]
  exact after

/-! ### A demand fault of a K command -/

/-- Where the next part of a running K command stops, it has made accesses alone. -/
theorem State.hasRunning.nextStop_accessed {s u : State} {m : Cmd} {r : List Cmd} {t : Trap} (runs : s.hasRunning .k m r)
    (stops : s.nextStop .k = some (m, t, u)) : s.Accessed u := by
  simp only [State.nextStop, State.nextPart, runs.runner_eq, runPart] at stops
  cases part : Eng.sketchNext m s with
  | ok a v => rw [part] at stops; cases stops
  | error halt v =>
    rw [part] at stops
    cases halt with
    | wait cond => cases stops
    | stop trap => cases stops; exact Eng.sketchNext_haltsAccessed _ _ _ _ part

end Sys2Proof.Machine

section
open Sys2Proof Sys2Proof.Machine

/-- Settles O49: a stop, and a demand fill, is made after accesses alone (`State.Accessed`), which leave the commands of every queue
and the pending traps; the trap of a stop joins these at the rank of its queue. -/
theorem boundsAndFills : Obligations.BoundsAndFills := by
  unfold Obligations.BoundsAndFills
  intro s u f q m r t c
  refine ⟨fun exhausted area => ?_, fun runs => ?_, fun runs stops begun cause hardware => ?_⟩
  · obtain ⟨w, x, accessed, stopped, seq, instr⟩ := exhausted.boundStop_stops area
    have rest : (w.core.queue q).cmds.tail.map Cmd.bare = r.map Cmd.bare := by
      obtain ⟨head, -⟩ := exhausted
      rw [List.map_tail, accessed.core.commands q, head, List.map_cons, List.tail_cons]
    have front : (s.boundStop q).core.num = s.core.num := by
      rw [stopped]
      exact (Core.stopHead_num ..).trans accessed.front
    refine ⟨s.boundStop q, x.stoppedAt w.core.meter, s.awaited q, makes_of_onCore rfl rfl front, ?_, rfl, seq, instr,
      w.core.pending, accessed.core.pending, ?_⟩
    · rw [stopped, State.mapCore_core, Core.stopHead_cmds, List.map_cons, List.map_cons, rest]
    · rw [stopped, State.mapCore_core, Core.stopHead_pending]
      rfl
  · have stays : s.boundStop q = s := by simp only [State.boundStop, runs.overrun_eq]
    exact makes_of_onCore rfl stays rfl
  · have accessed : s.Accessed (u.demandFill t.info0).1 := (runs.nextStop_accessed stops).demandFill _
    have served : s.servedByHub t = true := by
      rw [State.servedByHub, cause]
      exact hardware
    refine ⟨fun filled => ⟨?_, ?_⟩, fun falls => ?_⟩
    · rw [filled] at accessed
      have goesOn : s.fillFor .k = f := by simp [State.fillFor, stops, begun, served, filled, State.afterFill]
      exact makes_of_onCore rfl goesOn accessed.front
    · have stays : s.sketchStop = s := by simp [State.sketchStop, stops, begun, served]
      exact makes_of_onCore rfl stays rfl
    · rw [falls] at accessed
      have stopped : s.fillFor .k = f.mapCore fun d => d.stopHead .k m t := by
        simp [State.fillFor, stops, begun, served, falls, State.stopWith]
      exact makes_of_onCore rfl stopped accessed.front
end
end
